-- ==== Sys2Proof/Word.lean ====
section
/-! DEFINITION. The fixed widths of the block (00_scope.md R7): 8-bit register values, 16-bit Data words,
32-bit counts, handles and descriptor words. -/

namespace Sys2Proof

/-- An 8-bit quantity: a taskfile register value, a code, a packet byte (R7). -/
abbrev Byte := BitVec 8

/-- A 16-bit Data register word, a register mask (R7, R35). -/
abbrev Half := BitVec 16

/-- A 32-bit quantity: a byte count, a position, a handle, a descriptor word (R7, R110). -/
abbrev Word := BitVec 32

end Sys2Proof
end

