-- ==== Sys2Proof/Syntax.lean ====
section
/-! DEFINITION. The instructions: one constructor per row of spec/opcode_table.json, 27 rows of command
descriptors (30_encoding.md) and 5 gate actions (R128), and the operands they carry. -/

namespace Sys2Proof

/-- The nine flags of a command, in the order of Table FL (R38): bit `i` of the flag set is the `i`-th field. -/
structure Flags where
  imm   : Bool
  dma   : Bool
  rd    : Bool
  wr    : Bool
  atapi : Bool
  noirq : Bool
  lba48 : Bool
  tfa   : Bool
  tfres : Bool
deriving DecidableEq, Repr

/-- The taskfile register block of a command (Table C1, R35). -/
structure Taskfile where
  feat  : Byte
  scnt  : Byte
  snum  : Byte
  cylLo : Byte
  cylHi : Byte
  dh    : Byte
  cmd   : Byte
  ctl   : Byte
  data  : Half
deriving DecidableEq, Repr

/-- The extended-LBA block: the high-order bytes of the five two-byte registers (R35, R132). -/
structure ExtLba where
  featHi  : Byte
  scntHi  : Byte
  snumHi  : Byte
  cylLoHi : Byte
  cylHiHi : Byte
deriving DecidableEq, Repr

/-- What the host may choose of a command's 80-byte descriptor (Table DL, R112): the input words W0 to W16 and the
three write-back bytes it may leave at any value (state, endStatus, endError; Table C2, R36). The other write-back
fields have one value at submission (result Unset, actual 0, inUse 0; R56), so they are no operands. `pkt` holds the
packet bytes of W13 to W16, byte `k` in its bits `8k+7 : 8k`. -/
structure Desc where
  opcode    : Byte
  unit      : Byte
  flags     : Flags
  regMask   : Half
  pktLen    : Byte
  timeoutMs : Word
  byteCount : Word
  position  : Word
  chunk     : Word
  buf       : Word
  cb        : Word
  tf        : Taskfile
  ext       : ExtLba
  pkt       : BitVec 128
  state     : Byte
  endStatus : Byte
  endError  : Byte
deriving DecidableEq, Repr

/-- The two formats of spec/opcode_table.json. -/
inductive Format where
  | descriptor
  | event
deriving DecidableEq, Repr

/-- The packet-delivery mode of an ATAPI unit (R27). -/
inductive PMode where
  | irqFirst       -- the drive asserts IRQ before accepting the packet
  | drqImmediate   -- the drive accepts the packet immediately on DRQ
deriving DecidableEq, Repr

/-- The instructions. A descriptor row is "the host submits a new command holding these words" (R160, R407); the
fields its row fixes are taken from the row (`Instr.desc`), the others from `d`. Base rows stand before their variants
as in the table. -/
inductive Instr where
  -- base rows (R140) and reclassification rows (R145)
  | execio (d : Desc)
  | atapiExecio (d : Desc)
  | regacc (d : Desc)
  | qflush (d : Desc)
  | busreset (d : Desc)
  | execioReset08 (d : Desc)
  | atapiExecioReset08 (d : Desc)
  | opUnknown (d : Desc)
  -- variants of EXECIO (R141)
  | execioAtaNd (d : Desc)
  | execioAtaPioRd (d : Desc)
  | execioAtaPioWr (d : Desc)
  | execioAtaDmaRd (d : Desc)
  | execioAtaDmaWr (d : Desc)
  | execioAtapiNd (d : Desc)
  | execioAtapiPioRd (d : Desc)
  | execioAtapiPioWr (d : Desc)
  | execioAtapiDmaRd (d : Desc)
  | execioAtapiDmaWr (d : Desc)
  -- variants of ATAPI.EXECIO (R141)
  | atapiExecioNd (d : Desc)
  | atapiExecioPioRd (d : Desc)
  | atapiExecioPioWr (d : Desc)
  | atapiExecioDmaRd (d : Desc)
  | atapiExecioDmaWr (d : Desc)
  -- variants of REGACC (R143) and of BUSRESET (R142)
  | regaccRd (d : Desc)
  | regaccWr (d : Desc)
  | busresetAta (d : Desc)
  | busresetAtapi (d : Desc)
  -- gate actions (R128): SUBMIT's command (a reference in the descriptor store, or null) and whether its target is
  -- non-null (R160); CONFIG's unit and mode (R292)
  | submit (cmd : Option Word) (target : Bool)
  | irq
  | expire
  | scan
  | config (unit : Byte) (pmode : PMode)
deriving DecidableEq, Repr

end Sys2Proof
end

