-- ==== Sys2Proof/Config.lean ====
section
/-! DEFINITION. The parameters of 00_scope.md Table P: the fixed ones as constants, the OPEN and changeable ones as the
record `Params`, and the free values that stand for answers nobody scripted. -/

namespace Sys2Proof.Config

/-- `DBUF_SECTORS * SECTOR_BYTES` (Table P): the Double Buffer's size in bytes. -/
def dbufBytes : Nat := 8 * 512

/-- `T_RESET_MAX` (Table P), us. -/
def tResetMax : Nat := 31000000

/-- `CMD_DEVICE_RESET` (Table P). -/
def cmdDeviceReset : Byte := 0x08#8

/-- `CMD_IDENTIFY_PACKET` (Table P). -/
def cmdIdentifyPacket : Byte := 0xA1#8

/-- `DIAG_EXEMPT` (Table P): the two commands exempted from the READY requirement (R204). -/
def diagExempt (cmd : Byte) : Bool := cmd == 0x90#8 || cmd == 0x91#8

/-- `SIG_ATAPI` (Table P): (cylinder low, cylinder high). -/
def sigAtapi : Byte × Byte := (0x14#8, 0xEB#8)

/-- `SIG_ATA` (Table P): (sector count, sector number, cylinder low, cylinder high). -/
def sigAta : Byte × Byte × Byte × Byte := (0x01#8, 0x01#8, 0x00#8, 0x00#8)

/-- The configuration record `P` of R6: its OPEN fields and the decided ones a platform may change (U12 and the list at the
end of 92_eei_decisions.md). Times in us; `identWords` is the number of words a successful probe drains (R225). The two
constraints of U12 (`T_POLL > 0`, `T_SRST_HOLD >= 5 us`) are part of the record. -/
structure Params where
  nPostSel     : Nat
  tSelFail     : Nat
  tSrstHold    : Nat
  tSettle      : Nat
  nScan        : Nat
  nProbe       : Nat
  nPkt         : Nat
  identWords   : Nat
  tPoll        : Nat
  attached0    : Bool
  attached1    : Bool
  pmodeDefault : PMode
  tPoll_pos    : 0 < tPoll
  tSrstHold_ge : 5 ≤ tSrstHold
deriving DecidableEq, Repr

/-- The defaults of Table P; `attached` as in 95_test_vectors.md (entry 6). -/
def Params.default : Params where
  nPostSel := 10
  tSelFail := 1000000
  tSrstHold := 100
  tSettle := 2000
  nScan := 3100
  nProbe := 1000
  nPkt := 3
  identWords := 256
  tPoll := 10000
  attached0 := true
  attached1 := true
  pmodeDefault := .drqImmediate
  tPoll_pos := by decide
  tSrstHold_ge := by decide

/-- `N_RESET = T_RESET_MAX / T_POLL` (Table P). -/
def Params.nReset (p : Params) : Nat := tResetMax / p.tPoll

/-- FREE VALUE (entry 4): what an 8-bit port read returns when nothing is scripted (U1), by draw number. -/
opaque freeByte : Nat → Byte

/-- FREE VALUE (entry 4): what a 16-bit Data read returns when nothing is scripted (U1), by draw number. -/
opaque freeHalf : Nat → Half

/-- FREE VALUE (entry 4): the result code number a DMA hook returns when nothing is scripted (U6), by draw number; its
remainder by 11 picks one of the eleven codes of R126. -/
opaque freeResult : Nat → Nat

/-- FREE VALUE (entry 4): the overshoot of a sleep when nothing is scripted (U7), by draw number. -/
opaque freeOvershoot : Nat → Nat

end Sys2Proof.Config
end

