-- ==== Sys2Proof/Machine/State.lean ====
section
/-! DEFINITION. The state of the block: the engine record E (10_state.md R20 to R31), the command records (R34 to R37),
the host's buffers, the configuration record and the clock, and the environment's draws; the reset state (R55, R400); the
ways a step can stop. -/

namespace Sys2Proof.Machine

/-- `E.bus` (R21). -/
inductive Bus where
  | free | busy
deriving DecidableEq, Repr

/-- `E.qstate` (R22): Open or Locked. -/
inductive QState where
  | opened | locked
deriving DecidableEq, Repr

/-- `E.igate` (R23), the Immediate Gate: Closed or Open. -/
inductive Gate where
  | closed | opened
deriving DecidableEq, Repr

/-- The two devices of the bus (`N_UNITS`, Table P). -/
inductive UnitId where
  | u0 | u1
deriving DecidableEq, Repr

/-- The type of a device (R27). -/
inductive DevType where
  | ata | atapi | unknown
deriving DecidableEq, Repr

/-- `E.devInfo[u]` (R27). -/
structure DevInfo where
  type  : DevType
  pmode : PMode
deriving DecidableEq, Repr

/-- `E.timer` (R28). -/
structure Timer where
  armed    : Bool
  deadline : Nat
deriving DecidableEq, Repr

/-- The nine register indices of Table RG (R71). -/
inductive Reg where
  | data | errfeat | scnt | snum | cyllo | cylhi | devhead | statcmd | altctl
deriving DecidableEq, Repr

/-- Result codes (Table RC, R126), the marker Unset among them. -/
inductive Result where
  | noError | invalidArgument | deviceBusy | deviceError | timeout | unsupported | protocolInconsistent | offline
  | cancelled | queueEmpty | unset
deriving DecidableEq, Repr

/-- Event kinds of a callout (R130). -/
inductive EvKind where
  | ataReset | atapiReset
deriving DecidableEq, Repr

/-- A command record (Tables C1, C2; R35, R36): the fields the host supplies and the working fields. -/
structure Command extends Desc where
  result : Result
  actual : Word
  inUse  : Bool
deriving DecidableEq, Repr

/-- An arbiter snapshot (R29); commands are references into the descriptor store (R45). -/
structure Snapshot where
  current : Option Nat
  bus     : Bus
  qstate  : QState
  igate   : Gate
deriving DecidableEq, Repr

/-- The port events of the trace (R61). A command is named by its reference; the event kind and the unit of a callout are the
codes its handler is given (R130, R114). -/
inductive Event where
  | r8 (r : Reg) (v : Byte)
  | w8 (r : Reg) (v : Byte)
  | r16 (v : Half)
  | w16 (v : Half)
  | r8d (v : Byte)
  | w8d (v : Byte)
  | bar
  | sleep (d : Nat)
  | timing (u : UnitId)
  | startDma (res : Result)
  | stopDma (res : Result)
  | arm (d : Nat)
  | disarm
  | memRd (buf : Word) (off n : Nat)
  | memWr (buf : Word) (off n : Nat) (bytes : List Byte)
  | notify (handler : UnitId) (ev about : Byte)
  | callback (c : Nat) (res : Result)
deriving DecidableEq, Repr

/-- The draws still to come (R10; entry 4), each a script read from its head: 8-bit port reads by register (index 0 is
the 8-bit Data access), 16-bit Data reads, hook results, sleep overshoots. `drawn` counts the free values used. -/
structure Env where
  data8     : List Byte
  errfeat   : List Byte
  scnt      : List Byte
  snum      : List Byte
  cyllo     : List Byte
  cylhi     : List Byte
  devhead   : List Byte
  statcmd   : List Byte
  altctl    : List Byte
  data16    : List Half
  startDma  : List Result
  stopDma   : List Result
  overshoot : List Nat
  drawn     : Nat
deriving DecidableEq, Repr

/-- A submission the host makes inside a callback or a handler (entry 5): the words of the command, and the record that
takes them, one of its own that it uses again ("may resubmit `c` itself", R89) or, with none, a new one. -/
structure HostSubmit where
  reuse : Option Nat
  desc  : Desc
deriving DecidableEq, Repr

/-- What happens outside the gate between two actions (entry 22): a reset of the block (R400, R403); the host provides a
buffer of a length, writes bytes of a buffer, or fills a command record it owns, or the next new one (R391, R407). -/
inductive OutsideAct where
  | reset
  | provide (buf : Word) (len : Nat)
  | fill (buf : Word) (off : Nat) (bytes : List Byte)
  | prepare (id : Nat) (d : Desc)
deriving DecidableEq, Repr

/-- A gate action waiting to be admitted (entry 7): what happens outside the gate before it, the time the environment lets
pass (R9), and its image. -/
structure Admission where
  acts   : List OutsideAct
  wait   : Nat
  format : Format
  bytes  : List Byte
deriving DecidableEq, Repr

/-- What the last top-level action returned to its caller (entry 15): SUBMIT's status (R160), SCAN's count (R228). -/
inductive Return where
  | nothing
  | status (r : Result)
  | count (n : Nat)
deriving DecidableEq, Repr

/-- Stops that report a condition of the machine. -/
inductive Fault where
  /-- Raised by IRQ when the current command is about to poll for DRQ with the timer disarmed: a loop with no bound
  (R302: no rule of the spec calls it so). No reachable state has it (R335). Safe. -/
  | unboundedPoll
deriving DecidableEq, Repr

/-- Inputs the model does not accept. -/
inductive Refusal where
  /-- Raised by `exec` for a row of the table that has no meaning yet; the argument is its mnemonic. Safe. -/
  | notModelled (mnemonic : String)
  /-- Raised by `step` for bytes that decode to no instruction. Safe. -/
  | undecodable
  /-- Raised by every submission of a command that breaks R150 (U3: refuse), the buffer part of W6 included. Safe. -/
  | illFormedCommand
  /-- Raised by SUBMIT of a command record with `inUse = 1`, by an action in which the host submits one inside a callback or
  a handler, and by `step` when the host fills one (R160, U4: refuse). Safe. -/
  | commandInUse
  /-- Raised by SUBMIT, nested ones included, and by `step` when the host fills a record, for a reference that names no
  command record. Safe. -/
  | noSuchCommand
  /-- Raised by an action in which the host submits, inside a callback or a handler, a command that breaks R150: a model's
  SUBMIT precondition is well-formedness (U3: refuse; U11: "well-formed commands"). Safe. -/
  | hostScriptIllFormed
  /-- Raised by an action that can move data when the host's buffer does not cover what a command in flight still has
  to transfer (U5: refuse), and by `step` when the host writes bytes no buffer of its own covers. Safe. -/
  | bufferExtent
  /-- Raised by `step` when the host writes bytes that a command in flight still has to transfer (R95, U4: refuse).
  Safe. -/
  | bufferInUse
  /-- Raised by EXPIRE when it is not enabled (R336: no EXPIRE occurs then). Safe. -/
  | expireNotEnabled
  /-- Raised by SCAN while a command is current or a callout is in progress (R220, U8: refuse). Safe. -/
  | scanNotAdmitted
  /-- Raised by CONFIG for a unit other than 0 and 1 (R292, U8: refuse). Safe. -/
  | configUnit
deriving DecidableEq, Repr

/-- The state of the machine. -/
structure State where
  -- the engine record E
  bus      : Bus
  qstate   : QState
  igate    : Gate
  current  : Option Nat
  queue    : List Nat
  selected : Option UnitId
  devInfo0 : DevInfo
  devInfo1 : DevInfo
  timer    : Timer
  snap     : List Snapshot
  irqEn    : Bool
  dbuf     : List Byte
  traceRev : List Event
  -- the configuration record, the clock, the descriptor store and the host's buffers
  params   : Config.Params
  now      : Nat
  cmds     : List Command
  mem      : List Host.Cell
  bufs     : List (Word × Nat)
  -- the environment and the outputs (the model's own fields)
  env      : Env
  host     : List (List HostSubmit)
  breach   : Option Refusal   -- the refusal that the running action has come to (entry 5); none between actions
  inbox    : List Admission
  ret      : Return
deriving DecidableEq, Repr

/-- Nothing scripted. -/
def Env.empty : Env where
  data8 := []
  errfeat := []
  scnt := []
  snum := []
  cyllo := []
  cylhi := []
  devhead := []
  statcmd := []
  altctl := []
  data16 := []
  startDma := []
  stopDma := []
  overshoot := []
  drawn := 0

/-- Reset (Table RS, R55, R400). `timer.deadline`, `dbuf` and `now` have no value in the spec: entries 1, 2, 3. -/
def State.reset : State where
  bus := .free
  qstate := .opened
  igate := .closed
  current := none
  queue := []
  selected := none
  devInfo0 := ⟨.unknown, Config.Params.default.pmodeDefault⟩
  devInfo1 := ⟨.unknown, Config.Params.default.pmodeDefault⟩
  timer := ⟨false, 0⟩
  snap := []
  irqEn := false
  dbuf := List.replicate Config.dbufBytes 0#8
  traceRev := []
  params := Config.Params.default
  now := 0
  cmds := []
  mem := []
  bufs := []
  env := Env.empty
  host := []
  breach := none
  inbox := []
  ret := .nothing

end Sys2Proof.Machine
end

