-- ==== Sys2Proof/Machine/Memory.lean ====
section
/-! DEFINITION. The command data buffers (20_memory.md R70(3), R80): one byte space per handle, held as one list of
(address, byte) pairs in canonical form (addresses strictly rising, no entry equal to what an unlisted byte reads as). -/

namespace Sys2Proof.Machine.Memory

/-- The address of byte `off` of the buffer with handle `h`: each handle owns 2^32 addresses (W6 keeps offsets below). -/
def addr (h : Word) (off : Nat) : Nat := h.toNat * 2 ^ 32 + off

/-- What an unlisted byte reads as (entry 14). -/
def unlisted : Byte := 0#8

/-- Read one byte. -/
def get : List Host.Cell → Nat → Byte
  | [], _ => unlisted
  | (b, v) :: rest, a => if b = a then v else get rest a

/-- List a byte unless it is what an unlisted byte reads as. -/
def consCell (a : Nat) (v : Byte) (m : List Host.Cell) : List Host.Cell :=
  if v = unlisted then m else (a, v) :: m

/-- Write one byte, keeping the canonical form. -/
def set : List Host.Cell → Nat → Byte → List Host.Cell
  | [], a, v => consCell a v []
  | (b, w) :: rest, a, v =>
    if a < b then consCell a v ((b, w) :: rest)
    else if a = b then consCell a v rest
    else (b, w) :: set rest a v

/-- Read `n` bytes from address `a` on. -/
def getBytes (m : List Host.Cell) (a : Nat) : Nat → List Byte
  | 0 => []
  | n + 1 => get m a :: getBytes m (a + 1) n

/-- Write the bytes from address `a` on. -/
def setBytes (m : List Host.Cell) (a : Nat) : List Byte → List Host.Cell
  | [] => m
  | v :: vs => setBytes (set m a v) (a + 1) vs

/-- The canonical form, every address above `lo`. -/
def wfFrom : Nat → List Host.Cell → Bool
  | _, [] => true
  | lo, (a, v) :: rest => decide (lo ≤ a) && v != unlisted && wfFrom (a + 1) rest

/-- The canonical form holds. -/
def wf (m : List Host.Cell) : Bool := wfFrom 0 m

end Sys2Proof.Machine.Memory
end

