-- ==== Sys2Proof/Machine/Flags.lean ====
section
/-! DEFINITION. The condition bits of the block (10_state.md R40, R41, R44): the device status bits, the Device Control
bits, and the success and abort tests of the polling loops. -/

namespace Sys2Proof.Machine

/-- BSY, bit 7 of Status and Alternate Status (R40). -/
def bsy (v : Byte) : Bool := v.getLsbD 7

/-- DRDY (READY), bit 6 (R40). -/
def drdy (v : Byte) : Bool := v.getLsbD 6

/-- DRQ, bit 3 (R40). -/
def drq (v : Byte) : Bool := v.getLsbD 3

/-- ERR (ERROR), bit 0 (R40). -/
def err (v : Byte) : Bool := v.getLsbD 0

/-- Device Control with every bit clear: nIEN = 0, SRST = 0, HOB = 0 (R41). -/
def ctlClear : Byte := 0x00#8

/-- Device Control nIEN, bit 1 (R41). -/
def ctlNIen : Byte := 0x02#8

/-- Device Control SRST, bit 2 (R41). -/
def ctlSrst : Byte := 0x04#8

/-- Device Control HOB, bit 7 (R41). -/
def ctlHob : Byte := 0x80#8

/-- `irqEn` after a write of `v` to Device Control: the complement of nIEN, bit 1 (R30, R276). -/
def irqEnOf (v : Byte) : Bool := !v.getLsbD 1

/-- Pre-select success: `(s & (BSY|DRQ)) = 0` (R203). -/
def okPreSelect (v : Byte) : Bool := !bsy v && !drq v

/-- Post-select and post-reset success: BSY = 0 and, where required, DRDY = 1 (R204, R213). -/
def okReady (needRdy : Bool) (v : Byte) : Bool := !bsy v && (!needRdy || drdy v)

/-- Success of the scan and probe polls: BSY = 0 (R221, R222, R225). -/
def okNotBusy (v : Byte) : Bool := !bsy v

/-- Success of the DRQ waits: BSY = 0, DRQ = 1, ERR = 0 (R262, R303). -/
def okData (v : Byte) : Bool := !bsy v && drq v && !err v

/-- The device error of a DRQ wait: BSY = 0 and ERR = 1 (R262, R303). -/
def dataError (v : Byte) : Bool := !bsy v && err v

/-- "Real response data" of the probe: DRQ = 1 and ERR = 0 in the final sample (R225). -/
def probeHasData (v : Byte) : Bool := drq v && !err v

end Sys2Proof.Machine
end

