-- ==== Sys2Proof/Machine/Operands.lean ====
section
/-! DEFINITION. The operands of a command: codes, derived predicates (R39), register indices (R71), the two-byte registers
(R132), the packet words (R135), the ATAPI byte count (R133), the timeout (R134), the device-select value (R136). -/

namespace Sys2Proof.Machine

/-! ## Codes -/

/-- Opcode codes (R113). -/
def opExecIO : Byte := 0x01#8
@[inherit_doc opExecIO] def opAtapiExecIO : Byte := 0x02#8
@[inherit_doc opExecIO] def opRegisterAccess : Byte := 0x03#8
@[inherit_doc opExecIO] def opQueueFlush : Byte := 0x04#8
@[inherit_doc opExecIO] def opBusReset : Byte := 0x05#8

/-- ExecIO or ATAPI-ExecIO (R140). -/
def isExecOp (op : Byte) : Bool := op == opExecIO || op == opAtapiExecIO

/-- Values of the phase register (R37, R123). -/
def phInitial : Byte := 0#8
@[inherit_doc phInitial] def phStarted : Byte := 1#8
@[inherit_doc phInitial] def phPacketIssue : Byte := 2#8
@[inherit_doc phInitial] def phDataTransfer : Byte := 3#8
@[inherit_doc phInitial] def phStatus : Byte := 4#8
@[inherit_doc phInitial] def phComplete : Byte := 5#8
@[inherit_doc phInitial] def phDone : Byte := 6#8

/-- The code of a result (Table RC, R126). -/
def Result.code : Result → Byte
  | .noError => 0x00#8
  | .invalidArgument => 0x01#8
  | .deviceBusy => 0x02#8
  | .deviceError => 0x03#8
  | .timeout => 0x04#8
  | .unsupported => 0x05#8
  | .protocolInconsistent => 0x06#8
  | .offline => 0x07#8
  | .cancelled => 0x08#8
  | .queueEmpty => 0x09#8
  | .unset => 0xFF#8

/-- The eleven codes by number, for a free hook result (entry 4). -/
def Result.byNumber (n : Nat) : Result :=
  match n % 11 with
  | 0 => .noError
  | 1 => .invalidArgument
  | 2 => .deviceBusy
  | 3 => .deviceError
  | 4 => .timeout
  | 5 => .unsupported
  | 6 => .protocolInconsistent
  | 7 => .offline
  | 8 => .cancelled
  | 9 => .queueEmpty
  | _ => .unset

/-- The index of a register (Table RG, R71). -/
def Reg.index : Reg → Nat
  | .data => 0
  | .errfeat => 1
  | .scnt => 2
  | .snum => 3
  | .cyllo => 4
  | .cylhi => 5
  | .devhead => 6
  | .statcmd => 7
  | .altctl => 8

/-- The unit a `unit` field names (R114); none for an invalid unit. -/
def UnitId.ofByte (u : Byte) : Option UnitId :=
  if u == 0#8 then some .u0 else if u == 1#8 then some .u1 else none

/-- The code of a unit in a `unit` field (R114). -/
def UnitId.code : UnitId → Byte
  | .u0 => 0x00#8
  | .u1 => 0x01#8

/-- `NoUnit`: the unit argument of a callout that is about the whole bus (R114). -/
def noUnit : Byte := 0xFF#8

/-- The unit argument of `notify` (R114, R130). -/
def unitArgument : Option UnitId → Byte
  | some u => u.code
  | none => noUnit

/-- Event kinds of `notify` (R130). -/
def EvKind.code : EvKind → Byte
  | .ataReset => 1#8
  | .atapiReset => 2#8

/-- The device-select value `unit << 4` (R42, R136). -/
def UnitId.selectValue : UnitId → Byte
  | .u0 => 0x00#8
  | .u1 => 0x10#8

/-! ## Derived predicates (R39) -/

/-- `isATAPI(c)`. -/
def isATAPI (c : Command) : Bool := c.flags.atapi

/-- `hasPacket(c)`. -/
def hasPacket (c : Command) : Bool := c.flags.atapi && c.pktLen != 0#8

/-- `isPIOData(c)`. -/
def isPIOData (c : Command) : Bool := (c.flags.rd || c.flags.wr) && !c.flags.dma

/-- `isPIOWriteATA(c)`. -/
def isPIOWriteATA (c : Command) : Bool := c.flags.wr && !c.flags.dma && !c.flags.atapi

/-- `remaining = byteCount - actual` (R301, R14). -/
def remaining (c : Command) : Nat := c.byteCount.toNat - c.actual.toNat

/-- The command's timeout in us (R134). -/
def timeoutUs (c : Command) : Nat := c.timeoutMs.toNat * 1000

/-- READY is required after selection: an ATA unit, opcode ExecIO (0x01), a command byte not exempted (R204). -/
def needReady (ty : DevType) (c : Command) : Bool :=
  ty == .ata && c.opcode == opExecIO && !Config.diagExempt c.tf.cmd

/-- Bit `i` of the register mask (R118). -/
def masked (c : Command) (r : Reg) : Bool := c.regMask.getLsbD r.index

/-! ## The five two-byte registers (R132) -/

/-- The five registers that take two bytes under `flags.lba48`. -/
inductive TwoByte where
  | feat | scnt | snum | cylLo | cylHi
deriving DecidableEq, Repr

/-- In the order of the taskfile and of R276. -/
def TwoByte.all : List TwoByte := [.feat, .scnt, .snum, .cylLo, .cylHi]

/-- Its register index. -/
def TwoByte.reg : TwoByte → Reg
  | .feat => .errfeat
  | .scnt => .scnt
  | .snum => .snum
  | .cylLo => .cyllo
  | .cylHi => .cylhi

/-- Its low-order byte, of the taskfile block. -/
def TwoByte.lo (t : TwoByte) (c : Command) : Byte :=
  match t with
  | .feat => c.tf.feat
  | .scnt => c.tf.scnt
  | .snum => c.tf.snum
  | .cylLo => c.tf.cylLo
  | .cylHi => c.tf.cylHi

/-- Its high-order byte, of the extended-LBA block. -/
def TwoByte.hi (t : TwoByte) (c : Command) : Byte :=
  match t with
  | .feat => c.ext.featHi
  | .scnt => c.ext.scntHi
  | .snum => c.ext.snumHi
  | .cylLo => c.ext.cylLoHi
  | .cylHi => c.ext.cylHiHi

/-- Store a low-order byte. -/
def TwoByte.setLo (t : TwoByte) (v : Byte) (c : Command) : Command :=
  match t with
  | .feat => { c with tf := { c.tf with feat := v } }
  | .scnt => { c with tf := { c.tf with scnt := v } }
  | .snum => { c with tf := { c.tf with snum := v } }
  | .cylLo => { c with tf := { c.tf with cylLo := v } }
  | .cylHi => { c with tf := { c.tf with cylHi := v } }

/-- Store a high-order byte. -/
def TwoByte.setHi (t : TwoByte) (v : Byte) (c : Command) : Command :=
  match t with
  | .feat => { c with ext := { c.ext with featHi := v } }
  | .scnt => { c with ext := { c.ext with scntHi := v } }
  | .snum => { c with ext := { c.ext with snumHi := v } }
  | .cylLo => { c with ext := { c.ext with cylLoHi := v } }
  | .cylHi => { c with ext := { c.ext with cylHiHi := v } }

/-! ## Packet and data words -/

/-- Packet byte `k` (W13 to W16, Table DL). -/
def pktByte (c : Command) (k : Nat) : Byte := c.pkt.extractLsb' (8 * k) 8

/-- The packet words: word `k` = `pkt[2k+1] ++ pkt[2k]`, `pktLen / 2` of them (R135, R264). -/
def packetWords (c : Command) : List Half :=
  (List.range (c.pktLen.toNat / 2)).map (fun k => pktByte c (2 * k + 1) ++ pktByte c (2 * k))

/-- The two buffer bytes of a Data word, low byte at the lower offset (R81). -/
def wordBytes (w : Half) : List Byte := [w.extractLsb' 0 8, w.extractLsb' 8 8]

/-- `devCount = hi * 256 + lo` (R133, R306). -/
def devCount (lo hi : Byte) : Nat := hi.toNat * 256 + lo.toNat

end Sys2Proof.Machine
end

