-- ==== Sys2Proof/WellFormed.lean ====
section
/-! DEFINITION. Well-formedness: of a command as R150 asks it (`Desc.legal`), and of an instruction as a term, that is,
that it is written in its own row of the table with operands its encoding admits (`Instr.wellFormed`). -/

namespace Sys2Proof

/-- The transfer modes of R141. -/
inductive Mode where
  | nd | pioRd | pioWr | dmaRd | dmaWr
deriving DecidableEq, Repr

/-- The mode that `dma`, `rd`, `wr` select (R141); none for the combinations R150 W1 and W2 exclude. -/
def Flags.mode (f : Flags) : Option Mode :=
  match f.dma, f.rd, f.wr with
  | false, false, false => some .nd
  | false, true,  false => some .pioRd
  | false, false, true  => some .pioWr
  | true,  true,  false => some .dmaRd
  | true,  false, true  => some .dmaWr
  | _,     true,  true  => none
  | true,  false, false => none

/-- W1 (R150): not both directions. -/
def Desc.w1 (d : Desc) : Bool := !(d.flags.rd && d.flags.wr)

/-- W2 (R150): DMA has a direction. -/
def Desc.w2 (d : Desc) : Bool := !d.flags.dma || d.flags.rd || d.flags.wr

/-- W3 (R150): the packet length is even and at most 16, and only a packet command has one. -/
def Desc.w3 (d : Desc) : Bool :=
  d.pktLen.toNat % 2 == 0 && d.pktLen.toNat ≤ 16 && (d.pktLen == 0#8 || d.flags.atapi)

/-- W4 (R150): a command with `isPIOData` and without `flags.atapi` has `chunk > 0`, whatever its opcode but one: the spec's
own RegisterAccess writes have `flags.wr` and no chunk (V-REG-2, V-REG-6, V-REG-7). DEDUCED (entry 10). -/
def Desc.w4 (d : Desc) : Bool :=
  d.opcode == 0x03#8 || !(d.flags.rd || d.flags.wr) || d.flags.dma || d.flags.atapi || d.chunk != 0#32

/-- W6 (R150), the part that is the command's own: `position + byteCount < 2^32`. -/
def Desc.w6 (d : Desc) : Bool := d.position.toNat + d.byteCount.toNat < 2 ^ 32

/-- W7 (R150), for the reserved bits a command record holds: regMask bits 15:9 (the decoder rejects the others). -/
def Desc.w7 (d : Desc) : Bool := d.regMask >>> 9 == 0#16

/-- W8 (R150): for ExecIO and ATAPI-ExecIO with a valid unit, `tf.dh[4] = unit`. -/
def Desc.w8 (d : Desc) : Bool :=
  !(d.opcode == 0x01#8 || d.opcode == 0x02#8) || !(d.unit == 0#8 || d.unit == 1#8)
    || (d.tf.dh.getLsbD 4 == d.unit.getLsbD 0)

/-- W9 (R150): opcode ATAPIExecIO carries the atapi flag. -/
def Desc.w9 (d : Desc) : Bool := !(d.opcode == 0x02#8) || d.flags.atapi

/-- Well-formedness of a command (R150), as far as the command itself shows it: W5 has one possible value here, and the
buffer part of W6 needs the state (`State.covers`). An unknown opcode and an invalid unit are not ill-formed. -/
def Desc.legal (d : Desc) : Bool := d.w1 && d.w2 && d.w3 && d.w4 && d.w6 && d.w7 && d.w8 && d.w9

/-- `tf.cmd = CMD_DEVICE_RESET`, the reclassification test (R145). -/
def Desc.isReset08 (d : Desc) : Bool := d.tf.cmd == Config.cmdDeviceReset

/-- A variant row of an ExecIO opcode: its opcode, protocol and mode, and no reclassification. -/
def Desc.inExecRow (op : Byte) (atapi : Bool) (m : Mode) (d : Desc) : Bool :=
  d.opcode == op && !d.isReset08 && d.flags.atapi == atapi && d.flags.mode == some m

/-- The instruction is written in its own row: the fields the row fixes have the row's values, and no narrower row of
the table takes the descriptor (entry 9); for CONFIG the unit is 0 or 1 (R292). -/
def Instr.wellFormed : Instr → Bool
  | .execio d => d.opcode == 0x01#8 && !d.isReset08 && d.flags.mode == none
  | .atapiExecio d => d.opcode == 0x02#8 && !d.isReset08 && (d.flags.mode == none || !d.flags.atapi)
  | .regacc d => d.opcode == 0x03#8 && d.flags.mode == none
  | .qflush d => d.opcode == 0x04#8
  | .busreset d => d.opcode == 0x05#8 && d.flags.mode == none
  | .execioReset08 d => d.opcode == 0x01#8 && d.isReset08
  | .atapiExecioReset08 d => d.opcode == 0x02#8 && d.isReset08
  | .opUnknown d => d.opcode == 0x00#8 || 0x05#8 < d.opcode
  | .execioAtaNd d => d.inExecRow 0x01#8 false .nd
  | .execioAtaPioRd d => d.inExecRow 0x01#8 false .pioRd
  | .execioAtaPioWr d => d.inExecRow 0x01#8 false .pioWr
  | .execioAtaDmaRd d => d.inExecRow 0x01#8 false .dmaRd
  | .execioAtaDmaWr d => d.inExecRow 0x01#8 false .dmaWr
  | .execioAtapiNd d => d.inExecRow 0x01#8 true .nd
  | .execioAtapiPioRd d => d.inExecRow 0x01#8 true .pioRd
  | .execioAtapiPioWr d => d.inExecRow 0x01#8 true .pioWr
  | .execioAtapiDmaRd d => d.inExecRow 0x01#8 true .dmaRd
  | .execioAtapiDmaWr d => d.inExecRow 0x01#8 true .dmaWr
  | .atapiExecioNd d => d.inExecRow 0x02#8 true .nd
  | .atapiExecioPioRd d => d.inExecRow 0x02#8 true .pioRd
  | .atapiExecioPioWr d => d.inExecRow 0x02#8 true .pioWr
  | .atapiExecioDmaRd d => d.inExecRow 0x02#8 true .dmaRd
  | .atapiExecioDmaWr d => d.inExecRow 0x02#8 true .dmaWr
  | .regaccRd d => d.opcode == 0x03#8 && d.flags.mode != none && !d.flags.wr
  | .regaccWr d => d.opcode == 0x03#8 && d.flags.mode != none && d.flags.wr
  | .busresetAta d => d.opcode == 0x05#8 && d.flags.mode != none && !d.flags.atapi
  | .busresetAtapi d => d.opcode == 0x05#8 && d.flags.mode != none && d.flags.atapi
  | .submit _ _ => true
  | .irq => true
  | .expire => true
  | .scan => true
  | .config unit _ => unit == 0#8 || unit == 1#8

end Sys2Proof
end

