-- ==== Sys2Proof/Machine/Ops.lean ====
section
/-! DEFINITION. The named operations over the state: ports (R72 to R91), the timer (R331 to R333), the descriptor store and
the queue (R164 to R168), host calls (R88, R89), and the two deliveries that play the part of taking an exception:
`completeIO` (R180, R380) and the event callout `notifyEvent` (R185, R382) with its return. -/

namespace Sys2Proof.Machine

/-! ## Trace and draws -/

/-- Append an event to the trace (R60, R61). -/
def State.emit (e : Event) (s : State) : State := { s with traceRev := e :: s.traceRev }

/-- The trace, oldest first (R60). -/
def State.trace (s : State) : List Event := s.traceRev.reverse

/-- The trace without the `BAR` that follows every port access, as 95_test_vectors.md lists it. -/
def State.listing (s : State) : List Event := s.trace.filter (fun e => e != .bar)

/-- The next answer of a script: its head, or the free value when nothing is scripted (entry 4). -/
def scriptHead {α : Type} (free : α) : List α → α
  | [] => free
  | x :: _ => x

/-- A script after one answer: the last answer repeats (entry 4). -/
def scriptTail {α : Type} : List α → List α
  | [] => []
  | [x] => [x]
  | _ :: y :: ys => y :: ys

/-- The free-value counter after one answer: it counts the answers nobody scripted. -/
def scriptDrawn {α : Type} (n : Nat) : List α → Nat
  | [] => n + 1
  | _ :: _ => n

/-- The script of 8-bit reads of a register. -/
def Env.bytes (e : Env) : Reg → List Byte
  | .data => e.data8
  | .errfeat => e.errfeat
  | .scnt => e.scnt
  | .snum => e.snum
  | .cyllo => e.cyllo
  | .cylhi => e.cylhi
  | .devhead => e.devhead
  | .statcmd => e.statcmd
  | .altctl => e.altctl

/-- Replace the script of 8-bit reads of a register. -/
def Env.setBytes (e : Env) (r : Reg) (xs : List Byte) : Env :=
  match r with
  | .data => { e with data8 := xs }
  | .errfeat => { e with errfeat := xs }
  | .scnt => { e with scnt := xs }
  | .snum => { e with snum := xs }
  | .cyllo => { e with cyllo := xs }
  | .cylhi => { e with cylhi := xs }
  | .devhead => { e with devhead := xs }
  | .statcmd => { e with statcmd := xs }
  | .altctl => { e with altctl := xs }

/-- The answer to the next 8-bit read of a register (U1). -/
def Env.byteAnswer (e : Env) (r : Reg) : Byte := scriptHead (Config.freeByte e.drawn) (e.bytes r)

/-- The draws after an 8-bit read of a register. -/
def Env.byteRead (e : Env) (r : Reg) : Env :=
  { e.setBytes r (scriptTail (e.bytes r)) with drawn := scriptDrawn e.drawn (e.bytes r) }

/-! ## The Register Port (R72 to R75) -/

/-- `Barrier()` (R75). -/
def barrier (s : State) : State := s.emit .bar

/-- An 8-bit read recorded as `ev v`, then the barrier. -/
def readByte (r : Reg) (ev : Byte → Event) (s : State) : Byte × State :=
  (s.env.byteAnswer r, barrier ({ s with env := s.env.byteRead r }.emit (ev (s.env.byteAnswer r))))

/-- `rd8(r)` (R72). -/
def rd8 (r : Reg) (s : State) : Byte × State := readByte r (.r8 r) s

/-- `wr8(r, v)` (R73). -/
def wr8 (r : Reg) (v : Byte) (s : State) : State := barrier (s.emit (.w8 r v))

/-- `rd16()` (R74). -/
def rd16 (s : State) : Half × State :=
  let w := scriptHead (Config.freeHalf s.env.drawn) s.env.data16
  (w, barrier ({ s with env := { s.env with
        data16 := scriptTail s.env.data16, drawn := scriptDrawn s.env.drawn s.env.data16 } }.emit (.r16 w)))

/-- `wr16(w)` (R74). -/
def wr16 (w : Half) (s : State) : State := barrier (s.emit (.w16 w))

/-- `rd8d()` (R74). -/
def rd8d (s : State) : Byte × State := readByte .data .r8d s

/-- `wr8d(b)` (R74). -/
def wr8d (b : Byte) (s : State) : State := barrier (s.emit (.w8d b))

/-- Write Device Control and record its nIEN in `irqEn` (R30). -/
def writeControl (v : Byte) (s : State) : State := { wr8 .altctl v s with irqEn := irqEnOf v }

/-- Write each word of a list to the Data register, in order. -/
def writeWords : List Half → State → State
  | [], s => s
  | w :: ws, s => writeWords ws (wr16 w s)

/-- Read `n` words from the Data register; the buffer bytes they hold, low byte first (R81). -/
def readWords : Nat → State → List Byte × State
  | 0, s => ([], s)
  | n + 1, s =>
    let r := rd16 s
    let rest := readWords n r.2
    (wordBytes r.1 ++ rest.1, rest.2)

/-! ## Sleep, timing hook, DMA hooks (R9, R86, R87) -/

/-- `sleep(d)`: `now` grows by `d` and a drawn overshoot (R9, U7). -/
def sleep (d : Nat) (s : State) : State :=
  { s with
      now := s.now + d + scriptHead (Config.freeOvershoot s.env.drawn) s.env.overshoot
      env := { s.env with
        overshoot := scriptTail s.env.overshoot, drawn := scriptDrawn s.env.drawn s.env.overshoot } }.emit (.sleep d)

/-- `timingHook(u)` (R87). -/
def timingHook (u : UnitId) (s : State) : State := s.emit (.timing u)

/-- `startDMA()` (R86, U6). -/
def startDma (s : State) : Result × State :=
  let r := scriptHead (Result.byNumber (Config.freeResult s.env.drawn)) s.env.startDma
  (r, { s with env := { s.env with
        startDma := scriptTail s.env.startDma, drawn := scriptDrawn s.env.drawn s.env.startDma } }.emit (.startDma r))

/-- `stopDMA()`: the result is recorded and ignored (R86, U6). -/
def stopDma (s : State) : State :=
  let r := scriptHead (Result.byNumber (Config.freeResult s.env.drawn)) s.env.stopDma
  { s with env := { s.env with
        stopDma := scriptTail s.env.stopDma, drawn := scriptDrawn s.env.drawn s.env.stopDma } }.emit (.stopDma r)

/-! ## The timer (R331 to R333) -/

/-- `stopTimer()`: disarm unconditionally; the call is traced (R332). -/
def stopTimer (s : State) : State := { s with timer := { s.timer with armed := false } }.emit .disarm

/-- `startTimer(d)`: disarm an armed timer, then arm a fresh deadline (R331). -/
def startTimer (d : Nat) (s : State) : State :=
  let s1 := if s.timer.armed then stopTimer s else s
  { s1 with timer := ⟨true, s.now + d⟩ }.emit (.arm d)

/-- `checkTimeout()` (R333). -/
def checkTimeout (s : State) : Bool := s.timer.armed && decide (s.timer.deadline ≤ s.now)

/-- How many sleeps of `T_POLL` still fit before the deadline, rounded up: after that many, `checkTimeout` is true if the
timer is armed. The bound of the loops that only the deadline ends (R302, R248, R247; entry 16). -/
def deadlineSleeps (s : State) : Nat := (s.timer.deadline - s.now + (s.params.tPoll - 1)) / s.params.tPoll

/-! ## The descriptor store (R45, R97) -/

/-- The record a dangling reference reads as; no reachable state holds one (entry 17). -/
def Command.blank : Command where
  opcode := 0#8
  unit := 0#8
  flags := ⟨false, false, false, false, false, false, false, false, false⟩
  regMask := 0#16
  pktLen := 0#8
  timeoutMs := 0#32
  byteCount := 0#32
  position := 0#32
  chunk := 0#32
  buf := 0#32
  cb := 0#32
  tf := ⟨0#8, 0#8, 0#8, 0#8, 0#8, 0#8, 0#8, 0#8, 0#16⟩
  ext := ⟨0#8, 0#8, 0#8, 0#8, 0#8⟩
  pkt := 0#128
  state := 0#8
  endStatus := 0#8
  endError := 0#8
  result := .unset
  actual := 0#32
  inUse := false

/-- The command a reference names. -/
def State.cmd (s : State) (id : Nat) : Command := s.cmds.getD id Command.blank

/-- Change the command a reference names. -/
def State.modCmd (id : Nat) (f : Command → Command) (s : State) : State := { s with cmds := s.cmds.modify id f }

/-- `cur`: the current command (R12). -/
def State.cur (s : State) : Command :=
  match s.current with
  | some id => s.cmd id
  | none => Command.blank

/-- Change the current command. -/
def State.modCur (f : Command → Command) (s : State) : State :=
  match s.current with
  | some id => s.modCmd id f
  | none => s

/-- `c.state <- ph` for the current command (R37). -/
def setPhase (ph : Byte) (s : State) : State := s.modCur (fun c => { c with state := ph })

/-- `devInfo[u]` (R27). -/
def State.devInfo (s : State) : UnitId → DevInfo
  | .u0 => s.devInfo0
  | .u1 => s.devInfo1

/-- `devInfo[u] <- i` (R27). -/
def State.setDevInfo (u : UnitId) (i : DevInfo) (s : State) : State :=
  match u with
  | .u0 => { s with devInfo0 := i }
  | .u1 => { s with devInfo1 := i }

/-! ## Host buffers (R80) -/

/-- `MemRead((h, off), n)` (R80). -/
def memRead (h : Word) (off n : Nat) (s : State) : List Byte × State :=
  (Memory.getBytes s.mem (Memory.addr h off) n, s.emit (.memRd h off n))

/-- `MemWrite((h, off), n, bytes)` (R80). -/
def memWrite (h : Word) (off : Nat) (bytes : List Byte) (s : State) : State :=
  { s with mem := Memory.setBytes s.mem (Memory.addr h off) bytes }.emit (.memWr h off bytes.length bytes)

/-- Bytes `0 .. n-1` of the Double Buffer become `bytes` (R78, R309, R310). -/
def loadDbuf (bytes : List Byte) (s : State) : State := { s with dbuf := bytes ++ s.dbuf.drop bytes.length }

/-- Does a buffer the host provides cover bytes `off .. off+n-1` of handle `h` (W6, U5)? DESIGN CHOICE (entry 14): of a handle
that the host provides more than once every length stays, so the largest one counts. -/
def State.bufferCovers (s : State) (h : Word) (off n : Nat) : Bool :=
  n == 0 || s.bufs.any (fun b => b.1 == h && decide (off + n ≤ b.2))

/-- W6 (R150), the part about the host's buffer. -/
def State.covers (s : State) (d : Desc) : Bool := s.bufferCovers d.buf d.position.toNat d.byteCount.toNat

/-- A command the model accepts (R150, U3). -/
def State.accepts (s : State) (d : Desc) : Bool := d.legal && s.covers d

/-! ## The queue (R164 to R168) -/

/-- `enqueue(command)`: an Immediate command after the Immediate ones already at the head, another at the tail (R164). -/
def enqueue (id : Nat) (s : State) : State :=
  if (s.cmd id).flags.imm then
    { s with queue := s.queue.takeWhile (fun k => (s.cmd k).flags.imm) ++ id ::
                        s.queue.dropWhile (fun k => (s.cmd k).flags.imm) }
  else { s with queue := s.queue ++ [id] }

/-- `dequeueFirst()` (R166). -/
def dequeueFirst (s : State) : Option Nat × State :=
  match s.queue with
  | [] => (none, s)
  | c :: rest => (some c, { s with queue := rest })

/-- The head of the queue exists and is Immediate (R168). -/
def headImmediate (s : State) : Bool :=
  match s.queue with
  | [] => false
  | c :: _ => (s.cmd c).flags.imm

/-- `canDispatch()` (R168, Table CD). -/
def canDispatch (s : State) : Bool :=
  s.bus == .free && (s.qstate == .opened || (s.qstate == .locked && s.igate == .opened && headImmediate s))

/-! ## Host code inside the gate (R88, R89)

`dn` is `dispatchNext`, passed in because it is what these operations nest: `Machine/Arbiter.lean` ties the knot. -/

/-- A command record as the host makes it (R56, R407). -/
def Command.fresh (d : Desc) : Command := { toDesc := d, result := .unset, actual := 0#32, inUse := false }

/-- `handle(command)`: state Initial, enqueue, dispatch (R162). -/
def handle (dn : State → State) (id : Nat) (s : State) : State :=
  dn (enqueue id (s.modCmd id (fun c => { c with state := phInitial })))

/-- `submit(cmd, target)` past its null test (P160): mark in use, then `handle`. -/
def submitRef (dn : State → State) (id : Nat) (s : State) : State :=
  handle dn id (s.modCmd id (fun c => { c with inUse := true }))

/-- The host makes a new command record and submits it (entry 8). -/
def submitNew (dn : State → State) (d : Desc) (s : State) : State :=
  submitRef dn s.cmds.length { s with cmds := s.cmds ++ [Command.fresh d] }

/-- The host fills a record anew (R56, R407). -/
def State.refill (id : Nat) (d : Desc) (s : State) : State := s.modCmd id (fun _ => Command.fresh d)

/-- What R160 finds wrong with a nested SUBMIT: it names no record, or one with `inUse = 1` (U4), or its command is
ill-formed (R150, U3). -/
def State.nestedBreach (s : State) (h : HostSubmit) : Option Refusal :=
  if h.reuse.any (fun id => decide (s.cmds.length ≤ id)) then some .noSuchCommand
  else if h.reuse.any (fun id => (s.cmd id).inUse) then some .commandInUse
  else if s.accepts h.desc then none
  else some .hostScriptIllFormed

/-- The action comes to a refusal; the first one stays. -/
def State.refuse (r : Refusal) (s : State) : State := { s with breach := s.breach.or (some r) }

/-- One nested SUBMIT, of a record the host uses again or of a new one (R89, R160; entry 5). One that the model refuses (R160)
has no meaning (D31): nothing is submitted, and the whole action is refused (`guarded` in Machine/Submission.lean). -/
def submitOne (dn : State → State) (h : HostSubmit) (s : State) : State :=
  match s.nestedBreach h with
  | some r => s.refuse r
  | none =>
    match h.reuse with
    | some id => submitRef dn id (s.refill id h.desc)
    | none => submitNew dn h.desc s

/-- Nested SUBMITs, in order (R181, R186). -/
def submitAll (dn : State → State) : List HostSubmit → State → State
  | [], s => s
  | h :: hs, s => submitAll dn hs (submitOne dn h s)

/-- One host call: the host submits what the script gives for it (U11, entry 5). -/
def hostCall (dn : State → State) (s : State) : State :=
  match s.host with
  | [] => s
  | hs :: rest => submitAll dn hs { s with host := rest }

/-- `callback(c)` (R89). -/
def callback (dn : State → State) (id : Nat) (s : State) : State :=
  hostCall dn (s.emit (.callback id (s.cmd id).result))

/-- `notify(u', ev, u)` (R88), called only for an attached unit (P185). -/
def notify (dn : State → State) (handler : UnitId) (ev : EvKind) (u : Option UnitId) (s : State) : State :=
  hostCall dn (s.emit (.notify handler ev.code (unitArgument u)))

/-! ## Taking and returning from an exception (R380, R382, R385) -/

/-- P180 up to the callback: the current command `id` becomes Done with its result, the bus is freed (R180). -/
def finish (id : Nat) (res : Result) (s : State) : State :=
  State.modCmd id (fun c => { c with result := if c.result = Result.unset then res else c.result, inUse := false })
    { stopDma (stopTimer (s.modCmd id (fun c => { c with state := phDone }))) with bus := .free, current := none }

/-- `completeIO(res)` (P180): the delivery of an outcome to the host. -/
def completeIO (dn : State → State) (res : Result) (s : State) : State :=
  match s.current with
  | none => s
  | some id => dn (callback dn id (finish id res s))

/-- Entry of a callout: save the four fields, lock the queue with the gate open (P185). -/
def enterCallout (s : State) : State :=
  { s with
      snap := ⟨s.current, s.bus, s.qstate, s.igate⟩ :: s.snap
      bus := .free, qstate := .locked, igate := .opened, current := none }

/-- Return from a callout: restore the saved fields exactly (P185, R385). -/
def leaveCallout (s : State) : State :=
  match s.snap with
  | [] => s
  | p :: rest => { s with current := p.current, bus := p.bus, qstate := p.qstate, igate := p.igate, snap := rest }

/-- Call the handler of unit `h` if a driver is attached (P185, D30). -/
def notifyIf (attached : Bool) (dn : State → State) (h : UnitId) (ev : EvKind) (u : Option UnitId) (s : State) : State :=
  if attached then notify dn h ev u s else s

/-- `notifyEvent(ev, u)` (P185): unit 0's handler, then unit 1's, inside a saved arbiter. -/
def notifyEvent (dn : State → State) (ev : EvKind) (u : Option UnitId) (s : State) : State :=
  leaveCallout (notifyIf s.params.attached1 dn .u1 ev u
    (notifyIf s.params.attached0 dn .u0 ev u (enterCallout s)))

end Sys2Proof.Machine
end

