-- ==== Sys2Proof/Machine/Select.lean ====
section
/-! DEFINITION. Device selection, soft reset and bus scan (41_select_reset.md). -/

namespace Sys2Proof.Machine

/-- What a polling loop ends with: its code, the last sample, the state. -/
structure Polled where
  code   : Result
  sample : Byte
  state  : State

/-- `pollStatus(N, ok, abort)` (P200): sample Alternate Status, test success, then the abort, then the sample budget,
else sleep `T_POLL` and sample again. -/
def pollStatus (ok : Byte → Bool) (abort : Byte → State → Option Result) : Nat → State → Polled
  | 0, s =>
    let r := rd8 .altctl s
    if ok r.1 then ⟨.noError, r.1, r.2⟩
    else match abort r.1 r.2 with
      | some e => ⟨e, r.1, r.2⟩
      | none => ⟨.timeout, r.1, r.2⟩
  | n + 1, s =>
    let r := rd8 .altctl s
    if ok r.1 then ⟨.noError, r.1, r.2⟩
    else match abort r.1 r.2 with
      | some e => ⟨e, r.1, r.2⟩
      | none => pollStatus ok abort n (sleep s.params.tPoll r.2)

/-- A poll with no abort condition. -/
def noAbort (_ : Byte) (_ : State) : Option Result := none

/-! ## selectDevice (R201 to R207) -/

/-- The abort of the pre-select poll: DRQ set, or the deadline elapsed (R203). -/
def abortPreSelect (v : Byte) (s : State) : Option Result :=
  if drq v || checkTimeout s then some .deviceBusy else none

/-- The pre-select poll, and on success the device-select write; skipped when the unit is the selected one (R202,
R203). -/
def preSelect (u : UnitId) (s : State) : Result × State :=
  if s.selected = some u then (.noError, s)
  else
    let p := pollStatus okPreSelect abortPreSelect (timeoutUs s.cur / s.params.tPoll) s
    if p.code = .noError then (.noError, { wr8 .devhead u.selectValue p.state with selected := none })
    else (.deviceBusy, { p.state with selected := none })

/-- The post-select poll, and on success the interrupt re-enable and the cache update (R204, R205). -/
def postSelect (u : UnitId) (s : State) : Result × State :=
  let p := pollStatus (okReady (needReady (s.devInfo u).type s.cur)) noAbort s.params.nPostSel s
  if p.code = .noError then (.noError, { writeControl ctlClear p.state with selected := some u })
  else (.deviceBusy, { p.state with selected := none })

/-- `selectDevice(unit)` (P201). -/
def selectDevice (unit : Byte) (s : State) : Result × State :=
  match UnitId.ofByte unit with
  | none => (.invalidArgument, { s with selected := none })
  | some u =>
    let r := preSelect u (timingHook u s)
    if r.1 = .noError then postSelect u r.2 else r

/-! ## softResetBus (R210 to R214) -/

/-- The register sequence of a reset: the device command, or the SRST pulse, which clears nIEN and the cache (R211,
R212). -/
def resetPulse (isATAPI : Bool) (s : State) : State :=
  if isATAPI then wr8 .statcmd Config.cmdDeviceReset s
  else { writeControl ctlClear (sleep s.params.tSrstHold (wr8 .altctl ctlSrst s)) with selected := none }

/-- `softResetBus(isATAPI)` (P210). -/
def softResetBus (isATAPI : Bool) (s : State) : Result × State :=
  let p := pollStatus (okReady (!isATAPI && s.devInfo0.type == .ata)) noAbort s.params.nReset
    (sleep s.params.tSettle (resetPulse isATAPI s))
  (p.code, p.state)

/-! ## scanForDrives (R220 to R228) -/

/-- `atapiSlaveExists()` (P225). -/
def atapiSlaveExists (s : State) : Bool × State :=
  let p := pollStatus okNotBusy noAbort s.params.nProbe
    (wr8 .statcmd Config.cmdIdentifyPacket (writeControl ctlNIen s))
  if p.code = .noError && probeHasData p.sample then (true, (readWords p.state.params.identWords p.state).2)
  else (false, p.state)

/-- `devInfo[u] <- (ty, PMODE_DEFAULT)` (R228). -/
def setType (u : UnitId) (ty : DevType) (s : State) : State := s.setDevInfo u ⟨ty, s.params.pmodeDefault⟩

/-- The five signature registers of a unit, in the order of R223. -/
structure Signature where
  lo  : Byte
  hi  : Byte
  sc  : Byte
  sn  : Byte
  alt : Byte
deriving DecidableEq, Repr

/-- Read the signature registers (R223). -/
def readSignature (s : State) : Signature × State :=
  let lo := rd8 .cyllo s
  let hi := rd8 .cylhi lo.2
  let sc := rd8 .scnt hi.2
  let sn := rd8 .snum sc.2
  let a := rd8 .altctl sn.2
  (⟨lo.1, hi.1, sc.1, sn.1, a.1⟩, a.2)

/-- The ATAPI signature (R224). -/
def Signature.isAtapi (g : Signature) : Bool := (g.lo, g.hi) == Config.sigAtapi

/-- The ATA signature, READY = 1 and ERROR = 0 (R226). -/
def Signature.isAta (g : Signature) : Bool :=
  (g.sc, g.sn, g.lo, g.hi) == Config.sigAta && drdy g.alt && !err g.alt

/-- Classify a selected unit (R223 to R226); the number of devices found, 0 or 1. -/
def classify (u : UnitId) (s : State) : Nat × State :=
  let g := readSignature s
  if g.1.isAtapi then
    if u == .u1 && g.2.devInfo0.type == .atapi then
      let p := atapiSlaveExists g.2
      if p.1 then (1, setType u .atapi p.2) else (0, setType u .unknown p.2)
    else (1, setType u .atapi g.2)
  else if g.1.isAta then (1, setType u .ata g.2)
  else (0, setType u .unknown g.2)

/-- Select a unit for the scan and wait for not-busy (R222). -/
def scanSelect (u : UnitId) (s : State) : Polled :=
  pollStatus okNotBusy noAbort s.params.nScan (wr8 .devhead u.selectValue s)

/-- Unit 1 of the scan loop. -/
def scanUnit1 (s : State) : Nat × State :=
  let p := scanSelect .u1 s
  if p.code = .noError then classify .u1 p.state else (0, setType .u1 .unknown p.state)

/-- The scan loop over unit 0 and unit 1 (P220): a failed select poll ends it with this and any later unit Unknown. -/
def scanUnits (s : State) : Nat × State :=
  let p := scanSelect .u0 s
  if p.code = .noError then
    let c0 := classify .u0 p.state
    let c1 := scanUnit1 c0.2
    (c0.1 + c1.1, c1.2)
  else (0, setType .u1 .unknown (setType .u0 .unknown p.state))

/-- `scanForDrives()` (P220): the number of devices found and the state. -/
def scanForDrives (s : State) : Nat × State :=
  let p := pollStatus okNotBusy noAbort s.params.nScan s
  let r := if p.code = .noError then scanUnits p.state else (0, p.state)
  (r.1, { wr8 .devhead UnitId.u0.selectValue r.2 with selected := none })

end Sys2Proof.Machine
end

