-- ==== Sys2Proof/Machine/Pio.lean ====
section
/-! DEFINITION. The PIO transfer sequencer (43_pio_engine.md). -/

namespace Sys2Proof.Machine

/-- The abort of the DRQ waits: a device error before an elapsed deadline (R262, R303). -/
def abortData (v : Byte) (s : State) : Option Result :=
  if dataError v then some .deviceError else if checkTimeout s then some .timeout else none

/-- The bytes of `n` bytes read from the Data register: `n / 2` words and a final byte if `n` is odd (R309, R311). -/
def readData (n : Nat) (s : State) : List Byte × State :=
  let ws := readWords (n / 2) s
  if n % 2 = 1 then
    let b := rd8d ws.2
    (ws.1 ++ [b.1], b.2)
  else ws

/-- `readSlice(n)` (P309): Data register to Double Buffer to the command's buffer. -/
def readSlice (n : Nat) (s : State) : State :=
  let d := readData n s
  memWrite s.cur.buf s.cur.position.toNat d.1 (loadDbuf d.1 d.2)

/-- Send the bytes of a list to the Data register: little-endian words, a final single byte if one is left (R310,
R311). -/
def writeData : List Byte → State → State
  | [], s => s
  | [b], s => wr8d b s
  | b0 :: b1 :: rest, s => writeData rest (wr16 (b1 ++ b0) s)

/-- `writeSlice(n)` (P310): the command's buffer to Double Buffer to Data register. -/
def writeSlice (n : Nat) (s : State) : State :=
  let d := memRead s.cur.buf s.cur.position.toNat n s
  writeData d.1 (loadDbuf d.1 d.2)

/-- `drain(m)` (R312). -/
def drain (m : Nat) (s : State) : State := (readData m s).2

/-- `pad(m)` (R312): `m / 2` zero words and a zero byte if `m` is odd. -/
def pad (m : Nat) (s : State) : State :=
  let s1 := writeWords (List.replicate (m / 2) 0#16) s
  if m % 2 = 1 then wr8d 0#8 s1 else s1

/-- One slice of `n` bytes and the counts after it (R308). -/
def moveSlice (n : Nat) (s : State) : State :=
  (if s.cur.flags.rd then readSlice n s else writeSlice n s).modCur (fun c =>
    { c with actual := c.actual + BitVec.ofNat 32 n, position := c.position + BitVec.ofNat 32 n })

/-- The slices of a pass of `n` bytes (R308); `fuel` slices are enough when `n <= fuel * DBUF_BYTES`. -/
def moveSlices : Nat → Nat → State → State
  | 0, _, s => s
  | fuel + 1, n, s =>
    if n = 0 then s
    else moveSlices fuel (n - min n Config.dbufBytes) (moveSlice (min n Config.dbufBytes) s)

/-- This pass's byte count and the overrun (R305, R306). -/
def passCount (s : State) : (Nat × Nat) × State :=
  if isATAPI s.cur then
    let lo := rd8 .cyllo s
    let hi := rd8 .cylhi lo.2
    let n := min (devCount lo.1 hi.1) (remaining s.cur)
    ((n, devCount lo.1 hi.1 - n), hi.2)
  else ((min (remaining s.cur) s.cur.chunk.toNat, 0), s)

/-- Drain or pad an overrun (R312). -/
def settleOverrun (m : Nat) (s : State) : State :=
  if m = 0 then s else if s.cur.flags.rd then drain m s else pad m s

/-- State Status when no byte remains (R314). -/
def endPass (s : State) : State := if remaining s.cur = 0 then setPhase phStatus s else s

/-- The data of a pass, after its DRQ poll succeeded (P300 from R306 on). -/
def passData (s : State) : State :=
  let k := passCount s
  endPass (settleOverrun k.1.2 (moveSlices (k.1.1 / Config.dbufBytes + 1) k.1.1 k.2))

/-- `pioPass()` (P300). Its poll has no sample budget; the deadline bounds it (R302). -/
def pioPass (s : State) : Result × State :=
  if remaining s.cur = 0 then (.noError, setPhase phStatus s)
  else
    let p := pollStatus okData abortData (deadlineSleeps s) s
    if p.code = .noError then (.noError, passData p.state) else (p.code, p.state)

end Sys2Proof.Machine
end

