-- ==== Sys2Proof/Machine/Protocol.lean ====
section
/-! DEFINITION. The protocol state machine and the opcode handlers (42_protocol_fsm.md), and the timeout handler
(44_timer.md). `dn` is `dispatchNext`, nested by completions and callouts (see Machine/Ops.lean). -/

namespace Sys2Proof.Machine

/-! ## Register access (R276) and the Status phase (R270) -/

/-- Write one two-byte register: high then low byte under `lba48`, else the low byte (R132). -/
def writeTwoByte (c : Command) (t : TwoByte) (s : State) : State :=
  wr8 t.reg (t.lo c) (if c.flags.lba48 then wr8 t.reg (t.hi c) s else s)

/-- Write two-byte registers in order. -/
def writeTwoBytes (c : Command) : List TwoByte → State → State
  | [], s => s
  | t :: ts, s => writeTwoBytes c ts (writeTwoByte c t s)

/-- Read two-byte registers in order into the current command, each by `put`. -/
def readTwoBytes (put : TwoByte → Byte → Command → Command) : List TwoByte → State → State
  | [], s => s
  | t :: ts, s =>
    let r := rd8 t.reg s
    readTwoBytes put ts (r.2.modCur (put t r.1))

/-- Do `f` if bit `r` of the command's mask is set (R118, R276). -/
def whenMasked (c : Command) (r : Reg) (f : State → State) (s : State) : State := if masked c r then f s else s

/-- The gated two-byte registers, in order. -/
def maskedTwoBytes (c : Command) : List TwoByte := TwoByte.all.filter (fun t => masked c t.reg)

/-- `registerAccess(true)` (R276, write). -/
def registerWrite (s : State) : State :=
  let c := s.cur
  whenMasked c .statcmd (wr8 .statcmd c.tf.cmd)
    (whenMasked c .data (wr16 c.tf.data)
      (whenMasked c .altctl (writeControl c.tf.ctl)
        (whenMasked c .devhead (fun s => { wr8 .devhead c.tf.dh s with selected := none })
          (writeTwoBytes c (maskedTwoBytes c) s))))

/-- Read a gated 8-bit register into the current command by `put`. -/
def readInto (r : Reg) (put : Byte → Command → Command) (s : State) : State :=
  let v := rd8 r s
  v.2.modCur (put v.1)

/-- Read the Data register into `tf.data`. -/
def readDataInto (s : State) : State :=
  let w := rd16 s
  w.2.modCur (fun c => { c with tf := { c.tf with data := w.1 } })

/-- nIEN as `irqEn` records it (R276). -/
def nIenNow (s : State) : Byte := if s.irqEn then ctlClear else ctlNIen

/-- The HOB sequence of a 48-bit read: HOB = 1, the gated high bytes, HOB = 0 (R276). `n` is nIEN. -/
def readHighBytes (c : Command) (n : Byte) (s : State) : State :=
  wr8 .altctl n (readTwoBytes TwoByte.setHi (maskedTwoBytes c) (wr8 .altctl (ctlHob ||| n) s))

/-- `registerAccess(false)` (R276, read). -/
def registerRead (s : State) : State :=
  let c := s.cur
  let s1 := readTwoBytes TwoByte.setLo (maskedTwoBytes c) s
  let s2 := whenMasked c .devhead (readInto .devhead (fun v c => { c with tf := { c.tf with dh := v } })) s1
  let s3 := whenMasked c .altctl (readInto .altctl (fun v c => { c with tf := { c.tf with ctl := v } })) s2
  let s4 := whenMasked c .data readDataInto s3
  let s5 := whenMasked c .statcmd (readInto .statcmd (fun v c => { c with tf := { c.tf with cmd := v } })) s4
  if c.flags.lba48 && !(maskedTwoBytes c).isEmpty then readHighBytes c (nIenNow s5) s5 else s5

/-- Result capture (R271). -/
def captureResult (s : State) : State := if s.cur.flags.tfres then registerRead s else s

/-- `statusPhase(err)` (P270). -/
def statusPhase (e : Result) (s : State) : Result × State :=
  let st := rd8 .statcmd s
  let er := rd8 .errfeat st.2
  let s1 := captureResult (er.2.modCur (fun c => { c with endStatus := st.1, endError := er.1 }))
  (if e ≠ .noError then e else if err st.1 then .deviceError else .noError, setPhase phComplete s1)

/-! ## The phases (R250 to R264) -/

/-- `issueTaskfile()` (P261). -/
def issueTaskfile (s : State) : State :=
  wr8 .statcmd s.cur.tf.cmd (writeTwoBytes s.cur TwoByte.all (wr8 .devhead s.cur.tf.dh s))

/-- The phase after the taskfile (R251). -/
def phaseAfterStart (c : Command) : Byte :=
  if hasPacket c then phPacketIssue else if isPIOData c then phDataTransfer else phStatus

/-- `startedPhase()` (P251). -/
def startedPhase (s : State) : Result × State :=
  let r := if s.cur.flags.dma && !hasPacket s.cur then startDma s else (.noError, s)
  if r.1 = .noError then (.noError, setPhase (phaseAfterStart s.cur) (issueTaskfile r.2)) else r

/-- `packetPhase()` after its DRQ wait: the packet words, then the DMA start of a DMA command (R264, R260). -/
def sendPacket (s : State) : Result × State :=
  let s1 := writeWords (packetWords s.cur) s
  let r := if s.cur.flags.dma then startDma s1 else (.noError, s1)
  if r.1 = .noError then (.noError, setPhase (if isPIOData s.cur then phDataTransfer else phStatus) r.2) else r

/-- `packetPhase()` (P262). -/
def packetPhase (s : State) : Result × State :=
  let p := pollStatus okData abortData s.params.nPkt s
  if p.code = .noError then sendPacket p.state else (p.code, p.state)

/-- The PacketIssue step of `phaseStep` (R253). -/
def packetStep (s : State) : Result × State :=
  let r := packetPhase s
  if r.1 = .noError then r else statusPhase r.1 r.2

/-- The DataTransfer step of `phaseStep` (R254, R256). -/
def dataStep (s : State) : Result × State :=
  let r := pioPass s
  if r.1 ≠ .noError then statusPhase r.1 r.2
  else if r.2.cur.state = phDataTransfer then r
  else if isATAPI r.2.cur || r.2.cur.flags.wr then r
  else statusPhase .noError r.2

/-- `devInfo[unit].pmode = DRQImmediate` (R252). -/
def drqImmediate (unit : Byte) (s : State) : Bool :=
  match UnitId.ofByte unit with
  | some u => (s.devInfo u).pmode == .drqImmediate
  | none => false

/-- The Started step of `phaseStep`, with the two places where it goes on in the same call (R252, R255). -/
def startedStep (s : State) : Result × State :=
  let r := startedPhase s
  if r.1 ≠ .noError then statusPhase r.1 r.2
  else if r.2.cur.state = phPacketIssue && drqImmediate r.2.cur.unit r.2 then packetStep r.2
  else if r.2.cur.state = phDataTransfer && isPIOWriteATA r.2.cur then dataStep r.2
  else r

/-- `phaseStep()` (P250). -/
def phaseStep (s : State) : Result × State :=
  if s.cur.state = phStarted then startedStep s
  else if s.cur.state = phPacketIssue then packetStep s
  else if s.cur.state = phDataTransfer then dataStep s
  else if s.cur.state = phStatus then statusPhase .noError s
  else (.protocolInconsistent, setPhase phComplete s)

/-! ## The two modes (R246 to R248) -/

/-- `asyncIO()` (P246). -/
def asyncIO (dn : State → State) (s : State) : State :=
  let r := phaseStep s
  if r.2.cur.state = phComplete then completeIO dn r.1 r.2 else r.2

/-- `syncWait()` (P248), with a bound that the deadline makes exact (entry 16). -/
def syncWaitN : Nat → State → Result × State
  | 0, s => (.timeout, s)
  | n + 1, s =>
    if checkTimeout s then (.timeout, s)
    else
      let r := rd8 .altctl (sleep s.params.tPoll s)
      if bsy r.1 then syncWaitN n r.2 else (.noError, r.2)

/-- `syncWait()` (P248). -/
def syncWait (s : State) : Result × State := syncWaitN (deadlineSleeps s) s

/-- The loop of `synchronousIO` (P247), with a bound that the deadline makes exact (entry 16). -/
def syncLoop : Nat → State → Result × State
  | 0, s =>
    let r := phaseStep s
    if r.2.cur.state = phComplete then r else statusPhase .timeout r.2
  | n + 1, s =>
    let r := phaseStep s
    if r.2.cur.state = phComplete then r
    else
      let w := syncWait r.2
      if w.1 = .noError then syncLoop n w.2 else statusPhase w.1 w.2

/-- `synchronousIO()` (P247). -/
def synchronousIO (dn : State → State) (s : State) : State :=
  let s1 := writeControl ctlNIen s
  let r := syncLoop (deadlineSleeps s1) s1
  completeIO dn r.1 r.2

/-! ## The handlers -/

/-- Selection failure of an ExecIO (R244). -/
def selectionFailed (dn : State → State) (s : State) : State :=
  if s.cur.flags.noirq then completeIO dn .offline (setPhase phComplete s)
  else startTimer s.params.tSelFail (setPhase phComplete s)

/-- `handleExecIO()` (P242). -/
def handleExecIO (dn : State → State) (s : State) : State :=
  let r := selectDevice s.cur.unit s
  if r.1 ≠ .noError then selectionFailed dn r.2
  else
    let s1 := startTimer (timeoutUs s.cur) r.2
    if s.cur.flags.noirq then synchronousIO dn s1 else asyncIO dn s1

/-- `handleRegAccess()` (P274). -/
def handleRegAccess (dn : State → State) (s : State) : State :=
  let r := selectDevice s.cur.unit s
  let s1 := if r.1 = .noError then (if s.cur.flags.wr then registerWrite r.2 else registerRead r.2) else r.2
  completeIO dn r.1 (setPhase phComplete s1)

/-- The selection and reset of an ATAPI-scoped reset, if the unit is of ATAPI type (R282, R283). -/
def atapiReset (u : UnitId) (s : State) : Result × State :=
  if (s.devInfo u).type = .atapi then softResetBus true (wr8 .devhead u.selectValue { s with selected := none })
  else (.noError, s)

/-- The end of a BusReset: the callout, then the completion (R284, R285). -/
def finishReset (dn : State → State) (ev : EvKind) (u : Option UnitId) (r : Result × State) : State :=
  completeIO dn r.1 (setPhase phComplete (notifyEvent dn ev u r.2))

/-- `handleBusReset()` (P280). -/
def handleBusReset (dn : State → State) (s : State) : State :=
  if s.cur.flags.atapi then
    match UnitId.ofByte s.cur.unit with
    | none => completeIO dn .invalidArgument (setPhase phComplete s)
    | some u => finishReset dn .atapiReset (some u) (atapiReset u s)
  else finishReset dn .ataReset none (softResetBus false s)

/-- Cancel one victim of a flush (P288). -/
def cancelVictim (dn : State → State) (id : Nat) (s : State) : State :=
  callback dn id (s.modCmd id (fun c =>
    { c with state := phDone, result := if c.result = Result.unset then .cancelled else c.result, inUse := false }))

/-- Cancel the victims, head first. -/
def cancelAll (dn : State → State) : List Nat → State → State
  | [], s => s
  | v :: vs, s => cancelAll dn vs (cancelVictim dn v s)

/-- `handleQueueFlush()` (P288). -/
def handleQueueFlush (dn : State → State) (s : State) : State :=
  completeIO dn .noError (setPhase phComplete (cancelAll dn s.queue { s with queue := [] }))

/-- An unknown opcode (R144). -/
def handleUnknown (dn : State → State) (s : State) : State :=
  completeIO dn .invalidArgument (setPhase phComplete s)

/-! ## The timeout (R338) -/

/-- `handleTimeout()` (P338). -/
def handleTimeout (dn : State → State) (s : State) : State :=
  match s.current with
  | none => dn s
  | some id =>
    let s1 := if (s.cmd id).flags.dma then stopDma s else s
    let s2 := s1.modCmd id (fun c => { c with result := .timeout })
    completeIO dn .timeout (statusPhase .timeout s2).2

end Sys2Proof.Machine
end

