-- ==== Sys2Proof/Machine/Arbiter.lean ====
section
/-! DEFINITION. The dispatch of commands (40_queue_arbiter.md R170 to R176) and the entry of an interrupt (R360): where the
recursion of dispatch, completion and nested submission is tied. -/

namespace Sys2Proof.Machine

/-- What becomes of a command record when it becomes current: state Started, `noirq` forced under a Locked queue, a
smuggled reset rewritten to BusReset (P170, R171, R172, R145). -/
def onDispatch (locked : Bool) (c : Command) : Command :=
  { c with
      state := phStarted
      flags := { c.flags with noirq := c.flags.noirq || locked }
      opcode := if isExecOp c.opcode && c.toDesc.isReset08 then opBusReset else c.opcode }

/-- `current <- c` and the record's changes (P170). -/
def becomeCurrent (id : Nat) (s : State) : State :=
  State.modCmd id (onDispatch (s.qstate == QState.locked)) { s with current := some id }

/-- The decode of P170: the opcode selects the handler (R140, R173). -/
def runHandler (dn : State → State) (s : State) : State :=
  if isExecOp s.cur.opcode then handleExecIO dn s
  else if s.cur.opcode = opRegisterAccess then handleRegAccess dn s
  else if s.cur.opcode = opBusReset then handleBusReset dn s
  else if s.cur.opcode = opQueueFlush then handleQueueFlush dn s
  else handleUnknown dn s

/-- P170 with the nested `dispatchNext` passed in. -/
def dispatchStep (dn : State → State) (s : State) : State :=
  if canDispatch s then
    let r := dequeueFirst { s with bus := .busy }
    match r.1 with
    | none => { r.2 with bus := .free }
    | some id => runHandler dn (becomeCurrent id r.2)
  else s

/-- `dispatchNext` with at most `n` nested dispatches. -/
def dispatchN : Nat → State → State
  | 0, s => s
  | n + 1, s => dispatchStep (dispatchN n) s

/-- How many commands can still be dispatched: those queued and those the host's script still holds. -/
def pendingWork (s : State) : Nat := s.queue.length + (s.host.map List.length).sum

/-- `dispatchNext()` (P170): each dispatch uses up one pending command, so `pendingWork` bounds the nesting (entry 16). -/
def dispatchNext (s : State) : State := dispatchN (pendingWork s) s

/-- What `dispatchNext` returns before it decodes (R170): a no-op and an empty queue are reported, an unknown opcode is
`InvalidArgument`; none where it returns what a handler returns. Every caller discards it. -/
def dispatchReport (s : State) : Option Result :=
  if canDispatch s then
    match s.queue with
    | [] => some .queueEmpty
    | id :: _ =>
      let op := (onDispatch (s.qstate == QState.locked) (s.cmd id)).opcode
      if isExecOp op || op == opRegisterAccess || op == opBusReset || op == opQueueFlush then none
      else some .invalidArgument
  else some .noError

/-- Does an IRQ advance this command (P360)? -/
def irqAdvances (c : Command) : Bool := !c.flags.noirq && isExecOp c.opcode && c.state != phComplete

/-- The IRQ action (P360). -/
def irqEntry (s : State) : State :=
  if s.irqEn then
    let r := rd8 .statcmd s
    match s.current with
    | none => r.2
    | some id => if irqAdvances (s.cmd id) then asyncIO dispatchNext r.2 else r.2
  else s

end Sys2Proof.Machine
end

