-- ==== Sys2Proof/Decode.lean ====
section
/-! DEFINITION. The decoder, total on any bytes and rejecting by name, and after it the encoder: the 80-byte descriptor of
Table DL (R110 to R112, little-endian word by word, R97) and the images of the gate actions (labels of R128; the rest of
such an image is the model's, entry 18). -/

namespace Sys2Proof

/-- Why bytes decode to no instruction. -/
inductive DecodeError where
  /-- not 80 bytes (R110), or an event image of a length its label does not have -/
  | badLength
  /-- a reserved bit of Table DL is set (R111, R147, W7) -/
  | reservedBits
  /-- no gate action has this label (R128) -/
  | badLabel
  /-- an event operand has no meaning (entry 18) -/
  | badOperand
deriving DecidableEq, Repr

/-- Byte `k` of an image. -/
def byteAt (bs : List Byte) (k : Nat) : Byte := bs.getD k 0#8

/-- The 16-bit field at byte offset `k`, little-endian (R97). -/
def halfAt (bs : List Byte) (k : Nat) : Half := byteAt bs (k + 1) ++ byteAt bs k

/-- The 32-bit word at byte offset `k`, little-endian (R97). -/
def wordAt (bs : List Byte) (k : Nat) : Word :=
  byteAt bs (k + 3) ++ byteAt bs (k + 2) ++ byteAt bs (k + 1) ++ byteAt bs k

/-- The flag set of W0 bits 31:16: flag `i` is W0 bit `16+i` (Table DL). `lo` is W0[23:16], `hi` is W0[31:24]. -/
def Flags.ofBytes (lo hi : Byte) : Flags where
  imm   := lo.getLsbD 0
  dma   := lo.getLsbD 1
  rd    := lo.getLsbD 2
  wr    := lo.getLsbD 3
  atapi := lo.getLsbD 4
  noirq := lo.getLsbD 5
  lba48 := lo.getLsbD 6
  tfa   := lo.getLsbD 7
  tfres := hi.getLsbD 0

/-- The descriptor fields of an 80-byte image (Table DL). -/
def Desc.ofBytes (bs : List Byte) : Desc where
  opcode    := byteAt bs 0
  unit      := byteAt bs 1
  flags     := Flags.ofBytes (byteAt bs 2) (byteAt bs 3)
  regMask   := halfAt bs 4
  pktLen    := byteAt bs 6
  timeoutMs := wordAt bs 8
  byteCount := wordAt bs 12
  position  := wordAt bs 16
  chunk     := wordAt bs 20
  buf       := wordAt bs 24
  cb        := wordAt bs 28
  tf := { feat := byteAt bs 32, scnt := byteAt bs 33, snum := byteAt bs 34, cylLo := byteAt bs 35
          cylHi := byteAt bs 36, dh := byteAt bs 37, cmd := byteAt bs 38, ctl := byteAt bs 39
          data := halfAt bs 40 }
  ext := { featHi := byteAt bs 44, scntHi := byteAt bs 45, snumHi := byteAt bs 46, cylLoHi := byteAt bs 47
           cylHiHi := byteAt bs 48 }
  pkt       := wordAt bs 64 ++ wordAt bs 60 ++ wordAt bs 56 ++ wordAt bs 52
  state     := byteAt bs 68
  endStatus := byteAt bs 70
  endError  := byteAt bs 71

/-- Every reserved bit of Table DL that `Desc` does not hold is 0: W0[31:25], W1[31:24], W10[31:16], W12[31:8],
W19[31:1]. -/
def reservedClear (bs : List Byte) : Bool :=
  byteAt bs 3 >>> 1 == 0#8 && byteAt bs 7 == 0#8 && halfAt bs 42 == 0#16
    && byteAt bs 49 == 0#8 && halfAt bs 50 == 0#16
    && byteAt bs 76 >>> 1 == 0#8 && byteAt bs 77 == 0#8 && halfAt bs 78 == 0#16

/-- The write-back fields with one value at submission have it: result Unset, actual 0, inUse 0 (R56, W5). -/
def writeBackInitialised (bs : List Byte) : Bool :=
  byteAt bs 69 == 0xFF#8 && wordAt bs 72 == 0#32 && !(byteAt bs 76).getLsbD 0

/-- The row of an ExecIO variant, for a legal mode (R141). -/
def execRow (op : Byte) (m : Mode) (d : Desc) : Instr :=
  if op == 0x01#8 then
    if d.flags.atapi then
      match m with
      | .nd => .execioAtapiNd d
      | .pioRd => .execioAtapiPioRd d
      | .pioWr => .execioAtapiPioWr d
      | .dmaRd => .execioAtapiDmaRd d
      | .dmaWr => .execioAtapiDmaWr d
    else
      match m with
      | .nd => .execioAtaNd d
      | .pioRd => .execioAtaPioRd d
      | .pioWr => .execioAtaPioWr d
      | .dmaRd => .execioAtaDmaRd d
      | .dmaWr => .execioAtaDmaWr d
  else if d.flags.atapi then
    match m with
    | .nd => .atapiExecioNd d
    | .pioRd => .atapiExecioPioRd d
    | .pioWr => .atapiExecioPioWr d
    | .dmaRd => .atapiExecioDmaRd d
    | .dmaWr => .atapiExecioDmaWr d
  else .atapiExecio d

/-- The table row a descriptor belongs to, narrowest first: reclassification (R145), variant (R141 to R143), base row,
unknown opcode (R144). A direction combination that W1 or W2 excludes selects no variant (entry 9). -/
def Desc.row (d : Desc) : Instr :=
  if d.opcode == 0x01#8 then
    if d.isReset08 then .execioReset08 d
    else match d.flags.mode with
      | some m => execRow 0x01#8 m d
      | none => .execio d
  else if d.opcode == 0x02#8 then
    if d.isReset08 then .atapiExecioReset08 d
    else match d.flags.mode with
      | some m => execRow 0x02#8 m d
      | none => .atapiExecio d
  else if d.opcode == 0x03#8 then
    match d.flags.mode with
    | some _ => if d.flags.wr then .regaccWr d else .regaccRd d
    | none => .regacc d
  else if d.opcode == 0x04#8 then .qflush d
  else if d.opcode == 0x05#8 then
    match d.flags.mode with
    | some _ => if d.flags.atapi then .busresetAtapi d else .busresetAta d
    | none => .busreset d
  else .opUnknown d

/-- Decode an 80-byte descriptor. -/
def decodeDescriptor (bs : List Byte) : Except DecodeError Instr :=
  if bs.length ≠ 80 then .error .badLength
  else if reservedClear bs then .ok (Desc.ofBytes bs).row
  else .error .reservedBits

/-- Decode the image of a gate action: its label (R128), then its operands (entry 18). SUBMIT: a byte whose bits 0 and 1
say that command and target are non-null, then the reference, little-endian. CONFIG: the unit, then the mode. -/
def decodeEvent : List Byte → Except DecodeError Instr
  | [] => .error .badLength
  | label :: ops =>
    if label == 1#8 then
      match ops with
      | [nn, r0, r1, r2, r3] =>
        if nn >>> 2 != 0#8 then .error .badOperand
        else if nn.getLsbD 0 then .ok (.submit (some (r3 ++ r2 ++ r1 ++ r0)) (nn.getLsbD 1))
        else if r3 ++ r2 ++ r1 ++ r0 == 0#32 then .ok (.submit none (nn.getLsbD 1))
        else .error .badOperand
      | _ => .error .badLength
    else if label == 2#8 then (if ops.isEmpty then .ok .irq else .error .badLength)
    else if label == 3#8 then (if ops.isEmpty then .ok .expire else .error .badLength)
    else if label == 4#8 then (if ops.isEmpty then .ok .scan else .error .badLength)
    else if label == 5#8 then
      match ops with
      | [u, m] =>
        if m == 0#8 then .ok (.config u .irqFirst)
        else if m == 1#8 then .ok (.config u .drqImmediate)
        else .error .badOperand
      | _ => .error .badLength
    else .error .badLabel

/-- The decoder. -/
def decode : Format → List Byte → Except DecodeError Instr
  | .descriptor, bs => decodeDescriptor bs
  | .event, bs => decodeEvent bs

/-! ## The encoder -/

/-- The four bytes of a word, least significant first (R97). -/
def bytes32 (w : Word) : List Byte :=
  [w.extractLsb' 0 8, w.extractLsb' 8 8, w.extractLsb' 16 8, w.extractLsb' 24 8]

/-- W0[23:16]: the first eight flags, flag `i` in bit `i`. -/
def Flags.lowByte (f : Flags) : Byte :=
  BitVec.ofBool f.tfa ++ BitVec.ofBool f.lba48 ++ BitVec.ofBool f.noirq ++ BitVec.ofBool f.atapi
    ++ BitVec.ofBool f.wr ++ BitVec.ofBool f.rd ++ BitVec.ofBool f.dma ++ BitVec.ofBool f.imm

/-- W0[31:24]: flag 8 in bit 0, the reserved bits 0. -/
def Flags.highByte (f : Flags) : Byte := 0#7 ++ BitVec.ofBool f.tfres

/-- The 68 bytes of the input words W0 to W16 (Table DL), each word least significant byte first (R97), reserved bits 0. -/
def Desc.inputBytes (d : Desc) : List Byte :=
  [d.opcode, d.unit, d.flags.lowByte, d.flags.highByte,  -- W0
   d.regMask.extractLsb' 0 8, d.regMask.extractLsb' 8 8, d.pktLen, 0#8,  -- W1
   d.timeoutMs.extractLsb' 0 8, d.timeoutMs.extractLsb' 8 8, d.timeoutMs.extractLsb' 16 8, d.timeoutMs.extractLsb' 24 8,  -- W2
   d.byteCount.extractLsb' 0 8, d.byteCount.extractLsb' 8 8, d.byteCount.extractLsb' 16 8, d.byteCount.extractLsb' 24 8,  -- W3
   d.position.extractLsb' 0 8, d.position.extractLsb' 8 8, d.position.extractLsb' 16 8, d.position.extractLsb' 24 8,  -- W4
   d.chunk.extractLsb' 0 8, d.chunk.extractLsb' 8 8, d.chunk.extractLsb' 16 8, d.chunk.extractLsb' 24 8,  -- W5
   d.buf.extractLsb' 0 8, d.buf.extractLsb' 8 8, d.buf.extractLsb' 16 8, d.buf.extractLsb' 24 8,  -- W6
   d.cb.extractLsb' 0 8, d.cb.extractLsb' 8 8, d.cb.extractLsb' 16 8, d.cb.extractLsb' 24 8,  -- W7
   d.tf.feat, d.tf.scnt, d.tf.snum, d.tf.cylLo,  -- W8
   d.tf.cylHi, d.tf.dh, d.tf.cmd, d.tf.ctl,  -- W9
   d.tf.data.extractLsb' 0 8, d.tf.data.extractLsb' 8 8, 0#8, 0#8,  -- W10
   d.ext.featHi, d.ext.scntHi, d.ext.snumHi, d.ext.cylLoHi,  -- W11
   d.ext.cylHiHi, 0#8, 0#8, 0#8,  -- W12
   d.pkt.extractLsb' 0 8, d.pkt.extractLsb' 8 8, d.pkt.extractLsb' 16 8, d.pkt.extractLsb' 24 8,  -- W13
   d.pkt.extractLsb' 32 8, d.pkt.extractLsb' 40 8, d.pkt.extractLsb' 48 8, d.pkt.extractLsb' 56 8,  -- W14
   d.pkt.extractLsb' 64 8, d.pkt.extractLsb' 72 8, d.pkt.extractLsb' 80 8, d.pkt.extractLsb' 88 8,  -- W15
   d.pkt.extractLsb' 96 8, d.pkt.extractLsb' 104 8, d.pkt.extractLsb' 112 8, d.pkt.extractLsb' 120 8]  -- W16

/-- The 12 bytes of the write-back words W17 to W19 (Table DL). -/
def writeBackBytes (state result endStatus endError : Byte) (actual : Word) (inUse : Bool) : List Byte :=
  [state, result, endStatus, endError] ++ bytes32 actual ++ [0#7 ++ BitVec.ofBool inUse, 0#8, 0#8, 0#8]

/-- The 80 bytes of a command at submission (Table DL, R56): result Unset, actual 0, inUse 0. -/
def Desc.toBytes (d : Desc) : List Byte :=
  d.inputBytes ++ writeBackBytes d.state 0xFF#8 d.endStatus d.endError 0#32 false

/-- The flags of a mode (R141). -/
def Flags.withMode (m : Mode) (f : Flags) : Flags :=
  match m with
  | .nd    => { f with dma := false, rd := false, wr := false }
  | .pioRd => { f with dma := false, rd := true,  wr := false }
  | .pioWr => { f with dma := false, rd := false, wr := true }
  | .dmaRd => { f with dma := true,  rd := true,  wr := false }
  | .dmaWr => { f with dma := true,  rd := false, wr := true }

/-- The descriptor with the fields a base row fixes: its opcode. -/
def Desc.asOp (op : Byte) (d : Desc) : Desc := { d with opcode := op }

/-- The descriptor with the fields an ExecIO variant row fixes: opcode, protocol, mode (R141). -/
def Desc.asExec (op : Byte) (atapi : Bool) (m : Mode) (d : Desc) : Desc :=
  { d with opcode := op, flags := (Flags.withMode m { d.flags with atapi := atapi }) }

/-- The descriptor with the fields a reclassification row fixes: opcode and `tf.cmd` (R145). -/
def Desc.asReset08 (op : Byte) (d : Desc) : Desc :=
  { d with opcode := op, tf := { d.tf with cmd := Config.cmdDeviceReset } }

/-- The descriptor with the fields a REGACC variant row fixes (R143). -/
def Desc.asRegacc (wr : Bool) (d : Desc) : Desc :=
  { d with opcode := 0x03#8, flags := { d.flags with wr := wr } }

/-- The descriptor with the fields a BUSRESET variant row fixes (R142). -/
def Desc.asBusreset (atapi : Bool) (d : Desc) : Desc :=
  { d with opcode := 0x05#8, flags := { d.flags with atapi := atapi } }

/-- The descriptor a command row stands for, its fixed fields as the row has them; none for a gate action. -/
def Instr.desc : Instr → Option Desc
  | .execio d => some (d.asOp 0x01#8)
  | .atapiExecio d => some (d.asOp 0x02#8)
  | .regacc d => some (d.asOp 0x03#8)
  | .qflush d => some (d.asOp 0x04#8)
  | .busreset d => some (d.asOp 0x05#8)
  | .execioReset08 d => some (d.asReset08 0x01#8)
  | .atapiExecioReset08 d => some (d.asReset08 0x02#8)
  | .opUnknown d => some d
  | .execioAtaNd d => some (d.asExec 0x01#8 false .nd)
  | .execioAtaPioRd d => some (d.asExec 0x01#8 false .pioRd)
  | .execioAtaPioWr d => some (d.asExec 0x01#8 false .pioWr)
  | .execioAtaDmaRd d => some (d.asExec 0x01#8 false .dmaRd)
  | .execioAtaDmaWr d => some (d.asExec 0x01#8 false .dmaWr)
  | .execioAtapiNd d => some (d.asExec 0x01#8 true .nd)
  | .execioAtapiPioRd d => some (d.asExec 0x01#8 true .pioRd)
  | .execioAtapiPioWr d => some (d.asExec 0x01#8 true .pioWr)
  | .execioAtapiDmaRd d => some (d.asExec 0x01#8 true .dmaRd)
  | .execioAtapiDmaWr d => some (d.asExec 0x01#8 true .dmaWr)
  | .atapiExecioNd d => some (d.asExec 0x02#8 true .nd)
  | .atapiExecioPioRd d => some (d.asExec 0x02#8 true .pioRd)
  | .atapiExecioPioWr d => some (d.asExec 0x02#8 true .pioWr)
  | .atapiExecioDmaRd d => some (d.asExec 0x02#8 true .dmaRd)
  | .atapiExecioDmaWr d => some (d.asExec 0x02#8 true .dmaWr)
  | .regaccRd d => some (d.asRegacc false)
  | .regaccWr d => some (d.asRegacc true)
  | .busresetAta d => some (d.asBusreset false)
  | .busresetAtapi d => some (d.asBusreset true)
  | .submit _ _ => none
  | .irq => none
  | .expire => none
  | .scan => none
  | .config _ _ => none

/-- The format of an instruction's row. -/
def Instr.format (i : Instr) : Format :=
  match i.desc with
  | some _ => .descriptor
  | none => .event

/-- The image of a gate action (entry 18), the descriptor's bytes of a command row. -/
def encode (i : Instr) : List Byte :=
  match i.desc with
  | some d => d.toBytes
  | none =>
    match i with
    | .submit none target => [1#8, 0#6 ++ BitVec.ofBool target ++ 0#1, 0#8, 0#8, 0#8, 0#8]
    | .submit (some r) target => [1#8, 0#6 ++ BitVec.ofBool target ++ 1#1] ++ bytes32 r
    | .irq => [2#8]
    | .expire => [3#8]
    | .scan => [4#8]
    | .config u .irqFirst => [5#8, u, 0#8]
    | .config u .drqImmediate => [5#8, u, 1#8]
    | _ => []

/-! ## Words of the opcode table -/

/-- The descriptor image whose bits below `nbits` are those of `w` (bit 0 the least significant bit of W0) and whose
other input bits are 0; the write-back words W17 to W19 are as the host must initialise them (R407). -/
def tableImage (nbits w : Nat) : List Byte :=
  (List.range 68).map (fun k => BitVec.ofNat 8 ((w % 2 ^ nbits) >>> (8 * k)))
    ++ [0#8, 0xFF#8, 0#8, 0#8, 0#8, 0#8, 0#8, 0#8, 0#8, 0#8, 0#8, 0#8]

/-- The instruction the decoder reads from a word of the opcode table. -/
def decodeTableWord (nbits w : Nat) : Option Instr :=
  match decode .descriptor (tableImage nbits w) with
  | .ok i => some i
  | .error _ => none

end Sys2Proof
end

