-- ==== Sys2Proof/Machine/Image.lean ====
section
/-! DEFINITION. A command record as it is stored (30_encoding.md R110 to R112): its 80 bytes, the write-back words with the
codes of Table RC among them. -/

namespace Sys2Proof.Machine

/-- The result a code stands for (Table RC, R126). -/
def Result.ofCode (b : Byte) : Option Result :=
  [.noError, .invalidArgument, .deviceBusy, .deviceError, .timeout, .unsupported, .protocolInconsistent, .offline,
    .cancelled, .queueEmpty, .unset].find? (fun r => r.code == b)

/-- The 80 bytes of a command record (Table DL): W17 holds state, result, endStatus and endError, W18 `actual`, bit 0 of
W19 `inUse`. -/
def Command.toBytes (c : Command) : List Byte :=
  c.inputBytes ++ writeBackBytes c.state c.result.code c.endStatus c.endError c.actual c.inUse

/-- The command record that 80 bytes hold (Table DL); none for another length, a set reserved bit, or a byte that is no
result code. -/
def Command.ofBytes (bs : List Byte) : Option Command :=
  if bs.length = 80 && reservedClear bs then
    (Result.ofCode (byteAt bs 69)).map (fun r =>
      { toDesc := Desc.ofBytes bs, result := r, actual := wordAt bs 72, inUse := (byteAt bs 76).getLsbD 0 })
  else none

/-- What the host finds in the record a reference names (R36, R111). -/
def State.recordBytes (s : State) (id : Nat) : List Byte := (s.cmd id).toBytes

end Sys2Proof.Machine
end

