-- ==== Sys2Proof/Machine/Submission.lean ====
section
/-! DEFINITION. The submission of a command as an instruction (40_queue_arbiter.md R160), with the checks the spec asks of a
model before it (93_implementation_defined.md U3, U4, U5), and what happens outside the gate between two actions: the reset
of the block (R400, R403), the host's writes of its records and buffers (R391). -/

namespace Sys2Proof.Machine

/-- Every command in flight still has a buffer that covers what it has to transfer (U5). -/
def inFlightCovered (s : State) : Bool :=
  (s.current.toList ++ s.queue).all (fun id =>
    s.bufferCovers (s.cmd id).buf (s.cmd id).position.toNat (remaining (s.cmd id)))

/-- The host's breach of its contract, if any, that an action which runs commands starts from: a buffer too small (U5;
entry 11), or a breach not yet reported. No run reaches either: a submission is checked (W6), a buffer once provided stays
(entry 14), and an action that comes to a breach is refused. -/
def hostBreach (s : State) : Option Refusal :=
  s.breach.or (if inFlightCovered s then none else some .bufferExtent)

/-- A top-level action that runs commands: refused on a breach of the host's contract that it starts from, or that it comes
to, when the host submits inside it what R160 refuses (U3, U4, U5; entry 11). -/
def guarded (s : State) (o : Host.Outcome State Fault Refusal) : Host.Outcome State Fault Refusal :=
  match hostBreach s with
  | some r => .refused r
  | none =>
    match o with
    | .next t =>
      match t.breach with
      | none => .next t
      | some r => .refused r
    | .fault f => .fault f
    | .refused r => .refused r

/-- A descriptor row as an instruction: the host submits a new command that holds `d` (R160, R407; entry 8). -/
def submitRow (d : Desc) (s : State) : Host.Outcome State Fault Refusal :=
  guarded s
    (if s.accepts d then .next { submitNew dispatchNext d s with ret := .status .noError }
     else .refused .illFormedCommand)

/-- A record as R150 W5 asks it at submission. -/
def initialised (c : Command) : Bool := c.result == .unset && c.actual == 0#32

/-- SUBMIT of a command record in the store (R160; U3, U4). -/
def submitRecord (id : Nat) (s : State) : Host.Outcome State Fault Refusal :=
  guarded s
    (if s.cmds.length ≤ id then .refused .noSuchCommand
     else if (s.cmd id).inUse then .refused .commandInUse
     else if initialised (s.cmd id) && s.accepts (s.cmd id).toDesc then
       .next { submitRef dispatchNext id s with ret := .status .noError }
     else .refused .illFormedCommand)

/-- Reset of a running engine (R400, R403): the engine record as Table RS has it; descriptors, buffers, configuration,
clock and environment stay (entry 19). A command it drops is in flight no more, though its record keeps `inUse`. -/
def State.resetBlock (s : State) : State :=
  { s with
      bus := .free
      qstate := .opened
      igate := .closed
      current := none
      queue := []
      selected := none
      devInfo0 := ⟨.unknown, s.params.pmodeDefault⟩
      devInfo1 := ⟨.unknown, s.params.pmodeDefault⟩
      timer := { s.timer with armed := false }
      snap := []
      irqEn := false
      traceRev := [] }

/-- The data transfer of a command in flight is still to come or under way: only an ExecIO or ATAPI-ExecIO has one (R80,
R274), and neither a queued reset in disguise (R145) nor one for an invalid unit (R146, R201) will start it. Once dispatched,
a PIO command moves its bytes before Status (R251, R254), and the DMA hooks move those of a DMA command until its interrupt
(R86, R260); one in Complete failed its selection (R244). -/
def transferAhead (c : Command) : Bool :=
  isExecOp c.opcode && (c.flags.rd || c.flags.wr)
    && ((c.state == phInitial && !c.toDesc.isReset08 && (UnitId.ofByte c.unit).isSome)
      || c.state == phStarted || c.state == phPacketIssue || c.state == phDataTransfer
      || (c.state == phStatus && c.flags.dma))

/-- Command `id` still has to move some of the bytes `off .. off+n-1` of buffer `h` (R95, U4). -/
def stillMoves (h : Word) (off n : Nat) (s : State) (id : Nat) : Bool :=
  let c := s.cmd id
  transferAhead c && c.buf == h && decide (0 < n) && decide (0 < remaining c)
    && decide (off < c.position.toNat + remaining c) && decide (c.position.toNat < off + n)

/-- The host writes bytes of a buffer it provides, none of which a command in flight still has to move (R391, R95, U4).
DESIGN CHOICE (entry 22): a command that a reset dropped (R403, U14) keeps `inUse`, and a DMA of it is not stopped; the spec
leaves open whether the host may write its buffer, and the model lets it, while `hostPrepare` still refuses its record. -/
def hostFill (h : Word) (off : Nat) (bytes : List Byte) (s : State) : Except Refusal State :=
  if !(s.bufferCovers h off bytes.length && decide (off + bytes.length ≤ 2 ^ 32)) then .error .bufferExtent
  else if (s.current.toList ++ s.queue).any (stillMoves h off bytes.length s) then .error .bufferInUse
  else .ok { s with mem := Memory.setBytes s.mem (Memory.addr h off) bytes }

/-- The host fills a command record it owns, or the next new one, as it must be before a SUBMIT (R391, R407, U4). -/
def hostPrepare (id : Nat) (d : Desc) (s : State) : Except Refusal State :=
  if s.cmds.length < id then .error .noSuchCommand
  else if id = s.cmds.length then .ok { s with cmds := s.cmds ++ [Command.fresh d] }
  else if (s.cmd id).inUse then .error .commandInUse
  else .ok (s.refill id d)

/-- One act outside the gate (entry 22). DESIGN CHOICE (entry 14): the spec says nothing of a buffer that the host resizes or
takes back; here a buffer provided stays, and providing its handle again adds a length. -/
def outsideAct (a : OutsideAct) (s : State) : Except Refusal State :=
  match a with
  | .reset => .ok s.resetBlock
  | .provide h n => .ok { s with bufs := (h, n) :: s.bufs }
  | .fill h off bytes => hostFill h off bytes s
  | .prepare id d => hostPrepare id d s

/-- The acts outside the gate before an action, in order; the first one the spec excludes is refused. -/
def outsideActs : List OutsideAct → State → Except Refusal State
  | [], s => .ok s
  | a :: rest, s =>
    match outsideAct a s with
    | .error r => .error r
    | .ok t => outsideActs rest t

end Sys2Proof.Machine
end

