-- ==== Sys2Proof/Machine/CommandRows.lean ====
section
/-! DEFINITION. The meanings of the rows REGACC (R274, R276), QFLUSH (R288), BUSRESET (R280) and of an unknown opcode (R144). -/

namespace Sys2Proof.Machine

/-- REGACC (R140, R274). -/
def execRegacc (d : Desc) (s : State) : Host.Outcome State Fault Refusal := submitRow (d.asOp 0x03#8) s

/-- REGACC.RD (R143, R276): read the masked registers into the command. -/
def execRegaccRd (d : Desc) (s : State) : Host.Outcome State Fault Refusal := submitRow (d.asRegacc false) s

/-- REGACC.WR (R143, R276): write the masked registers from the command. -/
def execRegaccWr (d : Desc) (s : State) : Host.Outcome State Fault Refusal := submitRow (d.asRegacc true) s

/-- QFLUSH (R288): cancel the queued commands. -/
def execQflush (d : Desc) (s : State) : Host.Outcome State Fault Refusal := submitRow (d.asOp 0x04#8) s

/-- BUSRESET (R140, R280). -/
def execBusreset (d : Desc) (s : State) : Host.Outcome State Fault Refusal := submitRow (d.asOp 0x05#8) s

/-- BUSRESET.ATA (R142, R280): whole-bus reset. -/
def execBusresetAta (d : Desc) (s : State) : Host.Outcome State Fault Refusal := submitRow (d.asBusreset false) s

/-- BUSRESET.ATAPI (R142, R281, R282): reset of one ATAPI unit. -/
def execBusresetAtapi (d : Desc) (s : State) : Host.Outcome State Fault Refusal := submitRow (d.asBusreset true) s

/-- OP<hh> (R144): dispatched, then completed with InvalidArgument. -/
def execOpUnknown (d : Desc) (s : State) : Host.Outcome State Fault Refusal := submitRow d s

end Sys2Proof.Machine
end

