-- ==== Sys2Proof/Machine/ExecRows.lean ====
section
/-! DEFINITION. The meanings of the ExecIO and ATAPI-ExecIO rows (42_protocol_fsm.md R242; variants R141; reclassification R145). -/

namespace Sys2Proof.Machine

/-- EXECIO (R140, R242). -/
def execExecio (d : Desc) (s : State) : Host.Outcome State Fault Refusal := submitRow (d.asOp 0x01#8) s

/-- ATAPI.EXECIO (R140, R153): dispatched as EXECIO, without the READY requirement of R204. -/
def execAtapiExecio (d : Desc) (s : State) : Host.Outcome State Fault Refusal := submitRow (d.asOp 0x02#8) s

/-- EXECIO.RESET08 (R145, R172): the dispatch rewrites it to BUSRESET, flags kept. -/
def execExecioReset08 (d : Desc) (s : State) : Host.Outcome State Fault Refusal := submitRow (d.asReset08 0x01#8) s

/-- ATAPI.EXECIO.RESET08 (R145, R172): the dispatch rewrites it to BUSRESET, flags kept. -/
def execAtapiExecioReset08 (d : Desc) (s : State) : Host.Outcome State Fault Refusal := submitRow (d.asReset08 0x02#8) s

/-- EXECIO.ATA.ND (R141): no data. -/
def execExecioAtaNd (d : Desc) (s : State) : Host.Outcome State Fault Refusal := submitRow (d.asExec 0x01#8 false .nd) s

/-- EXECIO.ATA.PIO.RD (R141): PIO read. -/
def execExecioAtaPioRd (d : Desc) (s : State) : Host.Outcome State Fault Refusal := submitRow (d.asExec 0x01#8 false .pioRd) s

/-- EXECIO.ATA.PIO.WR (R141): PIO write. -/
def execExecioAtaPioWr (d : Desc) (s : State) : Host.Outcome State Fault Refusal := submitRow (d.asExec 0x01#8 false .pioWr) s

/-- EXECIO.ATA.DMA.RD (R141): DMA read. -/
def execExecioAtaDmaRd (d : Desc) (s : State) : Host.Outcome State Fault Refusal := submitRow (d.asExec 0x01#8 false .dmaRd) s

/-- EXECIO.ATA.DMA.WR (R141): DMA write. -/
def execExecioAtaDmaWr (d : Desc) (s : State) : Host.Outcome State Fault Refusal := submitRow (d.asExec 0x01#8 false .dmaWr) s

/-- EXECIO.ATAPI.ND (R141): no data. -/
def execExecioAtapiNd (d : Desc) (s : State) : Host.Outcome State Fault Refusal := submitRow (d.asExec 0x01#8 true .nd) s

/-- EXECIO.ATAPI.PIO.RD (R141): PIO read. -/
def execExecioAtapiPioRd (d : Desc) (s : State) : Host.Outcome State Fault Refusal := submitRow (d.asExec 0x01#8 true .pioRd) s

/-- EXECIO.ATAPI.PIO.WR (R141): PIO write. -/
def execExecioAtapiPioWr (d : Desc) (s : State) : Host.Outcome State Fault Refusal := submitRow (d.asExec 0x01#8 true .pioWr) s

/-- EXECIO.ATAPI.DMA.RD (R141): DMA read. -/
def execExecioAtapiDmaRd (d : Desc) (s : State) : Host.Outcome State Fault Refusal := submitRow (d.asExec 0x01#8 true .dmaRd) s

/-- EXECIO.ATAPI.DMA.WR (R141): DMA write. -/
def execExecioAtapiDmaWr (d : Desc) (s : State) : Host.Outcome State Fault Refusal := submitRow (d.asExec 0x01#8 true .dmaWr) s

/-- ATAPI.EXECIO.ND (R141): no data. -/
def execAtapiExecioNd (d : Desc) (s : State) : Host.Outcome State Fault Refusal := submitRow (d.asExec 0x02#8 true .nd) s

/-- ATAPI.EXECIO.PIO.RD (R141): PIO read. -/
def execAtapiExecioPioRd (d : Desc) (s : State) : Host.Outcome State Fault Refusal := submitRow (d.asExec 0x02#8 true .pioRd) s

/-- ATAPI.EXECIO.PIO.WR (R141): PIO write. -/
def execAtapiExecioPioWr (d : Desc) (s : State) : Host.Outcome State Fault Refusal := submitRow (d.asExec 0x02#8 true .pioWr) s

/-- ATAPI.EXECIO.DMA.RD (R141): DMA read. -/
def execAtapiExecioDmaRd (d : Desc) (s : State) : Host.Outcome State Fault Refusal := submitRow (d.asExec 0x02#8 true .dmaRd) s

/-- ATAPI.EXECIO.DMA.WR (R141): DMA write. -/
def execAtapiExecioDmaWr (d : Desc) (s : State) : Host.Outcome State Fault Refusal := submitRow (d.asExec 0x02#8 true .dmaWr) s

end Sys2Proof.Machine
end

