-- ==== Sys2Proof/Machine/GateActions.lean ====
section
/-! DEFINITION. The meanings of the gate actions: SUBMIT (R160), IRQ (R360), EXPIRE (R336), SCAN (R220), CONFIG (R292). -/

namespace Sys2Proof.Machine

/-- SUBMIT (R160): a null command or target returns InvalidArgument and changes nothing else. -/
def execSubmit (cmd : Option Word) (target : Bool) (s : State) : Host.Outcome State Fault Refusal :=
  match cmd with
  | none => .next { s with ret := .status .invalidArgument }
  | some r => if target then submitRecord r.toNat s else .next { s with ret := .status .invalidArgument }

/-- Will this IRQ advance the current command (P360)? -/
def irqRuns (s : State) : Bool :=
  s.irqEn && match s.current with
    | none => false
    | some id => irqAdvances (s.cmd id)

/-- The step would poll for DRQ with no deadline (entry 13); R335 excludes it from every run. -/
def unboundedPoll (s : State) : Bool :=
  !s.timer.armed && remaining s.cur != 0
    && (s.cur.state == phDataTransfer || (s.cur.state == phStarted && isPIOWriteATA s.cur))

/-- IRQ (R360). -/
def execIrq (s : State) : Host.Outcome State Fault Refusal :=
  if irqRuns s then
    guarded s (if unboundedPoll s then .fault .unboundedPoll else .next { irqEntry s with ret := .nothing })
  else .next { irqEntry s with ret := .nothing }

/-- EXPIRE is enabled (R336). -/
def expireEnabled (s : State) : Bool := checkTimeout s

/-- `timer.armed <- 0 ; handleTimeout()` (R336). -/
def expireEntry (s : State) : State :=
  handleTimeout dispatchNext { s with timer := { s.timer with armed := false } }

/-- EXPIRE (R336, R338). -/
def execExpire (s : State) : Host.Outcome State Fault Refusal :=
  if expireEnabled s then guarded s (.next { expireEntry s with ret := .nothing })
  else .refused .expireNotEnabled

/-- SCAN is admitted: no command is current and no callout is in progress (R220, U8). -/
def scanAdmitted (s : State) : Bool := s.current.isNone && s.snap.isEmpty

/-- SCAN (R220): it returns the number of units found (R228). -/
def execScan (s : State) : Host.Outcome State Fault Refusal :=
  if scanAdmitted s then .next { (scanForDrives s).2 with ret := .count (scanForDrives s).1 }
  else .refused .scanNotAdmitted

/-- `devInfo[u].pmode <- m` (R292). -/
def setPMode (u : UnitId) (m : PMode) (s : State) : State := s.setDevInfo u ⟨(s.devInfo u).type, m⟩

/-- CONFIG (R292). -/
def execConfig (unit : Byte) (m : PMode) (s : State) : Host.Outcome State Fault Refusal :=
  match UnitId.ofByte unit with
  | none => .refused .configUnit
  | some u => .next { setPMode u m s with ret := .nothing }

end Sys2Proof.Machine
end

