-- ==== Sys2Proof/Machine/Dispatch.lean ====
section
/-! DEFINITION. The dispatch of an instruction to its meaning: one arm per row of spec/opcode_table.json. -/

namespace Sys2Proof.Machine

def exec (i : Instr) (s : State) : Host.Outcome State Fault Refusal :=
  match i with
  | .execio d => Sys2Proof.Machine.execExecio d s
  | .atapiExecio d => Sys2Proof.Machine.execAtapiExecio d s
  | .regacc d => Sys2Proof.Machine.execRegacc d s
  | .qflush d => Sys2Proof.Machine.execQflush d s
  | .busreset d => Sys2Proof.Machine.execBusreset d s
  | .execioReset08 d => Sys2Proof.Machine.execExecioReset08 d s
  | .atapiExecioReset08 d => Sys2Proof.Machine.execAtapiExecioReset08 d s
  | .opUnknown d => Sys2Proof.Machine.execOpUnknown d s
  | .execioAtaNd d => Sys2Proof.Machine.execExecioAtaNd d s
  | .execioAtaPioRd d => Sys2Proof.Machine.execExecioAtaPioRd d s
  | .execioAtaPioWr d => Sys2Proof.Machine.execExecioAtaPioWr d s
  | .execioAtaDmaRd d => Sys2Proof.Machine.execExecioAtaDmaRd d s
  | .execioAtaDmaWr d => Sys2Proof.Machine.execExecioAtaDmaWr d s
  | .execioAtapiNd d => Sys2Proof.Machine.execExecioAtapiNd d s
  | .execioAtapiPioRd d => Sys2Proof.Machine.execExecioAtapiPioRd d s
  | .execioAtapiPioWr d => Sys2Proof.Machine.execExecioAtapiPioWr d s
  | .execioAtapiDmaRd d => Sys2Proof.Machine.execExecioAtapiDmaRd d s
  | .execioAtapiDmaWr d => Sys2Proof.Machine.execExecioAtapiDmaWr d s
  | .atapiExecioNd d => Sys2Proof.Machine.execAtapiExecioNd d s
  | .atapiExecioPioRd d => Sys2Proof.Machine.execAtapiExecioPioRd d s
  | .atapiExecioPioWr d => Sys2Proof.Machine.execAtapiExecioPioWr d s
  | .atapiExecioDmaRd d => Sys2Proof.Machine.execAtapiExecioDmaRd d s
  | .atapiExecioDmaWr d => Sys2Proof.Machine.execAtapiExecioDmaWr d s
  | .regaccRd d => Sys2Proof.Machine.execRegaccRd d s
  | .regaccWr d => Sys2Proof.Machine.execRegaccWr d s
  | .busresetAta d => Sys2Proof.Machine.execBusresetAta d s
  | .busresetAtapi d => Sys2Proof.Machine.execBusresetAtapi d s
  | .submit cmd target => Sys2Proof.Machine.execSubmit cmd target s
  | .irq => Sys2Proof.Machine.execIrq s
  | .expire => Sys2Proof.Machine.execExpire s
  | .scan => Sys2Proof.Machine.execScan s
  | .config unit pmode => Sys2Proof.Machine.execConfig unit pmode s

end Sys2Proof.Machine
end

