-- ==== Sys2Proof/Machine/Step.lean ====
section
/-! DEFINITION. One step: the gate admits the next action of the inbox (20_memory.md R90, R370) and runs it to its end; where
an instruction is placed so that the next step runs it. -/

namespace Sys2Proof.Machine

/-- The state in which the gate runs the admitted action: the action has left the inbox, and the time that passes before
it has passed (R9). -/
def State.admitting (a : Admission) (rest : List Admission) (s : State) : State :=
  { s with inbox := rest, now := s.now + a.wait }

/-- The write-back words of a descriptor image are as the host must initialise them (W5); a gate action has none. -/
def imageInitialised (a : Admission) : Bool :=
  match a.format with
  | .descriptor => writeBackInitialised a.bytes
  | .event => true

/-- One step: nothing to admit, nothing happens; else what happens outside the gate happens, and the head of the inbox is
decoded and executed. A set reserved bit is an ill-formed command (W7, U3), as is a write-back field left uninitialised
(W5). -/
def step (s : State) : Host.Outcome State Fault Refusal :=
  match s.inbox with
  | [] => .next s
  | a :: rest =>
    match decode a.format a.bytes with
    | .error .reservedBits => .refused .illFormedCommand
    | .error _ => .refused .undecodable
    | .ok i =>
      if imageInitialised a then
        match outsideActs a.acts s with
        | .error r => .refused r
        | .ok t => exec i (t.admitting a rest)
      else .refused .illFormedCommand

/-- The state whose next step runs the descriptor with the bits of `w` (entry 7): it stands first in the inbox. -/
def State.withFetchWord (s : State) (nbits w : Nat) : State :=
  { s with inbox := ⟨[], 0, .descriptor, tableImage nbits w⟩ :: s.inbox }

end Sys2Proof.Machine
end

