-- ==== Sys2Proof/Safety.lean ====
section
/-! DEFINITION. What a good state and a safe run are, in the words of the rules: the invariants of 10_state.md R33 and
44_timer.md R335 at the borders of gate actions, the bounds of the PIO engine, the canonical form of the memory. -/

namespace Sys2Proof.Machine

/-! ## Data that every action keeps in form -/

/-- The host's memory is in canonical form and the Double Buffer has its size (R31, R78). -/
def State.StoresWf (s : State) : Prop := Memory.wf s.mem = true ∧ s.dbuf.length = Config.dbufBytes

/-! ## Between gate actions (R33, R335) -/

/-- I-a (R33): a command is current exactly when the bus is Busy. -/
def State.BusMatchesCurrent (s : State) : Prop := s.bus = .busy ↔ s.current.isSome = true

/-- I-d (R33) between top-level actions: no callout is in progress, the queue is Open, the gate Closed. -/
def State.NoCallout (s : State) : Prop := s.qstate = .opened ∧ s.igate = .closed ∧ s.snap = []

/-- The commands in flight, the current one first. -/
def State.inFlight (s : State) : List Nat := s.current.toList ++ s.queue

/-- I-b, I-c (R33): each command in flight is one record of the store, in one place. -/
def State.OwnedOnce (s : State) : Prop := s.inFlight.Nodup ∧ ∀ id ∈ s.inFlight, id < s.cmds.length

/-- I-e (R33) for a queued command: Initial, in use, and as submitted (R56). -/
def queuedWf (c : Command) : Prop :=
  c.state = phInitial ∧ c.inUse = true ∧ c.result = .unset ∧ c.actual = 0#32

/-- I-e (R33) and R335 for the current command: in use, in a phase of an ExecIO, asynchronous; in DataTransfer only for a PIO
command with data (R251, R260, R264). -/
def currentWf (c : Command) : Prop :=
  c.inUse = true ∧ c.result = .unset ∧ isExecOp c.opcode = true ∧ c.flags.noirq = false
    ∧ (c.state = phStarted ∨ c.state = phPacketIssue ∨ c.state = phDataTransfer ∨ c.state = phStatus
        ∨ c.state = phComplete)
    ∧ (c.state = phDataTransfer → isPIOData c = true)

/-- The counts of a command: no more moved than asked for (R314), and the buffer offsets do not wrap (W6). -/
def countsWf (c : Command) : Prop :=
  c.actual.toNat ≤ c.byteCount.toNat ∧ c.position.toNat + remaining c < 2 ^ 32

/-- Immediate commands stand before the others (R164). -/
def State.ImmediateFirst (s : State) : Prop :=
  s.queue.Pairwise (fun a b => (s.cmd b).flags.imm = true → (s.cmd a).flags.imm = true)

/-- What holds at the start and the end of every top-level gate action. -/
structure State.Quiescent (s : State) : Prop where
  bus     : s.BusMatchesCurrent
  callout : s.NoCallout
  owned   : s.OwnedOnce
  queued  : ∀ id ∈ s.queue, queuedWf (s.cmd id)
  current : ∀ id, s.current = some id → currentWf (s.cmd id)
  counts  : ∀ id ∈ s.inFlight, countsWf (s.cmd id)
  armed   : s.timer.armed = true ↔ s.current.isSome = true
  drained : s.bus = .free → s.queue = []
  order   : s.ImmediateFirst
  breach  : s.breach = none

/-! ## Words of the claims: events, idle engines, ready devices -/

/-- A single access of the Register Port (R72 to R74). -/
def Event.isAccess : Event → Bool
  | .r8 _ _ => true
  | .w8 _ _ => true
  | .r16 _ => true
  | .w16 _ => true
  | .r8d _ => true
  | .w8d _ => true
  | _ => false

/-- Events as the trace records them: a barrier after each single register access (R75, R410). -/
def withBars (es : List Event) : List Event := es.flatMap (fun e => if e.isAccess then [e, .bar] else [e])

/-- From `s` to `t` the trace gained exactly the events `es`, and the barriers. -/
def State.Did (s t : State) (es : List Event) : Prop := t.trace = s.trace ++ withBars es

/-- Every byte of the host's memory reads as before. -/
def State.SameMemory (s t : State) : Prop := ∀ a, Memory.get t.mem a = Memory.get s.mem a

/-- What the host submitted inside the callbacks and handlers of an action that led from `s` to `t`: each host call takes one
list off the script (U11, entry 5). -/
def State.hostCalls (s t : State) : List (List HostSubmit) := s.host.take (s.host.length - t.host.length)

/-- An idle engine with a silent host: a submission is dispatched at once and the host's code adds nothing. -/
structure State.Idle (s : State) : Prop where
  bus     : s.bus = .free
  qstate  : s.qstate = .opened
  current : s.current = none
  queue   : s.queue = []
  armed   : s.timer.armed = false
  host    : s.host = []
  breach  : s.breach = none

/-- Command `id` is current and asynchronous, with no other command queued and a silent host; its order is one the host
may give (R33, R335). -/
structure State.Running (id : Nat) (s : State) : Prop where
  bus     : s.bus = .busy
  qstate  : s.qstate = .opened
  current : s.current = some id
  stored  : id < s.cmds.length
  queue   : s.queue = []
  host    : s.host = []
  breach  : s.breach = none
  exec    : isExecOp (s.cmd id).opcode = true
  async   : (s.cmd id).flags.noirq = false
  inUse   : (s.cmd id).inUse = true
  unset   : (s.cmd id).result = .unset
  counts  : countsWf (s.cmd id)
  covered : s.bufferCovers (s.cmd id).buf (s.cmd id).position.toNat (remaining (s.cmd id)) = true

/-- What the handling of one command never changes: the arbiter's locks and snapshots, the device table, the
configuration, the host's buffers, script and inbox, the records `0 .. n-1` but `id`. -/
structure State.SameBut (id : Nat) (s t : State) : Prop where
  qstate   : t.qstate = s.qstate
  igate    : t.igate = s.igate
  snap     : t.snap = s.snap
  devInfo0 : t.devInfo0 = s.devInfo0
  devInfo1 : t.devInfo1 = s.devInfo1
  params   : t.params = s.params
  bufs     : t.bufs = s.bufs
  host     : t.host = s.host
  breach   : t.breach = s.breach
  inbox    : t.inbox = s.inbox
  others   : ∀ k, k ≠ id → k < s.cmds.length → t.cmd k = s.cmd k

/-- No command is in flight any more: the bus is Free, nothing current, nothing queued, the timer off. -/
structure State.Finished (t : State) : Prop where
  bus     : t.bus = .free
  current : t.current = none
  queue   : t.queue = []
  armed   : t.timer.armed = false

/-- Command `id` is current, asynchronous, and waits for an interrupt or its deadline. -/
structure State.Waiting (id : Nat) (t : State) : Prop where
  bus     : t.bus = .busy
  current : t.current = some id
  queue   : t.queue = []
  armed   : t.timer.armed = true

/-- The answer of the `k`-th coming 8-bit read of register `r`, when no other read comes before it. -/
def Env.answer (r : Reg) : Nat → Env → Byte
  | 0, e => e.byteAnswer r
  | k + 1, e => Env.answer r k (e.byteRead r)

/-- How many Alternate Status samples the selection of unit `u` takes from a device ready at once (R202, R203). -/
def selectSamples (u : UnitId) (s : State) : Nat := if s.selected = some u then 1 else 2

/-- The device answers the selection of `u` for a command `d` at its first samples (R203, R204). -/
def DeviceReady (u : UnitId) (d : Desc) (s : State) : Prop :=
  (s.selected = some u ∨ okPreSelect (s.env.answer .altctl 0) = true)
    ∧ okReady (needReady (s.devInfo u).type (Command.fresh d)) (s.env.answer .altctl (selectSamples u s - 1)) = true

/-- The events of a selection whose device is ready at once (R201 to R205). -/
def selectEvents (u : UnitId) (s : State) : List Event :=
  if s.selected = some u then [.timing u, .r8 .altctl (s.env.answer .altctl 0), .w8 .altctl 0x00#8]
  else [.timing u, .r8 .altctl (s.env.answer .altctl 0), .w8 .devhead u.selectValue,
    .r8 .altctl (s.env.answer .altctl 1), .w8 .altctl 0x00#8]

/-- The writes of one two-byte register (R132). -/
def twoByteWrites (lba48 : Bool) (r : Reg) (hi lo : Byte) : List Event :=
  if lba48 then [.w8 r hi, .w8 r lo] else [.w8 r lo]

/-- The events of `issueTaskfile` (R261). -/
def taskfileEvents (d : Desc) : List Event :=
  [.w8 .devhead d.tf.dh]
    ++ twoByteWrites d.flags.lba48 .errfeat d.ext.featHi d.tf.feat
    ++ twoByteWrites d.flags.lba48 .scnt d.ext.scntHi d.tf.scnt
    ++ twoByteWrites d.flags.lba48 .snum d.ext.snumHi d.tf.snum
    ++ twoByteWrites d.flags.lba48 .cyllo d.ext.cylLoHi d.tf.cylLo
    ++ twoByteWrites d.flags.lba48 .cylhi d.ext.cylHiHi d.tf.cylHi
    ++ [.w8 .statcmd d.tf.cmd]

/-- Bit `i` of the register mask selects register index `i` (R118, Table RG). -/
def ifMasked (d : Desc) (i : Nat) (es : List Event) : List Event := if d.regMask.getLsbD i then es else []

/-- The events of `registerAccess(true)` (R276). -/
def registerWriteEvents (d : Desc) : List Event :=
  ifMasked d 1 (twoByteWrites d.flags.lba48 .errfeat d.ext.featHi d.tf.feat)
    ++ ifMasked d 2 (twoByteWrites d.flags.lba48 .scnt d.ext.scntHi d.tf.scnt)
    ++ ifMasked d 3 (twoByteWrites d.flags.lba48 .snum d.ext.snumHi d.tf.snum)
    ++ ifMasked d 4 (twoByteWrites d.flags.lba48 .cyllo d.ext.cylLoHi d.tf.cylLo)
    ++ ifMasked d 5 (twoByteWrites d.flags.lba48 .cylhi d.ext.cylHiHi d.tf.cylHi)
    ++ ifMasked d 6 [.w8 .devhead d.tf.dh]
    ++ ifMasked d 8 [.w8 .altctl d.tf.ctl]
    ++ ifMasked d 0 [.w16 d.tf.data]
    ++ ifMasked d 7 [.w8 .statcmd d.tf.cmd]

/-- What a register read brought: the taskfile values, the Data word, the high-order bytes. -/
structure ReadValues where
  tf  : Taskfile
  ext : ExtLba
deriving DecidableEq, Repr

/-- Does a 48-bit read go through the HOB sequence: some two-byte register is masked (R276)? -/
def readsHighBytes (d : Desc) : Bool := d.flags.lba48 && (d.regMask &&& 0x003E#16) != 0#16

/-- The events of `registerAccess(false)` that brings the values `v`, `n` being nIEN (R276). -/
def registerReadEvents (d : Desc) (n : Byte) (v : ReadValues) : List Event :=
  ifMasked d 1 [.r8 .errfeat v.tf.feat] ++ ifMasked d 2 [.r8 .scnt v.tf.scnt]
    ++ ifMasked d 3 [.r8 .snum v.tf.snum] ++ ifMasked d 4 [.r8 .cyllo v.tf.cylLo]
    ++ ifMasked d 5 [.r8 .cylhi v.tf.cylHi] ++ ifMasked d 6 [.r8 .devhead v.tf.dh]
    ++ ifMasked d 8 [.r8 .altctl v.tf.ctl] ++ ifMasked d 0 [.r16 v.tf.data]
    ++ ifMasked d 7 [.r8 .statcmd v.tf.cmd]
    ++ (if readsHighBytes d then
          [.w8 .altctl (0x80#8 ||| n)]
            ++ ifMasked d 1 [.r8 .errfeat v.ext.featHi] ++ ifMasked d 2 [.r8 .scnt v.ext.scntHi]
            ++ ifMasked d 3 [.r8 .snum v.ext.snumHi] ++ ifMasked d 4 [.r8 .cyllo v.ext.cylLoHi]
            ++ ifMasked d 5 [.r8 .cylhi v.ext.cylHiHi] ++ [.w8 .altctl n]
        else [])

/-- A value where the mask selects it, the old one elsewhere. -/
def pickMasked {α : Type} (d : Desc) (i : Nat) (new old : α) : α := if d.regMask.getLsbD i then new else old

/-- The taskfile block after a register read that brought `v` (R276). -/
def tfAfterRead (d : Desc) (v : ReadValues) : Taskfile where
  feat  := pickMasked d 1 v.tf.feat d.tf.feat
  scnt  := pickMasked d 2 v.tf.scnt d.tf.scnt
  snum  := pickMasked d 3 v.tf.snum d.tf.snum
  cylLo := pickMasked d 4 v.tf.cylLo d.tf.cylLo
  cylHi := pickMasked d 5 v.tf.cylHi d.tf.cylHi
  dh    := pickMasked d 6 v.tf.dh d.tf.dh
  cmd   := pickMasked d 7 v.tf.cmd d.tf.cmd
  ctl   := pickMasked d 8 v.tf.ctl d.tf.ctl
  data  := pickMasked d 0 v.tf.data d.tf.data

/-- The extended-LBA block after a register read that brought `v` (R276). -/
def extAfterRead (d : Desc) (v : ReadValues) : ExtLba :=
  if d.flags.lba48 then
    { featHi := pickMasked d 1 v.ext.featHi d.ext.featHi
      scntHi := pickMasked d 2 v.ext.scntHi d.ext.scntHi
      snumHi := pickMasked d 3 v.ext.snumHi d.ext.snumHi
      cylLoHi := pickMasked d 4 v.ext.cylLoHi d.ext.cylLoHi
      cylHiHi := pickMasked d 5 v.ext.cylHiHi d.ext.cylHiHi }
  else d.ext

/-- The register reads of a result capture (R271). -/
def captureEvents (d : Desc) (n : Byte) (v : ReadValues) : List Event :=
  if d.flags.tfres then registerReadEvents d n v else []

/-- The command's register blocks after a status phase that read `st`, `er` and captured `v` (R270, R271). -/
def withStatus (c : Command) (st er : Byte) (v : ReadValues) : Command :=
  { c with
      endStatus := st
      endError := er
      tf := if c.flags.tfres then tfAfterRead c.toDesc v else c.tf
      ext := if c.flags.tfres then extAfterRead c.toDesc v else c.ext }

/-- A command that `completeIO` has delivered with result `r` (R180). -/
def delivered (r : Result) (c : Command) : Command := { c with state := phDone, result := r, inUse := false }

/-- The sizes of the slices of a pass of `n` bytes: full Double Buffers, then the rest (R308). -/
def sliceSizes (n : Nat) : List Nat :=
  List.replicate (n / Config.dbufBytes) Config.dbufBytes
    ++ (if n % Config.dbufBytes = 0 then [] else [n % Config.dbufBytes])

/-- The Data writes of a list of bytes: little-endian words, a final single byte (R81, R311). -/
def dataWrites : List Byte → List Event
  | [] => []
  | [b] => [.w8d b]
  | b0 :: b1 :: rest => .w16 (b1 ++ b0) :: dataWrites rest

/-- The events of write slices from buffer `h`, offset `off` on (R310). -/
def writeSliceEvents (mem : List Host.Cell) (h : Word) : Nat → List Nat → List Event
  | _, [] => []
  | off, n :: ns =>
    .memRd h off n :: dataWrites (Memory.getBytes mem (Memory.addr h off) n) ++ writeSliceEvents mem h (off + n) ns

/-- The Data reads that bring a list of bytes: little-endian words, a final single byte (R81, R311). -/
def dataReads : List Byte → List Event
  | [] => []
  | [b] => [.r8d b]
  | b0 :: b1 :: rest => .r16 (b1 ++ b0) :: dataReads rest

/-- The events of read slices into buffer `h`, offset `off` on, that bring the bytes `bs` (R309). -/
def readSliceEvents (h : Word) : Nat → List Nat → List Byte → List Event
  | _, [], _ => []
  | off, n :: ns, bs =>
    dataReads (bs.take n) ++ .memWr h off n (bs.take n) :: readSliceEvents h (off + n) ns (bs.drop n)

/-- The host's memory after `bs` came into buffer `h` at offset `off`: these bytes there, every other byte as before. -/
def State.MemoryGot (h : Word) (off : Nat) (bs : List Byte) (s t : State) : Prop :=
  ∀ a, Memory.get t.mem a
    = if Memory.addr h off ≤ a ∧ a < Memory.addr h off + bs.length then bs.getD (a - Memory.addr h off) 0#8
      else Memory.get s.mem a

/-- A PIO read into buffer `h`: the one kind of command for which the engine writes the host's memory (R80, R309). -/
def readsInto (h : Word) (d : Desc) : Bool := d.buf == h && d.flags.rd && !d.flags.dma

/-- The packet writes (R135, R264). -/
def packetEvents (d : Desc) : List Event :=
  (List.range (d.pktLen.toNat / 2)).map (fun k => .w16 (d.pkt.extractLsb' (16 * k) 16))

/-- The events of a completion (R180): `r` is what the DMA-stop hook returned. -/
def completionEvents (id : Nat) (r res : Result) : List Event := [.disarm, .stopDma r, .callback id res]

/-- The calls of the event handlers of the attached drivers, unit 0 first, by the codes of R130 and R114 (R185). -/
def notifyEvents (p : Config.Params) (ev about : Byte) : List Event :=
  (if p.attached0 then [.notify .u0 ev about] else []) ++ (if p.attached1 then [.notify .u1 ev about] else [])

/-! ## Words of the claims: what fails -/

/-- The events of a poll that sleeps `n` times, its samples the answers of Alternate Status from the `k`-th on (R200). -/
def pollEvents (k n : Nat) (s : State) : List Event :=
  (List.range n).flatMap (fun j => [.r8 .altctl (s.env.answer .altctl (k + j)), .sleep s.params.tPoll])
    ++ [.r8 .altctl (s.env.answer .altctl (k + n))]

/-- How often the pre-select poll for `d` may sleep (R203, R134). -/
def preSelectBudget (d : Desc) (s : State) : Nat := d.timeoutMs.toNat * 1000 / s.params.tPoll

/-- The first `n` samples of the pre-select poll show a busy device without DRQ, and are within its budget (R203). -/
def PreSelectBusy (d : Desc) (n : Nat) (s : State) : Prop :=
  n ≤ preSelectBudget d s
    ∧ ∀ j < n, bsy (s.env.answer .altctl j) = true ∧ drq (s.env.answer .altctl j) = false

/-- None of the samples of the post-select poll, the answers from the `k`-th on, passes (R204). -/
def NeverReady (u : UnitId) (d : Desc) (k : Nat) (s : State) : Prop :=
  ∀ j ≤ s.params.nPostSel,
    okReady (needReady (s.devInfo u).type (Command.fresh d)) (s.env.answer .altctl (k + j)) = false

/-- The selection of the unit of `d` fails on an idle engine: with which code, which events, how many sleeps. Where it
sleeps, the device's samples are taken to be scripted, so that no other draw comes between them (entry 4). -/
inductive SelectFails (d : Desc) (s : State) : Result → List Event → Nat → Prop where
  /-- an invalid unit is rejected (R201) -/
  | invalidUnit (hu : UnitId.ofByte d.unit = none) : SelectFails d s .invalidArgument [] 0
  /-- DRQ before the selection, or BUSY until the poll's budget is used up (R203) -/
  | preSelect (u : UnitId) (n : Nat) (hu : UnitId.ofByte d.unit = some u) (hs : s.selected ≠ some u)
      (hn : n = 0 ∨ s.env.altctl ≠ []) (hb : PreSelectBusy d n s)
      (he : drq (s.env.answer .altctl n) = true
        ∨ n = preSelectBudget d s ∧ bsy (s.env.answer .altctl n) = true) :
      SelectFails d s .deviceBusy (.timing u :: pollEvents 0 n s) n
  /-- the device is selected and does not become ready within `N_POSTSEL` samples (R204) -/
  | postSelect (u : UnitId) (n : Nat) (hu : UnitId.ofByte d.unit = some u) (hs : s.selected ≠ some u)
      (hn : n + s.params.nPostSel = 0 ∨ s.env.altctl ≠ []) (hb : PreSelectBusy d n s)
      (he : okPreSelect (s.env.answer .altctl n) = true) (hr : NeverReady u d (n + 1) s) :
      SelectFails d s .deviceBusy
        (.timing u :: pollEvents 0 n s ++ .w8 .devhead u.selectValue :: pollEvents (n + 1) s.params.nPostSel s)
        (n + s.params.nPostSel)
  /-- the cached unit does not become ready (R202, R204) -/
  | cached (u : UnitId) (hu : UnitId.ofByte d.unit = some u) (hs : s.selected = some u)
      (hn : s.params.nPostSel = 0 ∨ s.env.altctl ≠ []) (hr : NeverReady u d 0 s) :
      SelectFails d s .deviceBusy (.timing u :: pollEvents 0 s.params.nPostSel s) s.params.nPostSel

/-- The samples of a DRQ wait, the answers from the `k`-th on: none passes before one shows a device error (R262, R303). -/
def NoData (k : Nat) (s : State) : Prop :=
  s.env.altctl ≠ []
    ∧ ∀ j, okData (s.env.answer .altctl (k + j)) = true → ∃ i < j, dataError (s.env.answer .altctl (k + i)) = true

/-- Such a wait ends with `res` after `n` sleeps: DeviceError at the first sample that shows an error, Timeout at one that
does not, when the wait has `expired` (R262, R303). -/
def WaitEnds (k n : Nat) (expired : Prop) (res : Result) (s : State) : Prop :=
  (∀ j < n, okData (s.env.answer .altctl (k + j)) = false ∧ dataError (s.env.answer .altctl (k + j)) = false)
    ∧ (dataError (s.env.answer .altctl (k + n)) = true ∧ res = .deviceError
      ∨ dataError (s.env.answer .altctl (k + n)) = false ∧ res = .timeout ∧ expired)

/-- From `s` to `t` the events `es`, then a status phase and the completion with `res` delivered command `id`, whose record
was `c` (R250, R270, R271, R180); interrupts are enabled, and the memory is as before. -/
def State.EndedWith (id : Nat) (c : Command) (es : List Event) (res : Result) (s t : State) : Prop :=
  t.Finished ∧ s.SameBut id t ∧ t.irqEn = true ∧ s.SameMemory t ∧ t.dbuf = s.dbuf
    ∧ ∃ (st er : Byte) (v : ReadValues) (r : Result),
      s.Did t (es ++ [.r8 .statcmd st, .r8 .errfeat er] ++ captureEvents c.toDesc 0x00#8 v
          ++ completionEvents id r res)
      ∧ t.cmd id = delivered res (withStatus c st er v)

/-- A data command that will, or may, still be transferring: an ExecIO with a direction, queued for a unit of the bus and not
a reset in disguise (R145, R146), or dispatched and short of the phase in which its transfer is over: Status for PIO (R254),
Complete for DMA (R86, R244). -/
def transferring (c : Command) : Prop :=
  (c.opcode = 0x01#8 ∨ c.opcode = 0x02#8) ∧ (c.flags.rd = true ∨ c.flags.wr = true)
    ∧ (c.state = phInitial → c.tf.cmd ≠ 0x08#8 ∧ (c.unit = 0#8 ∨ c.unit = 1#8))
    ∧ (if c.flags.dma then c.state ≤ phStatus else c.state < phStatus)

/-- Command `c` still has to move byte `a` of buffer `h` (R95). -/
def stillOwes (c : Command) (h : Word) (a : Nat) : Prop :=
  transferring c ∧ c.buf = h ∧ c.position.toNat ≤ a ∧ a < c.position.toNat + remaining c

/-- The commands called back in a list of events. -/
def callbacks (es : List Event) : List Nat :=
  es.filterMap (fun e => match e with | .callback c _ => some c | _ => none)

/-- In a trace, newest event first: every access is followed by one barrier, and no barrier stands elsewhere (R75). -/
def barredRev : List Event → Bool
  | [] => true
  | .bar :: rest =>
    match rest with
    | [] => false
    | e :: es => e.isAccess && barredRev es
  | e :: es => !e.isAccess && barredRev es

/-- The last value written to Device Control, in a trace, newest event first. -/
def lastControl : List Event → Option Byte
  | [] => none
  | .w8 .altctl v :: _ => some v
  | _ :: es => lastControl es

/-- `irqEn` is the record of the last nIEN written, 0 before any write (R30). -/
def State.IrqEnTracks (s : State) : Prop :=
  s.irqEn = (match lastControl s.traceRev with | some v => irqEnOf v | none => false)

/-- The rows of the opcodes ExecIO and ATAPI-ExecIO that are not reclassified. -/
def execRows (d : Desc) : List Instr :=
  [.execio d, .atapiExecio d,
   .execioAtaNd d, .execioAtaPioRd d, .execioAtaPioWr d, .execioAtaDmaRd d, .execioAtaDmaWr d,
   .execioAtapiNd d, .execioAtapiPioRd d, .execioAtapiPioWr d, .execioAtapiDmaRd d, .execioAtapiDmaWr d,
   .atapiExecioNd d, .atapiExecioPioRd d, .atapiExecioPioWr d, .atapiExecioDmaRd d, .atapiExecioDmaWr d]

/-- All rows of command descriptors. -/
def commandRows (d : Desc) : List Instr :=
  execRows d ++ [.execioReset08 d, .atapiExecioReset08 d, .regacc d, .regaccRd d, .regaccWr d, .qflush d,
    .busreset d, .busresetAta d, .busresetAtapi d, .opUnknown d]

end Sys2Proof.Machine
end

