-- ==== Sys2Proof/Certificates/Slice0/Obligations.lean ====
section
/-! DEFINITION. The statements for the provers. Each docstring names the rules of spec/ it formalises. The words used
(`Idle`, `Running`, `Finished`, `Waiting`, `SameBut`, `Did`, the event lists) are those of Safety.lean. -/

section Statements

open Sys2Proof Sys2Proof.Machine

/-! ## Reset, encoding, step -/

/-- Reset (Table RS, R55, R400). `dbuf` and `deadline` have no value in the spec, so nothing is said of them. -/
def Obligations.ResetState : Prop :=
  State.reset.bus = .free ∧ State.reset.qstate = .opened ∧ State.reset.igate = .closed ∧ State.reset.current = none
    ∧ State.reset.queue = [] ∧ State.reset.selected = none
    ∧ State.reset.devInfo0 = ⟨.unknown, State.reset.params.pmodeDefault⟩
    ∧ State.reset.devInfo1 = ⟨.unknown, State.reset.params.pmodeDefault⟩
    ∧ State.reset.timer.armed = false ∧ State.reset.snap = [] ∧ State.reset.irqEn = false ∧ State.reset.trace = []

/-- A few words written out from Table DL decode to their rows: the commands of programs P1, P2, P4 and P5 of
95_test_vectors.md. -/
def Obligations.WordsDecode : Prop :=
  (∃ d, decodeTableWord 640 (0xE7A000 * 2 ^ 288 + 1 * 2 ^ 224 + 0x3E8 * 2 ^ 64 + 0x1) = some (.execioAtaNd d)
      ∧ d.tf.dh = 0xA0#8 ∧ d.tf.cmd = 0xE7#8 ∧ d.timeoutMs = 1000#32 ∧ d.cb = 1#32)
    ∧ (∃ d, decodeTableWord 32 0x00240001 = some (.execioAtaPioRd d) ∧ d.flags.noirq = true ∧ d.flags.rd = true)
    ∧ (∃ d, decodeTableWord 64 0x000C000000140002 = some (.atapiExecioPioRd d) ∧ d.pktLen = 12#8)
    ∧ (∃ d, decodeTableWord 32 0x00010004 = some (.qflush d) ∧ d.flags.imm = true)

/-- Decode after encode is the identity on every well-formed instruction, at every value of every operand. -/
def Obligations.DecodeEncode : Prop :=
  ∀ i : Instr, i.wellFormed = true → decode i.format (encode i) = .ok i

/-- Encode after decode is the identity on every descriptor image whose write-back fields are as the host must initialise
them, and what was decoded is well-formed: no bit of an image is dropped. The same of the image of a command record, whose
write-back words hold state, result code, endStatus, endError, `actual` and `inUse` where Table DL puts them (R112, R126). -/
def Obligations.EncodeDecode : Prop :=
  (∀ (bs : List Byte) (i : Instr), decode .descriptor bs = .ok i → writeBackInitialised bs = true →
    encode i = bs ∧ i.format = .descriptor ∧ i.wellFormed = true)
    ∧ (∀ c : Command, Command.ofBytes c.toBytes = some c)
    ∧ (∀ (bs : List Byte) (c : Command), Command.ofBytes bs = some c → c.toBytes = bs)
    ∧ ∀ c : Command, wordAt c.toBytes 68 = c.endError ++ c.endStatus ++ c.result.code ++ c.state
        ∧ wordAt c.toBytes 72 = c.actual ∧ wordAt c.toBytes 76 = if c.inUse then 1#32 else 0#32

/-- Opcodes with no handler and reclassified descriptors have rows of their own (R144, R145). -/
def Obligations.SpecialRows : Prop :=
  ∀ bs : List Byte, bs.length = 80 → reservedClear bs = true →
    ((∀ op ∈ [0x01#8, 0x02#8, 0x03#8, 0x04#8, 0x05#8], byteAt bs 0 ≠ op) →
        decode .descriptor bs = .ok (.opUnknown (Desc.ofBytes bs)))
    ∧ (byteAt bs 0 = 0x01#8 → byteAt bs 38 = 0x08#8 → decode .descriptor bs = .ok (.execioReset08 (Desc.ofBytes bs)))
    ∧ (byteAt bs 0 = 0x02#8 → byteAt bs 38 = 0x08#8 →
        decode .descriptor bs = .ok (.atapiExecioReset08 (Desc.ofBytes bs)))

/-- A step runs the decoded instruction, after what happens outside the gate, which it refuses where the spec excludes it; a
placed word (`withFetchWord`) runs as the instruction it decodes to; with nothing to admit a step changes nothing. -/
def Obligations.StepRunsDecoded : Prop :=
  (∀ (s : State) (a : Admission) (rest : List Admission) (i : Instr), s.inbox = a :: rest →
      decode a.format a.bytes = .ok i → imageInitialised a = true →
      (a.acts = [] → step s = exec i { s with inbox := rest, now := s.now + a.wait })
      ∧ (∀ t, outsideActs a.acts s = .ok t → step s = exec i { t with inbox := rest, now := t.now + a.wait })
      ∧ (∀ r, outsideActs a.acts s = .error r → step s = .refused r))
    ∧ (∀ (s : State) (n w : Nat) (i : Instr), decodeTableWord n w = some i → step (s.withFetchWord n w) = exec i s)
    ∧ (∀ s : State, s.inbox = [] → step s = .next s)

/-- A descriptor image with a reserved bit set is refused (W7 of R150, U3): any of W0, W1[31:24], W10, W12, W19 by the
decoder, and one of the register mask, W1[15:9], by the submission, where the host keeps its contract. -/
def Obligations.ReservedBitsRefused : Prop :=
  ∀ (s : State) (a : Admission) (rest : List Admission), s.inbox = a :: rest → a.format = .descriptor →
    a.bytes.length = 80 →
    (reservedClear a.bytes = false → step s = .refused .illFormedCommand)
    ∧ (halfAt a.bytes 4 >>> 9 ≠ 0#16 → a.acts = [] → hostBreach s = none → step s = .refused .illFormedCommand)

/-! ## Submission and the queue -/

/-- Outside the gate: a reset leaves the engine record as Table RS has it and touches nothing else (R55, R400, R403); the host
fills a record it owns, or the next new one, and writes bytes of a buffer it provides; a record in use, and any byte that the
transfer of a command in flight still has to move, are refused, and no other byte is (R95, R391, R407, U4; entry 22): a
RegisterAccess, a flush, a reset and an ExecIO in Complete move none (R80, R244, R274). That a command which a reset dropped
bars no byte of its buffer is the model's choice (R403, U14; entry 22). -/
def Obligations.OutsideActs : Prop :=
  ∀ s : State,
    outsideAct .reset s = .ok { State.reset with
        devInfo0 := ⟨.unknown, s.params.pmodeDefault⟩, devInfo1 := ⟨.unknown, s.params.pmodeDefault⟩
        timer := ⟨false, s.timer.deadline⟩, dbuf := s.dbuf, params := s.params, now := s.now, cmds := s.cmds
        mem := s.mem, bufs := s.bufs, env := s.env, host := s.host, breach := s.breach
        inbox := s.inbox, ret := s.ret }
    ∧ (∀ (id : Nat) (d : Desc), (s.cmd id).inUse = false → id < s.cmds.length →
        outsideAct (.prepare id d) s = .ok { s with cmds := s.cmds.set id (Command.fresh d) })
    ∧ (∀ d : Desc, outsideAct (.prepare s.cmds.length d) s = .ok { s with cmds := s.cmds ++ [Command.fresh d] })
    ∧ (∀ (id : Nat) (d : Desc), id < s.cmds.length → (s.cmd id).inUse = true →
        outsideAct (.prepare id d) s = .error .commandInUse)
    ∧ (∀ (h : Word) (off : Nat) (bs : List Byte), s.StoresWf → s.bufferCovers h off bs.length = true →
        off + bs.length ≤ 2 ^ 32 → (∀ id ∈ s.inFlight, ∀ k < bs.length, ¬ stillOwes (s.cmd id) h (off + k)) →
        ∃ m, outsideAct (.fill h off bs) s = .ok { s with mem := m } ∧ s.MemoryGot h off bs { s with mem := m })
    ∧ (∀ (h : Word) (off : Nat) (bs : List Byte) (id k : Nat), s.bufferCovers h off bs.length = true →
        off + bs.length ≤ 2 ^ 32 → id ∈ s.inFlight → k < bs.length → stillOwes (s.cmd id) h (off + k) →
        outsideAct (.fill h off bs) s = .error .bufferInUse)

/-- SUBMIT with a null command or target returns InvalidArgument and writes nothing else (R160). -/
def Obligations.SubmitNull : Prop :=
  ∀ (s : State) (r : Word) (target : Bool),
    exec (.submit none target) s = .next { s with ret := .status .invalidArgument }
      ∧ exec (.submit (some r) false) s = .next { s with ret := .status .invalidArgument }

/-- A command that R150 calls ill-formed is refused by every descriptor row (U3); W4 is asked of every opcode but
RegisterAccess (entry 10). The same of a command that the host submits inside a callback or a handler (U3, U11): no action
answers a next state when it came to one; and one in the host's next callback stops the action that makes this callback, here
the dispatch of an unknown opcode on an idle engine, while what the host would submit in a later one does not. -/
def Obligations.IllFormedRefused : Prop :=
  (∀ (d e : Desc) (i : Instr) (s : State), i ∈ commandRows d → i.desc = some e → hostBreach s = none →
    s.accepts e = false → exec i s = .refused .illFormedCommand)
    ∧ (∀ (i : Instr) (s t : State), exec i s = .next t → ∀ hs ∈ s.hostCalls t, ∀ h ∈ hs, s.accepts h.desc = true)
    ∧ ∀ (e : Desc) (s : State) (hs : List HostSubmit) (rest : List (List HostSubmit)),
      (Instr.opUnknown e).wellFormed = true → s.bus = .free → s.qstate = .opened → s.current = none → s.queue = [] →
      s.breach = none → s.accepts e = true → s.host = hs :: rest →
      (∀ h ∈ hs, s.accepts h.desc = false → ∃ r, exec (.opUnknown e) s = .refused r)
      ∧ (∀ h hs', hs = h :: hs' → h.reuse = none → s.accepts h.desc = false →
          exec (.opUnknown e) s = .refused .hostScriptIllFormed)
      ∧ (hs = [] → ∃ t, exec (.opUnknown e) s = .next t ∧ t.Finished ∧ t.host = rest)

/-- SUBMIT of a fresh record of the store is what the descriptor row does with the same words (R160; entry 8). -/
def Obligations.SubmitIsRow : Prop :=
  ∀ (d e : Desc) (i : Instr) (s : State) (r : Word), i ∈ commandRows d → i.desc = some e →
    (∀ id ∈ s.inFlight, id < s.cmds.length) → r.toNat = s.cmds.length →
    exec (.submit (some r) true) { s with cmds := s.cmds ++ [Command.fresh e] } = exec i s

/-- On a Busy bus every descriptor row only queues its command: Immediate after the Immediate ones at the head, another at
the tail (R160, R162, R164, R168). The whole next state is given. -/
def Obligations.BusySubmissionQueues : Prop :=
  ∀ (d e : Desc) (i : Instr) (s : State), i ∈ commandRows d → i.desc = some e → hostBreach s = none →
    s.accepts e = true → s.bus = .busy → (∀ id ∈ s.queue, id < s.cmds.length) →
    exec i s = .next { s with
      cmds := s.cmds ++ [{ Command.fresh e with inUse := true, state := phInitial }]
      queue :=
        if e.flags.imm then
          s.queue.takeWhile (fun k => (s.cmd k).flags.imm) ++ s.cmds.length ::
            s.queue.dropWhile (fun k => (s.cmd k).flags.imm)
        else s.queue ++ [s.cmds.length]
      ret := .status .noError }

/-- On an idle engine every descriptor row is dispatched at once, whatever the devices answer: it ends either delivered, its
callback called exactly once, or waiting as the one current, asynchronous command with its timer armed
(R90, R162, R170, R183, R335). -/
def Obligations.SubmissionSettles : Prop :=
  ∀ (d e : Desc) (i : Instr) (s : State), i ∈ commandRows d → i.desc = some e → s.Idle → s.accepts e = true →
    ∃ (t : State) (es : List Event), exec i s = .next t ∧ t.ret = .status .noError
      ∧ s.SameBut s.cmds.length t ∧ t.cmds.length = s.cmds.length + 1 ∧ t.trace = s.trace ++ es
      ∧ ((t.Waiting s.cmds.length ∧ callbacks es = [] ∧ (t.cmd s.cmds.length).inUse = true
            ∧ isExecOp (t.cmd s.cmds.length).opcode = true ∧ e.flags.noirq = false)
          ∨ (t.Finished ∧ callbacks es = [s.cmds.length] ∧ (t.cmd s.cmds.length).inUse = false
            ∧ (t.cmd s.cmds.length).state = phDone))

/-- SUBMIT of an initialised, accepted record on an idle engine: dispatched at once, delivered or waiting. -/
def Obligations.SubmitRecordSettles : Prop :=
  ∀ (s : State) (r : Word), s.Idle → r.toNat < s.cmds.length → (s.cmd r.toNat).inUse = false →
    initialised (s.cmd r.toNat) = true → s.accepts (s.cmd r.toNat).toDesc = true →
    ∃ (t : State) (es : List Event), exec (.submit (some r) true) s = .next t ∧ t.ret = .status .noError
      ∧ s.SameBut r.toNat t ∧ t.cmds.length = s.cmds.length ∧ t.trace = s.trace ++ es
      ∧ ((t.Waiting r.toNat ∧ callbacks es = [] ∧ (t.cmd r.toNat).inUse = true)
          ∨ (t.Finished ∧ callbacks es = [r.toNat] ∧ (t.cmd r.toNat).inUse = false
            ∧ (t.cmd r.toNat).state = phDone))

/-- SUBMIT refuses a record in use, an uninitialised or ill-formed one (R160, U3, U4); that it refuses a reference to no
record is the model's choice (entry 11). A nested SUBMIT likewise: where the host's first submission in the callback of an
unknown opcode names a record in use, or none, the action is refused; where it names the very record that is called back, the
command runs again (R89, R181). -/
def Obligations.SubmitRefuses : Prop :=
  (∀ (s : State) (r : Word), hostBreach s = none →
    (s.cmds.length ≤ r.toNat → exec (.submit (some r) true) s = .refused .noSuchCommand)
    ∧ (r.toNat < s.cmds.length → (s.cmd r.toNat).inUse = true →
        exec (.submit (some r) true) s = .refused .commandInUse)
    ∧ (r.toNat < s.cmds.length → (s.cmd r.toNat).inUse = false →
        (initialised (s.cmd r.toNat) && s.accepts (s.cmd r.toNat).toDesc) = false →
        exec (.submit (some r) true) s = .refused .illFormedCommand))
    ∧ ∀ (e d : Desc) (s : State) (k : Nat) (hs : List HostSubmit) (rest : List (List HostSubmit)),
      (Instr.opUnknown e).wellFormed = true → s.bus = .free → s.qstate = .opened → s.current = none → s.queue = [] →
      s.breach = none → s.accepts e = true → s.host = (⟨some k, d⟩ :: hs) :: rest →
      (k < s.cmds.length → (s.cmd k).inUse = true → exec (.opUnknown e) s = .refused .commandInUse)
      ∧ (s.cmds.length < k → exec (.opUnknown e) s = .refused .noSuchCommand)
      ∧ (k = s.cmds.length → d.opcode = 0x04#8 → s.accepts d = true → hs = [] → rest = [] →
          ∃ (t : State) (es : List Event), exec (.opUnknown e) s = .next t ∧ t.Finished ∧ t.trace = s.trace ++ es
            ∧ callbacks es = [k, k] ∧ t.cmd k = delivered .noError (Command.fresh d))

/-- R166, R168: `dequeueFirst` removes and returns the head, or reports an empty queue, and changes nothing else;
`canDispatch` is true exactly when the bus is Free and the queue is Open, or Locked with the gate Open and an Immediate
head. -/
def Obligations.DequeueAndDispatchTest : Prop :=
  ∀ (s : State), (s.queue = [] → dequeueFirst s = (none, s))
    ∧ (∀ (c : Nat) (rest : List Nat), s.queue = c :: rest → dequeueFirst s = (some c, { s with queue := rest }))
    ∧ (canDispatch s = true ↔ s.bus = .free ∧ (s.qstate = .opened ∨ (s.qstate = .locked ∧ s.igate = .opened
        ∧ ∃ c rest, s.queue = c :: rest ∧ (s.cmd c).flags.imm = true)))

/-- Where the Immediate commands stand before the others, `enqueue` keeps it so: an Immediate command comes after the
Immediate ones, another after all; the order of the others is kept (R164). -/
def Obligations.EnqueueKeepsOrder : Prop :=
  ∀ (s : State) (id : Nat), s.ImmediateFirst →
    (enqueue id s).ImmediateFirst
      ∧ (enqueue id s).queue =
          if (s.cmd id).flags.imm then
            s.queue.filter (fun k => (s.cmd k).flags.imm) ++ id :: s.queue.filter (fun k => !(s.cmd k).flags.imm)
          else s.queue ++ [id]

/-- P170 as an equation: `dispatchNext` is one dispatch whose nested calls are `dispatchNext` itself, in every state (R170,
R176). The bound that makes the definition structural changes nothing. -/
def Obligations.DispatchEquation : Prop :=
  ∀ s : State, dispatchNext s = dispatchStep dispatchNext s

/-! ## ExecIO -/

/-- An asynchronous ExecIO to a ready device whose first phase ends with the taskfile: non-data, PIO read, DMA, ATAPI
without a packet, and packet commands in the IRQFirst mode (R242, R251, R252, R260, R261, R331). Where the DMA hook answers
another code than NoError, no taskfile is written and the command ends with that code (R260). -/
def Obligations.TaskfileIssued : Prop :=
  ∀ (d e : Desc) (i : Instr) (u : UnitId) (s : State), i ∈ execRows d → i.desc = some e → e.isReset08 = false →
    s.Idle → s.accepts e = true → e.flags.noirq = false → UnitId.ofByte e.unit = some u → DeviceReady u e s →
    ((e.flags.dma = true → hasPacket (Command.fresh e) = false → s.env.startDma.head? = some .noError) →
    (if hasPacket (Command.fresh e) then (s.devInfo u).pmode = .irqFirst
      else isPIOWriteATA (Command.fresh e) = false) →
    ∃ t : State, exec i s = .next t ∧ t.Waiting s.cmds.length ∧ s.SameBut s.cmds.length t
      ∧ t.cmd s.cmds.length = { Command.fresh e with
          inUse := true
          state := if hasPacket (Command.fresh e) then phPacketIssue
            else if isPIOData (Command.fresh e) then phDataTransfer else phStatus }
      ∧ s.Did t (selectEvents u s ++ [.arm (e.timeoutMs.toNat * 1000)]
          ++ (if e.flags.dma && !hasPacket (Command.fresh e) then [.startDma .noError] else [])
          ++ taskfileEvents e)
      ∧ t.timer.deadline = s.now + e.timeoutMs.toNat * 1000 ∧ t.now = s.now ∧ t.selected = some u ∧ t.irqEn = true
      ∧ s.SameMemory t ∧ t.dbuf = s.dbuf ∧ t.ret = .status .noError)
    ∧ ∀ x : Result, e.flags.dma = true → hasPacket (Command.fresh e) = false → s.env.startDma.head? = some x →
      x ≠ .noError →
      ∃ t : State, exec i s = .next t ∧ t.selected = some u ∧ t.now = s.now ∧ t.ret = .status .noError
        ∧ s.EndedWith s.cmds.length (Command.fresh e)
            (selectEvents u s ++ [.arm (e.timeoutMs.toNat * 1000), .startDma x]) x t

/-- An asynchronous ATA PIO write to a ready device sends its first block in the same action (R255, R305, R308, R310). Where
the wait for DRQ fails, no data moves and the command ends with DeviceError or Timeout (R302, R303, R250). -/
def Obligations.FirstBlockWritten : Prop :=
  ∀ (d e : Desc) (i : Instr) (u : UnitId) (s : State), i ∈ [Instr.execio d, .execioAtaPioWr d] → i.desc = some e →
    e.isReset08 = false → s.Idle → s.accepts e = true → e.flags.noirq = false → isPIOWriteATA (Command.fresh e) = true →
    UnitId.ofByte e.unit = some u → DeviceReady u e s → 0 < e.byteCount.toNat →
    (okData (s.env.answer .altctl (selectSamples u s)) = true →
    ∃ t : State, exec i s = .next t ∧ t.Waiting s.cmds.length ∧ s.SameBut s.cmds.length t
      ∧ t.cmd s.cmds.length = { Command.fresh e with
          inUse := true
          actual := BitVec.ofNat 32 (min e.byteCount.toNat e.chunk.toNat)
          position := e.position + BitVec.ofNat 32 (min e.byteCount.toNat e.chunk.toNat)
          state := if e.byteCount.toNat ≤ e.chunk.toNat then phStatus else phDataTransfer }
      ∧ s.Did t (selectEvents u s ++ [.arm (e.timeoutMs.toNat * 1000)] ++ taskfileEvents e
          ++ [.r8 .altctl (s.env.answer .altctl (selectSamples u s))]
          ++ writeSliceEvents s.mem e.buf e.position.toNat (sliceSizes (min e.byteCount.toNat e.chunk.toNat)))
      ∧ t.selected = some u ∧ t.irqEn = true ∧ t.now = s.now ∧ s.SameMemory t ∧ t.ret = .status .noError)
    ∧ (NoData (selectSamples u s) s →
      ∃ (t : State) (n : Nat) (res : Result), exec i s = .next t ∧ t.selected = some u ∧ t.ret = .status .noError
        ∧ n ≤ (e.timeoutMs.toNat * 1000 + (s.params.tPoll - 1)) / s.params.tPoll ∧ s.now + n * s.params.tPoll ≤ t.now
        ∧ WaitEnds (selectSamples u s) n (s.now + e.timeoutMs.toNat * 1000 ≤ t.now) res s
        ∧ s.EndedWith s.cmds.length (Command.fresh e) (selectEvents u s ++ [.arm (e.timeoutMs.toNat * 1000)]
            ++ taskfileEvents e ++ pollEvents (selectSamples u s) n s) res t)

/-- An asynchronous packet command to a ready device in the DRQImmediate mode sends its packet in the same action; a DMA
command then starts the DMA (R252, R260, R262, R264, R135). Where the wait for DRQ fails, no packet is sent and the command
ends with DeviceError or Timeout; where the DMA hook answers another code than NoError, it ends with that code (R260, R262,
R250). -/
def Obligations.PacketSent : Prop :=
  ∀ (d e : Desc) (i : Instr) (u : UnitId) (s : State), i ∈ execRows d → i.desc = some e → e.isReset08 = false →
    s.Idle → s.accepts e = true → e.flags.noirq = false → hasPacket (Command.fresh e) = true →
    UnitId.ofByte e.unit = some u → (s.devInfo u).pmode = .drqImmediate → DeviceReady u e s →
    (okData (s.env.answer .altctl (selectSamples u s)) = true →
    (e.flags.dma = true → s.env.startDma.head? = some .noError) →
    ∃ t : State, exec i s = .next t ∧ t.Waiting s.cmds.length ∧ s.SameBut s.cmds.length t
      ∧ t.cmd s.cmds.length = { Command.fresh e with
          inUse := true, state := if isPIOData (Command.fresh e) then phDataTransfer else phStatus }
      ∧ s.Did t (selectEvents u s ++ [.arm (e.timeoutMs.toNat * 1000)] ++ taskfileEvents e
          ++ [.r8 .altctl (s.env.answer .altctl (selectSamples u s))] ++ packetEvents e
          ++ (if e.flags.dma then [.startDma .noError] else []))
      ∧ t.selected = some u ∧ t.irqEn = true ∧ t.now = s.now ∧ s.SameMemory t ∧ t.dbuf = s.dbuf
      ∧ t.ret = .status .noError)
    ∧ (NoData (selectSamples u s) s →
      ∃ (t : State) (n : Nat) (res : Result), exec i s = .next t ∧ t.selected = some u ∧ t.ret = .status .noError
        ∧ n ≤ s.params.nPkt ∧ n ≤ (e.timeoutMs.toNat * 1000 + (s.params.tPoll - 1)) / s.params.tPoll
        ∧ s.now + n * s.params.tPoll ≤ t.now
        ∧ WaitEnds (selectSamples u s) n (n = s.params.nPkt ∨ s.now + e.timeoutMs.toNat * 1000 ≤ t.now) res s
        ∧ s.EndedWith s.cmds.length (Command.fresh e) (selectEvents u s ++ [.arm (e.timeoutMs.toNat * 1000)]
            ++ taskfileEvents e ++ pollEvents (selectSamples u s) n s) res t)
    ∧ ∀ x : Result, okData (s.env.answer .altctl (selectSamples u s)) = true → e.flags.dma = true →
      s.env.startDma.head? = some x → x ≠ .noError →
      ∃ t : State, exec i s = .next t ∧ t.selected = some u ∧ t.now = s.now ∧ t.ret = .status .noError
        ∧ s.EndedWith s.cmds.length (Command.fresh e) (selectEvents u s ++ [.arm (e.timeoutMs.toNat * 1000)]
            ++ taskfileEvents e ++ pollEvents (selectSamples u s) 0 s ++ packetEvents e ++ [.startDma x]) x t

/-- A synchronous ExecIO completes inside the action that dispatched it, whatever the devices answer: it is delivered, its
callback the last event (R247, R248, R335). One whose selection succeeded has written nIEN, and ends with its unit selected
and `irqEn` 0; one whose selection failed leaves `irqEn` alone (R206, R247); on a ready device the write of nIEN follows the
selection and the start of the timer. A PIO read changes, of all the memory, at most the bytes of its buffer from `position`
on that it counted in `actual`, never more than `byteCount` (R80, R309, R314); any other command changes none. That a DMA
command changes none is the model's choice (entry 20). -/
def Obligations.SynchronousCompletes : Prop :=
  ∀ (d e : Desc) (i : Instr) (s : State), i ∈ execRows d → i.desc = some e → e.isReset08 = false → s.Idle →
    s.accepts e = true → e.flags.noirq = true →
    ∃ (t : State) (es : List Event) (r : Result), exec i s = .next t ∧ t.Finished ∧ s.SameBut s.cmds.length t
      ∧ (t.cmd s.cmds.length).state = phDone ∧ (t.cmd s.cmds.length).inUse = false
      ∧ t.trace = s.trace ++ es ++ completionEvents s.cmds.length r (t.cmd s.cmds.length).result
      ∧ callbacks es = [] ∧ s.now ≤ t.now ∧ t.ret = .status .noError
      ∧ (if t.selected = none then t.irqEn = s.irqEn else t.irqEn = false ∧ t.selected = UnitId.ofByte e.unit)
      ∧ (∀ u, UnitId.ofByte e.unit = some u → DeviceReady u e s → t.selected = some u
          ∧ ∃ rest, es = withBars (selectEvents u s ++ [.arm (e.timeoutMs.toNat * 1000), .w8 .altctl 0x02#8]) ++ rest)
      ∧ ((e.flags.rd && !e.flags.dma) = false → s.SameMemory t)
      ∧ (t.cmd s.cmds.length).actual.toNat ≤ e.byteCount.toNat
      ∧ (s.StoresWf → ∀ a, (a < Memory.addr e.buf e.position.toNat
            ∨ Memory.addr e.buf e.position.toNat + (t.cmd s.cmds.length).actual.toNat ≤ a) →
          Memory.get t.mem a = Memory.get s.mem a)

/-- Selection failure of an ExecIO: an invalid unit, a device that holds DRQ, or one that is BUSY or not ready until a poll
of the selection is used up. Without noirq the completion is deferred to the timer; with noirq the command ends with
Offline at once. No taskfile register is written (R201, R203, R204, R206, R244). -/
def Obligations.SelectionFailure : Prop :=
  ∀ (d e : Desc) (i : Instr) (s : State) (code : Result) (es : List Event) (n : Nat), i ∈ execRows d →
    i.desc = some e → e.isReset08 = false → s.Idle → s.accepts e = true → SelectFails e s code es n →
    ∃ (t : State) (r : Result), exec i s = .next t ∧ s.SameBut s.cmds.length t ∧ t.selected = none
      ∧ t.irqEn = s.irqEn ∧ s.now + n * s.params.tPoll ≤ t.now ∧ (n = 0 → t.now = s.now) ∧ s.SameMemory t
      ∧ t.dbuf = s.dbuf ∧ t.ret = .status .noError
      ∧ (if e.flags.noirq then
          t.Finished ∧ t.cmd s.cmds.length = delivered .offline (Command.fresh e)
            ∧ s.Did t (es ++ completionEvents s.cmds.length r .offline)
        else
          t.Waiting s.cmds.length ∧ t.timer.deadline = t.now + s.params.tSelFail
            ∧ t.cmd s.cmds.length = { Command.fresh e with inUse := true, state := phComplete }
            ∧ s.Did t (es ++ [.arm s.params.tSelFail]))

/-- Every failure of `selectDevice` clears the cache and leaves `irqEn` as it was (R206). -/
def Obligations.SelectFailureInvalidates : Prop :=
  ∀ (unit : Byte) (s : State), (selectDevice unit s).1 ≠ .noError →
    (selectDevice unit s).2.selected = none ∧ (selectDevice unit s).2.irqEn = s.irqEn

/-- A selection that succeeds ends with the write of 0x00 to Device Control, caches its unit and re-enables interrupts
(R205); a cached unit is not selected again: no write of Device/Head (R202, R207). -/
def Obligations.SelectCaches : Prop :=
  ∀ (unit : Byte) (u : UnitId) (s : State), UnitId.ofByte unit = some u →
    ((selectDevice unit s).1 = .noError →
        (selectDevice unit s).2.selected = some u ∧ (selectDevice unit s).2.irqEn = true
          ∧ ∃ es, (selectDevice unit s).2.trace = s.trace ++ es ++ [.w8 .altctl 0x00#8, .bar])
    ∧ (s.selected = some u → ∃ es, (selectDevice unit s).2.trace = s.trace ++ es ∧ ∀ v, .w8 .devhead v ∉ es)

/-- A poll sleeps at most its budget and ends with NoError exactly on a sample that passes; where its abort condition never
says Timeout, it ends with Timeout only after its whole budget (R200). -/
def Obligations.PollBounded : Prop :=
  ∀ (ok : Byte → Bool) (abort : Byte → State → Option Result) (n : Nat) (s : State),
    (∀ v t, abort v t ≠ some .noError) →
    ∃ es, (pollStatus ok abort n s).state.trace = s.trace ++ es
      ∧ (es.filter (fun e => e == .sleep s.params.tPoll)).length ≤ n
      ∧ ((pollStatus ok abort n s).code = .noError ↔ ok (pollStatus ok abort n s).sample = true)
      ∧ ((∀ v t, abort v t ≠ some .timeout) → (pollStatus ok abort n s).code = .timeout →
          (es.filter (fun e => e == .sleep s.params.tPoll)).length = n)

/-! ## RegisterAccess -/

/-- A register read on a ready device: each masked register is read once, in the order of R276, and its value is what the
command's field holds afterwards; unmasked fields keep their values (R274, R276, R132). -/
def Obligations.RegisterReadCompletes : Prop :=
  ∀ (d e : Desc) (i : Instr) (u : UnitId) (s : State), i ∈ [Instr.regacc d, .regaccRd d] → i.desc = some e →
    e.flags.wr = false → s.Idle → s.accepts e = true → UnitId.ofByte e.unit = some u → DeviceReady u e s →
    ∃ (t : State) (v : ReadValues) (r : Result), exec i s = .next t ∧ t.Finished ∧ s.SameBut s.cmds.length t
      ∧ s.Did t (selectEvents u s ++ registerReadEvents e 0x00#8 v ++ completionEvents s.cmds.length r .noError)
      ∧ t.cmd s.cmds.length = { delivered .noError (Command.fresh e) with
          tf := tfAfterRead e v, ext := extAfterRead e v }
      ∧ t.selected = some u ∧ t.irqEn = true ∧ t.now = s.now ∧ s.SameMemory t ∧ t.dbuf = s.dbuf ∧ t.ret = .status .noError

/-- A register write on a ready device: each masked register is written, in the order of R276; a Device/Head write clears
the selection cache, a Device Control write sets `irqEn` (R274, R276, R132, R30). -/
def Obligations.RegisterWriteCompletes : Prop :=
  ∀ (d e : Desc) (i : Instr) (u : UnitId) (s : State), i ∈ [Instr.regacc d, .regaccWr d] → i.desc = some e →
    e.flags.wr = true → s.Idle → s.accepts e = true → UnitId.ofByte e.unit = some u → DeviceReady u e s →
    ∃ (t : State) (r : Result), exec i s = .next t ∧ t.Finished ∧ s.SameBut s.cmds.length t
      ∧ s.Did t (selectEvents u s ++ registerWriteEvents e ++ completionEvents s.cmds.length r .noError)
      ∧ t.cmd s.cmds.length = delivered .noError (Command.fresh e)
      ∧ t.selected = (if e.regMask.getLsbD 6 then none else some u)
      ∧ t.irqEn = (if e.regMask.getLsbD 8 then !e.tf.ctl.getLsbD 1 else true)
      ∧ t.now = s.now ∧ s.SameMemory t ∧ t.dbuf = s.dbuf ∧ t.ret = .status .noError

/-- A RegisterAccess whose selection fails completes at once, with InvalidArgument for an invalid unit, with DeviceBusy for
a device that holds DRQ, or is BUSY until a poll of the selection is used up; no register of its mask is accessed (R201,
R203, R204, R206, R274). -/
def Obligations.RegisterAccessFails : Prop :=
  ∀ (d e : Desc) (i : Instr) (s : State) (code : Result) (es : List Event) (n : Nat),
    i ∈ [Instr.regacc d, .regaccRd d, .regaccWr d] → i.desc = some e → s.Idle → s.accepts e = true →
    SelectFails e s code es n →
    ∃ (t : State) (r : Result), exec i s = .next t ∧ t.Finished ∧ s.SameBut s.cmds.length t
      ∧ s.Did t (es ++ completionEvents s.cmds.length r code)
      ∧ t.cmd s.cmds.length = delivered code (Command.fresh e) ∧ t.selected = none ∧ t.irqEn = s.irqEn
      ∧ s.now + n * s.params.tPoll ≤ t.now ∧ (n = 0 → t.now = s.now) ∧ s.SameMemory t ∧ t.dbuf = s.dbuf
      ∧ t.ret = .status .noError

/-! ## BusReset, QueueFlush, unknown opcodes -/

/-- A whole-bus reset of a bus that answers at once, also as a reclassified ExecIO, whose opcode field becomes 0x05: SRST
held and released, settle time, poll, event callout, completion; interrupts on, cache clear (R145, R210, R212, R213, R280,
R285). -/
def Obligations.WholeBusReset : Prop :=
  ∀ (d e : Desc) (i : Instr) (s : State) (v : Byte),
    i ∈ [Instr.busreset d, .busresetAta d, .execioReset08 d] → i.desc = some e → e.flags.atapi = false → s.Idle →
    s.accepts e = true → s.env.altctl.head? = some v → okReady (s.devInfo0.type == .ata) v = true →
    ∃ (t : State) (r : Result), exec i s = .next t ∧ t.Finished ∧ s.SameBut s.cmds.length t
      ∧ s.Did t ([.w8 .altctl 0x04#8, .sleep s.params.tSrstHold, .w8 .altctl 0x00#8, .sleep s.params.tSettle,
            .r8 .altctl v] ++ notifyEvents s.params 0x01#8 0xFF#8 ++ completionEvents s.cmds.length r .noError)
      ∧ t.cmd s.cmds.length = { delivered .noError (Command.fresh e) with opcode := 0x05#8 }
      ∧ t.selected = none ∧ t.irqEn = true ∧ s.now + s.params.tSrstHold + s.params.tSettle ≤ t.now
      ∧ s.SameMemory t ∧ t.dbuf = s.dbuf ∧ t.ret = .status .noError

/-- A reset whose readiness poll runs out ends with Timeout after one reset and the whole budget of samples, and the callout
still runs (R214, R284). Whole-bus form, also as a reclassified ExecIO: no sample has BUSY clear and, where unit 0 is an ATA
device, READY set (R210, R212, R213, R285). ATAPI-scoped form, also as either reclassified row, of a unit of ATAPI type: BUSY
in every sample; the callout is about the unit, and `irqEn` stays (R211, R213, R282, R283). The samples are taken to be
scripted, so that no other draw comes between them (entry 4). -/
def Obligations.ResetTimesOut : Prop :=
  ∀ (d e : Desc) (i : Instr) (s : State), i.desc = some e → s.Idle → s.accepts e = true → s.env.altctl ≠ [] →
    (i ∈ [Instr.busreset d, .busresetAta d, .execioReset08 d] → e.flags.atapi = false →
      (∀ j ≤ s.params.nReset, okReady (s.devInfo0.type == .ata) (s.env.answer .altctl j) = false) →
      ∃ (t : State) (r : Result), exec i s = .next t ∧ t.Finished ∧ s.SameBut s.cmds.length t
        ∧ s.Did t ([.w8 .altctl 0x04#8, .sleep s.params.tSrstHold, .w8 .altctl 0x00#8, .sleep s.params.tSettle]
            ++ pollEvents 0 s.params.nReset s ++ notifyEvents s.params 0x01#8 0xFF#8
            ++ completionEvents s.cmds.length r .timeout)
        ∧ t.cmd s.cmds.length = { delivered .timeout (Command.fresh e) with opcode := 0x05#8 }
        ∧ t.selected = none ∧ t.irqEn = true
        ∧ s.now + s.params.tSrstHold + s.params.tSettle + s.params.nReset * s.params.tPoll ≤ t.now
        ∧ s.SameMemory t ∧ t.dbuf = s.dbuf ∧ t.ret = .status .noError)
    ∧ ∀ u : UnitId, i ∈ [Instr.busreset d, .busresetAtapi d, .execioReset08 d, .atapiExecioReset08 d] →
      e.flags.atapi = true → UnitId.ofByte e.unit = some u → (s.devInfo u).type = .atapi →
      (∀ j ≤ s.params.nReset, bsy (s.env.answer .altctl j) = true) →
      ∃ (t : State) (r : Result), exec i s = .next t ∧ t.Finished ∧ s.SameBut s.cmds.length t
        ∧ s.Did t ([.w8 .devhead u.selectValue, .w8 .statcmd 0x08#8, .sleep s.params.tSettle]
            ++ pollEvents 0 s.params.nReset s ++ notifyEvents s.params 0x02#8 u.code
            ++ completionEvents s.cmds.length r .timeout)
        ∧ t.cmd s.cmds.length = { delivered .timeout (Command.fresh e) with opcode := 0x05#8 }
        ∧ t.selected = none ∧ t.irqEn = s.irqEn
        ∧ s.now + s.params.tSettle + s.params.nReset * s.params.tPoll ≤ t.now
        ∧ s.SameMemory t ∧ t.dbuf = s.dbuf ∧ t.ret = .status .noError

/-- An ATAPI-scoped reset of a unit of ATAPI type: select write, DEVICE RESET, settle time, poll for not busy, callout about
the unit (R211, R213, R282, R283, R285). -/
def Obligations.UnitReset : Prop :=
  ∀ (d e : Desc) (i : Instr) (u : UnitId) (s : State) (v : Byte),
    i ∈ [Instr.busreset d, .busresetAtapi d, .execioReset08 d, .atapiExecioReset08 d] → i.desc = some e →
    e.flags.atapi = true → s.Idle → s.accepts e = true → UnitId.ofByte e.unit = some u →
    (s.devInfo u).type = .atapi → s.env.altctl.head? = some v → bsy v = false →
    ∃ (t : State) (r : Result), exec i s = .next t ∧ t.Finished ∧ s.SameBut s.cmds.length t
      ∧ s.Did t ([.w8 .devhead u.selectValue, .w8 .statcmd 0x08#8, .sleep s.params.tSettle, .r8 .altctl v]
          ++ notifyEvents s.params 0x02#8 u.code ++ completionEvents s.cmds.length r .noError)
      ∧ t.cmd s.cmds.length = { delivered .noError (Command.fresh e) with opcode := 0x05#8 }
      ∧ t.selected = none ∧ t.irqEn = s.irqEn ∧ s.SameMemory t ∧ t.dbuf = s.dbuf ∧ t.ret = .status .noError

/-- An ATAPI-scoped reset of a unit of another type makes no port access but calls the handlers; of an invalid unit it ends
with InvalidArgument, without a callout (R281, R282). -/
def Obligations.UnitResetElsewhere : Prop :=
  ∀ (d e : Desc) (i : Instr) (s : State),
    i ∈ [Instr.busreset d, .busresetAtapi d, .execioReset08 d, .atapiExecioReset08 d] → i.desc = some e →
    e.flags.atapi = true → s.Idle → s.accepts e = true →
    (∀ u, UnitId.ofByte e.unit = some u → (s.devInfo u).type ≠ .atapi →
      ∃ (t : State) (r : Result), exec i s = .next t ∧ t.Finished ∧ s.SameBut s.cmds.length t
        ∧ s.Did t (notifyEvents s.params 0x02#8 u.code ++ completionEvents s.cmds.length r .noError)
        ∧ t.cmd s.cmds.length = { delivered .noError (Command.fresh e) with opcode := 0x05#8 }
        ∧ t.selected = s.selected ∧ t.irqEn = s.irqEn ∧ t.now = s.now ∧ s.SameMemory t ∧ t.dbuf = s.dbuf)
    ∧ (UnitId.ofByte e.unit = none →
      ∃ (t : State) (r : Result), exec i s = .next t ∧ t.Finished ∧ s.SameBut s.cmds.length t
        ∧ s.Did t (completionEvents s.cmds.length r .invalidArgument)
        ∧ t.cmd s.cmds.length = { delivered .invalidArgument (Command.fresh e) with opcode := 0x05#8 }
        ∧ t.selected = s.selected ∧ t.irqEn = s.irqEn ∧ t.now = s.now ∧ s.SameMemory t ∧ t.dbuf = s.dbuf)

/-- A QueueFlush dispatched at once, with nothing queued or, an Immediate one, before a queue of non-Immediate commands: it
cancels each of them, head first, and then completes with NoError; for a victim there is neither DISARM nor STOPDMA
(R288, R164). -/
def Obligations.FlushCancels : Prop :=
  ∀ (d : Desc) (s : State), s.bus = .free → s.qstate = .opened → s.current = none → s.host = [] →
    s.timer.armed = false → hostBreach s = none → s.accepts (d.asOp 0x04#8) = true →
    (s.queue = [] ∨ d.flags.imm = true) → s.queue.Nodup → (∀ k ∈ s.queue, k < s.cmds.length ∧ (s.cmd k).flags.imm = false ∧ (s.cmd k).result = .unset) →
    ∃ (t : State) (r : Result), exec (.qflush d) s = .next t ∧ t.Finished
      ∧ s.Did t (s.queue.map (fun k => .callback k .cancelled) ++ completionEvents s.cmds.length r .noError)
      ∧ (∀ k ∈ s.queue, t.cmd k = delivered .cancelled (s.cmd k))
      ∧ (∀ k, k ∉ s.queue → k < s.cmds.length → t.cmd k = s.cmd k)
      ∧ t.cmd s.cmds.length = delivered .noError (Command.fresh (d.asOp 0x04#8))
      ∧ t.selected = s.selected ∧ t.irqEn = s.irqEn ∧ t.devInfo0 = s.devInfo0 ∧ t.devInfo1 = s.devInfo1
      ∧ t.now = s.now ∧ s.SameMemory t ∧ t.dbuf = s.dbuf ∧ t.ret = .status .noError

/-- An unknown opcode is dispatched and completed at once with InvalidArgument; no register is touched (R144). -/
def Obligations.UnknownOpcodeCompletes : Prop :=
  ∀ (e : Desc) (s : State), (Instr.opUnknown e).wellFormed = true → s.Idle → s.accepts e = true →
    ∃ (t : State) (r : Result), exec (.opUnknown e) s = .next t ∧ t.Finished ∧ s.SameBut s.cmds.length t
      ∧ s.Did t (completionEvents s.cmds.length r .invalidArgument)
      ∧ t.cmd s.cmds.length = delivered .invalidArgument (Command.fresh e)
      ∧ t.selected = s.selected ∧ t.irqEn = s.irqEn ∧ t.now = s.now ∧ s.SameMemory t ∧ t.dbuf = s.dbuf
      ∧ t.ret = .status .noError

/-! ## IRQ -/

/-- IRQ with interrupts disabled is dropped (R360 a). -/
def Obligations.IrqDropped : Prop :=
  ∀ s : State, s.irqEn = false → exec .irq s = .next { s with ret := .nothing }

/-- IRQ with no current command, or one it does not advance, only reads Status; the whole next state is given
(R360 b, c). -/
def Obligations.IrqAcknowledged : Prop :=
  ∀ s : State, s.irqEn = true → (∀ id, s.current = some id →
      (s.cmd id).flags.noirq = true ∨ isExecOp (s.cmd id).opcode = false ∨ (s.cmd id).state = phComplete) →
    exec .irq s = .next { s with
      env := s.env.byteRead .statcmd
      traceRev := .bar :: .r8 .statcmd (s.env.answer .statcmd 0) :: s.traceRev
      ret := .nothing }

/-- IRQ that ends its command. In state Status: Status is acknowledged, Status and Error are read, the registers captured if
asked for, and the command is delivered with DeviceError or NoError by the ERR bit (R246, R257, R270, R271, R360). In
PacketIssue, or in DataTransfer with bytes to move, where the wait for DRQ fails: it is delivered with DeviceError or
Timeout, and nothing has been moved (R250, R262, R302, R303, R322). -/
def Obligations.IrqEndsCommand : Prop :=
  ∀ (s : State) (id : Nat), s.Running id → s.irqEn = true →
    ((s.cmd id).state = phStatus →
      ∃ (t : State) (st er : Byte) (v : ReadValues) (r : Result), exec .irq s = .next t ∧ t.Finished ∧ s.SameBut id t
        ∧ s.Did t ([.r8 .statcmd (s.env.answer .statcmd 0), .r8 .statcmd st, .r8 .errfeat er]
            ++ captureEvents (s.cmd id).toDesc 0x00#8 v
            ++ completionEvents id r (if err st then .deviceError else .noError))
        ∧ st = s.env.answer .statcmd 1
        ∧ t.cmd id = delivered (if err st then .deviceError else .noError) (withStatus (s.cmd id) st er v)
        ∧ t.selected = s.selected ∧ t.irqEn = true ∧ t.now = s.now ∧ s.SameMemory t ∧ t.dbuf = s.dbuf)
    ∧ (s.timer.armed = true → NoData 0 s →
      (s.cmd id).state = phPacketIssue ∨ (s.cmd id).state = phDataTransfer ∧ 0 < remaining (s.cmd id) →
      ∃ (t : State) (n : Nat) (res : Result), exec .irq s = .next t ∧ t.selected = s.selected
        ∧ n ≤ deadlineSleeps s ∧ ((s.cmd id).state = phPacketIssue → n ≤ s.params.nPkt)
        ∧ s.now + n * s.params.tPoll ≤ t.now
        ∧ WaitEnds 0 n (s.timer.deadline ≤ t.now ∨ (s.cmd id).state = phPacketIssue ∧ n = s.params.nPkt) res s
        ∧ s.EndedWith id (s.cmd id) (.r8 .statcmd (s.env.answer .statcmd 0) :: pollEvents 0 n s) res t)

/-- IRQ for an ATA PIO read with more to come after this block: the block is read into the command's buffer and nothing else
of the memory changes (R254, R305, R308, R309, R314). -/
def Obligations.IrqReadsBlock : Prop :=
  ∀ (s : State) (id : Nat) (a : Byte), s.Running id → s.StoresWf → s.irqEn = true → s.timer.armed = true →
    (s.cmd id).state = phDataTransfer → (s.cmd id).flags.atapi = false → (s.cmd id).flags.rd = true →
    (s.cmd id).chunk.toNat < remaining (s.cmd id) → s.env.altctl.head? = some a → okData a = true →
    ∃ (t : State) (bs : List Byte), exec .irq s = .next t ∧ t.Waiting id ∧ s.SameBut id t
      ∧ bs.length = (s.cmd id).chunk.toNat
      ∧ s.Did t ([.r8 .statcmd (s.env.answer .statcmd 0), .r8 .altctl a]
          ++ readSliceEvents (s.cmd id).buf (s.cmd id).position.toNat (sliceSizes (s.cmd id).chunk.toNat) bs)
      ∧ s.MemoryGot (s.cmd id).buf (s.cmd id).position.toNat bs t
      ∧ t.cmd id = { s.cmd id with
          actual := (s.cmd id).actual + (s.cmd id).chunk, position := (s.cmd id).position + (s.cmd id).chunk }
      ∧ t.timer = s.timer ∧ t.selected = s.selected ∧ t.irqEn = true ∧ t.now = s.now

/-- IRQ for an ATA PIO read whose last block this is: the block is read and the status phase follows in the same action
(R254, R256, R305, R309, R314, R270). -/
def Obligations.IrqReadsLastBlock : Prop :=
  ∀ (s : State) (id : Nat) (a : Byte), s.Running id → s.StoresWf → s.irqEn = true → s.timer.armed = true →
    (s.cmd id).state = phDataTransfer → (s.cmd id).flags.atapi = false → (s.cmd id).flags.rd = true →
    (s.cmd id).flags.wr = false → 0 < remaining (s.cmd id) → remaining (s.cmd id) ≤ (s.cmd id).chunk.toNat →
    s.env.altctl.head? = some a → okData a = true →
    ∃ (t : State) (bs : List Byte) (st er : Byte) (v : ReadValues) (r : Result),
      exec .irq s = .next t ∧ t.Finished ∧ s.SameBut id t ∧ bs.length = remaining (s.cmd id)
      ∧ s.Did t ([.r8 .statcmd (s.env.answer .statcmd 0), .r8 .altctl a]
          ++ readSliceEvents (s.cmd id).buf (s.cmd id).position.toNat (sliceSizes (remaining (s.cmd id))) bs
          ++ [.r8 .statcmd st, .r8 .errfeat er] ++ captureEvents (s.cmd id).toDesc 0x00#8 v
          ++ completionEvents id r (if err st then .deviceError else .noError))
      ∧ s.MemoryGot (s.cmd id).buf (s.cmd id).position.toNat bs t
      ∧ t.cmd id = delivered (if err st then .deviceError else .noError) (withStatus { s.cmd id with
          actual := (s.cmd id).byteCount
          position := (s.cmd id).position + BitVec.ofNat 32 (remaining (s.cmd id)) } st er v)
      ∧ t.selected = s.selected ∧ t.irqEn = true

/-- IRQ for an ATAPI PIO read: as many bytes as the device reports, at most those still expected, go to the buffer; the
rest of what it reports is drained (R306, R309, R311, R312, R314, R133). -/
def Obligations.IrqReadsDeviceBlock : Prop :=
  ∀ (s : State) (id : Nat) (a lo hi : Byte), s.Running id → s.StoresWf → s.irqEn = true → s.timer.armed = true →
    (s.cmd id).state = phDataTransfer → (s.cmd id).flags.atapi = true → (s.cmd id).flags.rd = true →
    0 < remaining (s.cmd id) → s.env.altctl.head? = some a → okData a = true →
    s.env.cyllo.head? = some lo → s.env.cylhi.head? = some hi →
    ∃ (t : State) (bs drained : List Byte), exec .irq s = .next t ∧ t.Waiting id ∧ s.SameBut id t
      ∧ bs.length = min (hi.toNat * 256 + lo.toNat) (remaining (s.cmd id))
      ∧ bs.length + drained.length = hi.toNat * 256 + lo.toNat
      ∧ s.Did t ([.r8 .statcmd (s.env.answer .statcmd 0), .r8 .altctl a, .r8 .cyllo lo, .r8 .cylhi hi]
          ++ readSliceEvents (s.cmd id).buf (s.cmd id).position.toNat (sliceSizes bs.length) bs
          ++ dataReads drained)
      ∧ s.MemoryGot (s.cmd id).buf (s.cmd id).position.toNat bs t
      ∧ t.cmd id = { s.cmd id with
          actual := (s.cmd id).actual + BitVec.ofNat 32 bs.length
          position := (s.cmd id).position + BitVec.ofNat 32 bs.length
          state := if bs.length = remaining (s.cmd id) then phStatus else phDataTransfer }
      ∧ t.timer = s.timer ∧ t.selected = s.selected ∧ t.irqEn = true ∧ t.now = s.now

/-- IRQ for a PIO write. ATA: the next block, `min(remaining, chunk)` bytes, is sent (R254, R256, R305, R308, R310, R314).
ATAPI: the device gets as many bytes as it reports, zeros after the command's last byte (R306, R310, R311, R312, R314,
R133). The memory is as before. -/
def Obligations.IrqWritesBlock : Prop :=
  ∀ (s : State) (id : Nat) (a : Byte), s.Running id → s.irqEn = true → s.timer.armed = true →
    (s.cmd id).state = phDataTransfer → (s.cmd id).flags.rd = false → 0 < remaining (s.cmd id) →
    s.env.altctl.head? = some a → okData a = true →
    ((s.cmd id).flags.atapi = false → (s.cmd id).flags.wr = true →
      ∃ t : State, exec .irq s = .next t ∧ t.Waiting id ∧ s.SameBut id t
        ∧ s.Did t ([.r8 .statcmd (s.env.answer .statcmd 0), .r8 .altctl a]
            ++ writeSliceEvents s.mem (s.cmd id).buf (s.cmd id).position.toNat
                (sliceSizes (min (remaining (s.cmd id)) (s.cmd id).chunk.toNat)))
        ∧ s.SameMemory t
        ∧ t.cmd id = { s.cmd id with
            actual := (s.cmd id).actual + BitVec.ofNat 32 (min (remaining (s.cmd id)) (s.cmd id).chunk.toNat)
            position := (s.cmd id).position + BitVec.ofNat 32 (min (remaining (s.cmd id)) (s.cmd id).chunk.toNat)
            state := if remaining (s.cmd id) ≤ (s.cmd id).chunk.toNat then phStatus else phDataTransfer }
        ∧ t.timer = s.timer ∧ t.selected = s.selected ∧ t.irqEn = true ∧ t.now = s.now)
    ∧ ∀ lo hi : Byte, (s.cmd id).flags.atapi = true → s.env.cyllo.head? = some lo → s.env.cylhi.head? = some hi →
      ∃ t : State, exec .irq s = .next t ∧ t.Waiting id ∧ s.SameBut id t
        ∧ s.Did t ([.r8 .statcmd (s.env.answer .statcmd 0), .r8 .altctl a, .r8 .cyllo lo, .r8 .cylhi hi]
            ++ writeSliceEvents s.mem (s.cmd id).buf (s.cmd id).position.toNat
                (sliceSizes (min (hi.toNat * 256 + lo.toNat) (remaining (s.cmd id))))
            ++ dataWrites (List.replicate
                (hi.toNat * 256 + lo.toNat - min (hi.toNat * 256 + lo.toNat) (remaining (s.cmd id))) 0x00#8))
        ∧ s.SameMemory t
        ∧ t.cmd id = { s.cmd id with
            actual := (s.cmd id).actual
              + BitVec.ofNat 32 (min (hi.toNat * 256 + lo.toNat) (remaining (s.cmd id)))
            position := (s.cmd id).position
              + BitVec.ofNat 32 (min (hi.toNat * 256 + lo.toNat) (remaining (s.cmd id)))
            state := if remaining (s.cmd id) ≤ hi.toNat * 256 + lo.toNat then phStatus else phDataTransfer }
        ∧ t.timer = s.timer ∧ t.selected = s.selected ∧ t.irqEn = true ∧ t.now = s.now

/-- IRQ for a packet command that waits for it (IRQFirst): the packet is sent and a DMA command's DMA is started (R252,
R253, R262, R264); where the DMA hook answers another code than NoError, the command ends with that code (R260, R250). -/
def Obligations.IrqSendsPacket : Prop :=
  ∀ (s : State) (id : Nat) (a : Byte), s.Running id → s.irqEn = true → s.timer.armed = true →
    (s.cmd id).state = phPacketIssue → s.env.altctl.head? = some a → okData a = true →
    (((s.cmd id).flags.dma = true → s.env.startDma.head? = some .noError) →
      ∃ t : State, exec .irq s = .next t ∧ t.Waiting id ∧ s.SameBut id t
        ∧ s.Did t ([.r8 .statcmd (s.env.answer .statcmd 0), .r8 .altctl a] ++ packetEvents (s.cmd id).toDesc
            ++ (if (s.cmd id).flags.dma then [.startDma .noError] else []))
        ∧ t.cmd id = { s.cmd id with state := if isPIOData (s.cmd id) then phDataTransfer else phStatus }
        ∧ t.timer = s.timer ∧ t.selected = s.selected ∧ t.irqEn = true ∧ t.now = s.now ∧ s.SameMemory t
        ∧ t.dbuf = s.dbuf)
    ∧ ∀ x : Result, (s.cmd id).flags.dma = true → s.env.startDma.head? = some x → x ≠ .noError →
      ∃ t : State, exec .irq s = .next t ∧ t.selected = s.selected ∧ t.now = s.now
        ∧ s.EndedWith id (s.cmd id) ([.r8 .statcmd (s.env.answer .statcmd 0), .r8 .altctl a]
            ++ packetEvents (s.cmd id).toDesc ++ [.startDma x]) x t

/-! ## EXPIRE, SCAN, CONFIG -/

/-- EXPIRE ends the current command with Timeout; a DMA command's DMA is stopped first (R336, R338). -/
def Obligations.ExpireEndsCommand : Prop :=
  ∀ (s : State) (id : Nat), s.Running id → s.timer.armed = true → s.timer.deadline ≤ s.now →
    ∃ (t : State) (st er : Byte) (v : ReadValues) (r r' : Result), exec .expire s = .next t ∧ t.Finished
      ∧ s.SameBut id t
      ∧ s.Did t ((if (s.cmd id).flags.dma then [.stopDma r'] else []) ++ [.r8 .statcmd st, .r8 .errfeat er]
          ++ captureEvents (s.cmd id).toDesc (if s.irqEn then 0x00#8 else 0x02#8) v ++ completionEvents id r .timeout)
      ∧ t.cmd id = delivered .timeout (withStatus (s.cmd id) st er v)
      ∧ t.selected = s.selected ∧ t.irqEn = s.irqEn ∧ t.now = s.now ∧ s.SameMemory t ∧ t.dbuf = s.dbuf

/-- The actions that the spec does not admit are refused: EXPIRE that is not enabled (R336), SCAN with a command current or
a callout in progress (R220, U8), CONFIG of another unit (R292, U8). -/
def Obligations.NotAdmitted : Prop :=
  (∀ s : State, s.timer.armed = false ∨ s.now < s.timer.deadline → exec .expire s = .refused .expireNotEnabled)
    ∧ (∀ s : State, s.current ≠ none ∨ s.snap ≠ [] → exec .scan s = .refused .scanNotAdmitted)
    ∧ (∀ (s : State) (u : Byte) (m : PMode), u ≠ 0#8 → u ≠ 1#8 → exec (.config u m) s = .refused .configUnit)

/-- SCAN answers whatever the devices do: it selects nothing, and changes only the device table, the cache and `irqEn`. Where
its first poll shows BUSY clear it counts the units it classified; on a bus stuck busy it leaves the table alone and returns
0 (R220 to R228). -/
def Obligations.ScanSettles : Prop :=
  ∀ s : State, s.current = none → s.snap = [] →
    ∃ (t : State) (n : Nat), exec .scan s = .next t ∧ t.ret = .count n ∧ t.selected = none
      ∧ (if (pollStatus okNotBusy noAbort s.params.nScan s).code = .noError then
          n = (if t.devInfo0.type = .unknown then 0 else 1) + (if t.devInfo1.type = .unknown then 0 else 1)
        else n = 0 ∧ t.devInfo0 = s.devInfo0 ∧ t.devInfo1 = s.devInfo1)
      ∧ t.bus = s.bus ∧ t.qstate = s.qstate ∧ t.igate = s.igate ∧ t.current = s.current ∧ t.queue = s.queue
      ∧ t.timer = s.timer ∧ t.snap = s.snap ∧ t.params = s.params ∧ t.cmds = s.cmds ∧ s.SameMemory t
      ∧ t.dbuf = s.dbuf ∧ t.bufs = s.bufs ∧ t.host = s.host ∧ t.breach = s.breach ∧ t.inbox = s.inbox ∧ s.now ≤ t.now

/-- SCAN of a bus whose both units show the same signature: ATAPI at unit 0, and at unit 1 only if the probe shows data;
ATA at both with READY and no ERROR; else none (R223 to R228). -/
def Obligations.ScanClassifies : Prop :=
  ∀ (s : State) (v lo hi sc sn : Byte), s.current = none → s.snap = [] → s.env.altctl = [v] → bsy v = false →
    s.env.cyllo = [lo] → s.env.cylhi = [hi] → s.env.scnt = [sc] → s.env.snum = [sn] →
    ∃ t : State, exec .scan s = .next t
      ∧ t.devInfo0.pmode = s.params.pmodeDefault ∧ t.devInfo1.pmode = s.params.pmodeDefault
      ∧ (if lo = 0x14#8 ∧ hi = 0xEB#8 then
          t.devInfo0.type = .atapi ∧ t.irqEn = false
            ∧ (if drq v && !err v then t.devInfo1.type = .atapi ∧ t.ret = .count 2
                else t.devInfo1.type = .unknown ∧ t.ret = .count 1)
        else if sc = 0x01#8 ∧ sn = 0x01#8 ∧ lo = 0x00#8 ∧ hi = 0x00#8 ∧ drdy v = true ∧ err v = false then
          t.devInfo0.type = .ata ∧ t.devInfo1.type = .ata ∧ t.ret = .count 2 ∧ t.irqEn = s.irqEn
        else t.devInfo0.type = .unknown ∧ t.devInfo1.type = .unknown ∧ t.ret = .count 0 ∧ t.irqEn = s.irqEn)

/-- CONFIG sets the packet mode of its unit and nothing else; the whole next state is given (R292). -/
def Obligations.ConfigSets : Prop :=
  ∀ (s : State) (m : PMode),
    exec (.config 0#8 m) s = .next { s with devInfo0 := ⟨s.devInfo0.type, m⟩, ret := .nothing }
      ∧ exec (.config 1#8 m) s = .next { s with devInfo1 := ⟨s.devInfo1.type, m⟩, ret := .nothing }

/-! ## Delivery, timer, PIO -/

/-- `completeIO` with a silent host and an empty queue: the record, the freed bus, the disarmed timer, the one DMA stop and
the one callback; with no current command nothing happens (R180, R183, R380). -/
def Obligations.CompletionDelivers : Prop :=
  (∀ (res : Result) (s : State), s.current = none → completeIO dispatchNext res s = s)
    ∧ ∀ (res : Result) (s : State) (id : Nat), s.current = some id → id < s.cmds.length → s.queue = [] →
        s.host = [] → ∃ (r : Result) (env : Env), completeIO dispatchNext res s = { s with
          bus := .free
          current := none
          timer := { s.timer with armed := false }
          env := env
          cmds := s.cmds.set id
            (delivered (if (s.cmd id).result = .unset then res else (s.cmd id).result) (s.cmd id))
          traceRev := .callback id (if (s.cmd id).result = .unset then res else (s.cmd id).result)
            :: .stopDma r :: .disarm :: s.traceRev }

/-- The event callout restores the four saved fields exactly, and the snapshots, whatever the handlers submit, in every
state (R185, R187, R385). -/
def Obligations.CalloutRestores : Prop :=
  ∀ (ev : EvKind) (u : Option UnitId) (s : State),
    (notifyEvent dispatchNext ev u s).current = s.current ∧ (notifyEvent dispatchNext ev u s).bus = s.bus
      ∧ (notifyEvent dispatchNext ev u s).qstate = s.qstate ∧ (notifyEvent dispatchNext ev u s).igate = s.igate
      ∧ (notifyEvent dispatchNext ev u s).snap = s.snap

/-- The timer: `startTimer` disarms an armed one and arms a fresh deadline, `stopTimer` only disarms, and EXPIRE is not
enabled after it; `checkTimeout` is the elapsed deadline of an armed timer (R331, R332, R333, R336). That an action which is
not enabled is refused is the model's choice (entry 12). -/
def Obligations.TimerOperations : Prop :=
  ∀ (d : Nat) (s : State),
    startTimer d s = { s with
      timer := ⟨true, s.now + d⟩
      traceRev := .arm d :: ((if s.timer.armed then [.disarm] else []) ++ s.traceRev) }
    ∧ stopTimer s = { s with timer := ⟨false, s.timer.deadline⟩, traceRev := .disarm :: s.traceRev }
    ∧ exec .expire (stopTimer s) = .refused .expireNotEnabled
    ∧ (checkTimeout s = true ↔ s.timer.armed = true ∧ s.timer.deadline ≤ s.now)

/-- After the slices of a pass the state is Status exactly when every byte has been moved, else it stays DataTransfer
(R314). -/
def Obligations.PassEndsInStatus : Prop :=
  ∀ (s : State) (id : Nat), s.current = some id → id < s.cmds.length → (s.cmd id).state = phDataTransfer →
    countsWf (s.cmd id) →
    ((passData s).cmd id).actual.toNat ≤ (s.cmd id).byteCount.toNat
      ∧ ((passData s).cmd id).state =
          if ((passData s).cmd id).actual = (s.cmd id).byteCount then phStatus else phDataTransfer

/-! ## Invariants of every step, and rules of the whole machine -/

/-- Reset meets the invariants. -/
def Obligations.ResetIsGood : Prop :=
  State.reset.Quiescent ∧ State.reset.StoresWf ∧ barredRev State.reset.traceRev = true ∧ State.reset.IrqEnTracks

/-- Every step keeps the canonical form of the memory and the size of the Double Buffer (R31, R78, R80). -/
def Obligations.StepKeepsStores : Prop :=
  ∀ s t : State, s.StoresWf → step s = .next t → t.StoresWf

/-- Every step keeps what holds between gate actions: R33 I-a to I-e, R335, that only a PIO command with data is in
DataTransfer (R251, R260), the bounds of the counts, the order of the queue, and that no command waits on a Free bus. -/
def Obligations.StepKeepsQuiescent : Prop :=
  ∀ s t : State, s.Quiescent → step s = .next t → t.Quiescent

/-- `Barrier()` only appends its event, and every step keeps exactly one barrier after each single register access, each
word of a burst included, and none elsewhere (R75, R410). -/
def Obligations.StepKeepsBarriers : Prop :=
  (∀ s : State, barrier s = { s with traceRev := .bar :: s.traceRev })
    ∧ ∀ s t : State, barredRev s.traceRev = true → step s = .next t → barredRev t.traceRev = true

/-- Every step keeps `irqEn` the record of the last nIEN written (R30). -/
def Obligations.StepKeepsIrqEn : Prop :=
  ∀ s t : State, s.IrqEnTracks → step s = .next t → t.IrqEnTracks

/-- No command is lost and none is delivered twice: in one action every command in flight, every new one, and the stored
record a SUBMIT names, is either called back exactly once, and then in use and in flight no more, or still in flight, if
the host submits no record a second time inside the action (R183, R350, R354). -/
def Obligations.EachCommandOnce : Prop :=
  ∀ (i : Instr) (s t : State), s.Quiescent → (∀ hs ∈ s.host, ∀ h ∈ hs, h.reuse = none) → exec i s = .next t →
    ∃ es, t.traceRev = es ++ s.traceRev ∧ (callbacks es).Nodup
      ∧ (∀ id ∈ callbacks es, (t.cmd id).inUse = false ∧ id ∉ t.inFlight
          ∧ (id ∈ s.inFlight ∨ s.cmds.length ≤ id ∨ ∃ r, i = .submit (some r) true ∧ id = r.toNat))
      ∧ (∀ id, (id ∈ s.inFlight ∨ (s.cmds.length ≤ id ∧ id < t.cmds.length)
            ∨ ∃ r, i = .submit (some r) true ∧ id = r.toNat) → id ∈ t.inFlight ∨ id ∈ callbacks es)

/-- `devInfo` is written only by SCAN and CONFIG, so no whole-bus reset rescans; and no SCAN is admitted while a command is
current (R421). -/
def Obligations.DevInfoWriters : Prop :=
  (∀ (i : Instr) (s t : State), i ≠ .scan → (∀ u m, i ≠ .config u m) → exec i s = .next t →
      t.devInfo0 = s.devInfo0 ∧ t.devInfo1 = s.devInfo1)
    ∧ ∀ (s : State) (id : Nat), s.current = some id → exec .scan s = .refused .scanNotAdmitted

/-- Isolation: between gate actions, where neither a record of the store, nor the instruction, nor the host's script names
buffer `h` for a PIO read, every byte of `h` is as before, whatever runs (R80, R309, R310). That a DMA read leaves the memory
alone, and that the buffers of two handles do not overlap, are the model's choices (entries 20, 14). -/
def Obligations.MemoryIsolation : Prop :=
  ∀ (i : Instr) (s t : State) (h : Word) (off : Nat), s.StoresWf → s.Quiescent →
    exec i s = .next t → off < 2 ^ 32 → (∀ c ∈ s.cmds, readsInto h c.toDesc = false) →
    (∀ d, i.desc = some d → readsInto h d = false) → (∀ hs ∈ s.host, ∀ x ∈ hs, readsInto h x.desc = false) →
    Memory.get t.mem (Memory.addr h off) = Memory.get s.mem (Memory.addr h off)

end Statements
end

