-- ==== Sys2Proof/Laws/Memory.lean ====
section
/-! SUPPORT. The laws of the host's memory: a read after a write, and the canonical form that every write keeps. -/

namespace Sys2Proof.Machine.Memory

/-- In a canonical list whose addresses start at `lo`, a lower address is unlisted. -/
theorem get_below {lo : Nat} {m : List Host.Cell} (h : wfFrom lo m = true) {a : Nat} (ha : a < lo) :
    get m a = unlisted := by
  induction m generalizing lo with
  | nil => rfl
  | cons c rest ih =>
    obtain ⟨b, v⟩ := c
    simp only [wfFrom, Bool.and_eq_true, decide_eq_true_eq] at h
    have hb : b ≠ a := by omega
    simp only [get, if_neg hb]
    exact ih h.2 (by omega)

theorem wfFrom_mono {lo lo' : Nat} {m : List Host.Cell} (h : wfFrom lo m = true) (hl : lo' ≤ lo) :
    wfFrom lo' m = true := by
  cases m with
  | nil => rfl
  | cons c rest =>
    simp only [wfFrom, Bool.and_eq_true, decide_eq_true_eq] at h ⊢
    exact ⟨⟨by omega, h.1.2⟩, h.2⟩

theorem wfFrom_consCell {lo a : Nat} {v : Byte} {m : List Host.Cell} (ha : lo ≤ a) (h : wfFrom (a + 1) m = true) :
    wfFrom lo (consCell a v m) = true := by
  unfold consCell
  split
  · exact wfFrom_mono h (by omega)
  · rename_i hv
    simp [wfFrom, ha, h, hv]

theorem wfFrom_set {lo a : Nat} {v : Byte} {m : List Host.Cell} (h : wfFrom lo m = true) (ha : lo ≤ a) :
    wfFrom lo (set m a v) = true := by
  induction m generalizing lo with
  | nil => exact wfFrom_consCell ha rfl
  | cons c rest ih =>
    obtain ⟨b, w⟩ := c
    have h0 := h
    simp only [wfFrom, Bool.and_eq_true, decide_eq_true_eq] at h
    simp only [set]
    split
    · exact wfFrom_consCell ha (by simp only [wfFrom, Bool.and_eq_true, decide_eq_true_eq]; exact ⟨⟨by omega, h.1.2⟩, h.2⟩)
    · split
      · rename_i hab
        exact wfFrom_consCell ha (hab ▸ h.2)
      · simp only [wfFrom, Bool.and_eq_true, decide_eq_true_eq]
        exact ⟨h.1, ih h.2 (by omega)⟩

/-- Writing a byte keeps the canonical form. -/
theorem wf_set {a : Nat} {v : Byte} {m : List Host.Cell} (h : wf m = true) : wf (set m a v) = true :=
  wfFrom_set h (Nat.zero_le a)

/-- Writing bytes keeps the canonical form. -/
theorem wf_setBytes {a : Nat} {vs : List Byte} {m : List Host.Cell} (h : wf m = true) : wf (setBytes m a vs) = true := by
  induction vs generalizing a m with
  | nil => exact h
  | cons v vs ih => exact ih (wf_set h)

theorem get_consCell {a b : Nat} {v : Byte} {m : List Host.Cell} (h : wfFrom (a + 1) m = true) :
    get (consCell a v m) b = if b = a then v else get m b := by
  unfold consCell
  split
  · rename_i hv
    split
    · rename_i hb; rw [get_below h (by omega), hv]
    · rfl
  · simp only [get, eq_comm]

theorem get_set_from {lo a b : Nat} {v : Byte} {m : List Host.Cell} (h : wfFrom lo m = true) :
    get (set m a v) b = if b = a then v else get m b := by
  induction m generalizing lo with
  | nil => exact get_consCell rfl
  | cons c rest ih =>
    obtain ⟨k, w⟩ := c
    have h0 := h
    simp only [wfFrom, Bool.and_eq_true, decide_eq_true_eq] at h
    simp only [set]
    split
    · exact get_consCell (by simp only [wfFrom, Bool.and_eq_true, decide_eq_true_eq]; exact ⟨⟨by omega, h.1.2⟩, h.2⟩)
    · split
      · rename_i hak
        subst hak
        rw [get_consCell h.2]
        simp only [get]
        split
        · rfl
        · rename_i hb; rw [if_neg (fun e => hb e.symm)]
      · simp only [get, ih h.2]
        split
        · rename_i hk; subst hk; rw [if_neg (by omega)]
        · rfl

/-- A read after a write: the written byte at its address, the old byte elsewhere. -/
theorem get_set {a b : Nat} {v : Byte} {m : List Host.Cell} (h : wf m = true) :
    get (set m a v) b = if b = a then v else get m b := get_set_from h

/-- A read after a write of several bytes. -/
theorem get_setBytes {a b : Nat} {vs : List Byte} {m : List Host.Cell} (h : wf m = true) :
    get (setBytes m a vs) b = if a ≤ b ∧ b < a + vs.length then vs.getD (b - a) 0#8 else get m b := by
  induction vs generalizing a m with
  | nil => simp [setBytes, show ¬ (a ≤ b ∧ b < a) by omega]
  | cons v vs ih =>
    rw [setBytes, ih (wf_set h), get_set h]
    by_cases hb : b = a
    · subst hb
      rw [if_neg (by omega), if_pos rfl, if_pos (by simp)]
      simp
    · rw [if_neg hb]
      by_cases hc : a + 1 ≤ b ∧ b < a + 1 + vs.length
      · rw [if_pos hc, if_pos (by simp only [List.length_cons]; omega)]
        obtain ⟨k, hk⟩ : ∃ k, b - a = k + 1 := ⟨b - a - 1, by omega⟩
        rw [hk, show b - (a + 1) = k by omega, List.getD_cons_succ]
      · rw [if_neg hc, if_neg (by simp only [List.length_cons]; omega)]

/-- A write elsewhere leaves a byte alone. -/
theorem get_setBytes_outside {a b : Nat} {vs : List Byte} {m : List Host.Cell} (h : wf m = true)
    (hb : b < a ∨ a + vs.length ≤ b) : get (setBytes m a vs) b = get m b := by
  rw [get_setBytes h, if_neg (by omega)]

/-- As many bytes are read as asked for. -/
@[simp] theorem length_getBytes (m : List Host.Cell) (a n : Nat) : (getBytes m a n).length = n := by
  induction n generalizing a with
  | zero => rfl
  | succ n ih => simp [getBytes, ih]

/-- Reading back what was written. -/
theorem getBytes_setBytes {a : Nat} {vs : List Byte} {m : List Host.Cell} (h : wf m = true) :
    getBytes (setBytes m a vs) a vs.length = vs := by
  apply List.ext_getElem?
  have key : ∀ n b k, k < n → (getBytes (setBytes m a vs) b n)[k]? = some (get (setBytes m a vs) (b + k)) := by
    intro n
    induction n with
    | zero => intro b k hk; omega
    | succ n ih =>
      intro b k hk
      cases k with
      | zero => simp [getBytes]
      | succ k => simp only [getBytes, List.getElem?_cons_succ]; rw [ih (b + 1) k (by omega)]; congr 2; omega
  intro k
  by_cases hk : k < vs.length
  · rw [key _ _ _ hk, get_setBytes h, if_pos (by omega)]
    simp [hk]
  · simp [hk]

end Sys2Proof.Machine.Memory
end

