-- ==== Sys2Proof/Laws/State.lean ====
section
/-! SUPPORT. One lemma per field per basic operation of Machine/Ops.lean: which fields it leaves alone, and the value of the
ones it changes. -/

namespace Sys2Proof.Machine

/-! ### emit -/

@[simp] theorem emit_bus (e : Event) (s : State) : (s.emit e).bus = s.bus := rfl
@[simp] theorem emit_qstate (e : Event) (s : State) : (s.emit e).qstate = s.qstate := rfl
@[simp] theorem emit_igate (e : Event) (s : State) : (s.emit e).igate = s.igate := rfl
@[simp] theorem emit_current (e : Event) (s : State) : (s.emit e).current = s.current := rfl
@[simp] theorem emit_queue (e : Event) (s : State) : (s.emit e).queue = s.queue := rfl
@[simp] theorem emit_selected (e : Event) (s : State) : (s.emit e).selected = s.selected := rfl
@[simp] theorem emit_devInfo0 (e : Event) (s : State) : (s.emit e).devInfo0 = s.devInfo0 := rfl
@[simp] theorem emit_devInfo1 (e : Event) (s : State) : (s.emit e).devInfo1 = s.devInfo1 := rfl
@[simp] theorem emit_timer (e : Event) (s : State) : (s.emit e).timer = s.timer := rfl
@[simp] theorem emit_snap (e : Event) (s : State) : (s.emit e).snap = s.snap := rfl
@[simp] theorem emit_irqEn (e : Event) (s : State) : (s.emit e).irqEn = s.irqEn := rfl
@[simp] theorem emit_dbuf (e : Event) (s : State) : (s.emit e).dbuf = s.dbuf := rfl
@[simp] theorem emit_params (e : Event) (s : State) : (s.emit e).params = s.params := rfl
@[simp] theorem emit_now (e : Event) (s : State) : (s.emit e).now = s.now := rfl
@[simp] theorem emit_cmds (e : Event) (s : State) : (s.emit e).cmds = s.cmds := rfl
@[simp] theorem emit_mem (e : Event) (s : State) : (s.emit e).mem = s.mem := rfl
@[simp] theorem emit_bufs (e : Event) (s : State) : (s.emit e).bufs = s.bufs := rfl
@[simp] theorem emit_env (e : Event) (s : State) : (s.emit e).env = s.env := rfl
@[simp] theorem emit_host (e : Event) (s : State) : (s.emit e).host = s.host := rfl
@[simp] theorem emit_inbox (e : Event) (s : State) : (s.emit e).inbox = s.inbox := rfl
@[simp] theorem emit_breach (e : Event) (s : State) : (s.emit e).breach = s.breach := rfl
@[simp] theorem emit_ret (e : Event) (s : State) : (s.emit e).ret = s.ret := rfl

/-! ### barrier -/

@[simp] theorem barrier_bus (s : State) : (barrier s).bus = s.bus := rfl
@[simp] theorem barrier_qstate (s : State) : (barrier s).qstate = s.qstate := rfl
@[simp] theorem barrier_igate (s : State) : (barrier s).igate = s.igate := rfl
@[simp] theorem barrier_current (s : State) : (barrier s).current = s.current := rfl
@[simp] theorem barrier_queue (s : State) : (barrier s).queue = s.queue := rfl
@[simp] theorem barrier_selected (s : State) : (barrier s).selected = s.selected := rfl
@[simp] theorem barrier_devInfo0 (s : State) : (barrier s).devInfo0 = s.devInfo0 := rfl
@[simp] theorem barrier_devInfo1 (s : State) : (barrier s).devInfo1 = s.devInfo1 := rfl
@[simp] theorem barrier_timer (s : State) : (barrier s).timer = s.timer := rfl
@[simp] theorem barrier_snap (s : State) : (barrier s).snap = s.snap := rfl
@[simp] theorem barrier_irqEn (s : State) : (barrier s).irqEn = s.irqEn := rfl
@[simp] theorem barrier_dbuf (s : State) : (barrier s).dbuf = s.dbuf := rfl
@[simp] theorem barrier_params (s : State) : (barrier s).params = s.params := rfl
@[simp] theorem barrier_now (s : State) : (barrier s).now = s.now := rfl
@[simp] theorem barrier_cmds (s : State) : (barrier s).cmds = s.cmds := rfl
@[simp] theorem barrier_mem (s : State) : (barrier s).mem = s.mem := rfl
@[simp] theorem barrier_bufs (s : State) : (barrier s).bufs = s.bufs := rfl
@[simp] theorem barrier_env (s : State) : (barrier s).env = s.env := rfl
@[simp] theorem barrier_host (s : State) : (barrier s).host = s.host := rfl
@[simp] theorem barrier_inbox (s : State) : (barrier s).inbox = s.inbox := rfl
@[simp] theorem barrier_breach (s : State) : (barrier s).breach = s.breach := rfl
@[simp] theorem barrier_ret (s : State) : (barrier s).ret = s.ret := rfl

/-! ### readByte -/

@[simp] theorem readByte_bus (r : Reg) (ev : Byte → Event) (s : State) : (readByte r ev s).2.bus = s.bus := rfl
@[simp] theorem readByte_qstate (r : Reg) (ev : Byte → Event) (s : State) : (readByte r ev s).2.qstate = s.qstate := rfl
@[simp] theorem readByte_igate (r : Reg) (ev : Byte → Event) (s : State) : (readByte r ev s).2.igate = s.igate := rfl
@[simp] theorem readByte_current (r : Reg) (ev : Byte → Event) (s : State) : (readByte r ev s).2.current = s.current := rfl
@[simp] theorem readByte_queue (r : Reg) (ev : Byte → Event) (s : State) : (readByte r ev s).2.queue = s.queue := rfl
@[simp] theorem readByte_selected (r : Reg) (ev : Byte → Event) (s : State) : (readByte r ev s).2.selected = s.selected := rfl
@[simp] theorem readByte_devInfo0 (r : Reg) (ev : Byte → Event) (s : State) : (readByte r ev s).2.devInfo0 = s.devInfo0 := rfl
@[simp] theorem readByte_devInfo1 (r : Reg) (ev : Byte → Event) (s : State) : (readByte r ev s).2.devInfo1 = s.devInfo1 := rfl
@[simp] theorem readByte_timer (r : Reg) (ev : Byte → Event) (s : State) : (readByte r ev s).2.timer = s.timer := rfl
@[simp] theorem readByte_snap (r : Reg) (ev : Byte → Event) (s : State) : (readByte r ev s).2.snap = s.snap := rfl
@[simp] theorem readByte_irqEn (r : Reg) (ev : Byte → Event) (s : State) : (readByte r ev s).2.irqEn = s.irqEn := rfl
@[simp] theorem readByte_dbuf (r : Reg) (ev : Byte → Event) (s : State) : (readByte r ev s).2.dbuf = s.dbuf := rfl
@[simp] theorem readByte_params (r : Reg) (ev : Byte → Event) (s : State) : (readByte r ev s).2.params = s.params := rfl
@[simp] theorem readByte_now (r : Reg) (ev : Byte → Event) (s : State) : (readByte r ev s).2.now = s.now := rfl
@[simp] theorem readByte_cmds (r : Reg) (ev : Byte → Event) (s : State) : (readByte r ev s).2.cmds = s.cmds := rfl
@[simp] theorem readByte_mem (r : Reg) (ev : Byte → Event) (s : State) : (readByte r ev s).2.mem = s.mem := rfl
@[simp] theorem readByte_bufs (r : Reg) (ev : Byte → Event) (s : State) : (readByte r ev s).2.bufs = s.bufs := rfl
@[simp] theorem readByte_host (r : Reg) (ev : Byte → Event) (s : State) : (readByte r ev s).2.host = s.host := rfl
@[simp] theorem readByte_inbox (r : Reg) (ev : Byte → Event) (s : State) : (readByte r ev s).2.inbox = s.inbox := rfl
@[simp] theorem readByte_breach (r : Reg) (ev : Byte → Event) (s : State) : (readByte r ev s).2.breach = s.breach := rfl
@[simp] theorem readByte_ret (r : Reg) (ev : Byte → Event) (s : State) : (readByte r ev s).2.ret = s.ret := rfl

/-! ### rd8 -/

@[simp] theorem rd8_bus (r : Reg) (s : State) : (rd8 r s).2.bus = s.bus := rfl
@[simp] theorem rd8_qstate (r : Reg) (s : State) : (rd8 r s).2.qstate = s.qstate := rfl
@[simp] theorem rd8_igate (r : Reg) (s : State) : (rd8 r s).2.igate = s.igate := rfl
@[simp] theorem rd8_current (r : Reg) (s : State) : (rd8 r s).2.current = s.current := rfl
@[simp] theorem rd8_queue (r : Reg) (s : State) : (rd8 r s).2.queue = s.queue := rfl
@[simp] theorem rd8_selected (r : Reg) (s : State) : (rd8 r s).2.selected = s.selected := rfl
@[simp] theorem rd8_devInfo0 (r : Reg) (s : State) : (rd8 r s).2.devInfo0 = s.devInfo0 := rfl
@[simp] theorem rd8_devInfo1 (r : Reg) (s : State) : (rd8 r s).2.devInfo1 = s.devInfo1 := rfl
@[simp] theorem rd8_timer (r : Reg) (s : State) : (rd8 r s).2.timer = s.timer := rfl
@[simp] theorem rd8_snap (r : Reg) (s : State) : (rd8 r s).2.snap = s.snap := rfl
@[simp] theorem rd8_irqEn (r : Reg) (s : State) : (rd8 r s).2.irqEn = s.irqEn := rfl
@[simp] theorem rd8_dbuf (r : Reg) (s : State) : (rd8 r s).2.dbuf = s.dbuf := rfl
@[simp] theorem rd8_params (r : Reg) (s : State) : (rd8 r s).2.params = s.params := rfl
@[simp] theorem rd8_now (r : Reg) (s : State) : (rd8 r s).2.now = s.now := rfl
@[simp] theorem rd8_cmds (r : Reg) (s : State) : (rd8 r s).2.cmds = s.cmds := rfl
@[simp] theorem rd8_mem (r : Reg) (s : State) : (rd8 r s).2.mem = s.mem := rfl
@[simp] theorem rd8_bufs (r : Reg) (s : State) : (rd8 r s).2.bufs = s.bufs := rfl
@[simp] theorem rd8_host (r : Reg) (s : State) : (rd8 r s).2.host = s.host := rfl
@[simp] theorem rd8_inbox (r : Reg) (s : State) : (rd8 r s).2.inbox = s.inbox := rfl
@[simp] theorem rd8_breach (r : Reg) (s : State) : (rd8 r s).2.breach = s.breach := rfl
@[simp] theorem rd8_ret (r : Reg) (s : State) : (rd8 r s).2.ret = s.ret := rfl

/-! ### wr8 -/

@[simp] theorem wr8_bus (r : Reg) (v : Byte) (s : State) : (wr8 r v s).bus = s.bus := rfl
@[simp] theorem wr8_qstate (r : Reg) (v : Byte) (s : State) : (wr8 r v s).qstate = s.qstate := rfl
@[simp] theorem wr8_igate (r : Reg) (v : Byte) (s : State) : (wr8 r v s).igate = s.igate := rfl
@[simp] theorem wr8_current (r : Reg) (v : Byte) (s : State) : (wr8 r v s).current = s.current := rfl
@[simp] theorem wr8_queue (r : Reg) (v : Byte) (s : State) : (wr8 r v s).queue = s.queue := rfl
@[simp] theorem wr8_selected (r : Reg) (v : Byte) (s : State) : (wr8 r v s).selected = s.selected := rfl
@[simp] theorem wr8_devInfo0 (r : Reg) (v : Byte) (s : State) : (wr8 r v s).devInfo0 = s.devInfo0 := rfl
@[simp] theorem wr8_devInfo1 (r : Reg) (v : Byte) (s : State) : (wr8 r v s).devInfo1 = s.devInfo1 := rfl
@[simp] theorem wr8_timer (r : Reg) (v : Byte) (s : State) : (wr8 r v s).timer = s.timer := rfl
@[simp] theorem wr8_snap (r : Reg) (v : Byte) (s : State) : (wr8 r v s).snap = s.snap := rfl
@[simp] theorem wr8_irqEn (r : Reg) (v : Byte) (s : State) : (wr8 r v s).irqEn = s.irqEn := rfl
@[simp] theorem wr8_dbuf (r : Reg) (v : Byte) (s : State) : (wr8 r v s).dbuf = s.dbuf := rfl
@[simp] theorem wr8_params (r : Reg) (v : Byte) (s : State) : (wr8 r v s).params = s.params := rfl
@[simp] theorem wr8_now (r : Reg) (v : Byte) (s : State) : (wr8 r v s).now = s.now := rfl
@[simp] theorem wr8_cmds (r : Reg) (v : Byte) (s : State) : (wr8 r v s).cmds = s.cmds := rfl
@[simp] theorem wr8_mem (r : Reg) (v : Byte) (s : State) : (wr8 r v s).mem = s.mem := rfl
@[simp] theorem wr8_bufs (r : Reg) (v : Byte) (s : State) : (wr8 r v s).bufs = s.bufs := rfl
@[simp] theorem wr8_env (r : Reg) (v : Byte) (s : State) : (wr8 r v s).env = s.env := rfl
@[simp] theorem wr8_host (r : Reg) (v : Byte) (s : State) : (wr8 r v s).host = s.host := rfl
@[simp] theorem wr8_inbox (r : Reg) (v : Byte) (s : State) : (wr8 r v s).inbox = s.inbox := rfl
@[simp] theorem wr8_breach (r : Reg) (v : Byte) (s : State) : (wr8 r v s).breach = s.breach := rfl
@[simp] theorem wr8_ret (r : Reg) (v : Byte) (s : State) : (wr8 r v s).ret = s.ret := rfl

/-! ### rd16 -/

@[simp] theorem rd16_bus (s : State) : (rd16 s).2.bus = s.bus := rfl
@[simp] theorem rd16_qstate (s : State) : (rd16 s).2.qstate = s.qstate := rfl
@[simp] theorem rd16_igate (s : State) : (rd16 s).2.igate = s.igate := rfl
@[simp] theorem rd16_current (s : State) : (rd16 s).2.current = s.current := rfl
@[simp] theorem rd16_queue (s : State) : (rd16 s).2.queue = s.queue := rfl
@[simp] theorem rd16_selected (s : State) : (rd16 s).2.selected = s.selected := rfl
@[simp] theorem rd16_devInfo0 (s : State) : (rd16 s).2.devInfo0 = s.devInfo0 := rfl
@[simp] theorem rd16_devInfo1 (s : State) : (rd16 s).2.devInfo1 = s.devInfo1 := rfl
@[simp] theorem rd16_timer (s : State) : (rd16 s).2.timer = s.timer := rfl
@[simp] theorem rd16_snap (s : State) : (rd16 s).2.snap = s.snap := rfl
@[simp] theorem rd16_irqEn (s : State) : (rd16 s).2.irqEn = s.irqEn := rfl
@[simp] theorem rd16_dbuf (s : State) : (rd16 s).2.dbuf = s.dbuf := rfl
@[simp] theorem rd16_params (s : State) : (rd16 s).2.params = s.params := rfl
@[simp] theorem rd16_now (s : State) : (rd16 s).2.now = s.now := rfl
@[simp] theorem rd16_cmds (s : State) : (rd16 s).2.cmds = s.cmds := rfl
@[simp] theorem rd16_mem (s : State) : (rd16 s).2.mem = s.mem := rfl
@[simp] theorem rd16_bufs (s : State) : (rd16 s).2.bufs = s.bufs := rfl
@[simp] theorem rd16_host (s : State) : (rd16 s).2.host = s.host := rfl
@[simp] theorem rd16_inbox (s : State) : (rd16 s).2.inbox = s.inbox := rfl
@[simp] theorem rd16_breach (s : State) : (rd16 s).2.breach = s.breach := rfl
@[simp] theorem rd16_ret (s : State) : (rd16 s).2.ret = s.ret := rfl

/-! ### wr16 -/

@[simp] theorem wr16_bus (w : Half) (s : State) : (wr16 w s).bus = s.bus := rfl
@[simp] theorem wr16_qstate (w : Half) (s : State) : (wr16 w s).qstate = s.qstate := rfl
@[simp] theorem wr16_igate (w : Half) (s : State) : (wr16 w s).igate = s.igate := rfl
@[simp] theorem wr16_current (w : Half) (s : State) : (wr16 w s).current = s.current := rfl
@[simp] theorem wr16_queue (w : Half) (s : State) : (wr16 w s).queue = s.queue := rfl
@[simp] theorem wr16_selected (w : Half) (s : State) : (wr16 w s).selected = s.selected := rfl
@[simp] theorem wr16_devInfo0 (w : Half) (s : State) : (wr16 w s).devInfo0 = s.devInfo0 := rfl
@[simp] theorem wr16_devInfo1 (w : Half) (s : State) : (wr16 w s).devInfo1 = s.devInfo1 := rfl
@[simp] theorem wr16_timer (w : Half) (s : State) : (wr16 w s).timer = s.timer := rfl
@[simp] theorem wr16_snap (w : Half) (s : State) : (wr16 w s).snap = s.snap := rfl
@[simp] theorem wr16_irqEn (w : Half) (s : State) : (wr16 w s).irqEn = s.irqEn := rfl
@[simp] theorem wr16_dbuf (w : Half) (s : State) : (wr16 w s).dbuf = s.dbuf := rfl
@[simp] theorem wr16_params (w : Half) (s : State) : (wr16 w s).params = s.params := rfl
@[simp] theorem wr16_now (w : Half) (s : State) : (wr16 w s).now = s.now := rfl
@[simp] theorem wr16_cmds (w : Half) (s : State) : (wr16 w s).cmds = s.cmds := rfl
@[simp] theorem wr16_mem (w : Half) (s : State) : (wr16 w s).mem = s.mem := rfl
@[simp] theorem wr16_bufs (w : Half) (s : State) : (wr16 w s).bufs = s.bufs := rfl
@[simp] theorem wr16_env (w : Half) (s : State) : (wr16 w s).env = s.env := rfl
@[simp] theorem wr16_host (w : Half) (s : State) : (wr16 w s).host = s.host := rfl
@[simp] theorem wr16_inbox (w : Half) (s : State) : (wr16 w s).inbox = s.inbox := rfl
@[simp] theorem wr16_breach (w : Half) (s : State) : (wr16 w s).breach = s.breach := rfl
@[simp] theorem wr16_ret (w : Half) (s : State) : (wr16 w s).ret = s.ret := rfl

/-! ### rd8d -/

@[simp] theorem rd8d_bus (s : State) : (rd8d s).2.bus = s.bus := rfl
@[simp] theorem rd8d_qstate (s : State) : (rd8d s).2.qstate = s.qstate := rfl
@[simp] theorem rd8d_igate (s : State) : (rd8d s).2.igate = s.igate := rfl
@[simp] theorem rd8d_current (s : State) : (rd8d s).2.current = s.current := rfl
@[simp] theorem rd8d_queue (s : State) : (rd8d s).2.queue = s.queue := rfl
@[simp] theorem rd8d_selected (s : State) : (rd8d s).2.selected = s.selected := rfl
@[simp] theorem rd8d_devInfo0 (s : State) : (rd8d s).2.devInfo0 = s.devInfo0 := rfl
@[simp] theorem rd8d_devInfo1 (s : State) : (rd8d s).2.devInfo1 = s.devInfo1 := rfl
@[simp] theorem rd8d_timer (s : State) : (rd8d s).2.timer = s.timer := rfl
@[simp] theorem rd8d_snap (s : State) : (rd8d s).2.snap = s.snap := rfl
@[simp] theorem rd8d_irqEn (s : State) : (rd8d s).2.irqEn = s.irqEn := rfl
@[simp] theorem rd8d_dbuf (s : State) : (rd8d s).2.dbuf = s.dbuf := rfl
@[simp] theorem rd8d_params (s : State) : (rd8d s).2.params = s.params := rfl
@[simp] theorem rd8d_now (s : State) : (rd8d s).2.now = s.now := rfl
@[simp] theorem rd8d_cmds (s : State) : (rd8d s).2.cmds = s.cmds := rfl
@[simp] theorem rd8d_mem (s : State) : (rd8d s).2.mem = s.mem := rfl
@[simp] theorem rd8d_bufs (s : State) : (rd8d s).2.bufs = s.bufs := rfl
@[simp] theorem rd8d_host (s : State) : (rd8d s).2.host = s.host := rfl
@[simp] theorem rd8d_inbox (s : State) : (rd8d s).2.inbox = s.inbox := rfl
@[simp] theorem rd8d_breach (s : State) : (rd8d s).2.breach = s.breach := rfl
@[simp] theorem rd8d_ret (s : State) : (rd8d s).2.ret = s.ret := rfl

/-! ### wr8d -/

@[simp] theorem wr8d_bus (b : Byte) (s : State) : (wr8d b s).bus = s.bus := rfl
@[simp] theorem wr8d_qstate (b : Byte) (s : State) : (wr8d b s).qstate = s.qstate := rfl
@[simp] theorem wr8d_igate (b : Byte) (s : State) : (wr8d b s).igate = s.igate := rfl
@[simp] theorem wr8d_current (b : Byte) (s : State) : (wr8d b s).current = s.current := rfl
@[simp] theorem wr8d_queue (b : Byte) (s : State) : (wr8d b s).queue = s.queue := rfl
@[simp] theorem wr8d_selected (b : Byte) (s : State) : (wr8d b s).selected = s.selected := rfl
@[simp] theorem wr8d_devInfo0 (b : Byte) (s : State) : (wr8d b s).devInfo0 = s.devInfo0 := rfl
@[simp] theorem wr8d_devInfo1 (b : Byte) (s : State) : (wr8d b s).devInfo1 = s.devInfo1 := rfl
@[simp] theorem wr8d_timer (b : Byte) (s : State) : (wr8d b s).timer = s.timer := rfl
@[simp] theorem wr8d_snap (b : Byte) (s : State) : (wr8d b s).snap = s.snap := rfl
@[simp] theorem wr8d_irqEn (b : Byte) (s : State) : (wr8d b s).irqEn = s.irqEn := rfl
@[simp] theorem wr8d_dbuf (b : Byte) (s : State) : (wr8d b s).dbuf = s.dbuf := rfl
@[simp] theorem wr8d_params (b : Byte) (s : State) : (wr8d b s).params = s.params := rfl
@[simp] theorem wr8d_now (b : Byte) (s : State) : (wr8d b s).now = s.now := rfl
@[simp] theorem wr8d_cmds (b : Byte) (s : State) : (wr8d b s).cmds = s.cmds := rfl
@[simp] theorem wr8d_mem (b : Byte) (s : State) : (wr8d b s).mem = s.mem := rfl
@[simp] theorem wr8d_bufs (b : Byte) (s : State) : (wr8d b s).bufs = s.bufs := rfl
@[simp] theorem wr8d_env (b : Byte) (s : State) : (wr8d b s).env = s.env := rfl
@[simp] theorem wr8d_host (b : Byte) (s : State) : (wr8d b s).host = s.host := rfl
@[simp] theorem wr8d_inbox (b : Byte) (s : State) : (wr8d b s).inbox = s.inbox := rfl
@[simp] theorem wr8d_breach (b : Byte) (s : State) : (wr8d b s).breach = s.breach := rfl
@[simp] theorem wr8d_ret (b : Byte) (s : State) : (wr8d b s).ret = s.ret := rfl

/-! ### writeControl -/

@[simp] theorem writeControl_bus (v : Byte) (s : State) : (writeControl v s).bus = s.bus := rfl
@[simp] theorem writeControl_qstate (v : Byte) (s : State) : (writeControl v s).qstate = s.qstate := rfl
@[simp] theorem writeControl_igate (v : Byte) (s : State) : (writeControl v s).igate = s.igate := rfl
@[simp] theorem writeControl_current (v : Byte) (s : State) : (writeControl v s).current = s.current := rfl
@[simp] theorem writeControl_queue (v : Byte) (s : State) : (writeControl v s).queue = s.queue := rfl
@[simp] theorem writeControl_selected (v : Byte) (s : State) : (writeControl v s).selected = s.selected := rfl
@[simp] theorem writeControl_devInfo0 (v : Byte) (s : State) : (writeControl v s).devInfo0 = s.devInfo0 := rfl
@[simp] theorem writeControl_devInfo1 (v : Byte) (s : State) : (writeControl v s).devInfo1 = s.devInfo1 := rfl
@[simp] theorem writeControl_timer (v : Byte) (s : State) : (writeControl v s).timer = s.timer := rfl
@[simp] theorem writeControl_snap (v : Byte) (s : State) : (writeControl v s).snap = s.snap := rfl
@[simp] theorem writeControl_dbuf (v : Byte) (s : State) : (writeControl v s).dbuf = s.dbuf := rfl
@[simp] theorem writeControl_params (v : Byte) (s : State) : (writeControl v s).params = s.params := rfl
@[simp] theorem writeControl_now (v : Byte) (s : State) : (writeControl v s).now = s.now := rfl
@[simp] theorem writeControl_cmds (v : Byte) (s : State) : (writeControl v s).cmds = s.cmds := rfl
@[simp] theorem writeControl_mem (v : Byte) (s : State) : (writeControl v s).mem = s.mem := rfl
@[simp] theorem writeControl_bufs (v : Byte) (s : State) : (writeControl v s).bufs = s.bufs := rfl
@[simp] theorem writeControl_env (v : Byte) (s : State) : (writeControl v s).env = s.env := rfl
@[simp] theorem writeControl_host (v : Byte) (s : State) : (writeControl v s).host = s.host := rfl
@[simp] theorem writeControl_inbox (v : Byte) (s : State) : (writeControl v s).inbox = s.inbox := rfl
@[simp] theorem writeControl_breach (v : Byte) (s : State) : (writeControl v s).breach = s.breach := rfl
@[simp] theorem writeControl_ret (v : Byte) (s : State) : (writeControl v s).ret = s.ret := rfl

/-! ### sleep -/

@[simp] theorem sleep_bus (d : Nat) (s : State) : (sleep d s).bus = s.bus := rfl
@[simp] theorem sleep_qstate (d : Nat) (s : State) : (sleep d s).qstate = s.qstate := rfl
@[simp] theorem sleep_igate (d : Nat) (s : State) : (sleep d s).igate = s.igate := rfl
@[simp] theorem sleep_current (d : Nat) (s : State) : (sleep d s).current = s.current := rfl
@[simp] theorem sleep_queue (d : Nat) (s : State) : (sleep d s).queue = s.queue := rfl
@[simp] theorem sleep_selected (d : Nat) (s : State) : (sleep d s).selected = s.selected := rfl
@[simp] theorem sleep_devInfo0 (d : Nat) (s : State) : (sleep d s).devInfo0 = s.devInfo0 := rfl
@[simp] theorem sleep_devInfo1 (d : Nat) (s : State) : (sleep d s).devInfo1 = s.devInfo1 := rfl
@[simp] theorem sleep_timer (d : Nat) (s : State) : (sleep d s).timer = s.timer := rfl
@[simp] theorem sleep_snap (d : Nat) (s : State) : (sleep d s).snap = s.snap := rfl
@[simp] theorem sleep_irqEn (d : Nat) (s : State) : (sleep d s).irqEn = s.irqEn := rfl
@[simp] theorem sleep_dbuf (d : Nat) (s : State) : (sleep d s).dbuf = s.dbuf := rfl
@[simp] theorem sleep_params (d : Nat) (s : State) : (sleep d s).params = s.params := rfl
@[simp] theorem sleep_cmds (d : Nat) (s : State) : (sleep d s).cmds = s.cmds := rfl
@[simp] theorem sleep_mem (d : Nat) (s : State) : (sleep d s).mem = s.mem := rfl
@[simp] theorem sleep_bufs (d : Nat) (s : State) : (sleep d s).bufs = s.bufs := rfl
@[simp] theorem sleep_host (d : Nat) (s : State) : (sleep d s).host = s.host := rfl
@[simp] theorem sleep_inbox (d : Nat) (s : State) : (sleep d s).inbox = s.inbox := rfl
@[simp] theorem sleep_breach (d : Nat) (s : State) : (sleep d s).breach = s.breach := rfl
@[simp] theorem sleep_ret (d : Nat) (s : State) : (sleep d s).ret = s.ret := rfl

/-! ### timingHook -/

@[simp] theorem timingHook_bus (u : UnitId) (s : State) : (timingHook u s).bus = s.bus := rfl
@[simp] theorem timingHook_qstate (u : UnitId) (s : State) : (timingHook u s).qstate = s.qstate := rfl
@[simp] theorem timingHook_igate (u : UnitId) (s : State) : (timingHook u s).igate = s.igate := rfl
@[simp] theorem timingHook_current (u : UnitId) (s : State) : (timingHook u s).current = s.current := rfl
@[simp] theorem timingHook_queue (u : UnitId) (s : State) : (timingHook u s).queue = s.queue := rfl
@[simp] theorem timingHook_selected (u : UnitId) (s : State) : (timingHook u s).selected = s.selected := rfl
@[simp] theorem timingHook_devInfo0 (u : UnitId) (s : State) : (timingHook u s).devInfo0 = s.devInfo0 := rfl
@[simp] theorem timingHook_devInfo1 (u : UnitId) (s : State) : (timingHook u s).devInfo1 = s.devInfo1 := rfl
@[simp] theorem timingHook_timer (u : UnitId) (s : State) : (timingHook u s).timer = s.timer := rfl
@[simp] theorem timingHook_snap (u : UnitId) (s : State) : (timingHook u s).snap = s.snap := rfl
@[simp] theorem timingHook_irqEn (u : UnitId) (s : State) : (timingHook u s).irqEn = s.irqEn := rfl
@[simp] theorem timingHook_dbuf (u : UnitId) (s : State) : (timingHook u s).dbuf = s.dbuf := rfl
@[simp] theorem timingHook_params (u : UnitId) (s : State) : (timingHook u s).params = s.params := rfl
@[simp] theorem timingHook_now (u : UnitId) (s : State) : (timingHook u s).now = s.now := rfl
@[simp] theorem timingHook_cmds (u : UnitId) (s : State) : (timingHook u s).cmds = s.cmds := rfl
@[simp] theorem timingHook_mem (u : UnitId) (s : State) : (timingHook u s).mem = s.mem := rfl
@[simp] theorem timingHook_bufs (u : UnitId) (s : State) : (timingHook u s).bufs = s.bufs := rfl
@[simp] theorem timingHook_env (u : UnitId) (s : State) : (timingHook u s).env = s.env := rfl
@[simp] theorem timingHook_host (u : UnitId) (s : State) : (timingHook u s).host = s.host := rfl
@[simp] theorem timingHook_inbox (u : UnitId) (s : State) : (timingHook u s).inbox = s.inbox := rfl
@[simp] theorem timingHook_breach (u : UnitId) (s : State) : (timingHook u s).breach = s.breach := rfl
@[simp] theorem timingHook_ret (u : UnitId) (s : State) : (timingHook u s).ret = s.ret := rfl

/-! ### startDma -/

@[simp] theorem startDma_bus (s : State) : (startDma s).2.bus = s.bus := rfl
@[simp] theorem startDma_qstate (s : State) : (startDma s).2.qstate = s.qstate := rfl
@[simp] theorem startDma_igate (s : State) : (startDma s).2.igate = s.igate := rfl
@[simp] theorem startDma_current (s : State) : (startDma s).2.current = s.current := rfl
@[simp] theorem startDma_queue (s : State) : (startDma s).2.queue = s.queue := rfl
@[simp] theorem startDma_selected (s : State) : (startDma s).2.selected = s.selected := rfl
@[simp] theorem startDma_devInfo0 (s : State) : (startDma s).2.devInfo0 = s.devInfo0 := rfl
@[simp] theorem startDma_devInfo1 (s : State) : (startDma s).2.devInfo1 = s.devInfo1 := rfl
@[simp] theorem startDma_timer (s : State) : (startDma s).2.timer = s.timer := rfl
@[simp] theorem startDma_snap (s : State) : (startDma s).2.snap = s.snap := rfl
@[simp] theorem startDma_irqEn (s : State) : (startDma s).2.irqEn = s.irqEn := rfl
@[simp] theorem startDma_dbuf (s : State) : (startDma s).2.dbuf = s.dbuf := rfl
@[simp] theorem startDma_params (s : State) : (startDma s).2.params = s.params := rfl
@[simp] theorem startDma_now (s : State) : (startDma s).2.now = s.now := rfl
@[simp] theorem startDma_cmds (s : State) : (startDma s).2.cmds = s.cmds := rfl
@[simp] theorem startDma_mem (s : State) : (startDma s).2.mem = s.mem := rfl
@[simp] theorem startDma_bufs (s : State) : (startDma s).2.bufs = s.bufs := rfl
@[simp] theorem startDma_host (s : State) : (startDma s).2.host = s.host := rfl
@[simp] theorem startDma_inbox (s : State) : (startDma s).2.inbox = s.inbox := rfl
@[simp] theorem startDma_breach (s : State) : (startDma s).2.breach = s.breach := rfl
@[simp] theorem startDma_ret (s : State) : (startDma s).2.ret = s.ret := rfl

/-! ### stopDma -/

@[simp] theorem stopDma_bus (s : State) : (stopDma s).bus = s.bus := rfl
@[simp] theorem stopDma_qstate (s : State) : (stopDma s).qstate = s.qstate := rfl
@[simp] theorem stopDma_igate (s : State) : (stopDma s).igate = s.igate := rfl
@[simp] theorem stopDma_current (s : State) : (stopDma s).current = s.current := rfl
@[simp] theorem stopDma_queue (s : State) : (stopDma s).queue = s.queue := rfl
@[simp] theorem stopDma_selected (s : State) : (stopDma s).selected = s.selected := rfl
@[simp] theorem stopDma_devInfo0 (s : State) : (stopDma s).devInfo0 = s.devInfo0 := rfl
@[simp] theorem stopDma_devInfo1 (s : State) : (stopDma s).devInfo1 = s.devInfo1 := rfl
@[simp] theorem stopDma_timer (s : State) : (stopDma s).timer = s.timer := rfl
@[simp] theorem stopDma_snap (s : State) : (stopDma s).snap = s.snap := rfl
@[simp] theorem stopDma_irqEn (s : State) : (stopDma s).irqEn = s.irqEn := rfl
@[simp] theorem stopDma_dbuf (s : State) : (stopDma s).dbuf = s.dbuf := rfl
@[simp] theorem stopDma_params (s : State) : (stopDma s).params = s.params := rfl
@[simp] theorem stopDma_now (s : State) : (stopDma s).now = s.now := rfl
@[simp] theorem stopDma_cmds (s : State) : (stopDma s).cmds = s.cmds := rfl
@[simp] theorem stopDma_mem (s : State) : (stopDma s).mem = s.mem := rfl
@[simp] theorem stopDma_bufs (s : State) : (stopDma s).bufs = s.bufs := rfl
@[simp] theorem stopDma_host (s : State) : (stopDma s).host = s.host := rfl
@[simp] theorem stopDma_inbox (s : State) : (stopDma s).inbox = s.inbox := rfl
@[simp] theorem stopDma_breach (s : State) : (stopDma s).breach = s.breach := rfl
@[simp] theorem stopDma_ret (s : State) : (stopDma s).ret = s.ret := rfl

/-! ### stopTimer -/

@[simp] theorem stopTimer_bus (s : State) : (stopTimer s).bus = s.bus := rfl
@[simp] theorem stopTimer_qstate (s : State) : (stopTimer s).qstate = s.qstate := rfl
@[simp] theorem stopTimer_igate (s : State) : (stopTimer s).igate = s.igate := rfl
@[simp] theorem stopTimer_current (s : State) : (stopTimer s).current = s.current := rfl
@[simp] theorem stopTimer_queue (s : State) : (stopTimer s).queue = s.queue := rfl
@[simp] theorem stopTimer_selected (s : State) : (stopTimer s).selected = s.selected := rfl
@[simp] theorem stopTimer_devInfo0 (s : State) : (stopTimer s).devInfo0 = s.devInfo0 := rfl
@[simp] theorem stopTimer_devInfo1 (s : State) : (stopTimer s).devInfo1 = s.devInfo1 := rfl
@[simp] theorem stopTimer_snap (s : State) : (stopTimer s).snap = s.snap := rfl
@[simp] theorem stopTimer_irqEn (s : State) : (stopTimer s).irqEn = s.irqEn := rfl
@[simp] theorem stopTimer_dbuf (s : State) : (stopTimer s).dbuf = s.dbuf := rfl
@[simp] theorem stopTimer_params (s : State) : (stopTimer s).params = s.params := rfl
@[simp] theorem stopTimer_now (s : State) : (stopTimer s).now = s.now := rfl
@[simp] theorem stopTimer_cmds (s : State) : (stopTimer s).cmds = s.cmds := rfl
@[simp] theorem stopTimer_mem (s : State) : (stopTimer s).mem = s.mem := rfl
@[simp] theorem stopTimer_bufs (s : State) : (stopTimer s).bufs = s.bufs := rfl
@[simp] theorem stopTimer_env (s : State) : (stopTimer s).env = s.env := rfl
@[simp] theorem stopTimer_host (s : State) : (stopTimer s).host = s.host := rfl
@[simp] theorem stopTimer_inbox (s : State) : (stopTimer s).inbox = s.inbox := rfl
@[simp] theorem stopTimer_breach (s : State) : (stopTimer s).breach = s.breach := rfl
@[simp] theorem stopTimer_ret (s : State) : (stopTimer s).ret = s.ret := rfl

/-! ### startTimer -/

@[simp] theorem startTimer_bus (d : Nat) (s : State) : (startTimer d s).bus = s.bus := by unfold startTimer; split <;> rfl
@[simp] theorem startTimer_qstate (d : Nat) (s : State) : (startTimer d s).qstate = s.qstate := by unfold startTimer; split <;> rfl
@[simp] theorem startTimer_igate (d : Nat) (s : State) : (startTimer d s).igate = s.igate := by unfold startTimer; split <;> rfl
@[simp] theorem startTimer_current (d : Nat) (s : State) : (startTimer d s).current = s.current := by unfold startTimer; split <;> rfl
@[simp] theorem startTimer_queue (d : Nat) (s : State) : (startTimer d s).queue = s.queue := by unfold startTimer; split <;> rfl
@[simp] theorem startTimer_selected (d : Nat) (s : State) : (startTimer d s).selected = s.selected := by unfold startTimer; split <;> rfl
@[simp] theorem startTimer_devInfo0 (d : Nat) (s : State) : (startTimer d s).devInfo0 = s.devInfo0 := by unfold startTimer; split <;> rfl
@[simp] theorem startTimer_devInfo1 (d : Nat) (s : State) : (startTimer d s).devInfo1 = s.devInfo1 := by unfold startTimer; split <;> rfl
@[simp] theorem startTimer_snap (d : Nat) (s : State) : (startTimer d s).snap = s.snap := by unfold startTimer; split <;> rfl
@[simp] theorem startTimer_irqEn (d : Nat) (s : State) : (startTimer d s).irqEn = s.irqEn := by unfold startTimer; split <;> rfl
@[simp] theorem startTimer_dbuf (d : Nat) (s : State) : (startTimer d s).dbuf = s.dbuf := by unfold startTimer; split <;> rfl
@[simp] theorem startTimer_params (d : Nat) (s : State) : (startTimer d s).params = s.params := by unfold startTimer; split <;> rfl
@[simp] theorem startTimer_now (d : Nat) (s : State) : (startTimer d s).now = s.now := by unfold startTimer; split <;> rfl
@[simp] theorem startTimer_cmds (d : Nat) (s : State) : (startTimer d s).cmds = s.cmds := by unfold startTimer; split <;> rfl
@[simp] theorem startTimer_mem (d : Nat) (s : State) : (startTimer d s).mem = s.mem := by unfold startTimer; split <;> rfl
@[simp] theorem startTimer_bufs (d : Nat) (s : State) : (startTimer d s).bufs = s.bufs := by unfold startTimer; split <;> rfl
@[simp] theorem startTimer_env (d : Nat) (s : State) : (startTimer d s).env = s.env := by unfold startTimer; split <;> rfl
@[simp] theorem startTimer_host (d : Nat) (s : State) : (startTimer d s).host = s.host := by unfold startTimer; split <;> rfl
@[simp] theorem startTimer_inbox (d : Nat) (s : State) : (startTimer d s).inbox = s.inbox := by unfold startTimer; split <;> rfl
@[simp] theorem startTimer_breach (d : Nat) (s : State) : (startTimer d s).breach = s.breach := by unfold startTimer; split <;> rfl
@[simp] theorem startTimer_ret (d : Nat) (s : State) : (startTimer d s).ret = s.ret := by unfold startTimer; split <;> rfl

/-! ### modCmd -/

@[simp] theorem modCmd_bus (id : Nat) (f : Command → Command) (s : State) : (s.modCmd id f).bus = s.bus := rfl
@[simp] theorem modCmd_qstate (id : Nat) (f : Command → Command) (s : State) : (s.modCmd id f).qstate = s.qstate := rfl
@[simp] theorem modCmd_igate (id : Nat) (f : Command → Command) (s : State) : (s.modCmd id f).igate = s.igate := rfl
@[simp] theorem modCmd_current (id : Nat) (f : Command → Command) (s : State) : (s.modCmd id f).current = s.current := rfl
@[simp] theorem modCmd_queue (id : Nat) (f : Command → Command) (s : State) : (s.modCmd id f).queue = s.queue := rfl
@[simp] theorem modCmd_selected (id : Nat) (f : Command → Command) (s : State) : (s.modCmd id f).selected = s.selected := rfl
@[simp] theorem modCmd_devInfo0 (id : Nat) (f : Command → Command) (s : State) : (s.modCmd id f).devInfo0 = s.devInfo0 := rfl
@[simp] theorem modCmd_devInfo1 (id : Nat) (f : Command → Command) (s : State) : (s.modCmd id f).devInfo1 = s.devInfo1 := rfl
@[simp] theorem modCmd_timer (id : Nat) (f : Command → Command) (s : State) : (s.modCmd id f).timer = s.timer := rfl
@[simp] theorem modCmd_snap (id : Nat) (f : Command → Command) (s : State) : (s.modCmd id f).snap = s.snap := rfl
@[simp] theorem modCmd_irqEn (id : Nat) (f : Command → Command) (s : State) : (s.modCmd id f).irqEn = s.irqEn := rfl
@[simp] theorem modCmd_dbuf (id : Nat) (f : Command → Command) (s : State) : (s.modCmd id f).dbuf = s.dbuf := rfl
@[simp] theorem modCmd_traceRev (id : Nat) (f : Command → Command) (s : State) : (s.modCmd id f).traceRev = s.traceRev := rfl
@[simp] theorem modCmd_params (id : Nat) (f : Command → Command) (s : State) : (s.modCmd id f).params = s.params := rfl
@[simp] theorem modCmd_now (id : Nat) (f : Command → Command) (s : State) : (s.modCmd id f).now = s.now := rfl
@[simp] theorem modCmd_mem (id : Nat) (f : Command → Command) (s : State) : (s.modCmd id f).mem = s.mem := rfl
@[simp] theorem modCmd_bufs (id : Nat) (f : Command → Command) (s : State) : (s.modCmd id f).bufs = s.bufs := rfl
@[simp] theorem modCmd_env (id : Nat) (f : Command → Command) (s : State) : (s.modCmd id f).env = s.env := rfl
@[simp] theorem modCmd_host (id : Nat) (f : Command → Command) (s : State) : (s.modCmd id f).host = s.host := rfl
@[simp] theorem modCmd_inbox (id : Nat) (f : Command → Command) (s : State) : (s.modCmd id f).inbox = s.inbox := rfl
@[simp] theorem modCmd_breach (id : Nat) (f : Command → Command) (s : State) : (s.modCmd id f).breach = s.breach := rfl
@[simp] theorem modCmd_ret (id : Nat) (f : Command → Command) (s : State) : (s.modCmd id f).ret = s.ret := rfl

/-! ### modCur -/

@[simp] theorem modCur_bus (f : Command → Command) (s : State) : (s.modCur f).bus = s.bus := by unfold State.modCur; split <;> rfl
@[simp] theorem modCur_qstate (f : Command → Command) (s : State) : (s.modCur f).qstate = s.qstate := by unfold State.modCur; split <;> rfl
@[simp] theorem modCur_igate (f : Command → Command) (s : State) : (s.modCur f).igate = s.igate := by unfold State.modCur; split <;> rfl
@[simp] theorem modCur_current (f : Command → Command) (s : State) : (s.modCur f).current = s.current := by unfold State.modCur; split <;> rfl
@[simp] theorem modCur_queue (f : Command → Command) (s : State) : (s.modCur f).queue = s.queue := by unfold State.modCur; split <;> rfl
@[simp] theorem modCur_selected (f : Command → Command) (s : State) : (s.modCur f).selected = s.selected := by unfold State.modCur; split <;> rfl
@[simp] theorem modCur_devInfo0 (f : Command → Command) (s : State) : (s.modCur f).devInfo0 = s.devInfo0 := by unfold State.modCur; split <;> rfl
@[simp] theorem modCur_devInfo1 (f : Command → Command) (s : State) : (s.modCur f).devInfo1 = s.devInfo1 := by unfold State.modCur; split <;> rfl
@[simp] theorem modCur_timer (f : Command → Command) (s : State) : (s.modCur f).timer = s.timer := by unfold State.modCur; split <;> rfl
@[simp] theorem modCur_snap (f : Command → Command) (s : State) : (s.modCur f).snap = s.snap := by unfold State.modCur; split <;> rfl
@[simp] theorem modCur_irqEn (f : Command → Command) (s : State) : (s.modCur f).irqEn = s.irqEn := by unfold State.modCur; split <;> rfl
@[simp] theorem modCur_dbuf (f : Command → Command) (s : State) : (s.modCur f).dbuf = s.dbuf := by unfold State.modCur; split <;> rfl
@[simp] theorem modCur_traceRev (f : Command → Command) (s : State) : (s.modCur f).traceRev = s.traceRev := by unfold State.modCur; split <;> rfl
@[simp] theorem modCur_params (f : Command → Command) (s : State) : (s.modCur f).params = s.params := by unfold State.modCur; split <;> rfl
@[simp] theorem modCur_now (f : Command → Command) (s : State) : (s.modCur f).now = s.now := by unfold State.modCur; split <;> rfl
@[simp] theorem modCur_mem (f : Command → Command) (s : State) : (s.modCur f).mem = s.mem := by unfold State.modCur; split <;> rfl
@[simp] theorem modCur_bufs (f : Command → Command) (s : State) : (s.modCur f).bufs = s.bufs := by unfold State.modCur; split <;> rfl
@[simp] theorem modCur_env (f : Command → Command) (s : State) : (s.modCur f).env = s.env := by unfold State.modCur; split <;> rfl
@[simp] theorem modCur_host (f : Command → Command) (s : State) : (s.modCur f).host = s.host := by unfold State.modCur; split <;> rfl
@[simp] theorem modCur_inbox (f : Command → Command) (s : State) : (s.modCur f).inbox = s.inbox := by unfold State.modCur; split <;> rfl
@[simp] theorem modCur_breach (f : Command → Command) (s : State) : (s.modCur f).breach = s.breach := by unfold State.modCur; split <;> rfl
@[simp] theorem modCur_ret (f : Command → Command) (s : State) : (s.modCur f).ret = s.ret := by unfold State.modCur; split <;> rfl

/-! ### setPhase -/

@[simp] theorem setPhase_bus (ph : Byte) (s : State) : (setPhase ph s).bus = s.bus := by unfold setPhase State.modCur; split <;> rfl
@[simp] theorem setPhase_qstate (ph : Byte) (s : State) : (setPhase ph s).qstate = s.qstate := by unfold setPhase State.modCur; split <;> rfl
@[simp] theorem setPhase_igate (ph : Byte) (s : State) : (setPhase ph s).igate = s.igate := by unfold setPhase State.modCur; split <;> rfl
@[simp] theorem setPhase_current (ph : Byte) (s : State) : (setPhase ph s).current = s.current := by unfold setPhase State.modCur; split <;> rfl
@[simp] theorem setPhase_queue (ph : Byte) (s : State) : (setPhase ph s).queue = s.queue := by unfold setPhase State.modCur; split <;> rfl
@[simp] theorem setPhase_selected (ph : Byte) (s : State) : (setPhase ph s).selected = s.selected := by unfold setPhase State.modCur; split <;> rfl
@[simp] theorem setPhase_devInfo0 (ph : Byte) (s : State) : (setPhase ph s).devInfo0 = s.devInfo0 := by unfold setPhase State.modCur; split <;> rfl
@[simp] theorem setPhase_devInfo1 (ph : Byte) (s : State) : (setPhase ph s).devInfo1 = s.devInfo1 := by unfold setPhase State.modCur; split <;> rfl
@[simp] theorem setPhase_timer (ph : Byte) (s : State) : (setPhase ph s).timer = s.timer := by unfold setPhase State.modCur; split <;> rfl
@[simp] theorem setPhase_snap (ph : Byte) (s : State) : (setPhase ph s).snap = s.snap := by unfold setPhase State.modCur; split <;> rfl
@[simp] theorem setPhase_irqEn (ph : Byte) (s : State) : (setPhase ph s).irqEn = s.irqEn := by unfold setPhase State.modCur; split <;> rfl
@[simp] theorem setPhase_dbuf (ph : Byte) (s : State) : (setPhase ph s).dbuf = s.dbuf := by unfold setPhase State.modCur; split <;> rfl
@[simp] theorem setPhase_traceRev (ph : Byte) (s : State) : (setPhase ph s).traceRev = s.traceRev := by unfold setPhase State.modCur; split <;> rfl
@[simp] theorem setPhase_params (ph : Byte) (s : State) : (setPhase ph s).params = s.params := by unfold setPhase State.modCur; split <;> rfl
@[simp] theorem setPhase_now (ph : Byte) (s : State) : (setPhase ph s).now = s.now := by unfold setPhase State.modCur; split <;> rfl
@[simp] theorem setPhase_mem (ph : Byte) (s : State) : (setPhase ph s).mem = s.mem := by unfold setPhase State.modCur; split <;> rfl
@[simp] theorem setPhase_bufs (ph : Byte) (s : State) : (setPhase ph s).bufs = s.bufs := by unfold setPhase State.modCur; split <;> rfl
@[simp] theorem setPhase_env (ph : Byte) (s : State) : (setPhase ph s).env = s.env := by unfold setPhase State.modCur; split <;> rfl
@[simp] theorem setPhase_host (ph : Byte) (s : State) : (setPhase ph s).host = s.host := by unfold setPhase State.modCur; split <;> rfl
@[simp] theorem setPhase_inbox (ph : Byte) (s : State) : (setPhase ph s).inbox = s.inbox := by unfold setPhase State.modCur; split <;> rfl
@[simp] theorem setPhase_breach (ph : Byte) (s : State) : (setPhase ph s).breach = s.breach := by unfold setPhase State.modCur; split <;> rfl
@[simp] theorem setPhase_ret (ph : Byte) (s : State) : (setPhase ph s).ret = s.ret := by unfold setPhase State.modCur; split <;> rfl

/-! ### setDevInfo -/

@[simp] theorem setDevInfo_bus (u : UnitId) (i : DevInfo) (s : State) : (s.setDevInfo u i).bus = s.bus := by cases u <;> rfl
@[simp] theorem setDevInfo_qstate (u : UnitId) (i : DevInfo) (s : State) : (s.setDevInfo u i).qstate = s.qstate := by cases u <;> rfl
@[simp] theorem setDevInfo_igate (u : UnitId) (i : DevInfo) (s : State) : (s.setDevInfo u i).igate = s.igate := by cases u <;> rfl
@[simp] theorem setDevInfo_current (u : UnitId) (i : DevInfo) (s : State) : (s.setDevInfo u i).current = s.current := by cases u <;> rfl
@[simp] theorem setDevInfo_queue (u : UnitId) (i : DevInfo) (s : State) : (s.setDevInfo u i).queue = s.queue := by cases u <;> rfl
@[simp] theorem setDevInfo_selected (u : UnitId) (i : DevInfo) (s : State) : (s.setDevInfo u i).selected = s.selected := by cases u <;> rfl
@[simp] theorem setDevInfo_timer (u : UnitId) (i : DevInfo) (s : State) : (s.setDevInfo u i).timer = s.timer := by cases u <;> rfl
@[simp] theorem setDevInfo_snap (u : UnitId) (i : DevInfo) (s : State) : (s.setDevInfo u i).snap = s.snap := by cases u <;> rfl
@[simp] theorem setDevInfo_irqEn (u : UnitId) (i : DevInfo) (s : State) : (s.setDevInfo u i).irqEn = s.irqEn := by cases u <;> rfl
@[simp] theorem setDevInfo_dbuf (u : UnitId) (i : DevInfo) (s : State) : (s.setDevInfo u i).dbuf = s.dbuf := by cases u <;> rfl
@[simp] theorem setDevInfo_traceRev (u : UnitId) (i : DevInfo) (s : State) : (s.setDevInfo u i).traceRev = s.traceRev := by cases u <;> rfl
@[simp] theorem setDevInfo_params (u : UnitId) (i : DevInfo) (s : State) : (s.setDevInfo u i).params = s.params := by cases u <;> rfl
@[simp] theorem setDevInfo_now (u : UnitId) (i : DevInfo) (s : State) : (s.setDevInfo u i).now = s.now := by cases u <;> rfl
@[simp] theorem setDevInfo_cmds (u : UnitId) (i : DevInfo) (s : State) : (s.setDevInfo u i).cmds = s.cmds := by cases u <;> rfl
@[simp] theorem setDevInfo_mem (u : UnitId) (i : DevInfo) (s : State) : (s.setDevInfo u i).mem = s.mem := by cases u <;> rfl
@[simp] theorem setDevInfo_bufs (u : UnitId) (i : DevInfo) (s : State) : (s.setDevInfo u i).bufs = s.bufs := by cases u <;> rfl
@[simp] theorem setDevInfo_env (u : UnitId) (i : DevInfo) (s : State) : (s.setDevInfo u i).env = s.env := by cases u <;> rfl
@[simp] theorem setDevInfo_host (u : UnitId) (i : DevInfo) (s : State) : (s.setDevInfo u i).host = s.host := by cases u <;> rfl
@[simp] theorem setDevInfo_inbox (u : UnitId) (i : DevInfo) (s : State) : (s.setDevInfo u i).inbox = s.inbox := by cases u <;> rfl
@[simp] theorem setDevInfo_breach (u : UnitId) (i : DevInfo) (s : State) : (s.setDevInfo u i).breach = s.breach := by cases u <;> rfl
@[simp] theorem setDevInfo_ret (u : UnitId) (i : DevInfo) (s : State) : (s.setDevInfo u i).ret = s.ret := by cases u <;> rfl

/-! ### memRead -/

@[simp] theorem memRead_bus (h : Word) (off n : Nat) (s : State) : (memRead h off n s).2.bus = s.bus := rfl
@[simp] theorem memRead_qstate (h : Word) (off n : Nat) (s : State) : (memRead h off n s).2.qstate = s.qstate := rfl
@[simp] theorem memRead_igate (h : Word) (off n : Nat) (s : State) : (memRead h off n s).2.igate = s.igate := rfl
@[simp] theorem memRead_current (h : Word) (off n : Nat) (s : State) : (memRead h off n s).2.current = s.current := rfl
@[simp] theorem memRead_queue (h : Word) (off n : Nat) (s : State) : (memRead h off n s).2.queue = s.queue := rfl
@[simp] theorem memRead_selected (h : Word) (off n : Nat) (s : State) : (memRead h off n s).2.selected = s.selected := rfl
@[simp] theorem memRead_devInfo0 (h : Word) (off n : Nat) (s : State) : (memRead h off n s).2.devInfo0 = s.devInfo0 := rfl
@[simp] theorem memRead_devInfo1 (h : Word) (off n : Nat) (s : State) : (memRead h off n s).2.devInfo1 = s.devInfo1 := rfl
@[simp] theorem memRead_timer (h : Word) (off n : Nat) (s : State) : (memRead h off n s).2.timer = s.timer := rfl
@[simp] theorem memRead_snap (h : Word) (off n : Nat) (s : State) : (memRead h off n s).2.snap = s.snap := rfl
@[simp] theorem memRead_irqEn (h : Word) (off n : Nat) (s : State) : (memRead h off n s).2.irqEn = s.irqEn := rfl
@[simp] theorem memRead_dbuf (h : Word) (off n : Nat) (s : State) : (memRead h off n s).2.dbuf = s.dbuf := rfl
@[simp] theorem memRead_params (h : Word) (off n : Nat) (s : State) : (memRead h off n s).2.params = s.params := rfl
@[simp] theorem memRead_now (h : Word) (off n : Nat) (s : State) : (memRead h off n s).2.now = s.now := rfl
@[simp] theorem memRead_cmds (h : Word) (off n : Nat) (s : State) : (memRead h off n s).2.cmds = s.cmds := rfl
@[simp] theorem memRead_mem (h : Word) (off n : Nat) (s : State) : (memRead h off n s).2.mem = s.mem := rfl
@[simp] theorem memRead_bufs (h : Word) (off n : Nat) (s : State) : (memRead h off n s).2.bufs = s.bufs := rfl
@[simp] theorem memRead_env (h : Word) (off n : Nat) (s : State) : (memRead h off n s).2.env = s.env := rfl
@[simp] theorem memRead_host (h : Word) (off n : Nat) (s : State) : (memRead h off n s).2.host = s.host := rfl
@[simp] theorem memRead_inbox (h : Word) (off n : Nat) (s : State) : (memRead h off n s).2.inbox = s.inbox := rfl
@[simp] theorem memRead_breach (h : Word) (off n : Nat) (s : State) : (memRead h off n s).2.breach = s.breach := rfl
@[simp] theorem memRead_ret (h : Word) (off n : Nat) (s : State) : (memRead h off n s).2.ret = s.ret := rfl

/-! ### memWrite -/

@[simp] theorem memWrite_bus (h : Word) (off : Nat) (bs : List Byte) (s : State) : (memWrite h off bs s).bus = s.bus := rfl
@[simp] theorem memWrite_qstate (h : Word) (off : Nat) (bs : List Byte) (s : State) : (memWrite h off bs s).qstate = s.qstate := rfl
@[simp] theorem memWrite_igate (h : Word) (off : Nat) (bs : List Byte) (s : State) : (memWrite h off bs s).igate = s.igate := rfl
@[simp] theorem memWrite_current (h : Word) (off : Nat) (bs : List Byte) (s : State) : (memWrite h off bs s).current = s.current := rfl
@[simp] theorem memWrite_queue (h : Word) (off : Nat) (bs : List Byte) (s : State) : (memWrite h off bs s).queue = s.queue := rfl
@[simp] theorem memWrite_selected (h : Word) (off : Nat) (bs : List Byte) (s : State) : (memWrite h off bs s).selected = s.selected := rfl
@[simp] theorem memWrite_devInfo0 (h : Word) (off : Nat) (bs : List Byte) (s : State) : (memWrite h off bs s).devInfo0 = s.devInfo0 := rfl
@[simp] theorem memWrite_devInfo1 (h : Word) (off : Nat) (bs : List Byte) (s : State) : (memWrite h off bs s).devInfo1 = s.devInfo1 := rfl
@[simp] theorem memWrite_timer (h : Word) (off : Nat) (bs : List Byte) (s : State) : (memWrite h off bs s).timer = s.timer := rfl
@[simp] theorem memWrite_snap (h : Word) (off : Nat) (bs : List Byte) (s : State) : (memWrite h off bs s).snap = s.snap := rfl
@[simp] theorem memWrite_irqEn (h : Word) (off : Nat) (bs : List Byte) (s : State) : (memWrite h off bs s).irqEn = s.irqEn := rfl
@[simp] theorem memWrite_dbuf (h : Word) (off : Nat) (bs : List Byte) (s : State) : (memWrite h off bs s).dbuf = s.dbuf := rfl
@[simp] theorem memWrite_params (h : Word) (off : Nat) (bs : List Byte) (s : State) : (memWrite h off bs s).params = s.params := rfl
@[simp] theorem memWrite_now (h : Word) (off : Nat) (bs : List Byte) (s : State) : (memWrite h off bs s).now = s.now := rfl
@[simp] theorem memWrite_cmds (h : Word) (off : Nat) (bs : List Byte) (s : State) : (memWrite h off bs s).cmds = s.cmds := rfl
@[simp] theorem memWrite_bufs (h : Word) (off : Nat) (bs : List Byte) (s : State) : (memWrite h off bs s).bufs = s.bufs := rfl
@[simp] theorem memWrite_env (h : Word) (off : Nat) (bs : List Byte) (s : State) : (memWrite h off bs s).env = s.env := rfl
@[simp] theorem memWrite_host (h : Word) (off : Nat) (bs : List Byte) (s : State) : (memWrite h off bs s).host = s.host := rfl
@[simp] theorem memWrite_inbox (h : Word) (off : Nat) (bs : List Byte) (s : State) : (memWrite h off bs s).inbox = s.inbox := rfl
@[simp] theorem memWrite_breach (h : Word) (off : Nat) (bs : List Byte) (s : State) : (memWrite h off bs s).breach = s.breach := rfl
@[simp] theorem memWrite_ret (h : Word) (off : Nat) (bs : List Byte) (s : State) : (memWrite h off bs s).ret = s.ret := rfl

/-! ### loadDbuf -/

@[simp] theorem loadDbuf_bus (bs : List Byte) (s : State) : (loadDbuf bs s).bus = s.bus := rfl
@[simp] theorem loadDbuf_qstate (bs : List Byte) (s : State) : (loadDbuf bs s).qstate = s.qstate := rfl
@[simp] theorem loadDbuf_igate (bs : List Byte) (s : State) : (loadDbuf bs s).igate = s.igate := rfl
@[simp] theorem loadDbuf_current (bs : List Byte) (s : State) : (loadDbuf bs s).current = s.current := rfl
@[simp] theorem loadDbuf_queue (bs : List Byte) (s : State) : (loadDbuf bs s).queue = s.queue := rfl
@[simp] theorem loadDbuf_selected (bs : List Byte) (s : State) : (loadDbuf bs s).selected = s.selected := rfl
@[simp] theorem loadDbuf_devInfo0 (bs : List Byte) (s : State) : (loadDbuf bs s).devInfo0 = s.devInfo0 := rfl
@[simp] theorem loadDbuf_devInfo1 (bs : List Byte) (s : State) : (loadDbuf bs s).devInfo1 = s.devInfo1 := rfl
@[simp] theorem loadDbuf_timer (bs : List Byte) (s : State) : (loadDbuf bs s).timer = s.timer := rfl
@[simp] theorem loadDbuf_snap (bs : List Byte) (s : State) : (loadDbuf bs s).snap = s.snap := rfl
@[simp] theorem loadDbuf_irqEn (bs : List Byte) (s : State) : (loadDbuf bs s).irqEn = s.irqEn := rfl
@[simp] theorem loadDbuf_traceRev (bs : List Byte) (s : State) : (loadDbuf bs s).traceRev = s.traceRev := rfl
@[simp] theorem loadDbuf_params (bs : List Byte) (s : State) : (loadDbuf bs s).params = s.params := rfl
@[simp] theorem loadDbuf_now (bs : List Byte) (s : State) : (loadDbuf bs s).now = s.now := rfl
@[simp] theorem loadDbuf_cmds (bs : List Byte) (s : State) : (loadDbuf bs s).cmds = s.cmds := rfl
@[simp] theorem loadDbuf_mem (bs : List Byte) (s : State) : (loadDbuf bs s).mem = s.mem := rfl
@[simp] theorem loadDbuf_bufs (bs : List Byte) (s : State) : (loadDbuf bs s).bufs = s.bufs := rfl
@[simp] theorem loadDbuf_env (bs : List Byte) (s : State) : (loadDbuf bs s).env = s.env := rfl
@[simp] theorem loadDbuf_host (bs : List Byte) (s : State) : (loadDbuf bs s).host = s.host := rfl
@[simp] theorem loadDbuf_inbox (bs : List Byte) (s : State) : (loadDbuf bs s).inbox = s.inbox := rfl
@[simp] theorem loadDbuf_breach (bs : List Byte) (s : State) : (loadDbuf bs s).breach = s.breach := rfl
@[simp] theorem loadDbuf_ret (bs : List Byte) (s : State) : (loadDbuf bs s).ret = s.ret := rfl

/-! ### enqueue -/

@[simp] theorem enqueue_bus (id : Nat) (s : State) : (enqueue id s).bus = s.bus := by unfold enqueue; split <;> rfl
@[simp] theorem enqueue_qstate (id : Nat) (s : State) : (enqueue id s).qstate = s.qstate := by unfold enqueue; split <;> rfl
@[simp] theorem enqueue_igate (id : Nat) (s : State) : (enqueue id s).igate = s.igate := by unfold enqueue; split <;> rfl
@[simp] theorem enqueue_current (id : Nat) (s : State) : (enqueue id s).current = s.current := by unfold enqueue; split <;> rfl
@[simp] theorem enqueue_selected (id : Nat) (s : State) : (enqueue id s).selected = s.selected := by unfold enqueue; split <;> rfl
@[simp] theorem enqueue_devInfo0 (id : Nat) (s : State) : (enqueue id s).devInfo0 = s.devInfo0 := by unfold enqueue; split <;> rfl
@[simp] theorem enqueue_devInfo1 (id : Nat) (s : State) : (enqueue id s).devInfo1 = s.devInfo1 := by unfold enqueue; split <;> rfl
@[simp] theorem enqueue_timer (id : Nat) (s : State) : (enqueue id s).timer = s.timer := by unfold enqueue; split <;> rfl
@[simp] theorem enqueue_snap (id : Nat) (s : State) : (enqueue id s).snap = s.snap := by unfold enqueue; split <;> rfl
@[simp] theorem enqueue_irqEn (id : Nat) (s : State) : (enqueue id s).irqEn = s.irqEn := by unfold enqueue; split <;> rfl
@[simp] theorem enqueue_dbuf (id : Nat) (s : State) : (enqueue id s).dbuf = s.dbuf := by unfold enqueue; split <;> rfl
@[simp] theorem enqueue_traceRev (id : Nat) (s : State) : (enqueue id s).traceRev = s.traceRev := by unfold enqueue; split <;> rfl
@[simp] theorem enqueue_params (id : Nat) (s : State) : (enqueue id s).params = s.params := by unfold enqueue; split <;> rfl
@[simp] theorem enqueue_now (id : Nat) (s : State) : (enqueue id s).now = s.now := by unfold enqueue; split <;> rfl
@[simp] theorem enqueue_cmds (id : Nat) (s : State) : (enqueue id s).cmds = s.cmds := by unfold enqueue; split <;> rfl
@[simp] theorem enqueue_mem (id : Nat) (s : State) : (enqueue id s).mem = s.mem := by unfold enqueue; split <;> rfl
@[simp] theorem enqueue_bufs (id : Nat) (s : State) : (enqueue id s).bufs = s.bufs := by unfold enqueue; split <;> rfl
@[simp] theorem enqueue_env (id : Nat) (s : State) : (enqueue id s).env = s.env := by unfold enqueue; split <;> rfl
@[simp] theorem enqueue_host (id : Nat) (s : State) : (enqueue id s).host = s.host := by unfold enqueue; split <;> rfl
@[simp] theorem enqueue_inbox (id : Nat) (s : State) : (enqueue id s).inbox = s.inbox := by unfold enqueue; split <;> rfl
@[simp] theorem enqueue_breach (id : Nat) (s : State) : (enqueue id s).breach = s.breach := by unfold enqueue; split <;> rfl
@[simp] theorem enqueue_ret (id : Nat) (s : State) : (enqueue id s).ret = s.ret := by unfold enqueue; split <;> rfl

/-! ### dequeueFirst -/

@[simp] theorem dequeueFirst_bus (s : State) : (dequeueFirst s).2.bus = s.bus := by unfold dequeueFirst; split <;> rfl
@[simp] theorem dequeueFirst_qstate (s : State) : (dequeueFirst s).2.qstate = s.qstate := by unfold dequeueFirst; split <;> rfl
@[simp] theorem dequeueFirst_igate (s : State) : (dequeueFirst s).2.igate = s.igate := by unfold dequeueFirst; split <;> rfl
@[simp] theorem dequeueFirst_current (s : State) : (dequeueFirst s).2.current = s.current := by unfold dequeueFirst; split <;> rfl
@[simp] theorem dequeueFirst_selected (s : State) : (dequeueFirst s).2.selected = s.selected := by unfold dequeueFirst; split <;> rfl
@[simp] theorem dequeueFirst_devInfo0 (s : State) : (dequeueFirst s).2.devInfo0 = s.devInfo0 := by unfold dequeueFirst; split <;> rfl
@[simp] theorem dequeueFirst_devInfo1 (s : State) : (dequeueFirst s).2.devInfo1 = s.devInfo1 := by unfold dequeueFirst; split <;> rfl
@[simp] theorem dequeueFirst_timer (s : State) : (dequeueFirst s).2.timer = s.timer := by unfold dequeueFirst; split <;> rfl
@[simp] theorem dequeueFirst_snap (s : State) : (dequeueFirst s).2.snap = s.snap := by unfold dequeueFirst; split <;> rfl
@[simp] theorem dequeueFirst_irqEn (s : State) : (dequeueFirst s).2.irqEn = s.irqEn := by unfold dequeueFirst; split <;> rfl
@[simp] theorem dequeueFirst_dbuf (s : State) : (dequeueFirst s).2.dbuf = s.dbuf := by unfold dequeueFirst; split <;> rfl
@[simp] theorem dequeueFirst_traceRev (s : State) : (dequeueFirst s).2.traceRev = s.traceRev := by unfold dequeueFirst; split <;> rfl
@[simp] theorem dequeueFirst_params (s : State) : (dequeueFirst s).2.params = s.params := by unfold dequeueFirst; split <;> rfl
@[simp] theorem dequeueFirst_now (s : State) : (dequeueFirst s).2.now = s.now := by unfold dequeueFirst; split <;> rfl
@[simp] theorem dequeueFirst_cmds (s : State) : (dequeueFirst s).2.cmds = s.cmds := by unfold dequeueFirst; split <;> rfl
@[simp] theorem dequeueFirst_mem (s : State) : (dequeueFirst s).2.mem = s.mem := by unfold dequeueFirst; split <;> rfl
@[simp] theorem dequeueFirst_bufs (s : State) : (dequeueFirst s).2.bufs = s.bufs := by unfold dequeueFirst; split <;> rfl
@[simp] theorem dequeueFirst_env (s : State) : (dequeueFirst s).2.env = s.env := by unfold dequeueFirst; split <;> rfl
@[simp] theorem dequeueFirst_host (s : State) : (dequeueFirst s).2.host = s.host := by unfold dequeueFirst; split <;> rfl
@[simp] theorem dequeueFirst_inbox (s : State) : (dequeueFirst s).2.inbox = s.inbox := by unfold dequeueFirst; split <;> rfl
@[simp] theorem dequeueFirst_breach (s : State) : (dequeueFirst s).2.breach = s.breach := by unfold dequeueFirst; split <;> rfl
@[simp] theorem dequeueFirst_ret (s : State) : (dequeueFirst s).2.ret = s.ret := by unfold dequeueFirst; split <;> rfl

/-! ### enterCallout -/

@[simp] theorem enterCallout_queue (s : State) : (enterCallout s).queue = s.queue := rfl
@[simp] theorem enterCallout_selected (s : State) : (enterCallout s).selected = s.selected := rfl
@[simp] theorem enterCallout_devInfo0 (s : State) : (enterCallout s).devInfo0 = s.devInfo0 := rfl
@[simp] theorem enterCallout_devInfo1 (s : State) : (enterCallout s).devInfo1 = s.devInfo1 := rfl
@[simp] theorem enterCallout_timer (s : State) : (enterCallout s).timer = s.timer := rfl
@[simp] theorem enterCallout_irqEn (s : State) : (enterCallout s).irqEn = s.irqEn := rfl
@[simp] theorem enterCallout_dbuf (s : State) : (enterCallout s).dbuf = s.dbuf := rfl
@[simp] theorem enterCallout_traceRev (s : State) : (enterCallout s).traceRev = s.traceRev := rfl
@[simp] theorem enterCallout_params (s : State) : (enterCallout s).params = s.params := rfl
@[simp] theorem enterCallout_now (s : State) : (enterCallout s).now = s.now := rfl
@[simp] theorem enterCallout_cmds (s : State) : (enterCallout s).cmds = s.cmds := rfl
@[simp] theorem enterCallout_mem (s : State) : (enterCallout s).mem = s.mem := rfl
@[simp] theorem enterCallout_bufs (s : State) : (enterCallout s).bufs = s.bufs := rfl
@[simp] theorem enterCallout_env (s : State) : (enterCallout s).env = s.env := rfl
@[simp] theorem enterCallout_host (s : State) : (enterCallout s).host = s.host := rfl
@[simp] theorem enterCallout_inbox (s : State) : (enterCallout s).inbox = s.inbox := rfl
@[simp] theorem enterCallout_breach (s : State) : (enterCallout s).breach = s.breach := rfl
@[simp] theorem enterCallout_ret (s : State) : (enterCallout s).ret = s.ret := rfl

/-! ### leaveCallout -/

@[simp] theorem leaveCallout_queue (s : State) : (leaveCallout s).queue = s.queue := by unfold leaveCallout; split <;> rfl
@[simp] theorem leaveCallout_selected (s : State) : (leaveCallout s).selected = s.selected := by unfold leaveCallout; split <;> rfl
@[simp] theorem leaveCallout_devInfo0 (s : State) : (leaveCallout s).devInfo0 = s.devInfo0 := by unfold leaveCallout; split <;> rfl
@[simp] theorem leaveCallout_devInfo1 (s : State) : (leaveCallout s).devInfo1 = s.devInfo1 := by unfold leaveCallout; split <;> rfl
@[simp] theorem leaveCallout_timer (s : State) : (leaveCallout s).timer = s.timer := by unfold leaveCallout; split <;> rfl
@[simp] theorem leaveCallout_irqEn (s : State) : (leaveCallout s).irqEn = s.irqEn := by unfold leaveCallout; split <;> rfl
@[simp] theorem leaveCallout_dbuf (s : State) : (leaveCallout s).dbuf = s.dbuf := by unfold leaveCallout; split <;> rfl
@[simp] theorem leaveCallout_traceRev (s : State) : (leaveCallout s).traceRev = s.traceRev := by unfold leaveCallout; split <;> rfl
@[simp] theorem leaveCallout_params (s : State) : (leaveCallout s).params = s.params := by unfold leaveCallout; split <;> rfl
@[simp] theorem leaveCallout_now (s : State) : (leaveCallout s).now = s.now := by unfold leaveCallout; split <;> rfl
@[simp] theorem leaveCallout_cmds (s : State) : (leaveCallout s).cmds = s.cmds := by unfold leaveCallout; split <;> rfl
@[simp] theorem leaveCallout_mem (s : State) : (leaveCallout s).mem = s.mem := by unfold leaveCallout; split <;> rfl
@[simp] theorem leaveCallout_bufs (s : State) : (leaveCallout s).bufs = s.bufs := by unfold leaveCallout; split <;> rfl
@[simp] theorem leaveCallout_env (s : State) : (leaveCallout s).env = s.env := by unfold leaveCallout; split <;> rfl
@[simp] theorem leaveCallout_host (s : State) : (leaveCallout s).host = s.host := by unfold leaveCallout; split <;> rfl
@[simp] theorem leaveCallout_inbox (s : State) : (leaveCallout s).inbox = s.inbox := by unfold leaveCallout; split <;> rfl
@[simp] theorem leaveCallout_breach (s : State) : (leaveCallout s).breach = s.breach := by unfold leaveCallout; split <;> rfl
@[simp] theorem leaveCallout_ret (s : State) : (leaveCallout s).ret = s.ret := by unfold leaveCallout; split <;> rfl

/-! ### The fields that change -/

@[simp] theorem emit_traceRev (e : Event) (s : State) : (s.emit e).traceRev = e :: s.traceRev := rfl
@[simp] theorem barrier_traceRev (s : State) : (barrier s).traceRev = .bar :: s.traceRev := rfl
@[simp] theorem readByte_traceRev (r : Reg) (ev : Byte → Event) (s : State) :
    (readByte r ev s).2.traceRev = .bar :: ev (s.env.byteAnswer r) :: s.traceRev := rfl
@[simp] theorem readByte_env (r : Reg) (ev : Byte → Event) (s : State) :
    (readByte r ev s).2.env = s.env.byteRead r := rfl
@[simp] theorem rd8_fst (r : Reg) (s : State) : (rd8 r s).1 = s.env.byteAnswer r := rfl
@[simp] theorem rd8_traceRev (r : Reg) (s : State) :
    (rd8 r s).2.traceRev = .bar :: .r8 r (s.env.byteAnswer r) :: s.traceRev := rfl
@[simp] theorem rd8_env (r : Reg) (s : State) : (rd8 r s).2.env = s.env.byteRead r := rfl
@[simp] theorem wr8_traceRev (r : Reg) (v : Byte) (s : State) :
    (wr8 r v s).traceRev = .bar :: .w8 r v :: s.traceRev := rfl
@[simp] theorem rd16_traceRev (s : State) : (rd16 s).2.traceRev = .bar :: .r16 (rd16 s).1 :: s.traceRev := rfl
@[simp] theorem wr16_traceRev (w : Half) (s : State) : (wr16 w s).traceRev = .bar :: .w16 w :: s.traceRev := rfl
@[simp] theorem rd8d_fst (s : State) : (rd8d s).1 = s.env.byteAnswer .data := rfl
@[simp] theorem rd8d_traceRev (s : State) :
    (rd8d s).2.traceRev = .bar :: .r8d (s.env.byteAnswer .data) :: s.traceRev := rfl
@[simp] theorem rd8d_env (s : State) : (rd8d s).2.env = s.env.byteRead .data := rfl
@[simp] theorem wr8d_traceRev (b : Byte) (s : State) : (wr8d b s).traceRev = .bar :: .w8d b :: s.traceRev := rfl
@[simp] theorem writeControl_traceRev (v : Byte) (s : State) :
    (writeControl v s).traceRev = .bar :: .w8 .altctl v :: s.traceRev := rfl
@[simp] theorem writeControl_irqEn (v : Byte) (s : State) : (writeControl v s).irqEn = irqEnOf v := rfl
@[simp] theorem sleep_traceRev (d : Nat) (s : State) : (sleep d s).traceRev = .sleep d :: s.traceRev := rfl
@[simp] theorem sleep_now (d : Nat) (s : State) :
    (sleep d s).now = s.now + d + scriptHead (Config.freeOvershoot s.env.drawn) s.env.overshoot := rfl
@[simp] theorem timingHook_traceRev (u : UnitId) (s : State) : (timingHook u s).traceRev = .timing u :: s.traceRev := rfl
@[simp] theorem startDma_traceRev (s : State) :
    (startDma s).2.traceRev = .startDma (startDma s).1 :: s.traceRev := rfl
@[simp] theorem stopTimer_traceRev (s : State) : (stopTimer s).traceRev = .disarm :: s.traceRev := rfl
@[simp] theorem stopTimer_timer (s : State) : (stopTimer s).timer = { s.timer with armed := false } := rfl
@[simp] theorem startTimer_timer (d : Nat) (s : State) : (startTimer d s).timer = ⟨true, s.now + d⟩ := by
  unfold startTimer; split <;> rfl
theorem startTimer_traceRev (d : Nat) (s : State) :
    (startTimer d s).traceRev = .arm d :: (if s.timer.armed then [.disarm] else []) ++ s.traceRev := by
  unfold startTimer; split <;> rfl
@[simp] theorem modCmd_cmds (id : Nat) (f : Command → Command) (s : State) :
    (s.modCmd id f).cmds = s.cmds.modify id f := rfl
@[simp] theorem memRead_fst (h : Word) (off n : Nat) (s : State) :
    (memRead h off n s).1 = Memory.getBytes s.mem (Memory.addr h off) n := rfl
@[simp] theorem memRead_traceRev (h : Word) (off n : Nat) (s : State) :
    (memRead h off n s).2.traceRev = .memRd h off n :: s.traceRev := rfl
@[simp] theorem memWrite_traceRev (h : Word) (off : Nat) (bs : List Byte) (s : State) :
    (memWrite h off bs s).traceRev = .memWr h off bs.length bs :: s.traceRev := rfl
@[simp] theorem memWrite_mem (h : Word) (off : Nat) (bs : List Byte) (s : State) :
    (memWrite h off bs s).mem = Memory.setBytes s.mem (Memory.addr h off) bs := rfl
@[simp] theorem loadDbuf_dbuf (bs : List Byte) (s : State) :
    (loadDbuf bs s).dbuf = bs ++ s.dbuf.drop bs.length := rfl
@[simp] theorem enterCallout_bus (s : State) : (enterCallout s).bus = .free := rfl
@[simp] theorem enterCallout_qstate (s : State) : (enterCallout s).qstate = .locked := rfl
@[simp] theorem enterCallout_igate (s : State) : (enterCallout s).igate = .opened := rfl
@[simp] theorem enterCallout_current (s : State) : (enterCallout s).current = none := rfl
@[simp] theorem enterCallout_snap (s : State) :
    (enterCallout s).snap = ⟨s.current, s.bus, s.qstate, s.igate⟩ :: s.snap := rfl

/-! ### The descriptor store -/

theorem modCmd_cmd_same (id : Nat) (f : Command → Command) (s : State) (h : id < s.cmds.length) :
    (s.modCmd id f).cmd id = f (s.cmd id) := by
  simp [State.cmd, List.getD, h]

theorem modCmd_cmd_other (id k : Nat) (f : Command → Command) (s : State) (h : k ≠ id) :
    (s.modCmd id f).cmd k = s.cmd k := by
  simp [State.cmd, List.getD, Ne.symm h]

@[simp] theorem modCmd_length (id : Nat) (f : Command → Command) (s : State) :
    (s.modCmd id f).cmds.length = s.cmds.length := by simp

theorem modCmd_modCmd (id : Nat) (f g : Command → Command) (s : State) :
    (s.modCmd id f).modCmd id g = s.modCmd id (fun c => g (f c)) := by
  simp [State.modCmd, List.modify_modify_eq, Function.comp_def]

@[simp] theorem modCur_some (id : Nat) (f : Command → Command) (s : State) (h : s.current = some id) :
    s.modCur f = s.modCmd id f := by simp [State.modCur, h]

@[simp] theorem cur_some (id : Nat) (s : State) (h : s.current = some id) : s.cur = s.cmd id := by
  simp [State.cur, h]

end Sys2Proof.Machine
end

