-- ==== Sys2Proof/Laws/Handled.lean ====
section
/-! SUPPORT. What the work for the current command can do before its completion: one relation, kept by every port access,
poll, selection, reset, phase and register access. Its lemmas say once what these operations leave alone. -/

namespace Sys2Proof.Machine

/-- The fields of a command that the work for it leaves alone, and its counts, which stay in bounds. -/
structure SameOrder (c c' : Command) : Prop where
  opcode    : c'.opcode = c.opcode
  unit      : c'.unit = c.unit
  flags     : c'.flags = c.flags
  regMask   : c'.regMask = c.regMask
  pktLen    : c'.pktLen = c.pktLen
  timeoutMs : c'.timeoutMs = c.timeoutMs
  byteCount : c'.byteCount = c.byteCount
  chunk     : c'.chunk = c.chunk
  buf       : c'.buf = c.buf
  cb        : c'.cb = c.cb
  pkt       : c'.pkt = c.pkt
  result    : c'.result = c.result
  inUse     : c'.inUse = c.inUse
  counts    : countsWf c → countsWf c'

theorem SameOrder.refl (c : Command) : SameOrder c c :=
  ⟨rfl, rfl, rfl, rfl, rfl, rfl, rfl, rfl, rfl, rfl, rfl, rfl, rfl, id⟩

theorem SameOrder.trans {a b c : Command} (h : SameOrder a b) (k : SameOrder b c) : SameOrder a c :=
  ⟨k.1.trans h.1, k.2.trans h.2, k.3.trans h.3, k.4.trans h.4, k.5.trans h.5, k.6.trans h.6, k.7.trans h.7,
    k.8.trans h.8, k.9.trans h.9, k.10.trans h.10, k.11.trans h.11, k.12.trans h.12, k.13.trans h.13,
    fun x => k.14 (h.14 x)⟩

/-- A call of host code. -/
def Event.isHostCall : Event → Bool
  | .callback _ _ => true
  | .notify _ _ _ => true
  | _ => false

/-- From `s` to `t` only the work for the current command was done. -/
structure Handled (s t : State) : Prop where
  bus      : t.bus = s.bus
  qstate   : t.qstate = s.qstate
  igate    : t.igate = s.igate
  current  : t.current = s.current
  queue    : t.queue = s.queue
  devInfo0 : t.devInfo0 = s.devInfo0
  devInfo1 : t.devInfo1 = s.devInfo1
  snap     : t.snap = s.snap
  params   : t.params = s.params
  bufs     : t.bufs = s.bufs
  host     : t.host = s.host
  inbox    : t.inbox = s.inbox
  breach   : t.breach = s.breach
  ret      : t.ret = s.ret
  length   : t.cmds.length = s.cmds.length
  others   : ∀ k, s.current ≠ some k → t.cmd k = s.cmd k
  order    : ∀ k, SameOrder (s.cmd k) (t.cmd k)
  now      : s.now ≤ t.now
  stores   : s.StoresWf → t.StoresWf
  trace    : ∃ es, t.traceRev = es ++ s.traceRev ∧ ∀ e ∈ es, e.isHostCall = false

theorem Handled.refl (s : State) : Handled s s :=
  ⟨rfl, rfl, rfl, rfl, rfl, rfl, rfl, rfl, rfl, rfl, rfl, rfl, rfl, rfl, rfl, fun _ _ => rfl, fun _ => SameOrder.refl _,
    Nat.le_refl _, id, [], rfl, by simp⟩

theorem Handled.trans {a b c : State} (h : Handled a b) (k : Handled b c) : Handled a c where
  bus := k.bus.trans h.bus
  qstate := k.qstate.trans h.qstate
  igate := k.igate.trans h.igate
  current := k.current.trans h.current
  queue := k.queue.trans h.queue
  devInfo0 := k.devInfo0.trans h.devInfo0
  devInfo1 := k.devInfo1.trans h.devInfo1
  snap := k.snap.trans h.snap
  params := k.params.trans h.params
  bufs := k.bufs.trans h.bufs
  host := k.host.trans h.host
  inbox := k.inbox.trans h.inbox
  breach := k.breach.trans h.breach
  ret := k.ret.trans h.ret
  length := k.length.trans h.length
  others := fun i hi => (k.others i (by rw [h.current]; exact hi)).trans (h.others i hi)
  order := fun i => (h.order i).trans (k.order i)
  now := h.now.trans k.now
  stores := fun w => k.stores (h.stores w)
  trace := by
    obtain ⟨e1, t1, n1⟩ := h.trace
    obtain ⟨e2, t2, n2⟩ := k.trace
    refine ⟨e2 ++ e1, by rw [t2, t1, List.append_assoc], ?_⟩
    intro e he
    rcases List.mem_append.mp he with he | he
    · exact n2 e he
    · exact n1 e he

/-- A step that changes only the trace, the draws, the clock, the cache, `irqEn` and the timer. -/
theorem Handled.of_port {s t : State} (es : List Event) (hb : t.bus = s.bus) (hq : t.qstate = s.qstate)
    (hg : t.igate = s.igate) (hc : t.current = s.current) (hqu : t.queue = s.queue) (h0 : t.devInfo0 = s.devInfo0)
    (h1 : t.devInfo1 = s.devInfo1) (hs : t.snap = s.snap) (hp : t.params = s.params) (hbu : t.bufs = s.bufs)
    (hh : t.host = s.host) (hi : t.inbox = s.inbox) (hbr : t.breach = s.breach) (hr : t.ret = s.ret) (hcm : t.cmds = s.cmds)
    (hn : s.now ≤ t.now) (hm : t.mem = s.mem) (hd : t.dbuf = s.dbuf) (ht : t.traceRev = es ++ s.traceRev)
    (he : ∀ e ∈ es, e.isHostCall = false) : Handled s t where
  bus := hb
  qstate := hq
  igate := hg
  current := hc
  queue := hqu
  devInfo0 := h0
  devInfo1 := h1
  snap := hs
  params := hp
  bufs := hbu
  host := hh
  inbox := hi
  breach := hbr
  ret := hr
  length := by rw [hcm]
  others := fun k _ => by simp [State.cmd, hcm]
  order := fun k => by
    have : t.cmd k = s.cmd k := by simp [State.cmd, hcm]
    rw [this]; exact SameOrder.refl _
  now := hn
  stores := fun w => by unfold State.StoresWf at *; rw [hm, hd]; exact w
  trace := ⟨es, ht, he⟩

/-! ## Ports, hooks, timer -/

theorem wr8_handled (r : Reg) (v : Byte) (s : State) : Handled s (wr8 r v s) :=
  .of_port [.bar, .w8 r v] rfl rfl rfl rfl rfl rfl rfl rfl rfl rfl rfl rfl rfl rfl rfl (Nat.le_refl _) rfl rfl rfl
    (by simp [Event.isHostCall])

theorem rd8_handled (r : Reg) (s : State) : Handled s (rd8 r s).2 :=
  .of_port [.bar, .r8 r (s.env.byteAnswer r)] rfl rfl rfl rfl rfl rfl rfl rfl rfl rfl rfl rfl rfl rfl rfl (Nat.le_refl _)
    rfl rfl rfl (by simp [Event.isHostCall])

theorem rd16_handled (s : State) : Handled s (rd16 s).2 :=
  .of_port [.bar, .r16 (rd16 s).1] rfl rfl rfl rfl rfl rfl rfl rfl rfl rfl rfl rfl rfl rfl rfl (Nat.le_refl _) rfl rfl rfl
    (by simp [Event.isHostCall])

theorem wr16_handled (w : Half) (s : State) : Handled s (wr16 w s) :=
  .of_port [.bar, .w16 w] rfl rfl rfl rfl rfl rfl rfl rfl rfl rfl rfl rfl rfl rfl rfl (Nat.le_refl _) rfl rfl rfl
    (by simp [Event.isHostCall])

theorem rd8d_handled (s : State) : Handled s (rd8d s).2 :=
  .of_port [.bar, .r8d (s.env.byteAnswer .data)] rfl rfl rfl rfl rfl rfl rfl rfl rfl rfl rfl rfl rfl rfl rfl (Nat.le_refl _)
    rfl rfl rfl (by simp [Event.isHostCall])

theorem wr8d_handled (b : Byte) (s : State) : Handled s (wr8d b s) :=
  .of_port [.bar, .w8d b] rfl rfl rfl rfl rfl rfl rfl rfl rfl rfl rfl rfl rfl rfl rfl (Nat.le_refl _) rfl rfl rfl
    (by simp [Event.isHostCall])

theorem writeControl_handled (v : Byte) (s : State) : Handled s (writeControl v s) :=
  .of_port [.bar, .w8 .altctl v] rfl rfl rfl rfl rfl rfl rfl rfl rfl rfl rfl rfl rfl rfl rfl (Nat.le_refl _) rfl rfl rfl
    (by simp [Event.isHostCall])

theorem sleep_handled (d : Nat) (s : State) : Handled s (sleep d s) :=
  .of_port [.sleep d] rfl rfl rfl rfl rfl rfl rfl rfl rfl rfl rfl rfl rfl rfl rfl (by rw [sleep_now]; omega) rfl rfl rfl
    (by simp [Event.isHostCall])

theorem timingHook_handled (u : UnitId) (s : State) : Handled s (timingHook u s) :=
  .of_port [.timing u] rfl rfl rfl rfl rfl rfl rfl rfl rfl rfl rfl rfl rfl rfl rfl (Nat.le_refl _) rfl rfl rfl
    (by simp [Event.isHostCall])

theorem startDma_handled (s : State) : Handled s (startDma s).2 :=
  .of_port [.startDma (startDma s).1] rfl rfl rfl rfl rfl rfl rfl rfl rfl rfl rfl rfl rfl rfl rfl (Nat.le_refl _) rfl rfl rfl
    (by simp [Event.isHostCall])

theorem stopDma_handled (s : State) : Handled s (stopDma s) :=
  .of_port [.stopDma _] rfl rfl rfl rfl rfl rfl rfl rfl rfl rfl rfl rfl rfl rfl rfl (Nat.le_refl _) rfl rfl rfl
    (by simp [Event.isHostCall])

theorem stopTimer_handled (s : State) : Handled s (stopTimer s) :=
  .of_port [.disarm] rfl rfl rfl rfl rfl rfl rfl rfl rfl rfl rfl rfl rfl rfl rfl (Nat.le_refl _) rfl rfl rfl
    (by simp [Event.isHostCall])

theorem startTimer_handled (d : Nat) (s : State) : Handled s (startTimer d s) := by
  unfold startTimer
  split
  · exact (stopTimer_handled s).trans
      (.of_port [.arm d] rfl rfl rfl rfl rfl rfl rfl rfl rfl rfl rfl rfl rfl rfl rfl (Nat.le_refl _) rfl rfl rfl
        (by simp [Event.isHostCall]))
  · exact .of_port [.arm d] rfl rfl rfl rfl rfl rfl rfl rfl rfl rfl rfl rfl rfl rfl rfl (Nat.le_refl _) rfl rfl rfl
      (by simp [Event.isHostCall])

theorem memRead_handled (h : Word) (off n : Nat) (s : State) : Handled s (memRead h off n s).2 :=
  .of_port [.memRd h off n] rfl rfl rfl rfl rfl rfl rfl rfl rfl rfl rfl rfl rfl rfl rfl (Nat.le_refl _) rfl rfl rfl
    (by simp [Event.isHostCall])

theorem selected_handled (x : Option UnitId) (s : State) : Handled s { s with selected := x } :=
  .of_port [] rfl rfl rfl rfl rfl rfl rfl rfl rfl rfl rfl rfl rfl rfl rfl (Nat.le_refl _) rfl rfl rfl (by simp)

/-! ## The Double Buffer, the host's memory, the current command -/

theorem loadDbuf_handled (bs : List Byte) (s : State) (h : bs.length ≤ Config.dbufBytes) :
    Handled s (loadDbuf bs s) where
  bus := rfl
  qstate := rfl
  igate := rfl
  current := rfl
  queue := rfl
  devInfo0 := rfl
  devInfo1 := rfl
  snap := rfl
  params := rfl
  bufs := rfl
  host := rfl
  inbox := rfl
  breach := rfl
  ret := rfl
  length := rfl
  others := fun _ _ => rfl
  order := fun _ => SameOrder.refl _
  now := Nat.le_refl _
  stores := fun w => ⟨w.1, by simp only [loadDbuf_dbuf, List.length_append, List.length_drop, w.2]; omega⟩
  trace := ⟨[], rfl, by simp⟩

theorem memWrite_handled (h : Word) (off : Nat) (bs : List Byte) (s : State) : Handled s (memWrite h off bs s) where
  bus := rfl
  qstate := rfl
  igate := rfl
  current := rfl
  queue := rfl
  devInfo0 := rfl
  devInfo1 := rfl
  snap := rfl
  params := rfl
  bufs := rfl
  host := rfl
  inbox := rfl
  breach := rfl
  ret := rfl
  length := rfl
  others := fun _ _ => rfl
  order := fun _ => SameOrder.refl _
  now := Nat.le_refl _
  stores := fun w => ⟨by rw [memWrite_mem]; exact Memory.wf_setBytes w.1, w.2⟩
  trace := ⟨[.memWr h off bs.length bs], rfl, by simp [Event.isHostCall]⟩

/-- A change of the current command that keeps its order and its counts. -/
theorem modCur_handled (f : Command → Command) (s : State) (h : ∀ k, s.current = some k → SameOrder (s.cmd k) (f (s.cmd k))) :
    Handled s (s.modCur f) where
  bus := by simp
  qstate := by simp
  igate := by simp
  current := by simp
  queue := by simp
  devInfo0 := by simp
  devInfo1 := by simp
  snap := by simp
  params := by simp
  bufs := by simp
  host := by simp
  inbox := by simp
  breach := by simp
  ret := by simp
  length := by unfold State.modCur; split <;> simp
  others := fun k hk => by
    unfold State.modCur
    split
    · rename_i id hid
      exact modCmd_cmd_other _ _ _ _ (fun e => hk (by rw [hid, e]))
    · rfl
  order := fun k => by
    unfold State.modCur
    split
    · rename_i id hid
      by_cases hk : k = id
      · subst hk
        by_cases hl : k < s.cmds.length
        · rw [modCmd_cmd_same _ _ _ hl]; exact h k hid
        · have e : (s.modCmd k f).cmd k = s.cmd k := by simp [State.cmd, Nat.not_lt.mp hl]
          rw [e]; exact SameOrder.refl _
      · rw [modCmd_cmd_other _ _ _ _ hk]; exact SameOrder.refl _
    · exact SameOrder.refl _
  now := by simp
  stores := fun w => by unfold State.StoresWf at *; simpa using w
  trace := ⟨[], by simp, by simp⟩

theorem setPhase_handled (ph : Byte) (s : State) : Handled s (setPhase ph s) :=
  modCur_handled _ _ (fun _ _ => ⟨rfl, rfl, rfl, rfl, rfl, rfl, rfl, rfl, rfl, rfl, rfl, rfl, rfl, fun w => w⟩)

/-! ## Lists of accesses -/

theorem writeWords_handled (ws : List Half) (s : State) : Handled s (writeWords ws s) := by
  induction ws generalizing s with
  | nil => exact .refl s
  | cons w ws ih => exact (wr16_handled w s).trans (ih _)

theorem readWords_handled (n : Nat) (s : State) : Handled s (readWords n s).2 := by
  induction n generalizing s with
  | zero => exact .refl s
  | succ n ih => exact (rd16_handled s).trans (ih _)

theorem readWords_length (n : Nat) (s : State) : (readWords n s).1.length = 2 * n := by
  induction n generalizing s with
  | zero => rfl
  | succ n ih => simp only [readWords, List.length_append, ih, wordBytes, List.length_cons, List.length_nil]; omega

theorem readData_handled (n : Nat) (s : State) : Handled s (readData n s).2 := by
  unfold readData
  split
  · exact (readWords_handled _ s).trans (rd8d_handled _)
  · exact readWords_handled _ s

theorem readData_length (n : Nat) (s : State) : (readData n s).1.length = n := by
  unfold readData
  split
  · simp only [List.length_append, readWords_length, List.length_cons, List.length_nil]; omega
  · rw [readWords_length]; omega

theorem writeData_handled (bs : List Byte) (s : State) : Handled s (writeData bs s) := by
  induction bs, s using writeData.induct with
  | case1 s => exact .refl s
  | case2 => exact wr8d_handled _ _
  | case3 _ _ _ _ ih => exact (wr16_handled _ _).trans ih

theorem drain_handled (m : Nat) (s : State) : Handled s (drain m s) := readData_handled m s

theorem pad_handled (m : Nat) (s : State) : Handled s (pad m s) := by
  unfold pad
  split
  · exact (writeWords_handled _ s).trans (wr8d_handled _ _)
  · exact writeWords_handled _ s

theorem writeTwoByte_handled (c : Command) (t : TwoByte) (s : State) : Handled s (writeTwoByte c t s) := by
  unfold writeTwoByte
  split
  · exact (wr8_handled _ _ s).trans (wr8_handled _ _ _)
  · exact wr8_handled _ _ s

theorem writeTwoBytes_handled (c : Command) (ts : List TwoByte) (s : State) : Handled s (writeTwoBytes c ts s) := by
  induction ts generalizing s with
  | nil => exact .refl s
  | cons t ts ih => exact (writeTwoByte_handled c t s).trans (ih _)

theorem readTwoBytes_handled (put : TwoByte → Byte → Command → Command) (ts : List TwoByte) (s : State)
    (h : ∀ t v c, SameOrder c (put t v c)) : Handled s (readTwoBytes put ts s) := by
  induction ts generalizing s with
  | nil => exact .refl s
  | cons t ts ih => exact ((rd8_handled _ s).trans (modCur_handled _ _ (fun _ _ => h _ _ _))).trans (ih _)

theorem setLo_sameOrder (t : TwoByte) (v : Byte) (c : Command) : SameOrder c (t.setLo v c) := by
  cases t <;> exact ⟨rfl, rfl, rfl, rfl, rfl, rfl, rfl, rfl, rfl, rfl, rfl, rfl, rfl, fun w => w⟩

theorem setHi_sameOrder (t : TwoByte) (v : Byte) (c : Command) : SameOrder c (t.setHi v c) := by
  cases t <;> exact ⟨rfl, rfl, rfl, rfl, rfl, rfl, rfl, rfl, rfl, rfl, rfl, rfl, rfl, fun w => w⟩

theorem whenMasked_handled (c : Command) (r : Reg) (f : State → State) (s : State) (h : ∀ s, Handled s (f s)) :
    Handled s (whenMasked c r f s) := by
  unfold whenMasked
  split
  · exact h s
  · exact .refl s

theorem readInto_handled (r : Reg) (put : Byte → Command → Command) (s : State) (h : ∀ v c, SameOrder c (put v c)) :
    Handled s (readInto r put s) :=
  (rd8_handled r s).trans (modCur_handled _ _ (fun _ _ => h _ _))

theorem readDataInto_handled (s : State) : Handled s (readDataInto s) :=
  (rd16_handled s).trans (modCur_handled _ _
    (fun _ _ => ⟨rfl, rfl, rfl, rfl, rfl, rfl, rfl, rfl, rfl, rfl, rfl, rfl, rfl, fun w => w⟩))

theorem readHighBytes_handled (c : Command) (n : Byte) (s : State) : Handled s (readHighBytes c n s) :=
  ((wr8_handled _ _ s).trans (readTwoBytes_handled _ _ _ (fun t v c => setHi_sameOrder t v c))).trans (wr8_handled _ _ _)

/-- `registerAccess(true)` (R276). -/
theorem registerWrite_handled (s : State) : Handled s (registerWrite s) := by
  unfold registerWrite
  refine ((((writeTwoBytes_handled _ _ s).trans (whenMasked_handled _ _ _ _ ?_)).trans
    (whenMasked_handled _ _ _ _ ?_)).trans (whenMasked_handled _ _ _ _ ?_)).trans (whenMasked_handled _ _ _ _ ?_)
  · exact fun s => (wr8_handled _ _ s).trans (selected_handled _ _)
  · exact fun s => writeControl_handled _ s
  · exact fun s => wr16_handled _ s
  · exact fun s => wr8_handled _ _ s

/-- `registerAccess(false)` (R276). -/
theorem registerRead_handled (s : State) : Handled s (registerRead s) := by
  have h6 : ∀ s, Handled s (readInto .devhead (fun v c => { c with tf := { c.tf with dh := v } }) s) := fun s =>
    readInto_handled _ _ s (fun v c => ⟨rfl, rfl, rfl, rfl, rfl, rfl, rfl, rfl, rfl, rfl, rfl, rfl, rfl, fun w => w⟩)
  have h8 : ∀ s, Handled s (readInto .altctl (fun v c => { c with tf := { c.tf with ctl := v } }) s) := fun s =>
    readInto_handled _ _ s (fun v c => ⟨rfl, rfl, rfl, rfl, rfl, rfl, rfl, rfl, rfl, rfl, rfl, rfl, rfl, fun w => w⟩)
  have h7 : ∀ s, Handled s (readInto .statcmd (fun v c => { c with tf := { c.tf with cmd := v } }) s) := fun s =>
    readInto_handled _ _ s (fun v c => ⟨rfl, rfl, rfl, rfl, rfl, rfl, rfl, rfl, rfl, rfl, rfl, rfl, rfl, fun w => w⟩)
  have base := ((((readTwoBytes_handled _ (maskedTwoBytes s.cur) s setLo_sameOrder).trans
    (whenMasked_handled s.cur .devhead _ _ h6)).trans (whenMasked_handled s.cur .altctl _ _ h8)).trans
    (whenMasked_handled s.cur .data _ _ readDataInto_handled)).trans (whenMasked_handled s.cur .statcmd _ _ h7)
  unfold registerRead
  dsimp only
  split
  · exact base.trans (readHighBytes_handled _ _ _)
  · exact base

theorem captureResult_handled (s : State) : Handled s (captureResult s) := by
  unfold captureResult
  split
  · exact registerRead_handled s
  · exact .refl s

/-- The status phase before it sets the phase. -/
theorem statusReads_handled (s : State) :
    Handled s (captureResult ((rd8 .errfeat (rd8 .statcmd s).2).2.modCur (fun c =>
      { c with endStatus := (rd8 .statcmd s).1, endError := (rd8 .errfeat (rd8 .statcmd s).2).1 }))) :=
  (((rd8_handled .statcmd s).trans (rd8_handled .errfeat _)).trans
    (modCur_handled _ _
      (fun _ _ => ⟨rfl, rfl, rfl, rfl, rfl, rfl, rfl, rfl, rfl, rfl, rfl, rfl, rfl, fun w => w⟩))).trans
    (captureResult_handled _)

/-- `statusPhase` (P270). -/
theorem statusPhase_handled (e : Result) (s : State) : Handled s (statusPhase e s).2 :=
  (statusReads_handled s).trans (setPhase_handled _ _)

/-! ## Polls, selection, reset -/

theorem pollStatus_handled (ok : Byte → Bool) (abort : Byte → State → Option Result) (n : Nat) (s : State) :
    Handled s (pollStatus ok abort n s).state := by
  induction n generalizing s with
  | zero =>
    unfold pollStatus
    dsimp only
    split
    · exact rd8_handled _ s
    · split <;> exact rd8_handled _ s
  | succ n ih =>
    unfold pollStatus
    dsimp only
    split
    · exact rd8_handled _ s
    · split
      · exact rd8_handled _ s
      · exact ((rd8_handled _ s).trans (sleep_handled _ _)).trans (ih _)

theorem preSelect_handled (u : UnitId) (s : State) : Handled s (preSelect u s).2 := by
  unfold preSelect
  split
  · exact .refl s
  · dsimp only
    split
    · exact ((pollStatus_handled _ _ _ s).trans (wr8_handled _ _ _)).trans (selected_handled _ _)
    · exact (pollStatus_handled _ _ _ s).trans (selected_handled _ _)

theorem postSelect_handled (u : UnitId) (s : State) : Handled s (postSelect u s).2 := by
  unfold postSelect
  dsimp only
  split
  · exact ((pollStatus_handled _ _ _ s).trans (writeControl_handled _ _)).trans (selected_handled _ _)
  · exact (pollStatus_handled _ _ _ s).trans (selected_handled _ _)

/-- `selectDevice` (P201). -/
theorem selectDevice_handled (unit : Byte) (s : State) : Handled s (selectDevice unit s).2 := by
  unfold selectDevice
  split
  · exact selected_handled _ _
  · rename_i u _
    have h := (timingHook_handled u s).trans (preSelect_handled u _)
    dsimp only
    split
    · exact h.trans (postSelect_handled _ _)
    · exact h

theorem resetPulse_handled (a : Bool) (s : State) : Handled s (resetPulse a s) := by
  unfold resetPulse
  split
  · exact wr8_handled _ _ s
  · exact (((wr8_handled _ _ s).trans (sleep_handled _ _)).trans (writeControl_handled _ _)).trans (selected_handled _ _)

/-- `softResetBus` (P210). -/
theorem softResetBus_handled (a : Bool) (s : State) : Handled s (softResetBus a s).2 :=
  ((resetPulse_handled a s).trans (sleep_handled _ _)).trans (pollStatus_handled _ _ _ _)

/-! ## The PIO engine -/

theorem readSlice_handled (n : Nat) (s : State) (h : n ≤ Config.dbufBytes) : Handled s (readSlice n s) :=
  ((readData_handled n s).trans (loadDbuf_handled _ _ (by rw [readData_length]; exact h))).trans (memWrite_handled _ _ _ _)

theorem writeSlice_handled (n : Nat) (s : State) (h : n ≤ Config.dbufBytes) : Handled s (writeSlice n s) :=
  ((memRead_handled _ _ n s).trans (loadDbuf_handled _ _ (by simpa using h))).trans (writeData_handled _ _)

/-- The counts of a command after a slice of `n` bytes that it still had to move. -/
theorem countsWf_slice (c : Command) (n : Nat) (hn : n ≤ remaining c) (h : countsWf c) :
    countsWf { c with actual := c.actual + BitVec.ofNat 32 n, position := c.position + BitVec.ofNat 32 n } := by
  obtain ⟨h1, h2⟩ := h
  unfold remaining at *
  have b := c.byteCount.isLt
  unfold countsWf remaining
  simp only [BitVec.toNat_add, BitVec.toNat_ofNat]
  constructor
  · rw [Nat.mod_eq_of_lt (a := n) (by omega), Nat.mod_eq_of_lt (by omega)]; omega
  · rw [Nat.mod_eq_of_lt (a := n) (by omega), Nat.mod_eq_of_lt (a := c.actual.toNat + n) (by omega),
      Nat.mod_eq_of_lt (by omega)]
    omega

theorem countsWf_remaining_slice (c : Command) (n : Nat) (hn : n ≤ remaining c) :
    remaining { c with actual := c.actual + BitVec.ofNat 32 n, position := c.position + BitVec.ofNat 32 n }
      = remaining c - n := by
  unfold remaining at *
  have b := c.byteCount.isLt
  simp only [BitVec.toNat_add, BitVec.toNat_ofNat]
  by_cases hz : n = 0
  · subst hz; simp [Nat.mod_eq_of_lt c.actual.isLt]
  · rw [Nat.mod_eq_of_lt (a := n) (by omega), Nat.mod_eq_of_lt (by omega)]; omega

@[simp] theorem readWords_cmds (n : Nat) (s : State) : (readWords n s).2.cmds = s.cmds := by
  induction n generalizing s with
  | zero => rfl
  | succ n ih => simp [readWords, ih]

@[simp] theorem readData_cmds (n : Nat) (s : State) : (readData n s).2.cmds = s.cmds := by
  unfold readData
  dsimp only
  split <;> simp

@[simp] theorem writeData_cmds (bs : List Byte) (s : State) : (writeData bs s).cmds = s.cmds := by
  induction bs, s using writeData.induct with
  | case1 => rfl
  | case2 => rfl
  | case3 _ _ _ _ ih => simp [writeData, ih]

@[simp] theorem readSlice_cmds (n : Nat) (s : State) : (readSlice n s).cmds = s.cmds := by simp [readSlice]

@[simp] theorem writeSlice_cmds (n : Nat) (s : State) : (writeSlice n s).cmds = s.cmds := by simp [writeSlice]

/-- Work that leaves the store alone leaves the current command alone. -/
theorem Handled.cur_eq {s t : State} (h : Handled s t) (hc : t.cmds = s.cmds) : t.cur = s.cur := by
  unfold State.cur State.cmd
  rw [h.current, hc]

/-- The slice of `n` bytes before the counts are updated. -/
theorem slice_handled (n : Nat) (s : State) (h : n ≤ Config.dbufBytes) :
    Handled s (if s.cur.flags.rd then readSlice n s else writeSlice n s) := by
  split
  · exact readSlice_handled n s h
  · exact writeSlice_handled n s h

theorem slice_cmds (n : Nat) (s : State) : (if s.cur.flags.rd then readSlice n s else writeSlice n s).cmds = s.cmds := by
  split <;> simp

/-- One slice (R308) of no more bytes than the Double Buffer holds and the command still has to move. -/
theorem moveSlice_handled (n : Nat) (s : State) (h : n ≤ Config.dbufBytes) (hr : n ≤ remaining s.cur) :
    Handled s (moveSlice n s) := by
  unfold moveSlice
  have ht := slice_handled n s h
  refine ht.trans (modCur_handled _ _ (fun k hk => ?_))
  have e := ht.cur_eq (slice_cmds n s)
  rw [cur_some k _ hk] at e
  rw [e]
  exact ⟨rfl, rfl, rfl, rfl, rfl, rfl, rfl, rfl, rfl, rfl, rfl, rfl, rfl, countsWf_slice _ n hr⟩

/-- After a slice the command has that much less to move. -/
theorem moveSlice_remaining (n : Nat) (s : State) (h : n ≤ Config.dbufBytes) (hr : n ≤ remaining s.cur) :
    remaining (moveSlice n s).cur = remaining s.cur - n := by
  unfold moveSlice
  have ht := slice_handled n s h
  have hc := slice_cmds n s
  generalize (if s.cur.flags.rd then readSlice n s else writeSlice n s) = t at ht hc
  cases hk : s.current with
  | none =>
    have hk' : t.current = none := ht.current.trans hk
    have e : s.cur = Command.blank := by simp [State.cur, hk]
    have e' : n = 0 := by rw [e] at hr; exact Nat.le_zero.mp hr
    subst e'
    simp [State.modCur, State.cur, hk, hk']
  | some k =>
    have hk' : t.current = some k := ht.current.trans hk
    have e := ht.cur_eq hc
    by_cases hl : k < t.cmds.length
    · rw [modCur_some k _ _ hk', cur_some k _ (by simpa using hk'), modCmd_cmd_same _ _ _ hl, ← cur_some k t hk', e,
        countsWf_remaining_slice _ _ hr]
    · have eb : s.cur = Command.blank := by
        rw [← e, cur_some k t hk']; simp [State.cmd, Nat.not_lt.mp hl]
      have e' : n = 0 := by rw [eb] at hr; exact Nat.le_zero.mp hr
      subst e'
      rw [modCur_some k _ _ hk', cur_some k _ (by simpa using hk')]
      simp only [State.cmd, modCmd_cmds, Nat.sub_zero, eb]
      rw [List.getD_eq_default _ _ (by simpa using Nat.not_lt.mp hl)]

/-- All the slices of a pass (R308). -/
theorem moveSlices_handled (fuel n : Nat) (s : State) (hr : n ≤ remaining s.cur) : Handled s (moveSlices fuel n s) := by
  induction fuel generalizing n s with
  | zero => exact .refl s
  | succ fuel ih =>
    unfold moveSlices
    split
    · exact .refl s
    · have h1 : min n Config.dbufBytes ≤ remaining s.cur := Nat.le_trans (Nat.min_le_left _ _) hr
      refine (moveSlice_handled _ s (Nat.min_le_right _ _) h1).trans (ih _ _ ?_)
      rw [moveSlice_remaining _ s (Nat.min_le_right _ _) h1]
      omega

theorem passCount_handled (s : State) : Handled s (passCount s).2 := by
  unfold passCount
  dsimp only
  split
  · exact (rd8_handled _ s).trans (rd8_handled _ _)
  · exact .refl s

theorem passCount_cmds (s : State) : (passCount s).2.cmds = s.cmds := by
  unfold passCount
  dsimp only
  split <;> rfl

theorem passCount_le (s : State) : (passCount s).1.1 ≤ remaining s.cur := by
  unfold passCount
  dsimp only
  split
  · exact Nat.min_le_right _ _
  · exact Nat.min_le_left _ _

theorem settleOverrun_handled (m : Nat) (s : State) : Handled s (settleOverrun m s) := by
  unfold settleOverrun
  split
  · exact .refl s
  · split
    · exact drain_handled m s
    · exact pad_handled m s

theorem endPass_handled (s : State) : Handled s (endPass s) := by
  unfold endPass
  split
  · exact setPhase_handled _ s
  · exact .refl s

theorem passData_handled (s : State) : Handled s (passData s) := by
  unfold passData
  dsimp only
  refine (((passCount_handled s).trans (moveSlices_handled _ _ _ ?_)).trans (settleOverrun_handled _ _)).trans
    (endPass_handled _)
  rw [(passCount_handled s).cur_eq (passCount_cmds s)]
  exact passCount_le s

/-- `pioPass` (P300). -/
theorem pioPass_handled (s : State) : Handled s (pioPass s).2 := by
  unfold pioPass
  split
  · exact setPhase_handled _ s
  · dsimp only
    split
    · exact (pollStatus_handled _ _ _ s).trans (passData_handled _)
    · exact pollStatus_handled _ _ _ s

/-! ## The phases and the two modes -/

theorem issueTaskfile_handled (s : State) : Handled s (issueTaskfile s) :=
  ((wr8_handled _ _ s).trans (writeTwoBytes_handled _ _ _)).trans (wr8_handled _ _ _)

theorem startedPhase_handled (s : State) : Handled s (startedPhase s).2 := by
  unfold startedPhase
  dsimp only
  have h : Handled s (if s.cur.flags.dma && !hasPacket s.cur then startDma s else (.noError, s)).2 := by
    split
    · exact startDma_handled s
    · exact .refl s
  generalize (if s.cur.flags.dma && !hasPacket s.cur then startDma s else (.noError, s)) = r at h
  split
  · exact (h.trans (issueTaskfile_handled _)).trans (setPhase_handled _ _)
  · exact h

theorem sendPacket_handled (s : State) : Handled s (sendPacket s).2 := by
  unfold sendPacket
  dsimp only
  have h1 := writeWords_handled (packetWords s.cur) s
  generalize writeWords (packetWords s.cur) s = s1 at h1
  have h : Handled s (if s.cur.flags.dma then startDma s1 else (.noError, s1)).2 := by
    split
    · exact h1.trans (startDma_handled _)
    · exact h1
  generalize (if s.cur.flags.dma then startDma s1 else (.noError, s1)) = r at h
  split
  · exact h.trans (setPhase_handled _ _)
  · exact h

theorem packetPhase_handled (s : State) : Handled s (packetPhase s).2 := by
  unfold packetPhase
  dsimp only
  split
  · exact (pollStatus_handled _ _ _ s).trans (sendPacket_handled _)
  · exact pollStatus_handled _ _ _ s

theorem packetStep_handled (s : State) : Handled s (packetStep s).2 := by
  unfold packetStep
  dsimp only
  split
  · exact packetPhase_handled s
  · exact (packetPhase_handled s).trans (statusPhase_handled _ _)

theorem dataStep_handled (s : State) : Handled s (dataStep s).2 := by
  unfold dataStep
  dsimp only
  split
  · exact (pioPass_handled s).trans (statusPhase_handled _ _)
  · split
    · exact pioPass_handled s
    · split
      · exact pioPass_handled s
      · exact (pioPass_handled s).trans (statusPhase_handled _ _)

theorem startedStep_handled (s : State) : Handled s (startedStep s).2 := by
  unfold startedStep
  dsimp only
  split
  · exact (startedPhase_handled s).trans (statusPhase_handled _ _)
  · split
    · exact (startedPhase_handled s).trans (packetStep_handled _)
    · split
      · exact (startedPhase_handled s).trans (dataStep_handled _)
      · exact startedPhase_handled s

/-- `phaseStep` (P250). -/
theorem phaseStep_handled (s : State) : Handled s (phaseStep s).2 := by
  unfold phaseStep
  split
  · exact startedStep_handled s
  · split
    · exact packetStep_handled s
    · split
      · exact dataStep_handled s
      · split
        · exact statusPhase_handled _ s
        · exact setPhase_handled _ s

theorem syncWaitN_handled (n : Nat) (s : State) : Handled s (syncWaitN n s).2 := by
  induction n generalizing s with
  | zero => exact .refl s
  | succ n ih =>
    unfold syncWaitN
    split
    · exact .refl s
    · have h := (sleep_handled s.params.tPoll s).trans (rd8_handled .altctl _)
      dsimp only
      split
      · exact h.trans (ih _)
      · exact h

theorem syncLoop_handled (n : Nat) (s : State) : Handled s (syncLoop n s).2 := by
  induction n generalizing s with
  | zero =>
    unfold syncLoop
    dsimp only
    split
    · exact phaseStep_handled s
    · exact (phaseStep_handled s).trans (statusPhase_handled _ _)
  | succ n ih =>
    unfold syncLoop
    dsimp only
    split
    · exact phaseStep_handled s
    · have h := (phaseStep_handled s).trans (syncWaitN_handled (deadlineSleeps (phaseStep s).2) _)
      unfold syncWait
      split
      · exact h.trans (ih _)
      · exact h.trans (statusPhase_handled _ _)

end Sys2Proof.Machine
end

