-- ==== Sys2Proof/Laws/Phases.lean ====
section
/-! SUPPORT. The phases of a command leave the timer, the selection cache and `irqEn` alone; the phase a step ends in. -/

namespace Sys2Proof.Machine

/-- The timer, the selection cache and the interrupt enable are as before. -/
structure Kept (s t : State) : Prop where
  timer    : t.timer = s.timer
  selected : t.selected = s.selected
  irqEn    : t.irqEn = s.irqEn

theorem Kept.refl (s : State) : Kept s s := ⟨rfl, rfl, rfl⟩

theorem Kept.trans {a b c : State} (h : Kept a b) (k : Kept b c) : Kept a c :=
  ⟨k.1.trans h.1, k.2.trans h.2, k.3.trans h.3⟩

/-! ## The basic operations -/

theorem wr8_kept (r : Reg) (v : Byte) (s : State) : Kept s (wr8 r v s) := ⟨rfl, rfl, rfl⟩
theorem rd8_kept (r : Reg) (s : State) : Kept s (rd8 r s).2 := ⟨rfl, rfl, rfl⟩
theorem rd16_kept (s : State) : Kept s (rd16 s).2 := ⟨rfl, rfl, rfl⟩
theorem wr16_kept (w : Half) (s : State) : Kept s (wr16 w s) := ⟨rfl, rfl, rfl⟩
theorem rd8d_kept (s : State) : Kept s (rd8d s).2 := ⟨rfl, rfl, rfl⟩
theorem wr8d_kept (b : Byte) (s : State) : Kept s (wr8d b s) := ⟨rfl, rfl, rfl⟩
theorem sleep_kept (d : Nat) (s : State) : Kept s (sleep d s) := ⟨rfl, rfl, rfl⟩
theorem startDma_kept (s : State) : Kept s (startDma s).2 := ⟨rfl, rfl, rfl⟩
theorem memRead_kept (h : Word) (off n : Nat) (s : State) : Kept s (memRead h off n s).2 := ⟨rfl, rfl, rfl⟩
theorem memWrite_kept (h : Word) (off : Nat) (bs : List Byte) (s : State) : Kept s (memWrite h off bs s) := ⟨rfl, rfl, rfl⟩
theorem loadDbuf_kept (bs : List Byte) (s : State) : Kept s (loadDbuf bs s) := ⟨rfl, rfl, rfl⟩
theorem modCur_kept (f : Command → Command) (s : State) : Kept s (s.modCur f) := ⟨by simp, by simp, by simp⟩
theorem setPhase_kept (ph : Byte) (s : State) : Kept s (setPhase ph s) := modCur_kept _ s

/-! ## Lists of accesses -/

theorem writeWords_kept (ws : List Half) (s : State) : Kept s (writeWords ws s) := by
  induction ws generalizing s with
  | nil => exact .refl s
  | cons w ws ih => exact (wr16_kept w s).trans (ih _)

theorem readWords_kept (n : Nat) (s : State) : Kept s (readWords n s).2 := by
  induction n generalizing s with
  | zero => exact .refl s
  | succ n ih => exact (rd16_kept s).trans (ih _)

theorem readData_kept (n : Nat) (s : State) : Kept s (readData n s).2 := by
  unfold readData
  split
  · exact (readWords_kept _ s).trans (rd8d_kept _)
  · exact readWords_kept _ s

theorem writeData_kept (bs : List Byte) (s : State) : Kept s (writeData bs s) := by
  induction bs, s using writeData.induct with
  | case1 s => exact .refl s
  | case2 => exact wr8d_kept _ _
  | case3 _ _ _ _ ih => exact (wr16_kept _ _).trans ih

theorem drain_kept (m : Nat) (s : State) : Kept s (drain m s) := readData_kept m s

theorem pad_kept (m : Nat) (s : State) : Kept s (pad m s) := by
  unfold pad
  split
  · exact (writeWords_kept _ s).trans (wr8d_kept _ _)
  · exact writeWords_kept _ s

theorem writeTwoByte_kept (c : Command) (t : TwoByte) (s : State) : Kept s (writeTwoByte c t s) := by
  unfold writeTwoByte
  split
  · exact (wr8_kept _ _ s).trans (wr8_kept _ _ _)
  · exact wr8_kept _ _ s

theorem writeTwoBytes_kept (c : Command) (ts : List TwoByte) (s : State) : Kept s (writeTwoBytes c ts s) := by
  induction ts generalizing s with
  | nil => exact .refl s
  | cons t ts ih => exact (writeTwoByte_kept c t s).trans (ih _)

theorem readTwoBytes_kept (put : TwoByte → Byte → Command → Command) (ts : List TwoByte) (s : State) : Kept s (readTwoBytes put ts s) := by
  induction ts generalizing s with
  | nil => exact .refl s
  | cons t ts ih => exact ((rd8_kept _ s).trans (modCur_kept _ _)).trans (ih _)

theorem whenMasked_kept (c : Command) (r : Reg) (f : State → State) (s : State) (h : ∀ s, Kept s (f s)) :
    Kept s (whenMasked c r f s) := by
  unfold whenMasked
  split
  · exact h s
  · exact .refl s

theorem readInto_kept (r : Reg) (put : Byte → Command → Command) (s : State) :
    Kept s (readInto r put s) :=
  (rd8_kept r s).trans (modCur_kept _ _)

theorem readDataInto_kept (s : State) : Kept s (readDataInto s) :=
  (rd16_kept s).trans (modCur_kept _ _
   )

theorem readHighBytes_kept (c : Command) (n : Byte) (s : State) : Kept s (readHighBytes c n s) :=
  ((wr8_kept _ _ s).trans (readTwoBytes_kept _ _ _)).trans (wr8_kept _ _ _)

/-- `registerAccess(false)` (R276). -/
theorem registerRead_kept (s : State) : Kept s (registerRead s) := by
  have h6 : ∀ s, Kept s (readInto .devhead (fun v c => { c with tf := { c.tf with dh := v } }) s) := fun s =>
    readInto_kept _ _ s
  have h8 : ∀ s, Kept s (readInto .altctl (fun v c => { c with tf := { c.tf with ctl := v } }) s) := fun s =>
    readInto_kept _ _ s
  have h7 : ∀ s, Kept s (readInto .statcmd (fun v c => { c with tf := { c.tf with cmd := v } }) s) := fun s =>
    readInto_kept _ _ s
  have base := ((((readTwoBytes_kept TwoByte.setLo (maskedTwoBytes s.cur) s).trans
    (whenMasked_kept s.cur .devhead _ _ h6)).trans (whenMasked_kept s.cur .altctl _ _ h8)).trans
    (whenMasked_kept s.cur .data _ _ readDataInto_kept)).trans (whenMasked_kept s.cur .statcmd _ _ h7)
  unfold registerRead
  dsimp only
  split
  · exact base.trans (readHighBytes_kept _ _ _)
  · exact base

theorem captureResult_kept (s : State) : Kept s (captureResult s) := by
  unfold captureResult
  split
  · exact registerRead_kept s
  · exact .refl s

/-- `statusPhase` (P270). -/
theorem statusPhase_kept (e : Result) (s : State) : Kept s (statusPhase e s).2 :=
  (((((rd8_kept .statcmd s).trans (rd8_kept .errfeat _)).trans (modCur_kept (fun c =>
    { c with endStatus := (rd8 .statcmd s).1, endError := (rd8 .errfeat (rd8 .statcmd s).2).1 }) _)).trans
    (captureResult_kept _)).trans (setPhase_kept _ _))

/-! ## Polls, selection, reset -/

theorem pollStatus_kept (ok : Byte → Bool) (abort : Byte → State → Option Result) (n : Nat) (s : State) :
    Kept s (pollStatus ok abort n s).state := by
  induction n generalizing s with
  | zero =>
    unfold pollStatus
    dsimp only
    split
    · exact rd8_kept _ s
    · split <;> exact rd8_kept _ s
  | succ n ih =>
    unfold pollStatus
    dsimp only
    split
    · exact rd8_kept _ s
    · split
      · exact rd8_kept _ s
      · exact ((rd8_kept _ s).trans (sleep_kept _ _)).trans (ih _)

/-! ## The PIO engine -/

theorem readSlice_kept (n : Nat) (s : State) : Kept s (readSlice n s) :=
  ((readData_kept n s).trans (loadDbuf_kept _ _)).trans (memWrite_kept _ _ _ _)

theorem writeSlice_kept (n : Nat) (s : State) : Kept s (writeSlice n s) :=
  ((memRead_kept _ _ n s).trans (loadDbuf_kept _ _)).trans (writeData_kept _ _)

/-- The slice of `n` bytes before the counts are updated. -/
theorem slice_kept (n : Nat) (s : State) :
    Kept s (if s.cur.flags.rd then readSlice n s else writeSlice n s) := by
  split
  · exact readSlice_kept n s
  · exact writeSlice_kept n s

/-- One slice (R308) of no more bytes than the Double Buffer holds and the command still has to move. -/
theorem moveSlice_kept (n : Nat) (s : State) : Kept s (moveSlice n s) := (slice_kept n s).trans (modCur_kept _ _)

/-- All the slices of a pass (R308). -/
theorem moveSlices_kept (fuel n : Nat) (s : State) : Kept s (moveSlices fuel n s) := by
  induction fuel generalizing n s with
  | zero => exact .refl s
  | succ fuel ih =>
    unfold moveSlices
    split
    · exact .refl s
    · exact (moveSlice_kept _ s).trans (ih _ _)

theorem passCount_kept (s : State) : Kept s (passCount s).2 := by
  unfold passCount
  dsimp only
  split
  · exact (rd8_kept _ s).trans (rd8_kept _ _)
  · exact .refl s

theorem settleOverrun_kept (m : Nat) (s : State) : Kept s (settleOverrun m s) := by
  unfold settleOverrun
  split
  · exact .refl s
  · split
    · exact drain_kept m s
    · exact pad_kept m s

theorem endPass_kept (s : State) : Kept s (endPass s) := by
  unfold endPass
  split
  · exact setPhase_kept _ s
  · exact .refl s

theorem passData_kept (s : State) : Kept s (passData s) :=
  (((passCount_kept s).trans (moveSlices_kept _ _ _)).trans (settleOverrun_kept _ _)).trans (endPass_kept _)

/-- `pioPass` (P300). -/
theorem pioPass_kept (s : State) : Kept s (pioPass s).2 := by
  unfold pioPass
  split
  · exact setPhase_kept _ s
  · dsimp only
    split
    · exact (pollStatus_kept _ _ _ s).trans (passData_kept _)
    · exact pollStatus_kept _ _ _ s

/-! ## The phases and the two modes -/

theorem issueTaskfile_kept (s : State) : Kept s (issueTaskfile s) :=
  ((wr8_kept _ _ s).trans (writeTwoBytes_kept _ _ _)).trans (wr8_kept _ _ _)

theorem startedPhase_kept (s : State) : Kept s (startedPhase s).2 := by
  unfold startedPhase
  dsimp only
  have h : Kept s (if s.cur.flags.dma && !hasPacket s.cur then startDma s else (.noError, s)).2 := by
    split
    · exact startDma_kept s
    · exact .refl s
  generalize (if s.cur.flags.dma && !hasPacket s.cur then startDma s else (.noError, s)) = r at h
  split
  · exact (h.trans (issueTaskfile_kept _)).trans (setPhase_kept _ _)
  · exact h

theorem sendPacket_kept (s : State) : Kept s (sendPacket s).2 := by
  unfold sendPacket
  dsimp only
  have h1 := writeWords_kept (packetWords s.cur) s
  generalize writeWords (packetWords s.cur) s = s1 at h1
  have h : Kept s (if s.cur.flags.dma then startDma s1 else (.noError, s1)).2 := by
    split
    · exact h1.trans (startDma_kept _)
    · exact h1
  generalize (if s.cur.flags.dma then startDma s1 else (.noError, s1)) = r at h
  split
  · exact h.trans (setPhase_kept _ _)
  · exact h

theorem packetPhase_kept (s : State) : Kept s (packetPhase s).2 := by
  unfold packetPhase
  dsimp only
  split
  · exact (pollStatus_kept _ _ _ s).trans (sendPacket_kept _)
  · exact pollStatus_kept _ _ _ s

theorem packetStep_kept (s : State) : Kept s (packetStep s).2 := by
  unfold packetStep
  dsimp only
  split
  · exact packetPhase_kept s
  · exact (packetPhase_kept s).trans (statusPhase_kept _ _)

theorem dataStep_kept (s : State) : Kept s (dataStep s).2 := by
  unfold dataStep
  dsimp only
  split
  · exact (pioPass_kept s).trans (statusPhase_kept _ _)
  · split
    · exact pioPass_kept s
    · split
      · exact pioPass_kept s
      · exact (pioPass_kept s).trans (statusPhase_kept _ _)

theorem startedStep_kept (s : State) : Kept s (startedStep s).2 := by
  unfold startedStep
  dsimp only
  split
  · exact (startedPhase_kept s).trans (statusPhase_kept _ _)
  · split
    · exact (startedPhase_kept s).trans (packetStep_kept _)
    · split
      · exact (startedPhase_kept s).trans (dataStep_kept _)
      · exact startedPhase_kept s

/-- `phaseStep` (P250). -/
theorem phaseStep_kept (s : State) : Kept s (phaseStep s).2 := by
  unfold phaseStep
  split
  · exact startedStep_kept s
  · split
    · exact packetStep_kept s
    · split
      · exact dataStep_kept s
      · split
        · exact statusPhase_kept _ s
        · exact setPhase_kept _ s

theorem syncWaitN_kept (n : Nat) (s : State) : Kept s (syncWaitN n s).2 := by
  induction n generalizing s with
  | zero => exact .refl s
  | succ n ih =>
    unfold syncWaitN
    split
    · exact .refl s
    · have h := (sleep_kept s.params.tPoll s).trans (rd8_kept .altctl _)
      dsimp only
      split
      · exact h.trans (ih _)
      · exact h

theorem syncLoop_kept (n : Nat) (s : State) : Kept s (syncLoop n s).2 := by
  induction n generalizing s with
  | zero =>
    unfold syncLoop
    dsimp only
    split
    · exact phaseStep_kept s
    · exact (phaseStep_kept s).trans (statusPhase_kept _ _)
  | succ n ih =>
    unfold syncLoop
    dsimp only
    split
    · exact phaseStep_kept s
    · have h := (phaseStep_kept s).trans (syncWaitN_kept (deadlineSleeps (phaseStep s).2) _)
      unfold syncWait
      split
      · exact h.trans (ih _)
      · exact h.trans (statusPhase_kept _ _)



/-! ## The phase of the current command -/

/-- The current command is a record of the store. -/
def State.Live (s : State) : Prop := ∃ id, s.current = some id ∧ id < s.cmds.length

theorem Handled.live {s t : State} (h : Handled s t) (w : s.Live) : t.Live := by
  obtain ⟨id, h1, h2⟩ := w
  exact ⟨id, h.current.trans h1, by rw [h.length]; exact h2⟩

/-- A change of the current command is seen by reading it. -/
theorem modCur_cur (f : Command → Command) (s : State) (h : s.Live) : (s.modCur f).cur = f s.cur := by
  obtain ⟨id, h1, h2⟩ := h
  rw [modCur_some id f s h1, cur_some id _ (by simpa using h1), modCmd_cmd_same _ _ _ h2, cur_some id s h1]

theorem setPhase_cur (ph : Byte) (s : State) (h : s.Live) : (setPhase ph s).cur = { s.cur with state := ph } :=
  modCur_cur _ s h

/-- The status phase ends in Complete (R270). -/
theorem statusPhase_phase (e : Result) (s : State) (h : s.Live) : (statusPhase e s).2.cur.state = phComplete := by
  have e1 : (statusPhase e s).2 = setPhase phComplete _ := rfl
  rw [e1, setPhase_cur _ _ ((statusReads_handled s).live h)]

end Sys2Proof.Machine
end

