-- ==== Sys2Proof/Laws/Silent.lean ====
section
/-! SUPPORT. A host that is silent inside the gate breaks no contract there: where the script is empty it stays empty, and no
operation comes to a refusal (R160, U3, U4; entry 5). -/

namespace Sys2Proof.Machine

/-- From `s` to `t` a silent host stays silent, and nothing is refused. -/
def NoBreach (s t : State) : Prop := s.host = [] → t.host = [] ∧ t.breach = s.breach

theorem NoBreach.refl (s : State) : NoBreach s s := fun h => ⟨h, rfl⟩

theorem NoBreach.trans {a b c : State} (h : NoBreach a b) (k : NoBreach b c) : NoBreach a c := fun ha =>
  ⟨(k (h ha).1).1, (k (h ha).1).2.trans (h ha).2⟩

/-- A change of neither the script nor the breach. -/
theorem NoBreach.of_eq {s t : State} (hh : t.host = s.host) (hb : t.breach = s.breach) : NoBreach s t := fun h =>
  ⟨hh.trans h, hb⟩

/-- What follows a change of neither. -/
theorem NoBreach.after {a b c : State} (k : NoBreach b c) (hh : b.host = a.host) (hb : b.breach = a.breach) :
    NoBreach a c := (NoBreach.of_eq hh hb).trans k

theorem Handled.noBreach {s t : State} (h : Handled s t) : NoBreach s t := .of_eq h.host h.breach

variable {dn : State → State}

/-! ## Host calls and deliveries -/

theorem hostCall_noBreach (s : State) : NoBreach s (hostCall dn s) := fun h => by simp [hostCall, h]

theorem callback_noBreach (id : Nat) (s : State) : NoBreach s (callback dn id s) :=
  (hostCall_noBreach (s.emit (.callback id (s.cmd id).result))).after rfl rfl

theorem notifyIf_noBreach (a : Bool) (h : UnitId) (ev : EvKind) (u : Option UnitId) (s : State) :
    NoBreach s (notifyIf a dn h ev u s) := by
  unfold notifyIf
  split
  · exact (hostCall_noBreach (s.emit (.notify h ev.code (unitArgument u)))).after rfl rfl
  · exact .refl s

theorem completeIO_noBreach (hd : ∀ s, NoBreach s (dn s)) (res : Result) (s : State) :
    NoBreach s (completeIO dn res s) := by
  unfold completeIO
  split
  · exact .refl s
  · next id _ => exact ((callback_noBreach id (finish id res s)).after rfl rfl).trans (hd _)

theorem notifyEvent_noBreach (ev : EvKind) (u : Option UnitId) (s : State) : NoBreach s (notifyEvent dn ev u s) := by
  have h := (NoBreach.of_eq (enterCallout_host s) (enterCallout_breach s)).trans
    ((notifyIf_noBreach (dn := dn) s.params.attached0 .u0 ev u _).trans
      (notifyIf_noBreach (dn := dn) s.params.attached1 .u1 ev u _))
  exact h.trans (.of_eq (leaveCallout_host _) (leaveCallout_breach _))

theorem cancelAll_noBreach (vs : List Nat) (s : State) : NoBreach s (cancelAll dn vs s) := by
  induction vs generalizing s with
  | nil => exact .refl s
  | cons v vs ih =>
    exact ((NoBreach.of_eq rfl rfl : NoBreach s (s.modCmd v _)).trans (callback_noBreach v _)).trans (ih _)

/-! ## The handlers -/

theorem asyncIO_noBreach (hd : ∀ s, NoBreach s (dn s)) (s : State) : NoBreach s (asyncIO dn s) := by
  unfold asyncIO
  dsimp only
  split
  · exact (phaseStep_handled s).noBreach.trans (completeIO_noBreach hd _ _)
  · exact (phaseStep_handled s).noBreach

theorem handleExecIO_noBreach (hd : ∀ s, NoBreach s (dn s)) (s : State) : NoBreach s (handleExecIO dn s) := by
  have h := (selectDevice_handled s.cur.unit s).noBreach
  unfold handleExecIO selectionFailed synchronousIO
  dsimp only
  split
  · split
    · exact (h.trans (setPhase_handled _ _).noBreach).trans (completeIO_noBreach hd _ _)
    · exact (h.trans (setPhase_handled _ _).noBreach).trans (startTimer_handled _ _).noBreach
  · refine (h.trans (startTimer_handled (timeoutUs s.cur) _).noBreach).trans ?_
    split
    · exact ((writeControl_handled _ _).noBreach.trans (syncLoop_handled _ _).noBreach).trans
        (completeIO_noBreach hd _ _)
    · exact asyncIO_noBreach hd _

theorem handleRegAccess_noBreach (hd : ∀ s, NoBreach s (dn s)) (s : State) : NoBreach s (handleRegAccess dn s) := by
  have h := (selectDevice_handled s.cur.unit s).noBreach
  unfold handleRegAccess
  dsimp only
  refine NoBreach.trans ?_ (completeIO_noBreach hd _ _)
  refine NoBreach.trans ?_ (setPhase_handled _ _).noBreach
  split
  · split
    · exact h.trans (registerWrite_handled _).noBreach
    · exact h.trans (registerRead_handled _).noBreach
  · exact h

theorem atapiReset_noBreach (u : UnitId) (s : State) : NoBreach s (atapiReset u s).2 := by
  unfold atapiReset
  split
  · exact (((selected_handled none s).trans (wr8_handled _ _ _)).trans (softResetBus_handled _ _)).noBreach
  · exact .refl s

theorem finishReset_noBreach (hd : ∀ s, NoBreach s (dn s)) (ev : EvKind) (u : Option UnitId) (r : Result × State) :
    NoBreach r.2 (finishReset dn ev u r) :=
  ((notifyEvent_noBreach ev u r.2).trans (setPhase_handled _ _).noBreach).trans (completeIO_noBreach hd _ _)

theorem handleBusReset_noBreach (hd : ∀ s, NoBreach s (dn s)) (s : State) : NoBreach s (handleBusReset dn s) := by
  unfold handleBusReset
  split
  · split
    · exact (setPhase_handled _ _).noBreach.trans (completeIO_noBreach hd _ _)
    · exact (atapiReset_noBreach _ s).trans (finishReset_noBreach hd _ _ _)
  · exact (softResetBus_handled _ s).noBreach.trans (finishReset_noBreach hd _ _ _)

theorem runHandler_noBreach (hd : ∀ s, NoBreach s (dn s)) (s : State) : NoBreach s (runHandler dn s) := by
  unfold runHandler handleQueueFlush handleUnknown
  split
  · exact handleExecIO_noBreach hd s
  split
  · exact handleRegAccess_noBreach hd s
  split
  · exact handleBusReset_noBreach hd s
  split
  · exact (((cancelAll_noBreach s.queue { s with queue := [] }).after rfl rfl).trans
      (setPhase_handled _ _).noBreach).trans (completeIO_noBreach hd _ _)
  · exact (setPhase_handled _ _).noBreach.trans (completeIO_noBreach hd _ _)

/-! ## Dispatch, and the actions -/

theorem dispatchN_noBreach (n : Nat) (s : State) : NoBreach s (dispatchN n s) := by
  induction n generalizing s with
  | zero => exact .refl s
  | succ n ih =>
    show NoBreach s (dispatchStep (dispatchN n) s)
    unfold dispatchStep
    split
    · dsimp only
      have h : NoBreach s (dequeueFirst { s with bus := .busy }).2 := .of_eq (by simp) (by simp)
      split
      · exact h.trans (.of_eq rfl rfl)
      · next id _ =>
        exact h.trans ((runHandler_noBreach ih (becomeCurrent id (dequeueFirst { s with bus := .busy }).2)).after rfl rfl)
    · exact .refl s

theorem dispatchNext_noBreach (s : State) : NoBreach s (dispatchNext s) := dispatchN_noBreach _ s

theorem submitRef_noBreach (id : Nat) (s : State) : NoBreach s (submitRef dispatchNext id s) := by
  unfold submitRef handle
  exact (dispatchNext_noBreach _).after (by simp) (by simp)

theorem submitNew_noBreach (d : Desc) (s : State) : NoBreach s (submitNew dispatchNext d s) :=
  (submitRef_noBreach s.cmds.length { s with cmds := s.cmds ++ [Command.fresh d] }).after rfl rfl

theorem irqEntry_noBreach (s : State) : NoBreach s (irqEntry s) := by
  have h := (rd8_handled .statcmd s).noBreach
  unfold irqEntry
  split
  · dsimp only
    split
    · exact h
    · split
      · exact h.trans (asyncIO_noBreach dispatchNext_noBreach _)
      · exact h
  · exact .refl s

theorem expireEntry_noBreach (s : State) : NoBreach s (expireEntry s) := by
  unfold expireEntry handleTimeout
  split
  · exact (dispatchNext_noBreach { s with timer := { s.timer with armed := false } }).after rfl rfl
  · next id _ =>
    refine NoBreach.trans ?_ ((statusPhase_handled _ _).noBreach.trans (completeIO_noBreach dispatchNext_noBreach _ _))
    refine NoBreach.trans ?_ (.of_eq (modCmd_host _ _ _) (modCmd_breach _ _ _))
    split <;> exact .of_eq rfl rfl

end Sys2Proof.Machine
end

