-- ==== Sys2Proof/Laws/Submission.lean ====
section
/-! SUPPORT. What a submission to an idle engine and a completion with a silent host come to. -/

namespace Sys2Proof.Machine

/-- The state in which the handler of record `id` runs when it is submitted to an idle engine. -/
def launchedRef (id : Nat) (s : State) : State :=
  { s with
      cmds := s.cmds.modify id (fun c => onDispatch false { c with state := phInitial, inUse := true })
      bus := .busy
      current := some id }

/-- The state in which the handler of a new command runs when it is submitted to an idle engine. -/
def launched (d : Desc) (s : State) : State :=
  { s with
      cmds := s.cmds ++ [onDispatch false { Command.fresh d with state := phInitial, inUse := true }]
      bus := .busy
      current := some s.cmds.length }

theorem hostBreach_quiet {s : State} (hb : s.breach = none) (hc : s.current = none) (hq : s.queue = []) :
    hostBreach s = none := by
  simp [hostBreach, inFlightCovered, hb, hc, hq]

theorem hostBreach_running {s : State} {id : Nat} (h : s.Running id) : hostBreach s = none := by
  simp [hostBreach, inFlightCovered, h.breach, h.current, h.queue, h.covered]

/-- An action that starts from no breach and comes to none answers its next state. -/
theorem guarded_next {s t : State} (h : hostBreach s = none) (ht : t.breach = none) : guarded s (.next t) = .next t := by
  simp [guarded, h, ht]

/-- Everything a guarded action can answer a next state on: the action itself, with the host's contract kept at its start
and at its end. -/
theorem guarded_eq_next {s t : State} {o : Host.Outcome State Fault Refusal} :
    guarded s o = .next t ↔ hostBreach s = none ∧ o = .next t ∧ t.breach = none := by
  unfold guarded
  cases hostBreach s with
  | some r => simp
  | none =>
    cases o with
    | next u =>
      cases hu : u.breach with
      | none =>
        simp only [hu, Host.Outcome.next.injEq, true_and]
        exact ⟨fun e => ⟨e, e ▸ hu⟩, fun e => e.1⟩
      | some r =>
        simp only [hu, reduceCtorEq, Host.Outcome.next.injEq, true_and, false_iff, not_and]
        rintro rfl
        simp [hu]
    | fault f => simp
    | refused r => simp

theorem modify_append_last {α : Type} (l : List α) (c : α) (f : α → α) :
    (l ++ [c]).modify l.length f = l ++ [f c] := by
  induction l with
  | nil => rfl
  | cons a l ih => simpa using ih

/-- On an idle engine a submission is dispatched at once, with nothing left to dispatch behind it (P160, P170). -/
theorem submitRef_idle {id : Nat} {s : State} (hb : s.bus = .free) (hq : s.qstate = .opened) (hqu : s.queue = [])
    (hh : s.host = []) : submitRef dispatchNext id s = runHandler (dispatchN 0) (launchedRef id s) := by
  obtain ⟨bus, qstate, igate, current, queue, selected, d0, d1, timer, snap, irqEn, dbuf, tr, params, now, cmds, mem,
    bufs, env, host, breach, inbox, ret⟩ := s
  simp only at hb hq hqu hh
  subst hb hq hqu hh
  have e : ∀ t : State, t.queue = [] → enqueue id t = { t with queue := [id] } := by
    intro t ht
    unfold enqueue
    split <;> simp [ht]
  unfold submitRef handle
  rw [e _ (by simp [State.modCmd])]
  simp only [dispatchNext, pendingWork, State.modCmd, List.length_cons, List.length_nil, List.map_nil, List.sum_nil,
    Nat.zero_add, Nat.add_zero, dispatchN, dispatchStep, canDispatch, dequeueFirst, becomeCurrent, launchedRef,
    List.modify_modify_eq]
  rfl

/-- A descriptor row on an idle engine (R160). -/
theorem submitRow_idle {d : Desc} {s : State} (h : s.Idle) (ha : s.accepts d = true) :
    submitRow d s = .next { runHandler (dispatchN 0) (launched d s) with ret := .status .noError } := by
  unfold submitRow
  have hb : (submitNew dispatchNext d s).breach = none := (submitNew_noBreach d s h.host).2.trans h.breach
  rw [if_pos ha, guarded_next (hostBreach_quiet h.breach h.current h.queue) (by exact hb)]
  have key : submitNew dispatchNext d s = runHandler (dispatchN 0) (launched d s) := by
    unfold submitNew
    rw [submitRef_idle (by exact h.bus) (by exact h.qstate) (by exact h.queue) (by exact h.host)]
    unfold launchedRef launched
    simp only [modify_append_last]
  rw [key]

/-- What a delivery makes of a command record (R180): a result already set is kept. -/
def deliveredAs (res : Result) (c : Command) : Command :=
  delivered (if c.result = .unset then res else c.result) c

/-- The state after the delivery of the current command `id` to a silent host, before the next dispatch. -/
def completed (id : Nat) (res : Result) (s : State) : State :=
  { s with
      bus := .free
      current := none
      timer := { s.timer with armed := false }
      env := (stopDma s).env
      cmds := s.cmds.modify id (deliveredAs res)
      traceRev := .callback id (deliveredAs res (s.cmd id)).result
        :: .stopDma (scriptHead (Result.byNumber (Config.freeResult s.env.drawn)) s.env.stopDma) :: .disarm
        :: s.traceRev }

/-- `completeIO` with a silent host (P180). -/
theorem completeIO_silent (dn : State → State) (res : Result) {id : Nat} {s : State} (hc : s.current = some id)
    (hl : id < s.cmds.length) (hh : s.host = []) : completeIO dn res s = dn (completed id res s) := by
  have e : finish id res s = { completed id res s with
      traceRev := .stopDma (scriptHead (Result.byNumber (Config.freeResult s.env.drawn)) s.env.stopDma) :: .disarm
        :: s.traceRev } := by
    unfold finish completed
    simp only [State.modCmd, stopDma, stopTimer, State.emit, List.modify_modify_eq]
    rfl
  unfold completeIO
  rw [hc]
  dsimp only
  rw [e]
  congr 1
  unfold callback hostCall State.emit
  simp only [completed, hh]
  congr 2
  simp [State.cmd, hl, deliveredAs, delivered]

/-- With nothing queued and a silent host `dispatchNext` does nothing. -/
theorem dispatchNext_quiet {s : State} (hq : s.queue = []) (hh : s.host = []) : dispatchNext s = s := by
  simp [dispatchNext, pendingWork, hq, hh, dispatchN]

@[simp] theorem dispatchN_zero (s : State) : dispatchN 0 s = s := rfl

/-! ### The launched command -/

@[simp] theorem launched_current (d : Desc) (s : State) : (launched d s).current = some s.cmds.length := rfl
@[simp] theorem launched_host (d : Desc) (s : State) : (launched d s).host = s.host := rfl
@[simp] theorem launched_length (d : Desc) (s : State) : (launched d s).cmds.length = s.cmds.length + 1 := by
  simp [launched]

theorem launched_live (d : Desc) (s : State) : (launched d s).Live := ⟨s.cmds.length, rfl, by simp⟩

theorem launched_cur (d : Desc) (s : State) :
    (launched d s).cur = onDispatch false { Command.fresh d with state := phInitial, inUse := true } := by
  simp [State.cur, State.cmd, launched]

theorem onDispatch_plain {c : Command} (h : (isExecOp c.opcode && c.toDesc.isReset08) = false) :
    onDispatch false c = { c with state := phStarted } := by
  unfold onDispatch
  rw [h, Bool.or_false]
  rfl

theorem onDispatch_reset {c : Command} (h : (isExecOp c.opcode && c.toDesc.isReset08) = true) :
    onDispatch false c = { c with state := phStarted, opcode := opBusReset } := by
  unfold onDispatch
  rw [h, Bool.or_false]
  rfl

/-- Without reclassification the launched command is the one submitted, in use and Started. -/
theorem launched_cur_plain {d : Desc} (s : State) (h : (isExecOp d.opcode && d.isReset08) = false) :
    (launched d s).cur = { Command.fresh d with state := phStarted, inUse := true } := by
  rw [launched_cur, onDispatch_plain h]

/-- A reclassified command is launched as a BusReset (R145). -/
theorem launched_cur_reset {d : Desc} (s : State) (h : (isExecOp d.opcode && d.isReset08) = true) :
    (launched d s).cur = { Command.fresh d with state := phStarted, inUse := true, opcode := opBusReset } := by
  rw [launched_cur, onDispatch_reset h]

/-! ### The rows -/

/-- Every descriptor row submits its descriptor (entry 8). -/
theorem exec_commandRow {i : Instr} {e : Desc} (h : i.desc = some e) (s : State) : exec i s = submitRow e s := by
  cases i <;> simp only [Instr.desc, Option.some.injEq, reduceCtorEq] at h <;> subst h <;> rfl

theorem execRows_opcode {d e : Desc} {i : Instr} (hi : i ∈ execRows d) (h : i.desc = some e) :
    isExecOp e.opcode = true := by
  simp only [execRows, List.mem_cons, List.not_mem_nil, or_false] at hi
  rcases hi with rfl | rfl | rfl | rfl | rfl | rfl | rfl | rfl | rfl | rfl | rfl | rfl | rfl | rfl | rfl | rfl | rfl <;>
    simp only [Instr.desc, Option.some.injEq] at h <;> subst h <;> rfl

/-- The first `n` records are as before, and there is one more. -/
theorem sameBut_of_append {s t : State} {c : Command} (hq : t.qstate = s.qstate) (hg : t.igate = s.igate)
    (hs : t.snap = s.snap) (h0 : t.devInfo0 = s.devInfo0) (h1 : t.devInfo1 = s.devInfo1) (hp : t.params = s.params)
    (hb : t.bufs = s.bufs) (hh : t.host = s.host) (hbr : t.breach = s.breach) (hi : t.inbox = s.inbox)
    (hc : t.cmds = s.cmds ++ [c]) :
    s.SameBut s.cmds.length t ∧ t.cmds.length = s.cmds.length + 1 ∧ t.cmd s.cmds.length = c := by
  refine ⟨⟨hq, hg, hs, h0, h1, hp, hb, hh, hbr, hi, ?_⟩, by simp [hc], by simp [State.cmd, hc]⟩
  intro k _ hk
  simp only [State.cmd, hc]
  rw [List.getD_append _ _ _ _ hk]

end Sys2Proof.Machine
end

