-- ==== Sys2Proof/Laws/Events.lean ====
section
/-! SUPPORT. The access sequences as lists of events: what each operation adds to the trace, in the words of Safety.lean. -/

namespace Sys2Proof.Machine

theorem withBars_append (a b : List Event) : withBars (a ++ b) = withBars a ++ withBars b := by
  simp [withBars]

@[simp] theorem withBars_nil : withBars [] = [] := rfl

/-- `s` with the events `es`, and their barriers, added to its trace. -/
def State.logs (es : List Event) (s : State) : State := { s with traceRev := (withBars es).reverse ++ s.traceRev }

@[simp] theorem logs_nil (s : State) : s.logs [] = s := rfl

theorem logs_logs (a b : List Event) (s : State) : (s.logs a).logs b = s.logs (a ++ b) := by
  simp [State.logs, withBars_append]

theorem did_iff (s t : State) (es : List Event) :
    s.Did t es ↔ t.traceRev = (withBars es).reverse ++ s.traceRev := by
  unfold State.Did State.trace
  constructor
  · intro h
    have := congrArg List.reverse h
    simpa using this
  · intro h
    rw [h]; simp

theorem did_logs (es : List Event) (s : State) : s.Did (s.logs es) es := (did_iff _ _ _).mpr rfl

theorem Did.trans {a b c : State} {e f : List Event} (h : a.Did b e) (k : b.Did c f) : a.Did c (e ++ f) := by
  rw [did_iff] at *
  rw [k, h, withBars_append, List.reverse_append, List.append_assoc]

theorem wr8_logs (r : Reg) (v : Byte) (s : State) : wr8 r v s = s.logs [.w8 r v] := rfl
theorem wr16_logs (w : Half) (s : State) : wr16 w s = s.logs [.w16 w] := rfl
theorem wr8d_logs (b : Byte) (s : State) : wr8d b s = s.logs [.w8d b] := rfl
theorem rd8_logs (r : Reg) (s : State) :
    (rd8 r s).2 = { s.logs [.r8 r (s.env.byteAnswer r)] with env := s.env.byteRead r } := rfl
theorem writeControl_logs (v : Byte) (s : State) :
    writeControl v s = { s.logs [.w8 .altctl v] with irqEn := irqEnOf v } := rfl
theorem timingHook_logs (u : UnitId) (s : State) : timingHook u s = s.logs [.timing u] := rfl
theorem memRead_logs (h : Word) (off n : Nat) (s : State) : (memRead h off n s).2 = s.logs [.memRd h off n] := rfl

/-- `startTimer` of a disarmed timer (R331). -/
theorem startTimer_logs (d : Nat) (s : State) (h : s.timer.armed = false) :
    startTimer d s = { s.logs [.arm d] with timer := ⟨true, s.now + d⟩ } := by
  unfold startTimer
  rw [if_neg (by simp [h])]
  rfl

/-! ## The taskfile and the registers -/

theorem writeTwoByte_logs (c : Command) (t : TwoByte) (s : State) :
    writeTwoByte c t s = s.logs (twoByteWrites c.flags.lba48 t.reg (t.hi c) (t.lo c)) := by
  unfold writeTwoByte twoByteWrites
  split
  · rw [wr8_logs, wr8_logs, logs_logs]; rfl
  · rfl

theorem writeTwoBytes_logs (c : Command) (ts : List TwoByte) (s : State) :
    writeTwoBytes c ts s = s.logs (ts.flatMap (fun t => twoByteWrites c.flags.lba48 t.reg (t.hi c) (t.lo c))) := by
  induction ts generalizing s with
  | nil => rfl
  | cons t ts ih => rw [writeTwoBytes, ih, writeTwoByte_logs, logs_logs, List.flatMap_cons]

/-- `issueTaskfile` (R261). -/
theorem issueTaskfile_logs (s : State) : issueTaskfile s = s.logs (taskfileEvents s.cur.toDesc) := by
  unfold issueTaskfile
  rw [writeTwoBytes_logs, wr8_logs, logs_logs, wr8_logs, logs_logs]
  simp [TwoByte.all, taskfileEvents, TwoByte.reg, TwoByte.hi, TwoByte.lo]

theorem whenMasked_logs (c : Command) (r : Reg) (es : List Event) (s : State) :
    (if masked c r then s.logs es else s) = s.logs (if masked c r then es else []) := by
  split <;> rfl

theorem maskedWrites (c : Command) :
    (maskedTwoBytes c).flatMap (fun t => twoByteWrites c.flags.lba48 t.reg (t.hi c) (t.lo c))
      = ifMasked c.toDesc 1 (twoByteWrites c.flags.lba48 .errfeat c.ext.featHi c.tf.feat)
        ++ ifMasked c.toDesc 2 (twoByteWrites c.flags.lba48 .scnt c.ext.scntHi c.tf.scnt)
        ++ ifMasked c.toDesc 3 (twoByteWrites c.flags.lba48 .snum c.ext.snumHi c.tf.snum)
        ++ ifMasked c.toDesc 4 (twoByteWrites c.flags.lba48 .cyllo c.ext.cylLoHi c.tf.cylLo)
        ++ ifMasked c.toDesc 5 (twoByteWrites c.flags.lba48 .cylhi c.ext.cylHiHi c.tf.cylHi) := by
  unfold maskedTwoBytes TwoByte.all masked ifMasked
  simp only [List.filter_cons, List.filter_nil, TwoByte.reg, Reg.index]
  cases c.regMask.getLsbD 1 <;> cases c.regMask.getLsbD 2 <;> cases c.regMask.getLsbD 3 <;>
    cases c.regMask.getLsbD 4 <;> cases c.regMask.getLsbD 5 <;>
    simp [TwoByte.hi, TwoByte.lo]

/-- `registerAccess(true)` (R276). -/
theorem registerWrite_logs (s : State) :
    registerWrite s = { s.logs (registerWriteEvents s.cur.toDesc) with
      selected := if s.cur.regMask.getLsbD 6 then none else s.selected
      irqEn := if s.cur.regMask.getLsbD 8 then irqEnOf s.cur.tf.ctl else s.irqEn } := by
  unfold registerWrite
  dsimp only
  rw [writeTwoBytes_logs, maskedWrites]
  generalize s.cur = c
  unfold whenMasked registerWriteEvents masked Reg.index ifMasked
  cases c.regMask.getLsbD 6 <;> cases c.regMask.getLsbD 8 <;> cases c.regMask.getLsbD 0 <;>
    cases c.regMask.getLsbD 7 <;>
    simp [wr8_logs, wr16_logs, writeControl_logs, State.logs, Event.isAccess, withBars]

/-! ## Data words -/

theorem writeWords_logs (ws : List Half) (s : State) : writeWords ws s = s.logs (ws.map .w16) := by
  induction ws generalizing s with
  | nil => rfl
  | cons w ws ih => rw [writeWords, ih, wr16_logs, logs_logs]; rfl

/-- The Data writes of a list of bytes (R310, R311). -/
theorem writeData_logs (bs : List Byte) (s : State) : writeData bs s = s.logs (dataWrites bs) := by
  induction bs, s using writeData.induct with
  | case1 => rfl
  | case2 => rfl
  | case3 s b0 b1 rest ih => rw [writeData, ih, wr16_logs, logs_logs]; rfl

theorem dataWrites_zeros (m : Nat) :
    dataWrites (List.replicate m 0#8)
      = (List.replicate (m / 2) 0#16).map .w16 ++ (if m % 2 = 1 then [.w8d 0#8] else []) := by
  induction m using Nat.strongRecOn with
  | _ m ih =>
    match m with
    | 0 => rfl
    | 1 => rfl
    | k + 2 =>
      rw [show List.replicate (k + 2) (0#8) = 0#8 :: 0#8 :: List.replicate k 0#8 from rfl, dataWrites,
        ih k (by omega), show (k + 2) / 2 = k / 2 + 1 by omega, show (k + 2) % 2 = k % 2 by omega]
      rfl

/-- Padding an overrun is writing that many zero bytes (R312). -/
theorem pad_logs (m : Nat) (s : State) : pad m s = s.logs (dataWrites (List.replicate m 0#8)) := by
  unfold pad
  rw [dataWrites_zeros]
  dsimp only
  rw [writeWords_logs]
  split
  · rw [wr8d_logs, logs_logs]
  · simp

/-- The packet words (R135, R264). -/
theorem packetWords_events (c : Command) : (packetWords c).map Event.w16 = packetEvents c.toDesc := by
  unfold packetWords packetEvents
  rw [List.map_map]
  apply List.map_congr_left
  intro k _
  simp only [Function.comp_apply, pktByte]
  congr 1
  ext j hj
  simp only [BitVec.getElem_append, BitVec.getElem_extractLsb']
  split
  · congr 1; omega
  · congr 1; omega

/-! ## Polls and selection of a device that is ready at once -/

/-- The draws after `k` 8-bit reads of register `r`. -/
def Env.reads (r : Reg) : Nat → Env → Env
  | 0, e => e
  | k + 1, e => Env.reads r k (e.byteRead r)

/-- A poll whose first sample passes (R200). -/
theorem pollStatus_first (ok : Byte → Bool) (abort : Byte → State → Option Result) (n : Nat) (s : State)
    (h : ok (s.env.byteAnswer .altctl) = true) :
    pollStatus ok abort n s = ⟨.noError, s.env.byteAnswer .altctl,
      { s.logs [.r8 .altctl (s.env.byteAnswer .altctl)] with env := s.env.byteRead .altctl }⟩ := by
  cases n <;> simp only [pollStatus, rd8_fst, h, if_pos] <;> rfl

/-- A poll whose first sample meets the abort condition (R200). -/
theorem pollStatus_aborts (ok : Byte → Bool) (abort : Byte → State → Option Result) (n : Nat) (s : State) (e : Result)
    (h : ok (s.env.byteAnswer .altctl) = false)
    (ha : abort (s.env.byteAnswer .altctl) (rd8 .altctl s).2 = some e) :
    pollStatus ok abort n s = ⟨e, s.env.byteAnswer .altctl,
      { s.logs [.r8 .altctl (s.env.byteAnswer .altctl)] with env := s.env.byteRead .altctl }⟩ := by
  cases n <;> simp only [pollStatus, rd8_fst, h, ha] <;> rfl

/-- `selectDevice` of a device that is ready at once (R201 to R205). -/
theorem selectDevice_ready {unit : Byte} {u : UnitId} {s : State} (hu : UnitId.ofByte unit = some u)
    (hp : s.selected = some u ∨ okPreSelect (s.env.answer .altctl 0) = true)
    (hr : okReady (needReady (s.devInfo u).type s.cur) (s.env.answer .altctl (selectSamples u s - 1)) = true) :
    selectDevice unit s = (.noError, { s.logs (selectEvents u s) with
      env := s.env.reads .altctl (selectSamples u s), selected := some u, irqEn := true }) := by
  unfold selectDevice
  rw [hu]
  dsimp only
  by_cases hs : s.selected = some u
  · have e1 : preSelect u (timingHook u s) = (.noError, timingHook u s) := by
      unfold preSelect; rw [if_pos (by simpa using hs)]
    rw [e1, if_pos rfl]
    unfold postSelect
    simp only [selectSamples, if_pos hs] at hr
    dsimp only
    rw [pollStatus_first _ _ _ _ (by exact hr)]
    dsimp only
    rw [if_pos rfl]
    simp only [selectEvents, selectSamples, if_pos hs]
    rfl
  · have hp' := hp.resolve_left hs
    simp only [selectSamples, if_neg hs] at hr
    have e1 : preSelect u (timingHook u s) = (.noError,
        { s.logs [.timing u, .r8 .altctl (s.env.answer .altctl 0), .w8 .devhead u.selectValue] with
          env := s.env.byteRead .altctl, selected := none }) := by
      unfold preSelect
      rw [if_neg (by simpa using hs)]
      dsimp only
      rw [pollStatus_first _ _ _ _ (by exact hp')]
      dsimp only
      rw [if_pos rfl]
      rfl
    have hr' : okReady (needReady (s.devInfo u).type s.cur) ((s.env.byteRead .altctl).byteAnswer .altctl) = true := hr
    rw [e1]
    dsimp only
    rw [if_pos rfl]
    unfold postSelect
    dsimp only
    have e2 : ∀ x y, ({ s.logs x with env := y, selected := none } : State).cur = s.cur := fun _ _ => rfl
    have e3 : ∀ x y, ({ s.logs x with env := y, selected := none } : State).devInfo u = s.devInfo u := by
      intro x y; cases u <;> rfl
    rw [e2, e3, pollStatus_first _ _ _ _ hr']
    dsimp only
    rw [if_pos rfl]
    simp only [selectEvents, selectSamples, if_neg hs]
    simp [State.logs, withBars, Event.isAccess, writeControl_logs, Env.reads, Env.answer, irqEnOf, ctlClear]

end Sys2Proof.Machine
end

