-- ==== Sys2Proof/Laws/Image.lean ====
section
/-! SUPPORT. The image of a command record: its length, its parts, its codes (30_encoding.md R110, R112, R126). -/

namespace Sys2Proof.Machine

@[simp] theorem length_inputBytes (d : Desc) : d.inputBytes.length = 68 := rfl
@[simp] theorem length_writeBackBytes (st r es er : Byte) (a : Word) (u : Bool) :
    (writeBackBytes st r es er a u).length = 12 := rfl
@[simp] theorem length_recordBytes (c : Command) : c.toBytes.length = 80 := rfl

/-- At submission the image of the record is the image of its descriptor (R56). -/
theorem fresh_toBytes (d : Desc) : (Command.fresh d).toBytes = d.toBytes := rfl

/-- Every result is read back from its code. -/
@[simp] theorem ofCode_code (r : Result) : Result.ofCode r.code = some r := by cases r <;> decide

/-- A result read from a byte has that byte as its code. -/
theorem code_ofCode {b : Byte} {r : Result} (h : Result.ofCode b = some r) : r.code = b := by
  have := List.find?_some h
  simpa using this

/-- Different event kinds have different codes (R130), and no unit has that of `NoUnit` (R114). -/
theorem evKind_code_injective {a b : EvKind} (h : a.code = b.code) : a = b := by
  cases a <;> cases b <;> first | rfl | exact absurd h (by decide)

theorem unitArgument_injective {a b : Option UnitId} (h : unitArgument a = unitArgument b) : a = b := by
  rcases a with _ | ⟨_ | _⟩ <;> rcases b with _ | ⟨_ | _⟩ <;> first | rfl | exact absurd h (by decide)

/-- A unit is named by its own code (R114). -/
@[simp] theorem ofByte_code (u : UnitId) : UnitId.ofByte u.code = some u := by cases u <;> rfl

end Sys2Proof.Machine
end

