-- ==== Sys2Proof/Laws/PerInstr.lean ====
section
/-! SUPPORT. One lemma per instruction: its encoding bears the mask and match of its row of spec/opcode_table.json. -/

namespace Sys2Proof.Laws.RowAgrees

/-- Mask and match of a row, on word W0 of a descriptor; for a gate action the label in byte 0 of its image. An unknown
opcode has no match: its row is "every other code". -/
def maskMatch : Instr → Word × Word
  | .execio _ => (0x000000FF#32, 0x00000001#32)
  | .atapiExecio _ => (0x000000FF#32, 0x00000002#32)
  | .regacc _ => (0x000000FF#32, 0x00000003#32)
  | .qflush _ => (0x000000FF#32, 0x00000004#32)
  | .busreset _ => (0x000000FF#32, 0x00000005#32)
  | .execioReset08 _ => (0x000000FF#32, 0x00000001#32)
  | .atapiExecioReset08 _ => (0x000000FF#32, 0x00000002#32)
  | .opUnknown _ => (0x00000000#32, 0x00000000#32)
  | .execioAtaNd _ => (0x001E00FF#32, 0x00000001#32)
  | .execioAtaPioRd _ => (0x001E00FF#32, 0x00040001#32)
  | .execioAtaPioWr _ => (0x001E00FF#32, 0x00080001#32)
  | .execioAtaDmaRd _ => (0x001E00FF#32, 0x00060001#32)
  | .execioAtaDmaWr _ => (0x001E00FF#32, 0x000A0001#32)
  | .execioAtapiNd _ => (0x001E00FF#32, 0x00100001#32)
  | .execioAtapiPioRd _ => (0x001E00FF#32, 0x00140001#32)
  | .execioAtapiPioWr _ => (0x001E00FF#32, 0x00180001#32)
  | .execioAtapiDmaRd _ => (0x001E00FF#32, 0x00160001#32)
  | .execioAtapiDmaWr _ => (0x001E00FF#32, 0x001A0001#32)
  | .atapiExecioNd _ => (0x001E00FF#32, 0x00100002#32)
  | .atapiExecioPioRd _ => (0x001E00FF#32, 0x00140002#32)
  | .atapiExecioPioWr _ => (0x001E00FF#32, 0x00180002#32)
  | .atapiExecioDmaRd _ => (0x001E00FF#32, 0x00160002#32)
  | .atapiExecioDmaWr _ => (0x001E00FF#32, 0x001A0002#32)
  | .regaccRd _ => (0x000800FF#32, 0x00000003#32)
  | .regaccWr _ => (0x000800FF#32, 0x00080003#32)
  | .busresetAta _ => (0x001000FF#32, 0x00000005#32)
  | .busresetAtapi _ => (0x001000FF#32, 0x00100005#32)
  | .submit _ _ => (0x000000FF#32, 0x00000001#32)
  | .irq => (0x000000FF#32, 0x00000002#32)
  | .expire => (0x000000FF#32, 0x00000003#32)
  | .scan => (0x000000FF#32, 0x00000004#32)
  | .config _ _ => (0x000000FF#32, 0x00000005#32)

/-- The fixed bits of the row stand in the encoding, and a descriptor is 80 bytes (R110). -/
def Statement (i : Instr) : Prop :=
  wordAt (encode i) 0 &&& (maskMatch i).1 = (maskMatch i).2 ∧ (i.format = .descriptor → (encode i).length = 80)

theorem length_toBytes (d : Desc) : d.toBytes.length = 80 := rfl

theorem and_append {m n : Nat} (a c : BitVec m) (b d : BitVec n) : (a ++ b) &&& (c ++ d) = (a &&& c) ++ (b &&& d) := by
  ext i hi
  simp only [BitVec.getElem_and, BitVec.getElem_append]
  split <;> simp

/-- W0 of a descriptor under a mask that takes the opcode and, of the flags, the bits `f`. -/
theorem word0 (d : Desc) (f : Byte) :
    wordAt d.toBytes 0 &&& (0x00#8 ++ f ++ 0x00#8 ++ 0xFF#8)
      = 0x00#8 ++ (d.flags.lowByte &&& f) ++ 0x00#8 ++ d.opcode := by
  have e : wordAt d.toBytes 0 = d.flags.highByte ++ d.flags.lowByte ++ d.unit ++ d.opcode := by
    have h0 : byteAt d.toBytes 0 = d.opcode := rfl
    have h1 : byteAt d.toBytes 1 = d.unit := rfl
    have h2 : byteAt d.toBytes 2 = d.flags.lowByte := rfl
    have h3 : byteAt d.toBytes 3 = d.flags.highByte := rfl
    unfold wordAt
    rw [h0, h1, h2, h3]
  rw [e, and_append, and_append, and_append, BitVec.and_zero, BitVec.and_zero,
    show (0xFF#8 : Byte) = BitVec.allOnes 8 from rfl, BitVec.and_allOnes]

theorem opcode_bits (d : Desc) : wordAt d.toBytes 0 &&& 0x000000FF#32 = 0x00#8 ++ 0x00#8 ++ 0x00#8 ++ d.opcode := by
  have e : (0x000000FF#32 : Word) = 0x00#8 ++ 0x00#8 ++ 0x00#8 ++ 0xFF#8 := by decide
  rw [e, word0, BitVec.and_zero]

/-- The mode and protocol bits of an ExecIO variant (R141). -/
theorem mode_bits (op : Byte) (a : Bool) (m : Mode) (d : Desc) :
    (d.asExec op a m).flags.lowByte &&& 0x1E#8
      = (Flags.withMode m ⟨false, false, false, false, a, false, false, false, false⟩).lowByte := by
  have key : ∀ i a n l t : Bool, ∀ m : Mode,
      (Flags.withMode m ⟨i, false, false, false, a, n, l, t, false⟩).lowByte &&& 0x1E#8 = (Flags.withMode m ⟨false, false, false, false, a, false, false, false, false⟩).lowByte := by
    intro i a n l t m
    cases m <;> revert i a n l t <;> decide
  have := key d.flags.imm a d.flags.noirq d.flags.lba48 d.flags.tfa m
  cases m <;> exact this

theorem exec_bits (op : Byte) (a : Bool) (m : Mode) (d : Desc) :
    wordAt (d.asExec op a m).toBytes 0 &&& 0x001E00FF#32
      = 0x00#8 ++ (Flags.withMode m ⟨false, false, false, false, a, false, false, false, false⟩).lowByte ++ 0x00#8
        ++ op := by
  rw [show (0x001E00FF#32 : Word) = 0x00#8 ++ 0x1E#8 ++ 0x00#8 ++ 0xFF#8 by decide, word0, mode_bits]
  rfl

theorem write_bit (w : Bool) (d : Desc) : (d.asRegacc w).flags.lowByte &&& 0x08#8 = if w then 0x08#8 else 0x00#8 := by
  have key : ∀ i dm r a n l t w : Bool,
      Flags.lowByte ⟨i, dm, r, w, a, n, l, t, false⟩ &&& 0x08#8 = if w then 0x08#8 else 0x00#8 := by decide
  exact key _ _ _ _ _ _ _ w

theorem scope_bit (a : Bool) (d : Desc) : (d.asBusreset a).flags.lowByte &&& 0x10#8 = if a then 0x10#8 else 0x00#8 := by
  have key : ∀ i dm r w n l t a : Bool,
      Flags.lowByte ⟨i, dm, r, w, a, n, l, t, false⟩ &&& 0x10#8 = if a then 0x10#8 else 0x00#8 := by decide
  exact key _ _ _ _ _ _ _ a

/-- Byte 0 of a four-byte word under the mask of the opcode or label. -/
theorem opcode_word (b3 b2 b1 b0 : Byte) :
    (b3 ++ b2 ++ b1 ++ b0) &&& 0x000000FF#32 = 0x00#8 ++ 0x00#8 ++ 0x00#8 ++ b0 := by
  rw [show (0x000000FF#32 : Word) = 0x00#8 ++ 0x00#8 ++ 0x00#8 ++ 0xFF#8 by decide, and_append, and_append, and_append,
    BitVec.and_zero, BitVec.and_zero, BitVec.and_zero, show (0xFF#8 : Byte) = BitVec.allOnes 8 from rfl,
    BitVec.and_allOnes]

/-- A descriptor row: its fixed bits are those of the descriptor it stands for. -/
theorem of_desc {i : Instr} {e : Desc} (h : i.desc = some e)
    (hb : wordAt e.toBytes 0 &&& (maskMatch i).1 = (maskMatch i).2) : Statement i := by
  have he : encode i = e.toBytes := by
    unfold encode
    rw [h]
  unfold Statement
  rw [he]
  exact ⟨hb, fun _ => length_toBytes e⟩

theorem regacc_bits (w : Bool) (d : Desc) :
    wordAt (d.asRegacc w).toBytes 0 &&& 0x000800FF#32 = if w then 0x00080003#32 else 0x00000003#32 := by
  rw [show (0x000800FF#32 : Word) = 0x00#8 ++ 0x08#8 ++ 0x00#8 ++ 0xFF#8 by decide, word0, write_bit]
  cases w <;> simp only [Desc.asRegacc] <;> decide

theorem busreset_bits (a : Bool) (d : Desc) :
    wordAt (d.asBusreset a).toBytes 0 &&& 0x001000FF#32 = if a then 0x00100005#32 else 0x00000005#32 := by
  rw [show (0x001000FF#32 : Word) = 0x00#8 ++ 0x10#8 ++ 0x00#8 ++ 0xFF#8 by decide, word0, scope_bit]
  cases a <;> simp only [Desc.asBusreset] <;> decide

/-- A gate action: its label is byte 0 of the image. -/
theorem label_bits (bs : List Byte) : wordAt bs 0 &&& 0x000000FF#32 = 0x00#8 ++ 0x00#8 ++ 0x00#8 ++ byteAt bs 0 := by
  unfold wordAt
  exact opcode_word _ _ _ _

theorem execio (d : Desc) : Statement (.execio d) :=
  of_desc rfl ((opcode_bits _).trans (by simp only [maskMatch, Desc.asOp]; decide))

theorem atapiExecio (d : Desc) : Statement (.atapiExecio d) :=
  of_desc rfl ((opcode_bits _).trans (by simp only [maskMatch, Desc.asOp]; decide))

theorem regacc (d : Desc) : Statement (.regacc d) :=
  of_desc rfl ((opcode_bits _).trans (by simp only [maskMatch, Desc.asOp]; decide))

theorem qflush (d : Desc) : Statement (.qflush d) :=
  of_desc rfl ((opcode_bits _).trans (by simp only [maskMatch, Desc.asOp]; decide))

theorem busreset (d : Desc) : Statement (.busreset d) :=
  of_desc rfl ((opcode_bits _).trans (by simp only [maskMatch, Desc.asOp]; decide))

theorem execioReset08 (d : Desc) : Statement (.execioReset08 d) :=
  of_desc rfl ((opcode_bits _).trans (by simp only [maskMatch, Desc.asReset08]; decide))

theorem atapiExecioReset08 (d : Desc) : Statement (.atapiExecioReset08 d) :=
  of_desc rfl ((opcode_bits _).trans (by simp only [maskMatch, Desc.asReset08]; decide))

theorem opUnknown (d : Desc) : Statement (.opUnknown d) :=
  of_desc rfl BitVec.and_zero

theorem execioAtaNd (d : Desc) : Statement (.execioAtaNd d) :=
  of_desc rfl ((exec_bits _ _ _ _).trans (by simp only [maskMatch]; decide))

theorem execioAtaPioRd (d : Desc) : Statement (.execioAtaPioRd d) :=
  of_desc rfl ((exec_bits _ _ _ _).trans (by simp only [maskMatch]; decide))

theorem execioAtaPioWr (d : Desc) : Statement (.execioAtaPioWr d) :=
  of_desc rfl ((exec_bits _ _ _ _).trans (by simp only [maskMatch]; decide))

theorem execioAtaDmaRd (d : Desc) : Statement (.execioAtaDmaRd d) :=
  of_desc rfl ((exec_bits _ _ _ _).trans (by simp only [maskMatch]; decide))

theorem execioAtaDmaWr (d : Desc) : Statement (.execioAtaDmaWr d) :=
  of_desc rfl ((exec_bits _ _ _ _).trans (by simp only [maskMatch]; decide))

theorem execioAtapiNd (d : Desc) : Statement (.execioAtapiNd d) :=
  of_desc rfl ((exec_bits _ _ _ _).trans (by simp only [maskMatch]; decide))

theorem execioAtapiPioRd (d : Desc) : Statement (.execioAtapiPioRd d) :=
  of_desc rfl ((exec_bits _ _ _ _).trans (by simp only [maskMatch]; decide))

theorem execioAtapiPioWr (d : Desc) : Statement (.execioAtapiPioWr d) :=
  of_desc rfl ((exec_bits _ _ _ _).trans (by simp only [maskMatch]; decide))

theorem execioAtapiDmaRd (d : Desc) : Statement (.execioAtapiDmaRd d) :=
  of_desc rfl ((exec_bits _ _ _ _).trans (by simp only [maskMatch]; decide))

theorem execioAtapiDmaWr (d : Desc) : Statement (.execioAtapiDmaWr d) :=
  of_desc rfl ((exec_bits _ _ _ _).trans (by simp only [maskMatch]; decide))

theorem atapiExecioNd (d : Desc) : Statement (.atapiExecioNd d) :=
  of_desc rfl ((exec_bits _ _ _ _).trans (by simp only [maskMatch]; decide))

theorem atapiExecioPioRd (d : Desc) : Statement (.atapiExecioPioRd d) :=
  of_desc rfl ((exec_bits _ _ _ _).trans (by simp only [maskMatch]; decide))

theorem atapiExecioPioWr (d : Desc) : Statement (.atapiExecioPioWr d) :=
  of_desc rfl ((exec_bits _ _ _ _).trans (by simp only [maskMatch]; decide))

theorem atapiExecioDmaRd (d : Desc) : Statement (.atapiExecioDmaRd d) :=
  of_desc rfl ((exec_bits _ _ _ _).trans (by simp only [maskMatch]; decide))

theorem atapiExecioDmaWr (d : Desc) : Statement (.atapiExecioDmaWr d) :=
  of_desc rfl ((exec_bits _ _ _ _).trans (by simp only [maskMatch]; decide))

theorem regaccRd (d : Desc) : Statement (.regaccRd d) :=
  of_desc rfl (regacc_bits false d)

theorem regaccWr (d : Desc) : Statement (.regaccWr d) :=
  of_desc rfl (regacc_bits true d)

theorem busresetAta (d : Desc) : Statement (.busresetAta d) :=
  of_desc rfl (busreset_bits false d)

theorem busresetAtapi (d : Desc) : Statement (.busresetAtapi d) :=
  of_desc rfl (busreset_bits true d)

theorem submit (cmd : Option Word) (target : Bool) : Statement (.submit cmd target) := by
  refine ⟨?_, fun h => nomatch h⟩
  have h : byteAt (encode (.submit cmd target)) 0 = 0x01#8 := by cases cmd <;> rfl
  exact (label_bits _).trans (by rw [h]; simp only [maskMatch]; decide)

theorem irq : Statement .irq := ⟨rfl, fun h => nomatch h⟩

theorem expire : Statement .expire := ⟨rfl, fun h => nomatch h⟩

theorem scan : Statement .scan := ⟨rfl, fun h => nomatch h⟩

theorem config (unit : Byte) (m : PMode) : Statement (.config unit m) := by
  refine ⟨?_, fun h => nomatch h⟩
  have h : byteAt (encode (.config unit m)) 0 = 0x05#8 := by cases m <;> rfl
  exact (label_bits _).trans (by rw [h]; simp only [maskMatch]; decide)

end Sys2Proof.Laws.RowAgrees
end

