-- ==== Sys2Proof/Laws/Polls.lean ====
section
/-! SUPPORT. What a polling loop can do, said once (41_select_reset.md R200): its events, its samples, its time and its code;
and what the host may not write outside the gate (R95). -/

namespace Sys2Proof.Machine

/-! ## Scripted answers of Alternate Status -/

theorem scriptTail_ne_nil {α : Type} {l : List α} (h : l ≠ []) : scriptTail l ≠ [] := by
  match l with
  | [] => exact absurd rfl h
  | [_] => simp [scriptTail]
  | _ :: _ :: _ => simp [scriptTail]

@[simp] theorem byteRead_altctl (e : Env) : (e.byteRead .altctl).altctl = scriptTail e.altctl := rfl

/-- A scripted answer depends on the script alone. -/
theorem answer_congr {e f : Env} (h : f.altctl = e.altctl) (hn : e.altctl ≠ []) (j : Nat) :
    f.answer .altctl j = e.answer .altctl j := by
  induction j generalizing e f with
  | zero =>
    simp only [Env.answer, Env.byteAnswer, Env.bytes, h]
    match he : e.altctl with
    | [] => exact absurd he hn
    | _ :: _ => rfl
  | succ j ih =>
    have h1 : (f.byteRead .altctl).altctl = (e.byteRead .altctl).altctl := by simp [h]
    exact ih h1 (by simpa using scriptTail_ne_nil hn)

theorem answer_succ (e : Env) (j : Nat) : e.answer .altctl (j + 1) = (e.byteRead .altctl).answer .altctl j := rfl

/-! ## The events of a poll -/

theorem pollEvents_zero (k : Nat) (s : State) : pollEvents k 0 s = [.r8 .altctl (s.env.answer .altctl k)] := rfl

/-- The first sample and the sleep after it, then the rest of the poll. -/
theorem pollEvents_succ (k n : Nat) (s : State) :
    pollEvents k (n + 1) s
      = .r8 .altctl (s.env.answer .altctl k) :: .sleep s.params.tPoll :: pollEvents (k + 1) n s := by
  unfold pollEvents
  have e : (fun j => [Event.r8 .altctl (s.env.answer .altctl (k + j.succ)), .sleep s.params.tPoll])
      = fun j => [.r8 .altctl (s.env.answer .altctl (k + 1 + j)), .sleep s.params.tPoll] := by
    funext j
    rw [show k + j.succ = k + 1 + j by omega]
  rw [List.range_succ_eq_map, List.flatMap_cons, List.flatMap_map, e, show k + (n + 1) = k + 1 + n by omega]
  rfl

/-- The same answers, shifted, and the same `T_POLL` make the same events. -/
theorem pollEvents_shift {s t : State} {i : Nat} (k n : Nat) (hp : t.params = s.params)
    (h : ∀ j, t.env.answer .altctl j = s.env.answer .altctl (i + j)) :
    pollEvents k n t = pollEvents (i + k) n s := by
  unfold pollEvents
  simp only [hp, h, Nat.add_assoc]

/-! ## What a poll can do -/

/-- How a poll of budget `n` from `s` ends: after `m` sleeps, with the code, the sample and the state of `p`. Only the
events of the poll, the clock and the draws of Alternate Status and of the overshoots differ; a sample before the last met
neither the success test nor the abort condition. -/
structure PollForm (ok : Byte → Bool) (abort : Byte → State → Option Result) (n m : Nat) (s : State) (p : Polled) :
    Prop where
  budget : m ≤ n
  sample : p.sample = s.env.answer .altctl m
  state  : ∃ (now : Nat) (alt : List Byte) (late : List Nat) (drawn : Nat),
    p.state = { s.logs (pollEvents 0 m s) with
      now := now, env := { s.env with altctl := alt, overshoot := late, drawn := drawn } }
  draws  : ∀ j, p.state.env.answer .altctl j = s.env.answer .altctl (m + 1 + j)
  script : p.state.env.altctl ≠ []
  clock  : s.now + m * s.params.tPoll ≤ p.state.now
  still  : m = 0 → p.state.now = s.now
  quiet  : ∀ j < m, ok (s.env.answer .altctl j) = false
    ∧ ∃ t : State, t.timer = s.timer ∧ abort (s.env.answer .altctl j) t = none
  ending : (ok p.sample = true ∧ p.code = .noError)
    ∨ (ok p.sample = false ∧ abort p.sample p.state = some p.code)
    ∨ (ok p.sample = false ∧ abort p.sample p.state = none ∧ p.code = .timeout ∧ m = n)

/-- The state after one sample. -/
theorem rd8_altctl_env (s : State) : (rd8 .altctl s).2.env = s.env.byteRead .altctl := rfl

/-- A poll that ends at its first sample. -/
theorem pollForm_zero {ok : Byte → Bool} {abort : Byte → State → Option Result} {n : Nat} {s : State}
    (hs : s.env.altctl ≠ []) {c : Result}
    (he : (ok (rd8 .altctl s).1 = true ∧ c = .noError)
      ∨ (ok (rd8 .altctl s).1 = false ∧ abort (rd8 .altctl s).1 (rd8 .altctl s).2 = some c)
      ∨ (ok (rd8 .altctl s).1 = false ∧ abort (rd8 .altctl s).1 (rd8 .altctl s).2 = none ∧ c = .timeout ∧ 0 = n)) :
    PollForm ok abort n 0 s ⟨c, (rd8 .altctl s).1, (rd8 .altctl s).2⟩ where
  budget := Nat.zero_le n
  sample := rfl
  state := ⟨s.now, scriptTail s.env.altctl, s.env.overshoot, scriptDrawn s.env.drawn s.env.altctl, rfl⟩
  draws j := by
    rw [show 0 + 1 + j = j + 1 by omega, answer_succ]
    rfl
  script := by
    rw [rd8_altctl_env, byteRead_altctl]
    exact scriptTail_ne_nil hs
  clock := by simp
  still _ := rfl
  quiet j hj := absurd hj (Nat.not_lt_zero j)
  ending := he

/-- A poll of scripted samples, whatever its success test and abort condition (R200). -/
theorem pollStatus_form (ok : Byte → Bool) (abort : Byte → State → Option Result) (n : Nat) (s : State)
    (hs : s.env.altctl ≠ []) : ∃ m, PollForm ok abort n m s (pollStatus ok abort n s) := by
  induction n generalizing s with
  | zero =>
    refine ⟨0, ?_⟩
    unfold pollStatus
    dsimp only
    split
    · next h => exact pollForm_zero hs (.inl ⟨h, rfl⟩)
    · next h =>
      split
      · next e ha => exact pollForm_zero hs (.inr (.inl ⟨by simpa using h, ha⟩))
      · next ha => exact pollForm_zero hs (.inr (.inr ⟨by simpa using h, ha, rfl, rfl⟩))
  | succ n ih =>
    unfold pollStatus
    dsimp only
    split
    · next h => exact ⟨0, pollForm_zero hs (.inl ⟨h, rfl⟩)⟩
    · next h =>
      split
      · next e ha => exact ⟨0, pollForm_zero hs (.inr (.inl ⟨by simpa using h, ha⟩))⟩
      · next ha =>
        have hs1 : (sleep s.params.tPoll (rd8 .altctl s).2).env.altctl = (s.env.byteRead .altctl).altctl := rfl
        have hne : (s.env.byteRead .altctl).altctl ≠ [] := by simpa using scriptTail_ne_nil hs
        obtain ⟨m, f⟩ := ih (sleep s.params.tPoll (rd8 .altctl s).2) (by rw [hs1]; exact hne)
        have hans : ∀ j, (sleep s.params.tPoll (rd8 .altctl s).2).env.answer .altctl j
            = s.env.answer .altctl (1 + j) := by
          intro j
          rw [show 1 + j = j + 1 by omega, answer_succ]
          exact answer_congr hs1 hne j
        have hp : (sleep s.params.tPoll (rd8 .altctl s).2).params = s.params := rfl
        have ht : (sleep s.params.tPoll (rd8 .altctl s).2).timer = s.timer := rfl
        have hnow : s.now + s.params.tPoll ≤ (sleep s.params.tPoll (rd8 .altctl s).2).now := by
          show _ ≤ s.now + s.params.tPoll + _
          omega
        refine ⟨m + 1, ⟨Nat.succ_le_succ f.budget, ?_, ?_, ?_, f.script, ?_, fun h0 => by omega, ?_, ?_⟩⟩
        · rw [f.sample, hans]
          congr 1
          omega
        · obtain ⟨now, alt, late, drawn, hst⟩ := f.state
          refine ⟨now, alt, late, drawn, ?_⟩
          rw [hst, pollEvents_shift 0 m hp hans, pollEvents_succ]
          simp [State.logs, withBars, Event.isAccess, sleep, rd8, readByte, barrier, State.emit, Env.answer,
            Env.byteRead, Env.setBytes]
        · intro j
          rw [f.draws, hans]
          congr 1
          omega
        · have := f.clock
          rw [hp] at this
          rw [Nat.succ_mul]
          omega
        · intro j hj
          cases j with
          | zero => exact ⟨Bool.not_eq_true _ ▸ h, (rd8 .altctl s).2, rfl, ha⟩
          | succ j =>
            obtain ⟨hq, t, h1, h2⟩ := f.quiet j (by omega)
            rw [hans, show 1 + j = j + 1 by omega] at hq h2
            exact ⟨hq, t, h1.trans ht, h2⟩
        · rcases f.ending with he | he | ⟨h1, h2, h3, h4⟩
          · exact .inl he
          · exact .inr (.inl he)
          · exact .inr (.inr ⟨h1, h2, h3, by omega⟩)

/-! ## The host's writes outside the gate -/

/-- The phases before the end of a transfer, with `x` asked of a queued command. -/
theorem phases_before (p : Byte) (x : Prop) (dma : Bool) :
    (p = phInitial ∧ x ∨ p = phStarted ∨ p = phPacketIssue ∨ p = phDataTransfer ∨ p = phStatus ∧ dma = true)
      ↔ (p = phInitial → x) ∧ (if dma then p ≤ phStatus else p < phStatus) := by
  have hp : p ≤ phStatus ↔ p = phInitial ∨ p = phStarted ∨ p = phPacketIssue ∨ p = phDataTransfer ∨ p = phStatus := by
    simp only [phInitial, phStarted, phPacketIssue, phDataTransfer, phStatus, BitVec.le_def, ← BitVec.toNat_inj,
      BitVec.toNat_ofNat]
    omega
  by_cases h : p ≤ phStatus
  · rcases hp.1 h with rfl | rfl | rfl | rfl | rfl <;> cases dma <;>
      simp [phInitial, phStarted, phPacketIssue, phDataTransfer, phStatus]
  · have h' : ¬ p < phStatus := fun hl => h (by bv_omega)
    simp only [h, h', ite_self, and_false, iff_false]
    simp only [hp, not_or] at h
    simp [h]

/-- The units a `unit` field may name (R114). -/
theorem unit_valid (u : Byte) : (UnitId.ofByte u).isSome = true ↔ u = 0#8 ∨ u = 1#8 := by
  unfold UnitId.ofByte
  by_cases h0 : u = 0#8 <;> by_cases h1 : u = 1#8 <;> simp [h0, h1]

/-- The two ways to say that a transfer is still to come or under way (R95, R145, R146, R244, R251). -/
theorem transferAhead_iff (c : Command) : transferAhead c = true ↔ transferring c := by
  have hr : c.toDesc.isReset08 = false ↔ c.tf.cmd ≠ 0x08#8 := by simp [Desc.isReset08, Config.cmdDeviceReset]
  simp only [transferAhead, transferring, isExecOp, opExecIO, opAtapiExecIO, ← phases_before, Bool.and_eq_true,
    Bool.or_eq_true, Bool.not_eq_true', beq_iff_eq, unit_valid, hr, and_assoc, or_assoc]

/-- The bytes a write shares with those a command in flight still has to move (R95). -/
theorem stillMoves_iff (h : Word) (off n : Nat) (s : State) (id : Nat) :
    stillMoves h off n s id = true ↔ ∃ k < n, stillOwes (s.cmd id) h (off + k) := by
  simp only [stillMoves, stillOwes, Bool.and_eq_true, decide_eq_true_eq, beq_iff_eq, transferAhead_iff]
  constructor
  · rintro ⟨⟨⟨⟨⟨h1, h2⟩, h3⟩, h4⟩, h5⟩, h6⟩
    exact ⟨max off (s.cmd id).position.toNat - off, by omega, h1, h2, by omega, by omega⟩
  · rintro ⟨k, hk, h1, h2, h3, h4⟩
    exact ⟨⟨⟨⟨⟨h1, h2⟩, by omega⟩, by omega⟩, by omega⟩, by omega⟩

end Sys2Proof.Machine
end

