-- ==== Sys2Proof/Laws/Transfers.lean ====
section
/-! SUPPORT. The PIO transfers, the register read and the status phase, each as one equation: the events it adds, the bytes it
moves, the fields it writes. -/

namespace Sys2Proof.Machine

/-! ## Data words and slices -/

theorem word_halves (w : Half) : w.extractLsb' 8 8 ++ w.extractLsb' 0 8 = w := by
  ext j hj
  simp only [BitVec.getElem_append, BitVec.getElem_extractLsb']
  split
  · simp [BitVec.getLsbD_eq_getElem hj]
  · rw [show 8 + (j - 8) = j by omega, BitVec.getLsbD_eq_getElem hj]

theorem dataReads_word (w : Half) (bs : List Byte) : dataReads (wordBytes w ++ bs) = .r16 w :: dataReads bs := by
  rw [show wordBytes w ++ bs = w.extractLsb' 0 8 :: w.extractLsb' 8 8 :: bs from rfl, dataReads, word_halves]

theorem dataReads_odd (bs : List Byte) (b : Byte) (h : bs.length % 2 = 0) :
    dataReads (bs ++ [b]) = dataReads bs ++ [.r8d b] := by
  induction bs using dataReads.induct with
  | case1 => rfl
  | case2 => simp at h
  | case3 b0 b1 rest ih =>
    rw [show b0 :: b1 :: rest ++ [b] = b0 :: b1 :: (rest ++ [b]) from rfl, dataReads, dataReads,
      ih (by simp only [List.length_cons] at h; omega)]
    rfl

/-- `readWords` adds the reads of the bytes it brings, and changes only the draws. -/
theorem readWords_logs (n : Nat) (s : State) :
    (readWords n s).2 = { s.logs (dataReads (readWords n s).1) with env := (readWords n s).2.env } := by
  induction n generalizing s with
  | zero => rfl
  | succ n ih =>
    have h := ih (rd16 s).2
    simp only [readWords] at h ⊢
    rw [dataReads_word]
    generalize readWords n (rd16 s).2 = r at h ⊢
    obtain ⟨bs, t⟩ := r
    dsimp only at h ⊢
    rw [h]
    simp [State.logs, withBars, Event.isAccess, rd16, barrier, State.emit]

/-- `readData` adds the reads of the bytes it brings, and changes only the draws (R309, R311). -/
theorem readData_logs (n : Nat) (s : State) :
    (readData n s).2 = { s.logs (dataReads (readData n s).1) with env := (readData n s).2.env } := by
  unfold readData
  dsimp only
  have h := readWords_logs (n / 2) s
  have hl := readWords_length (n / 2) s
  generalize readWords (n / 2) s = r at h hl
  obtain ⟨bs, t⟩ := r
  dsimp only at h hl ⊢
  split
  · dsimp only
    rw [dataReads_odd _ _ (by omega)]
    rw [h]
    simp [State.logs, withBars, Event.isAccess, rd8d, readByte, barrier, State.emit]
  · exact h

/-- `readSlice` (P309): the bytes read go to the Double Buffer and to the command's buffer. -/
theorem readSlice_eq (n : Nat) (s : State) :
    readSlice n s = { s.logs (dataReads (readData n s).1 ++ [.memWr s.cur.buf s.cur.position.toNat n (readData n s).1]) with
      env := (readData n s).2.env
      dbuf := (readData n s).1 ++ s.dbuf.drop n
      mem := Memory.setBytes s.mem (Memory.addr s.cur.buf s.cur.position.toNat) (readData n s).1 } := by
  unfold readSlice
  dsimp only
  have h := readData_logs n s
  have hl := readData_length n s
  generalize readData n s = r at h hl
  obtain ⟨bs, t⟩ := r
  dsimp only at h hl ⊢
  rw [h]
  simp [memWrite, loadDbuf, State.emit, State.logs, withBars, Event.isAccess, hl]

/-- `writeSlice` (P310): the command's bytes go to the Double Buffer and to the Data register. -/
theorem writeSlice_eq (n : Nat) (s : State) :
    writeSlice n s = { s.logs (.memRd s.cur.buf s.cur.position.toNat n
        :: dataWrites (Memory.getBytes s.mem (Memory.addr s.cur.buf s.cur.position.toNat) n)) with
      dbuf := Memory.getBytes s.mem (Memory.addr s.cur.buf s.cur.position.toNat) n ++ s.dbuf.drop n } := by
  unfold writeSlice
  dsimp only
  rw [writeData_logs]
  simp [memRead, loadDbuf, State.emit, State.logs, withBars, Event.isAccess]

/-! ## The slices of a pass -/

theorem sliceSizes_zero : sliceSizes 0 = [] := rfl

/-- The first slice of a pass and the slices after it (R308). -/
theorem sliceSizes_cons (n : Nat) (h : n ≠ 0) :
    sliceSizes n = min n Config.dbufBytes :: sliceSizes (n - min n Config.dbufBytes) := by
  unfold sliceSizes
  have hd : Config.dbufBytes = 4096 := rfl
  rw [hd]
  by_cases hn : n < 4096
  · rw [show n / 4096 = 0 by omega, show n % 4096 = n by omega, if_neg h, show min n 4096 = n by omega,
      show n - n = 0 by omega]
    rfl
  · rw [show min n 4096 = 4096 by omega, show (n - 4096) / 4096 = n / 4096 - 1 by omega,
      show (n - 4096) % 4096 = n % 4096 by omega, show n / 4096 = (n / 4096 - 1) + 1 by omega, List.replicate_succ,
      show n / 4096 - 1 + 1 - 1 = n / 4096 - 1 by omega]
    rfl

end Sys2Proof.Machine
end

