-- ==== Sys2Proof/Tests/Slice0.lean ====
section
/-! SUPPORT. The model's own tests. Expected words and traces are those of spec/95_test_vectors.md (named in each comment)
or worked out by hand from the rule named; the last part shows, for each obligation with hypotheses, a state that meets
them. -/

namespace Sys2Proof.Tests

open Sys2Proof.Machine

set_option Elab.async false

/-! ## Words, descriptors, states -/

/-- The value of twenty words, W0 first. -/
def ofWords : List Nat → Nat
  | [] => 0
  | w :: ws => w + 2 ^ 32 * ofWords ws

/-- The bytes of a value, least significant first. -/
def toImage (n w : Nat) : List Byte := (List.range n).map (fun k => BitVec.ofNat 8 (w >>> (8 * k)))

def noFlags : Flags := ⟨false, false, false, false, false, false, false, false, false⟩
def noTf : Taskfile := ⟨0#8, 0#8, 0#8, 0#8, 0#8, 0#8, 0#8, 0#8, 0#16⟩

/-- The descriptor of zeros. -/
def zero : Desc where
  opcode := 0#8
  unit := 0#8
  flags := noFlags
  regMask := 0#16
  pktLen := 0#8
  timeoutMs := 0#32
  byteCount := 0#32
  position := 0#32
  chunk := 0#32
  buf := 0#32
  cb := 0#32
  tf := noTf
  ext := ⟨0#8, 0#8, 0#8, 0#8, 0#8⟩
  pkt := 0#128
  state := 0#8
  endStatus := 0#8
  endError := 0#8

/-- A descriptor of zeros with an opcode and flags. -/
def row (op : Byte) (f : Flags) : Desc := { zero with opcode := op, flags := f }

/-- `ND` of 95_test_vectors.md: `EXECIO u0 tf(dh=0xA0 cmd=0xE7) timeout=1000`. -/
def nd : Desc := { zero with opcode := 1#8, timeoutMs := 1000#32, tf := { noTf with dh := 0xA0#8, cmd := 0xE7#8 } }

/-- A read of four bytes: the command of V-PIO-10. -/
def read4 : Desc :=
  { zero with
      opcode := 1#8, flags := { noFlags with rd := true }, timeoutMs := 1000#32, byteCount := 4#32, position := 100#32
      chunk := 4#32, buf := 1#32, tf := { noTf with scnt := 1#8, snum := 1#8, dh := 0xA0#8, cmd := 0x20#8 } }

/-- A write of four bytes from buffer 2 (V-FSM-7 on a small scale). -/
def write4 : Desc :=
  { zero with
      opcode := 1#8, flags := { noFlags with wr := true }, timeoutMs := 1000#32, byteCount := 4#32, chunk := 4#32
      buf := 2#32, tf := { noTf with scnt := 2#8, snum := 1#8, dh := 0xA0#8, cmd := 0x30#8 } }

/-- A packet command for unit 0 (V-PIO-2, V-PIO-7): `tf(cyllo=4 dh=0xA0 cmd=0xA0) pkt(12 00 00 00 04 ...)`. -/
def packet (op : Byte) (f : Flags) (n : Nat) : Desc :=
  { zero with
      opcode := op, flags := { f with atapi := true }, pktLen := 12#8, timeoutMs := 1000#32, byteCount := BitVec.ofNat 32 n
      buf := 2#32, pkt := 0x0400000012#128, tf := { noTf with cylLo := 4#8, dh := 0xA0#8, cmd := 0xA0#8 } }

def rdF : Flags := { noFlags with rd := true }
def wrF : Flags := { noFlags with wr := true }
def dmaRdF : Flags := { noFlags with dma := true, rd := true }
def dmaWrF : Flags := { noFlags with dma := true, wr := true }
def atapiF : Flags := { noFlags with atapi := true }

/-- The script `D0`, the hooks at `NoError`. -/
def d0 : Env where
  data8 := [0#8]
  errfeat := [0#8]
  scnt := [0#8]
  snum := [0#8]
  cyllo := [0#8]
  cylhi := [0#8]
  devhead := [0#8]
  statcmd := [0x50#8]
  altctl := [0x50#8]
  data16 := [0#16]
  startDma := [.noError]
  stopDma := [.noError]
  overshoot := [0]
  drawn := 0

/-- `SA` of 95_test_vectors.md, with three host buffers. -/
def sA : State :=
  { State.reset with
      env := d0, devInfo0 := ⟨.ata, .drqImmediate⟩, bufs := [(1#32, 8192), (2#32, 8192), (5#32, 8192)] }

/-- `SA+sel 0`. -/
def sA0 : State := { sA with selected := some .u0, irqEn := true }

/-- `SP+sel 0`. -/
def sP0 : State := { sA0 with devInfo0 := ⟨.atapi, .drqImmediate⟩ }

/-- `SAP+sel 0`. -/
def sAP0 : State := { sA0 with devInfo1 := ⟨.atapi, .drqImmediate⟩ }

/-- `s` with the Alternate Status script `v`. -/
def altIs (v : List Byte) (s : State) : State := { s with env := { s.env with altctl := v } }

/-- The command of a descriptor in phase `ph`, in use. -/
def inPhase (ph : Byte) (d : Desc) : Command := { Command.fresh d with state := ph, inUse := true }

/-- `s` with `d` current in phase `ph`, armed for 1000 ms. -/
def running (ph : Byte) (d : Desc) (s : State) : State :=
  { s with cmds := [inPhase ph d], bus := .busy, current := some 0, timer := ⟨true, 1000000⟩ }

/-- The port events of an action, without the barriers. -/
def events (o : Host.Outcome State Fault Refusal) : List Event :=
  match o with
  | .next t => t.listing
  | _ => []

/-- A value of the state an action ends in. -/
def final {α : Type} (f : State → α) (o : Host.Outcome State Fault Refusal) : Option α :=
  match o with
  | .next t => some (f t)
  | _ => none

/-- The refusal an action ends in. -/
def refusal (o : Host.Outcome State Fault Refusal) : Option Refusal :=
  match o with
  | .refused r => some r
  | _ => none

/-! ## WellFormed: an ill-formed term for each check -/

theorem test_w1 : Desc.legal { nd with flags := { noFlags with rd := true, wr := true } } = false := by decide
theorem test_w2 : Desc.legal { nd with flags := { noFlags with dma := true } } = false := by decide
theorem test_w3_odd : Desc.legal { packet 2#8 noFlags 0 with pktLen := 3#8 } = false := by decide
theorem test_w3_long : Desc.legal { packet 2#8 noFlags 0 with pktLen := 18#8 } = false := by decide
theorem test_w3_ata : Desc.legal { nd with pktLen := 12#8 } = false := by decide
theorem test_w4 : Desc.legal { read4 with chunk := 0#32 } = false ∧ Desc.legal { write4 with chunk := 0#32 } = false := by
  decide
/-- W4 has no opcode clause: QFLUSH, BUSRESET and unknown opcodes with a direction and no chunk are ill-formed too. -/
theorem test_w4_opcodes : ∀ op ∈ [0x00#8, 0x04#8, 0x05#8, 0x06#8], ∀ f ∈ [rdF, wrF], Desc.legal (row op f) = false
    ∧ Desc.legal { row op f with chunk := 1#32 } = true := by decide
/-- V-REG-2, V-REG-7: a register write has `wr` and no chunk; neither has an ATAPI nor a DMA transfer. -/
theorem test_w4_others : Desc.legal (row 3#8 wrF) = true ∧ Desc.legal (packet 1#8 rdF 4) = true
    ∧ Desc.legal { write4 with flags := dmaWrF, chunk := 0#32 } = true := by decide
theorem test_w6_wraps : Desc.legal { nd with position := 0xFFFFFFFF#32, byteCount := 1#32 } = false := by decide
theorem test_w6_buffer : sA.accepts { read4 with position := 8189#32 } = false := by decide
theorem test_w6_buffer_fits : sA.accepts { read4 with position := 8188#32 } = true := by decide
theorem test_w7 : Desc.legal { nd with regMask := 0x0200#16 } = false := by decide
theorem test_w8 : Desc.legal { nd with unit := 1#8 } = false := by decide
theorem test_w9 : Desc.legal { nd with opcode := 2#8 } = false := by decide
theorem test_legal : Desc.legal nd = true ∧ Desc.legal { zero with opcode := 9#8, unit := 7#8 } = true := by decide

theorem test_row_execio : (Instr.execio nd).wellFormed = false := by decide
theorem test_row_atapiExecio : (Instr.atapiExecio (row 2#8 atapiF)).wellFormed = false := by decide
theorem test_row_regacc : (Instr.regacc (row 3#8 noFlags)).wellFormed = false := by decide
theorem test_row_qflush : (Instr.qflush (row 5#8 noFlags)).wellFormed = false := by decide
theorem test_row_busreset : (Instr.busreset (row 5#8 noFlags)).wellFormed = false := by decide
theorem test_row_reset08 : (Instr.execioReset08 nd).wellFormed = false
    ∧ (Instr.atapiExecioReset08 (row 2#8 atapiF)).wellFormed = false := by decide
theorem test_row_opUnknown : (Instr.opUnknown (row 5#8 noFlags)).wellFormed = false := by decide
theorem test_row_variants : (Instr.execioAtaNd (row 1#8 rdF)).wellFormed = false
    ∧ (Instr.execioAtapiPioRd (row 1#8 rdF)).wellFormed = false
    ∧ (Instr.atapiExecioDmaWr (row 2#8 dmaWrF)).wellFormed = false := by decide
theorem test_row_regacc_variants : (Instr.regaccRd (row 3#8 wrF)).wellFormed = false
    ∧ (Instr.regaccWr (row 3#8 rdF)).wellFormed = false := by decide
theorem test_row_busreset_variants : (Instr.busresetAta (row 5#8 atapiF)).wellFormed = false
    ∧ (Instr.busresetAtapi (row 5#8 noFlags)).wellFormed = false := by decide
theorem test_row_config : (Instr.config 2#8 .irqFirst).wellFormed = false := by decide

/-! ## Decode: a word of each row, written out from Table DL (W0: opcode 7:0, unit 15:8, flags from bit 16) -/

theorem test_decode_execio : decodeTableWord 32 0x000C0001
    = some (.execio (row 1#8 { noFlags with rd := true, wr := true })) := by decide +kernel
theorem test_decode_atapiExecio : decodeTableWord 32 0x00000002 = some (.atapiExecio (row 2#8 noFlags)) := by
  decide +kernel
theorem test_decode_regacc : decodeTableWord 32 0x00020003
    = some (.regacc (row 3#8 { noFlags with dma := true })) := by decide +kernel
theorem test_decode_qflush : decodeTableWord 32 0x00010104
    = some (.qflush { row 4#8 { noFlags with imm := true } with unit := 1#8 }) := by decide +kernel
theorem test_decode_busreset : decodeTableWord 32 0x000C0005
    = some (.busreset (row 5#8 { noFlags with rd := true, wr := true })) := by decide +kernel
theorem test_decode_execioReset08 : decodeTableWord 320 (ofWords [0x00000001, 0, 0, 0, 0, 0, 0, 0, 0, 0x0008A000])
    = some (.execioReset08 { row 1#8 noFlags with tf := { noTf with dh := 0xA0#8, cmd := 0x08#8 } }) := by
  decide +kernel
theorem test_decode_atapiExecioReset08 :
    decodeTableWord 320 (ofWords [0x00100002, 0, 0, 0, 0, 0, 0, 0, 0, 0x00080000])
      = some (.atapiExecioReset08 { row 2#8 atapiF with tf := { noTf with cmd := 0x08#8 } }) := by decide +kernel
theorem test_decode_opUnknown : decodeTableWord 32 0x00000006 = some (.opUnknown (row 6#8 noFlags)) := by
  decide +kernel
theorem test_decode_op00 : decodeTableWord 32 0 = some (.opUnknown zero) := by decide +kernel
/-- Program P1. -/
theorem test_decode_execioAtaNd :
    decodeTableWord 544 (ofWords [0x00000001, 0, 0x000003E8, 0, 0, 0, 0, 1, 0, 0x00E7A000])
      = some (.execioAtaNd { nd with cb := 1#32 }) := by decide +kernel
/-- Program P2. -/
theorem test_decode_execioAtaPioRd :
    decodeTableWord 544 (ofWords [0x00240001, 0, 0x000003E8, 0x00000400, 0, 0x00000200, 1, 2, 0x00010200, 0x0020A000])
      = some (.execioAtaPioRd { zero with
          opcode := 1#8, flags := { noFlags with rd := true, noirq := true }, timeoutMs := 1000#32, byteCount := 1024#32
          chunk := 512#32, buf := 1#32, cb := 2#32
          tf := { noTf with scnt := 2#8, snum := 1#8, dh := 0xA0#8, cmd := 0x20#8 } }) := by decide +kernel
theorem test_decode_execioAtaPioWr : decodeTableWord 32 0x00080001 = some (.execioAtaPioWr (row 1#8 wrF)) := by
  decide +kernel
/-- V-FSM-1. -/
theorem test_decode_execioAtaDmaRd :
    decodeTableWord 544
        (ofWords [0x00460001, 0, 0x000003E8, 0x00000200, 0, 0, 1, 0, 0x03020100, 0x0025E004, 0, 0x00000900])
      = some (.execioAtaDmaRd { zero with
          opcode := 1#8, flags := { dmaRdF with lba48 := true }, timeoutMs := 1000#32, byteCount := 512#32
          buf := 1#32, tf := ⟨0#8, 1#8, 2#8, 3#8, 4#8, 0xE0#8, 0x25#8, 0#8, 0#16⟩
          ext := ⟨0#8, 9#8, 0#8, 0#8, 0#8⟩ }) := by decide +kernel
theorem test_decode_execioAtaDmaWr : decodeTableWord 32 0x000A0001 = some (.execioAtaDmaWr (row 1#8 dmaWrF)) := by
  decide +kernel
theorem test_decode_execioAtapiNd : decodeTableWord 32 0x00100001 = some (.execioAtapiNd (row 1#8 atapiF)) := by
  decide +kernel
theorem test_decode_execioAtapiPioRd : decodeTableWord 32 0x00140001
    = some (.execioAtapiPioRd (row 1#8 { rdF with atapi := true })) := by decide +kernel
theorem test_decode_execioAtapiPioWr : decodeTableWord 32 0x00180001
    = some (.execioAtapiPioWr (row 1#8 { wrF with atapi := true })) := by decide +kernel
theorem test_decode_execioAtapiDmaRd : decodeTableWord 32 0x00160001
    = some (.execioAtapiDmaRd (row 1#8 { dmaRdF with atapi := true })) := by decide +kernel
theorem test_decode_execioAtapiDmaWr : decodeTableWord 32 0x001A0001
    = some (.execioAtapiDmaWr (row 1#8 { dmaWrF with atapi := true })) := by decide +kernel
/-- V-FSM-2 (W0, W1, W9). -/
theorem test_decode_atapiExecioNd :
    decodeTableWord 544 (ofWords [0x00100102, 0x000C0000, 0, 0, 0, 0, 0, 0, 0, 0x00A0B000])
      = some (.atapiExecioNd { row 2#8 atapiF with
          unit := 1#8, pktLen := 12#8, tf := { noTf with dh := 0xB0#8, cmd := 0xA0#8 } }) := by decide +kernel
/-- Program P4. -/
theorem test_decode_atapiExecioPioRd :
    decodeTableWord 544 (ofWords [0x00140002, 0x000C0000, 0x000007D0, 8, 0, 0, 2, 4, 0x08000000, 0x00A0A000, 0, 0, 0,
        0x00000012, 0x00000008, 0, 0])
      = some (.atapiExecioPioRd { row 2#8 { rdF with atapi := true } with
          pktLen := 12#8, timeoutMs := 2000#32, byteCount := 8#32, buf := 2#32, cb := 4#32, pkt := 0x0800000012#128
          tf := { noTf with cylLo := 8#8, dh := 0xA0#8, cmd := 0xA0#8 } }) := by decide +kernel
theorem test_decode_atapiExecioPioWr : decodeTableWord 32 0x00180002
    = some (.atapiExecioPioWr (row 2#8 { wrF with atapi := true })) := by decide +kernel
theorem test_decode_atapiExecioDmaRd : decodeTableWord 32 0x00160002
    = some (.atapiExecioDmaRd (row 2#8 { dmaRdF with atapi := true })) := by decide +kernel
theorem test_decode_atapiExecioDmaWr : decodeTableWord 32 0x001A0002
    = some (.atapiExecioDmaWr (row 2#8 { dmaWrF with atapi := true })) := by decide +kernel
theorem test_decode_regaccRd : decodeTableWord 64 0x000000C000000003
    = some (.regaccRd { row 3#8 noFlags with regMask := 0x00C0#16 }) := by decide +kernel
theorem test_decode_regaccWr : decodeTableWord 64 0x0000010000080003
    = some (.regaccWr { row 3#8 wrF with regMask := 0x0100#16 }) := by decide +kernel
theorem test_decode_busresetAta : decodeTableWord 32 0x00000705
    = some (.busresetAta { row 5#8 noFlags with unit := 7#8 }) := by decide +kernel
theorem test_decode_busresetAtapi : decodeTableWord 32 0x00100105
    = some (.busresetAtapi { row 5#8 atapiF with unit := 1#8 }) := by decide +kernel
/-- Every field of Table DL in its place: a word of all different bytes. -/
theorem test_decode_fields :
    decodeTableWord 544 (ofWords [0x01A00106, 0x00100155, 0x14131211, 0x18171615, 0x1C1B1A19, 0x201F1E1D, 0x24232221,
        0x28272625, 0x2C2B2A29, 0x302F2E2D, 0x00003231, 0x36353433, 0x00000037, 0x44434241, 0x48474645, 0x4C4B4A49,
        0x504F4E4D])
      = some (.opUnknown
          { opcode := 6#8, unit := 1#8, flags := ⟨false, false, false, false, false, true, false, true, true⟩
            regMask := 0x0155#16, pktLen := 0x10#8, timeoutMs := 0x14131211#32, byteCount := 0x18171615#32
            position := 0x1C1B1A19#32, chunk := 0x201F1E1D#32, buf := 0x24232221#32, cb := 0x28272625#32
            tf := ⟨0x29#8, 0x2A#8, 0x2B#8, 0x2C#8, 0x2D#8, 0x2E#8, 0x2F#8, 0x30#8, 0x3231#16⟩
            ext := ⟨0x33#8, 0x34#8, 0x35#8, 0x36#8, 0x37#8⟩, pkt := 0x504F4E4D4C4B4A494847464544434241#128
            state := 0#8, endStatus := 0#8, endError := 0#8 }) := by decide +kernel
theorem test_decode_reserved : decodeTableWord 32 0x02000001 = none ∧ decodeTableWord 64 0x0100000000000001 = none := by
  decide +kernel
theorem test_decode_submit : decode .event [1#8, 3#8, 2#8, 1#8, 0#8, 0#8] = .ok (.submit (some 0x102#32) true) := by
  decide +kernel
theorem test_decode_events : decode .event [2#8] = .ok .irq ∧ decode .event [3#8] = .ok .expire
    ∧ decode .event [4#8] = .ok .scan ∧ decode .event [5#8, 1#8, 0#8] = .ok (.config 1#8 .irqFirst) := by decide +kernel
theorem test_decode_event_refused : decode .event [6#8] = .error .badLabel ∧ decode .event [] = .error .badLength := by
  decide +kernel

/-- Program P1: the twenty words at submission. -/
theorem test_encode_p1 : encode (.execioAtaNd { nd with cb := 1#32 })
    = toImage 80 (ofWords [0x00000001, 0, 0x000003E8, 0, 0, 0, 0, 1, 0, 0x00E7A000, 0, 0, 0, 0, 0, 0, 0, 0x0000FF00, 0,
        0]) := by decide +kernel

/-- Program P1, the words W17 to W19: at submission, after its step 2, at its end. -/
theorem test_record_words : ∀ c ∈ [(Command.fresh nd, 0x0000FF00#32, 0#32),
      ({ Command.fresh nd with state := 4#8, inUse := true }, 0x0000FF04#32, 1#32),
      ({ Command.fresh nd with state := 6#8, result := .noError, endStatus := 0x50#8 }, 0x00500006#32, 0#32)],
    c.1.toBytes.length = 80 ∧ wordAt c.1.toBytes 68 = c.2.1 ∧ wordAt c.1.toBytes 72 = 0#32
      ∧ wordAt c.1.toBytes 76 = c.2.2 := by decide +kernel
/-- Program P2 at its end: W4 = 00000400 (position), W17 = 00500006, W18 = 00000400 (actual). -/
theorem test_record_actual :
    (Command.ofBytes (toImage 80 (ofWords [0x00240001, 0, 0x000003E8, 0x00000400, 0x00000400, 0x00000200, 1, 2, 0x00010200,
        0x0020A000, 0, 0, 0, 0, 0, 0, 0, 0x00500006, 0x00000400, 0]))).map
      (fun c => (c.position, c.result, c.actual, c.inUse)) = some (0x400#32, .noError, 0x400#32, false) := by
  decide +kernel
theorem test_record_no_code : (Command.ofBytes ((Command.fresh nd).toBytes.set 69 0x0A#8)).isNone = true := by
  decide +kernel

/-! ## One step each -/

/-- The taskfile of `ND` (R261). -/
def ndTaskfile : List Event :=
  [.w8 .devhead 0xA0#8, .w8 .errfeat 0#8, .w8 .scnt 0#8, .w8 .snum 0#8, .w8 .cyllo 0#8, .w8 .cylhi 0#8,
    .w8 .statcmd 0xE7#8]

/-- A cached selection of unit 0 and the timer (V-SEL-2). -/
def cached (v : Byte) (ms : Nat) : List Event := [.timing .u0, .r8 .altctl v, .w8 .altctl 0#8, .arm (ms * 1000)]

/-- Delivery of command 0 (R180). -/
def delivery (r : Result) : List Event := [.disarm, .stopDma .noError, .callback 0 r]

/-- P1 step 2. -/
theorem test_execioAtaNd : events (exec (.execioAtaNd nd) sA)
    = [.timing .u0, .r8 .altctl 0x50#8, .w8 .devhead 0#8, .r8 .altctl 0x50#8, .w8 .altctl 0#8, .arm 1000000]
      ++ ndTaskfile := by decide +kernel
/-- V-FSM-10: synchronous, device busy for one sample. -/
theorem test_execioAtaNd_sync :
    events (exec (.execioAtaNd { nd with flags := { noFlags with noirq := true } })
      (altIs [0x50#8, 0x80#8, 0x50#8] sA0))
    = cached 0x50#8 1000 ++ [.w8 .altctl 0x02#8] ++ ndTaskfile
      ++ [.sleep 10000, .r8 .altctl 0x80#8, .sleep 10000, .r8 .altctl 0x50#8, .r8 .statcmd 0x50#8, .r8 .errfeat 0#8]
      ++ delivery .noError := by decide +kernel
/-- V-L1-8 (b): the read command waits in DataTransfer. -/
theorem test_execioAtaPioRd : final (fun t => ((t.cmd 0).state, t.timer, t.current)) (exec (.execioAtaPioRd read4) sA0)
    = some (3#8, ⟨true, 1000000⟩, some 0) := by decide +kernel
/-- V-FSM-7 on four bytes: the first block follows the Command write. -/
theorem test_execioAtaPioWr :
    events (exec (.execioAtaPioWr write4)
      { altIs [0x58#8] sA0 with mem := Memory.setBytes [] (Memory.addr 2#32 0) [0x01#8, 0x04#8, 0x07#8, 0x0A#8] })
    = cached 0x58#8 1000
      ++ [.w8 .devhead 0xA0#8, .w8 .errfeat 0#8, .w8 .scnt 2#8, .w8 .snum 1#8, .w8 .cyllo 0#8, .w8 .cylhi 0#8,
        .w8 .statcmd 0x30#8, .r8 .altctl 0x58#8, .memRd 2#32 0 4, .w16 0x0401#16, .w16 0x0A07#16] := by decide +kernel
/-- V-FSM-1: two-byte writes, the DMA started before the taskfile. -/
theorem test_execioAtaDmaRd :
    events (exec (.execioAtaDmaRd { zero with
        opcode := 1#8, flags := { dmaRdF with lba48 := true }, timeoutMs := 1000#32, byteCount := 512#32, buf := 1#32
        tf := ⟨0#8, 1#8, 2#8, 3#8, 4#8, 0xE0#8, 0x25#8, 0#8, 0#16⟩, ext := ⟨0#8, 9#8, 0#8, 0#8, 0#8⟩ }) sA0)
    = cached 0x50#8 1000 ++ [.startDma .noError, .w8 .devhead 0xE0#8, .w8 .errfeat 0#8, .w8 .errfeat 0#8,
        .w8 .scnt 9#8, .w8 .scnt 1#8, .w8 .snum 0#8, .w8 .snum 2#8, .w8 .cyllo 0#8, .w8 .cyllo 3#8, .w8 .cylhi 0#8,
        .w8 .cylhi 4#8, .w8 .statcmd 0x25#8] := by decide +kernel
/-- V-FSM-5: the hook is not implemented, no taskfile is written. -/
theorem test_execioAtaDmaWr :
    events (exec (.execioAtaDmaWr { write4 with flags := dmaWrF }) { sA0 with env := { d0 with startDma := [.unsupported] } })
    = cached 0x50#8 1000 ++ [.startDma .unsupported, .r8 .statcmd 0x50#8, .r8 .errfeat 0#8]
      ++ delivery .unsupported := by decide +kernel

/-- The taskfile of `packet` (R261) and its six words (R135). -/
def packetTaskfile : List Event :=
  [.w8 .devhead 0xA0#8, .w8 .errfeat 0#8, .w8 .scnt 0#8, .w8 .snum 0#8, .w8 .cyllo 4#8, .w8 .cylhi 0#8,
    .w8 .statcmd 0xA0#8]
def packetWrites : List Event := [.w16 0x0012#16, .w16 0#16, .w16 0x0004#16, .w16 0#16, .w16 0#16, .w16 0#16]

/-- `SP+sel 0` with DRQ after the selection. -/
def sDrq : State := altIs [0x50#8, 0x58#8] sP0

/-- V-FSM-2, V-FSM-6 and R252, R260: the packet follows the Command write; a DMA command then starts the DMA. -/
theorem test_execioAtapiNd : events (exec (.execioAtapiNd (packet 1#8 noFlags 0)) sDrq)
    = cached 0x50#8 1000 ++ packetTaskfile ++ [.r8 .altctl 0x58#8] ++ packetWrites := by decide +kernel
theorem test_execioAtapiPioRd : final (fun t => (t.cmd 0).state) (exec (.execioAtapiPioRd (packet 1#8 rdF 4)) sDrq)
    = some 3#8 := by decide +kernel
theorem test_execioAtapiPioWr : final (fun t => (t.cmd 0).state) (exec (.execioAtapiPioWr (packet 1#8 wrF 4)) sDrq)
    = some 3#8 := by decide +kernel
theorem test_execioAtapiDmaRd : events (exec (.execioAtapiDmaRd (packet 1#8 dmaRdF 4)) sDrq)
    = cached 0x50#8 1000 ++ packetTaskfile ++ [.r8 .altctl 0x58#8] ++ packetWrites ++ [.startDma .noError] := by
  decide +kernel
theorem test_execioAtapiDmaWr : final (fun t => (t.cmd 0).state) (exec (.execioAtapiDmaWr (packet 1#8 dmaWrF 4)) sDrq)
    = some 4#8 := by decide +kernel
/-- V-FSM-6 (a): DRQ never comes, the packet window ends the command. -/
theorem test_atapiExecioNd : events (exec (.atapiExecioNd (packet 2#8 noFlags 0)) sP0)
    = cached 0x50#8 1000 ++ packetTaskfile
      ++ [.r8 .altctl 0x50#8, .sleep 10000, .r8 .altctl 0x50#8, .sleep 10000, .r8 .altctl 0x50#8, .sleep 10000,
        .r8 .altctl 0x50#8, .r8 .statcmd 0x50#8, .r8 .errfeat 0#8] ++ delivery .timeout := by decide +kernel
/-- P4 step 2. -/
theorem test_atapiExecioPioRd : events (exec (.atapiExecioPioRd (packet 2#8 rdF 4)) sDrq)
    = cached 0x50#8 1000 ++ packetTaskfile ++ [.r8 .altctl 0x58#8] ++ packetWrites := by decide +kernel
/-- V-FSM-3: IRQFirst, the SUBMIT ends after the Command write. -/
theorem test_atapiExecioPioWr :
    events (exec (.atapiExecioPioWr (packet 2#8 wrF 4)) { sDrq with devInfo0 := ⟨.atapi, .irqFirst⟩ })
    = cached 0x50#8 1000 ++ packetTaskfile := by decide +kernel
theorem test_atapiExecioDmaRd : final (fun t => (t.cmd 0).state) (exec (.atapiExecioDmaRd (packet 2#8 dmaRdF 4)) sDrq)
    = some 4#8 := by decide +kernel
theorem test_atapiExecioDmaWr : final (fun t => ((t.cmd 0).result, (t.cmd 0).state))
      (exec (.atapiExecioDmaWr (packet 2#8 dmaWrF 4)) { sDrq with env := { sDrq.env with startDma := [.unsupported] } })
    = some (.unsupported, 6#8) := by decide +kernel
/-- W1, W9 (R150): what a base row is left with is ill-formed and refused. -/
theorem test_execio : refusal (exec (.execio { nd with flags := { noFlags with rd := true, wr := true } }) sA0)
    = some .illFormedCommand := by decide +kernel
theorem test_atapiExecio : refusal (exec (.atapiExecio nd) sA0) = some .illFormedCommand := by decide +kernel
theorem test_busreset : refusal (exec (.busreset (row 5#8 { noFlags with rd := true, wr := true })) sA0)
    = some .illFormedCommand := by decide +kernel
theorem test_regacc : refusal (exec (.regacc (row 3#8 { noFlags with dma := true })) sA0)
    = some .illFormedCommand := by decide +kernel
/-- V-Q-4; the handlers are told EvATAReset = 1 about NoUnit = 0xFF. -/
theorem test_execioReset08 :
    events (exec (.execioReset08 { nd with tf := { nd.tf with cmd := 0x08#8 } }) (altIs [0x80#8, 0x50#8] sA))
    = [.w8 .altctl 0x04#8, .sleep 100, .w8 .altctl 0#8, .sleep 2000, .r8 .altctl 0x80#8, .sleep 10000,
        .r8 .altctl 0x50#8, .notify .u0 1#8 0xFF#8, .notify .u1 1#8 0xFF#8] ++ delivery .noError := by
  decide +kernel
/-- R145 with V-RST-4: the opcode field becomes 0x05, the unit is no ATAPI device. -/
theorem test_atapiExecioReset08 :
    final (fun t => (t.listing, (t.cmd 0).opcode))
      (exec (.atapiExecioReset08 { row 2#8 atapiF with tf := { noTf with dh := 0xA0#8 } }) sA0)
    = some ([.notify .u0 2#8 0#8, .notify .u1 2#8 0#8] ++ delivery .noError, 5#8) := by
  decide +kernel
/-- V-REG-3: the high byte through the HOB sequence. -/
theorem test_regaccRd :
    final (fun t => (t.listing, (t.cmd 0).tf.scnt, (t.cmd 0).ext.scntHi))
      (exec (.regaccRd { row 3#8 { noFlags with lba48 := true } with regMask := 0x0004#16 })
        { sA0 with env := { d0 with scnt := [1#8, 2#8] } })
    = some ([.timing .u0, .r8 .altctl 0x50#8, .w8 .altctl 0#8, .r8 .scnt 1#8, .w8 .altctl 0x80#8, .r8 .scnt 2#8,
        .w8 .altctl 0#8] ++ delivery .noError, 1#8, 2#8) := by decide +kernel
/-- V-REG-5: the order of all nine registers. -/
theorem test_regaccRd_all :
    events (exec (.regaccRd { row 3#8 noFlags with regMask := 0x01FF#16 })
      { sA0 with env := { d0 with
          errfeat := [1#8], scnt := [2#8], snum := [3#8], cyllo := [4#8], cylhi := [5#8], devhead := [0xA0#8]
          data16 := [0xBEEF#16] } })
    = [.timing .u0, .r8 .altctl 0x50#8, .w8 .altctl 0#8, .r8 .errfeat 1#8, .r8 .scnt 2#8, .r8 .snum 3#8,
        .r8 .cyllo 4#8, .r8 .cylhi 5#8, .r8 .devhead 0xA0#8, .r8 .altctl 0x50#8, .r16 0xBEEF#16, .r8 .statcmd 0x50#8]
      ++ delivery .noError := by decide +kernel
/-- V-REG-6. -/
theorem test_regaccWr :
    final (fun t => (t.listing, t.selected, t.irqEn))
      (exec (.regaccWr { row 3#8 wrF with
        regMask := 0x01FF#16, tf := ⟨1#8, 2#8, 3#8, 4#8, 5#8, 0xA0#8, 0xEC#8, 2#8, 0x1234#16⟩ }) sA0)
    = some ([.timing .u0, .r8 .altctl 0x50#8, .w8 .altctl 0#8, .w8 .errfeat 1#8, .w8 .scnt 2#8, .w8 .snum 3#8,
        .w8 .cyllo 4#8, .w8 .cylhi 5#8, .w8 .devhead 0xA0#8, .w8 .altctl 2#8, .w16 0x1234#16, .w8 .statcmd 0xEC#8]
        ++ delivery .noError, none, false) := by decide +kernel
/-- V-REG-7. -/
theorem test_regaccWr_lba48 :
    events (exec (.regaccWr { row 3#8 { wrF with lba48 := true } with
        regMask := 0x000C#16, tf := { noTf with scnt := 2#8, snum := 3#8 }, ext := ⟨0#8, 0x12#8, 0x13#8, 0#8, 0#8⟩ }) sA0)
    = [.timing .u0, .r8 .altctl 0x50#8, .w8 .altctl 0#8, .w8 .scnt 0x12#8, .w8 .scnt 2#8, .w8 .snum 0x13#8,
        .w8 .snum 3#8] ++ delivery .noError := by decide +kernel
/-- V-QF-1 on a free bus: F cancels what stands behind it. -/
theorem test_qflush :
    events (exec (.qflush (row 4#8 { noFlags with imm := true }))
      { sA0 with cmds := [inPhase 0#8 nd, inPhase 0#8 nd], queue := [0, 1] })
    = [.callback 0 .cancelled, .callback 1 .cancelled, .disarm, .stopDma .noError, .callback 2 .noError] := by
  decide +kernel
/-- V-RST-6: a whole-bus reset ignores the unit; no driver attached. -/
theorem test_busresetAta :
    events (exec (.busresetAta { row 5#8 noFlags with unit := 7#8 })
      { sA with params := { sA.params with attached0 := false, attached1 := false } })
    = [.w8 .altctl 0x04#8, .sleep 100, .w8 .altctl 0#8, .sleep 2000, .r8 .altctl 0x50#8] ++ delivery .noError := by
  decide +kernel
/-- V-RST-2; the handlers are told EvATAPIReset = 2 about unit 1. -/
theorem test_busresetAtapi :
    events (exec (.busresetAtapi { row 5#8 atapiF with unit := 1#8 }) (altIs [0x80#8, 0#8] sAP0))
    = [.w8 .devhead 0x10#8, .w8 .statcmd 0x08#8, .sleep 2000, .r8 .altctl 0x80#8, .sleep 10000, .r8 .altctl 0#8,
        .notify .u0 2#8 1#8, .notify .u1 2#8 1#8] ++ delivery .noError := by decide +kernel
/-- V-Q-3. -/
theorem test_opUnknown : final (fun t => (t.listing, t.ret)) (exec (.opUnknown zero) sA)
    = some (delivery .invalidArgument, .status .noError) := by decide +kernel
/-- V-Q-2. -/
theorem test_submit_null : final (fun t => (t.listing, t.ret)) (exec (.submit none true) sA)
    = some ([], .status .invalidArgument) := by decide +kernel
/-- V-L1-1: a second SUBMIT on a Busy bus only queues. -/
theorem test_submit_busy :
    final (fun t => (t.listing, t.current, t.queue, (t.cmd 1).state, (t.cmd 1).inUse))
      (exec (.submit (some 1#32) true) { running 4#8 nd sA0 with cmds := [inPhase 4#8 nd, Command.fresh nd] })
    = some ([], some 0, [1], 0#8, true) := by decide +kernel
/-- V-PIO-10: the data, then the status phase, in one action. -/
theorem test_irq_read :
    events (exec .irq { running 3#8 read4 sA0 with
        env := { d0 with statcmd := [0x58#8, 0x50#8], altctl := [0x58#8], data16 := [0x2211#16, 0x4433#16] } })
    = [.r8 .statcmd 0x58#8, .r8 .altctl 0x58#8, .r16 0x2211#16, .r16 0x4433#16,
        .memWr 1#32 100 4 [0x11#8, 0x22#8, 0x33#8, 0x44#8], .r8 .statcmd 0x50#8, .r8 .errfeat 0#8]
      ++ delivery .noError := by decide +kernel
/-- V-PIO-3, the odd overrun: seven bytes offered, four expected, three drained. -/
theorem test_irq_overrun :
    events (exec .irq { running 3#8 (packet 2#8 rdF 4) sP0 with
        env := { d0 with
          statcmd := [0x58#8], altctl := [0x58#8], cyllo := [7#8], data16 := [0x2211#16, 0x4433#16, 0xAAAA#16]
          data8 := [0xCC#8] } })
    = [.r8 .statcmd 0x58#8, .r8 .altctl 0x58#8, .r8 .cyllo 7#8, .r8 .cylhi 0#8, .r16 0x2211#16, .r16 0x4433#16,
        .memWr 2#32 0 4 [0x11#8, 0x22#8, 0x33#8, 0x44#8], .r16 0xAAAA#16, .r8d 0xCC#8] := by decide +kernel
/-- V-TMR-3: a timed-out DMA command calls the hook twice. -/
theorem test_expire :
    events (exec .expire { running 4#8 { read4 with flags := dmaRdF } sA0 with
        env := { d0 with statcmd := [0xD0#8] }, now := 1000000 })
    = [.stopDma .noError, .r8 .statcmd 0xD0#8, .r8 .errfeat 0#8] ++ delivery .timeout := by decide +kernel
/-- R336: not before the deadline. -/
theorem test_expire_early : refusal (exec .expire { running 4#8 nd sA0 with now := 999999 }) = some .expireNotEnabled := by
  decide +kernel
/-- V-SCAN-1. -/
theorem test_scan :
    final (fun t => (t.listing, t.ret, t.devInfo0.type, t.devInfo1.type, t.irqEn))
      (exec .scan { State.reset with env := { d0 with
        altctl := [0x50#8, 0x50#8, 0x50#8, 0x50#8, 0x50#8, 0x51#8], cyllo := [0x14#8], cylhi := [0xEB#8]
        scnt := [1#8], snum := [1#8] } })
    = some ([.r8 .altctl 0x50#8, .w8 .devhead 0#8, .r8 .altctl 0x50#8, .r8 .cyllo 0x14#8, .r8 .cylhi 0xEB#8,
        .r8 .scnt 1#8, .r8 .snum 1#8, .r8 .altctl 0x50#8, .w8 .devhead 0x10#8, .r8 .altctl 0x50#8, .r8 .cyllo 0x14#8,
        .r8 .cylhi 0xEB#8, .r8 .scnt 1#8, .r8 .snum 1#8, .r8 .altctl 0x50#8, .w8 .altctl 2#8, .w8 .statcmd 0xA1#8,
        .r8 .altctl 0x51#8, .w8 .devhead 0#8], .count 1, .atapi, .unknown, false) := by decide +kernel
/-- R225 with another `IDENT_WORDS`: a probe that shows data drains that many words. -/
theorem test_ident_words :
    events (.next (atapiSlaveExists { altIs [0x58#8] sA0 with params := { sA0.params with identWords := 2 } }).2)
    = [.w8 .altctl 2#8, .w8 .statcmd 0xA1#8, .r8 .altctl 0x58#8, .r16 0#16, .r16 0#16] := by decide +kernel
/-- V-SCAN-6. -/
theorem test_scan_slave :
    final (fun t => (t.ret, t.devInfo0.type, t.devInfo1.type)) (exec .scan { State.reset with env := { d0 with
        cyllo := [0#8, 0x14#8], cylhi := [0#8, 0xEB#8], scnt := [1#8], snum := [1#8] } })
    = some (.count 2, .ata, .atapi) := by decide +kernel
theorem test_config : final (fun t => t.devInfo1) (exec (.config 1#8 .irqFirst) sAP0) = some ⟨.atapi, .irqFirst⟩ := by
  decide +kernel
theorem test_config_refused : refusal (exec (.config 2#8 .irqFirst) sAP0) = some .configUnit := by decide +kernel

/-! ## Witnesses: states and operands that meet the hypotheses of each obligation -/

theorem idle_sA : sA.Idle := ⟨rfl, rfl, rfl, rfl, rfl, rfl, rfl⟩
theorem idle_sA0 : sA0.Idle := ⟨rfl, rfl, rfl, rfl, rfl, rfl, rfl⟩
theorem idle_sP0 : sP0.Idle := ⟨rfl, rfl, rfl, rfl, rfl, rfl, rfl⟩
theorem idle_sAP0 : sAP0.Idle := ⟨rfl, rfl, rfl, rfl, rfl, rfl, rfl⟩
theorem idle_sDrq : sDrq.Idle := ⟨rfl, rfl, rfl, rfl, rfl, rfl, rfl⟩

/-- The image of program P1. -/
def imageP1 : List Byte :=
  toImage 80 (ofWords [0x00000001, 0, 0x000003E8, 0, 0, 0, 0, 1, 0, 0x00E7A000, 0, 0, 0, 0, 0, 0, 0, 0x0000FF00, 0, 0])

theorem witness_DecodeEncode : (Instr.execioAtaNd nd).wellFormed = true ∧ (Instr.opUnknown zero).wellFormed = true
    ∧ (Instr.config 1#8 .irqFirst).wellFormed = true := by decide +kernel

theorem witness_EncodeDecode : decode .descriptor imageP1 = .ok (.execioAtaNd { nd with cb := 1#32 })
    ∧ writeBackInitialised imageP1 = true
    ∧ Command.ofBytes imageP1 = some (Command.fresh { nd with cb := 1#32 }) := by decide +kernel

/-- Opcodes at both ends of the known range, and each reclassified opcode. -/
theorem witness_SpecialRows :
    (∀ op ∈ [0x00#8, 0x06#8, 0xFF#8], (row op noFlags).toBytes.length = 80
        ∧ reservedClear (row op noFlags).toBytes = true
        ∧ ∀ k ∈ [0x01#8, 0x02#8, 0x03#8, 0x04#8, 0x05#8], byteAt (row op noFlags).toBytes 0 ≠ k)
      ∧ ∀ op ∈ [0x01#8, 0x02#8], reservedClear (Desc.asReset08 op zero).toBytes = true
        ∧ byteAt (Desc.asReset08 op zero).toBytes 0 = op ∧ byteAt (Desc.asReset08 op zero).toBytes 38 = 0x08#8 := by
  decide +kernel

/-- What acts outside the gate leave of the memory, or their refusal. -/
def memAfter (o : Except Refusal State) : Except Refusal (List Host.Cell) :=
  match o with
  | .ok t => .ok t.mem
  | .error r => .error r

/-- Nothing listed in memory and the Double Buffer of reset: the stores are in form. -/
theorem stores_wf (s : State) (hm : s.mem = []) (hd : s.dbuf = State.reset.dbuf) : s.StoresWf := by
  unfold State.StoresWf
  rw [hm, hd]
  exact ⟨rfl, List.length_replicate⟩

/-- `sA0` with one waiting action: an IRQ after 5 us. -/
def sIrq : State := { sA0 with inbox := [⟨[], 5, .event, [2#8]⟩] }

theorem witness_StepRunsDecoded : sIrq.inbox = ⟨[], 5, .event, [2#8]⟩ :: [] ∧ decode .event [2#8] = .ok .irq
    ∧ imageInitialised ⟨[], 5, .event, [2#8]⟩ = true ∧ decodeTableWord 32 0x00000004 = some (.qflush (row 4#8 noFlags))
    ∧ sA0.inbox = [] ∧ memAfter (outsideActs [.reset] sA0) = .ok []
    ∧ memAfter (outsideActs [.prepare 1 nd] sA0) = .error .noSuchCommand := by decide +kernel

/-- A free record, one in use; of buffer 1, the bytes just outside those that `read4` (offsets 100 to 103) still moves, and
the last of these; none of them owed where its selection failed (Complete). -/
theorem witness_OutsideActs : (State.cmd { sA with cmds := [Command.fresh nd] } 0).inUse = false
    ∧ ((running 3#8 read4 sA0).cmd 0).inUse = true ∧ 0 < (running 3#8 read4 sA0).cmds.length
    ∧ (running 3#8 read4 sA0).StoresWf ∧ (running 3#8 read4 sA0).inFlight = [0]
    ∧ (∀ off ∈ [99, 103, 104], (running 3#8 read4 sA0).bufferCovers 1#32 off 1 = true)
    ∧ (∀ off ∈ [99, 104], ∀ k < 1, ¬ stillOwes ((running 3#8 read4 sA0).cmd 0) 1#32 (off + k))
    ∧ stillOwes ((running 3#8 read4 sA0).cmd 0) 1#32 103
    ∧ ∀ k < 1, ¬ stillOwes ((running 5#8 read4 sA0).cmd 0) 1#32 (103 + k) := by
  refine ⟨by decide, by decide, by decide, stores_wf _ rfl rfl, by decide, by decide +kernel, ?_, ?_, ?_⟩ <;>
    unfold stillOwes transferring <;> decide +kernel

/-- The first and the last byte that `read4` still moves, and the bytes just outside (R95). -/
theorem test_fill_bounds :
    (∀ off ∈ [100, 103], memAfter (outsideAct (.fill 1#32 off [7#8]) (running 3#8 read4 sA0)) = .error .bufferInUse)
    ∧ ∀ off ∈ [99, 104], memAfter (outsideAct (.fill 1#32 off [7#8]) (running 3#8 read4 sA0))
        = .ok [(2 ^ 32 + off, 7#8)] := by decide +kernel

/-- Commands whose buffer no transfer will touch let the host write it: a queued RegisterAccess write, a reset in disguise,
an ExecIO for an invalid unit (R274, R145, R146), an ExecIO in Complete (R244); a queued ExecIO does not, nor does a DMA
command that waits in Status (R95, R86). -/
theorem test_fill_owners :
    (∀ d ∈ [{ write4 with opcode := 3#8 }, Desc.asReset08 1#8 write4, { write4 with unit := 2#8 }],
      memAfter (outsideAct (.fill 2#32 0 [7#8]) { running 4#8 nd sA0 with
        cmds := [inPhase 4#8 nd, inPhase 0#8 d], queue := [1] }) = .ok [(2 ^ 33, 7#8)])
    ∧ memAfter (outsideAct (.fill 2#32 0 [7#8]) (running 5#8 write4 sA0)) = .ok [(2 ^ 33, 7#8)]
    ∧ memAfter (outsideAct (.fill 2#32 0 [7#8]) { running 4#8 nd sA0 with
        cmds := [inPhase 4#8 nd, inPhase 0#8 write4], queue := [1] }) = .error .bufferInUse
    ∧ memAfter (outsideAct (.fill 2#32 0 [7#8]) (running 4#8 { write4 with flags := dmaWrF } sA0))
        = .error .bufferInUse := by decide +kernel

/-- A reset drops the current command: the host may write the bytes it still had to move, but not its record, which keeps
`inUse` (R403; the bytes are the model's choice, entry 22). -/
theorem test_reset_drops :
    memAfter (outsideActs [.reset, .fill 1#32 103 [7#8]] (running 3#8 read4 sA0)) = .ok [(2 ^ 32 + 103, 7#8)]
    ∧ memAfter (outsideActs [.reset, .prepare 0 nd] (running 3#8 read4 sA0)) = .error .commandInUse := by decide +kernel

/-- From reset, with nothing placed but the inbox: the host provides a buffer, fills a record, and SUBMITs it (R391, R160);
the record is then in use. -/
theorem test_submit_from_reset :
    final (fun t => ((t.cmd 0).inUse, t.ret)) (step { State.reset with
      inbox := [⟨[.provide 1#32 512, .prepare 0 { read4 with position := 0#32, unit := 2#8 }], 3, .event, encode (.submit (some 0#32) true)⟩] })
      = some (true, .status .noError) := by decide +kernel

/-- A callback that submits its own record again (R89, D37): record 0 is back in flight, and no record was added. -/
theorem test_resubmit :
    final (fun t => (t.current, t.cmds.length, (t.cmd 0).state))
      (exec .irq { running 4#8 nd sA0 with host := [[⟨some 0, nd⟩]] }) = some (some 0, 1, phStatus) := by decide +kernel

/-- A record in use cannot be submitted again, nor one that there is not (R160, U4; entry 11). -/
theorem test_resubmit_in_use :
    refusal (exec .irq { running 4#8 nd sA0 with host := [[⟨some 0, nd⟩, ⟨some 0, nd⟩]] }) = some .commandInUse
    ∧ refusal (exec .irq { running 4#8 nd sA0 with host := [[⟨some 1, nd⟩]] }) = some .noSuchCommand := by
  decide +kernel

/-- A set reserved bit of W0 and of W19; the lowest and the highest one of the register mask. -/
theorem witness_ReservedBitsRefused :
    (∀ k ∈ [3, 76], (imageP1.set k 0x02#8).length = 80 ∧ reservedClear (imageP1.set k 0x02#8) = false)
    ∧ (∀ v ∈ [0x02#8, 0x80#8], reservedClear (imageP1.set 5 v) = true ∧ halfAt (imageP1.set 5 v) 4 >>> 9 ≠ 0#16)
    ∧ hostBreach sA = none := by decide +kernel

/-- A nested submission that R150 excludes: both directions set (W1). -/
def badSubmit : HostSubmit := ⟨none, { nd with flags := { noFlags with rd := true, wr := true } }⟩

/-- The action that comes to it is refused (U3, U11); one that makes no host call, or an earlier one, is not. -/
theorem test_nested_ill_formed :
    refusal (exec (.opUnknown (row 6#8 noFlags)) { sA with host := [[⟨none, nd⟩, badSubmit]] }) = some .hostScriptIllFormed
    ∧ final (fun t => t.host) (exec (.opUnknown (row 6#8 noFlags)) { sA with host := [[], [badSubmit]] })
        = some [[badSubmit]]
    ∧ final (fun t => (t.host, t.current)) (exec (.execioAtaNd nd) { sA with host := [[badSubmit]] })
        = some ([[badSubmit]], some 0) := by decide +kernel

/-- A handle provided twice, whichever length comes last: the larger one counts (entry 14). -/
theorem test_provide_twice : ∀ l ∈ [(16, 8), (8, 16)], memAfter (outsideActs
    [.provide 7#32 l.1, .provide 7#32 l.2, .fill 7#32 15 [7#8]] sA) = .ok [(7 * 2 ^ 32 + 15, 7#8)] := by decide +kernel

theorem witness_IllFormedRefused : Instr.execio { nd with unit := 1#8 } ∈ commandRows { nd with unit := 1#8 }
    ∧ (Instr.execio { nd with unit := 1#8 }).desc = some { nd with unit := 1#8 } ∧ hostBreach sA = none
    ∧ sA.accepts { nd with unit := 1#8 } = false
    ∧ (final (fun t => State.hostCalls { running 4#8 nd sA0 with host := [[⟨none, nd⟩]] } t)
        (exec .irq { running 4#8 nd sA0 with host := [[⟨none, nd⟩]] })) = some [[⟨none, nd⟩]]
    ∧ (Instr.opUnknown (row 6#8 noFlags)).wellFormed = true ∧ sA.bus = .free ∧ sA.qstate = .opened ∧ sA.current = none
    ∧ sA.queue = [] ∧ State.accepts { sA with host := [[badSubmit]] } (row 6#8 noFlags) = true
    ∧ State.accepts { sA with host := [[badSubmit]] } badSubmit.desc = false := by decide +kernel

theorem witness_SubmitIsRow : Instr.execioAtaNd nd ∈ commandRows nd ∧ (Instr.execioAtaNd nd).desc = some nd
    ∧ (∀ id ∈ sA.inFlight, id < sA.cmds.length) ∧ (0#32).toNat = sA.cmds.length := by decide +kernel

/-- `sA0` on a Busy bus: `nd` current, an Immediate and another command queued. -/
def sBusy : State :=
  { running 4#8 nd sA0 with
      cmds := [inPhase 4#8 nd, inPhase 0#8 { nd with flags := { noFlags with imm := true } }, inPhase 0#8 nd]
      queue := [1, 2] }

theorem witness_BusySubmissionQueues : hostBreach sBusy = none ∧ sBusy.bus = .busy
    ∧ (∀ id ∈ sBusy.queue, id < sBusy.cmds.length)
    ∧ (∀ d ∈ [nd, { nd with flags := { noFlags with imm := true } }],
        Instr.execioAtaNd d ∈ commandRows d ∧ (Instr.execioAtaNd d).desc = some d ∧ sBusy.accepts d = true) := by
  decide +kernel

theorem witness_SubmissionSettles : Instr.execioAtaNd nd ∈ commandRows nd ∧ (Instr.execioAtaNd nd).desc = some nd
    ∧ sA.Idle ∧ sA.accepts nd = true := ⟨by decide +kernel, by decide +kernel, idle_sA, by decide +kernel⟩

theorem witness_SubmitRecordSettles : State.Idle { sA with cmds := [Command.fresh nd] }
    ∧ (0#32).toNat < (State.cmds { sA with cmds := [Command.fresh nd] }).length
    ∧ (Command.fresh nd).inUse = false ∧ initialised (Command.fresh nd) = true ∧ sA.accepts nd = true :=
  ⟨⟨rfl, rfl, rfl, rfl, rfl, rfl, rfl⟩, by decide +kernel, rfl, by decide +kernel, by decide +kernel⟩

/-- An idle engine with one record in use, dropped by a reset, and a script that names record `k`. -/
def sNested (k : Nat) : State :=
  { sA with cmds := [inPhase 4#8 nd], host := [[⟨some k, row 4#8 noFlags⟩]] }

/-- The first reference past the store, a record in use, a record with a result left in it; of a nested SUBMIT, a record in
use, the one called back, and the first reference past it. -/
theorem witness_SubmitRefuses :
    hostBreach sBusy = none ∧ sBusy.cmds.length ≤ (3#32).toNat ∧ (sBusy.cmd 2).inUse = true
    ∧ (initialised { Command.fresh nd with result := .noError } && sBusy.accepts nd) = false
    ∧ (Instr.opUnknown (row 6#8 noFlags)).wellFormed = true ∧ (sNested 0).bus = .free ∧ (sNested 0).qstate = .opened
    ∧ (sNested 0).current = none ∧ (sNested 0).queue = [] ∧ (sNested 0).breach = none
    ∧ (sNested 0).accepts (row 6#8 noFlags) = true ∧ ((sNested 0).cmd 0).inUse = true
    ∧ (sNested 2).cmds.length < 2 ∧ (sNested 1).cmds.length = 1 ∧ (sNested 1).accepts (row 4#8 noFlags) = true := by
  decide +kernel

/-- The three cases run (R160, R89). -/
theorem test_nested_reuse :
    refusal (exec (.opUnknown (row 6#8 noFlags)) (sNested 0)) = some .commandInUse
    ∧ refusal (exec (.opUnknown (row 6#8 noFlags)) (sNested 2)) = some .noSuchCommand
    ∧ final (fun t => (callbacks t.trace, t.cmd 1)) (exec (.opUnknown (row 6#8 noFlags)) (sNested 1))
        = some ([1, 1], delivered .noError (Command.fresh (row 4#8 noFlags))) := by decide +kernel

theorem witness_DequeueAndDispatchTest : sA.queue = [] ∧ sBusy.queue = 1 :: [2] := by decide

theorem witness_EnqueueKeepsOrder : sBusy.ImmediateFirst := by unfold State.ImmediateFirst; decide +kernel

/-- A packet command in the IRQFirst mode, and one without a packet. -/
theorem witness_TaskfileIssued :
    (Instr.execioAtaDmaRd { read4 with flags := dmaRdF } ∈ execRows { read4 with flags := dmaRdF }
        ∧ (Instr.execioAtaDmaRd { read4 with flags := dmaRdF }).desc = some { read4 with flags := dmaRdF }
        ∧ sA.Idle ∧ sA.accepts { read4 with flags := dmaRdF } = true ∧ UnitId.ofByte 0#8 = some .u0
        ∧ DeviceReady .u0 { read4 with flags := dmaRdF } sA ∧ sA.env.startDma.head? = some .noError
        ∧ isPIOWriteATA (Command.fresh { read4 with flags := dmaRdF }) = false)
      ∧ (hasPacket (Command.fresh (packet 2#8 rdF 4)) = true
        ∧ State.accepts { sP0 with devInfo0 := ⟨.atapi, .irqFirst⟩ } (packet 2#8 rdF 4) = true
        ∧ DeviceReady .u0 (packet 2#8 rdF 4) { sP0 with devInfo0 := ⟨.atapi, .irqFirst⟩ }) := by
  refine ⟨⟨by decide +kernel, by decide +kernel, idle_sA, by decide +kernel, by decide, ?_, by decide, by decide⟩,
    by decide +kernel, by decide +kernel, ?_⟩ <;> unfold DeviceReady <;> decide +kernel

/-- Answers that never change: the first one decides a DRQ wait. -/
theorem no_data {k : Nat} {s : State} {v : Byte} (hs : s.env.altctl = [v]) (hv : okData v = false) : NoData k s := by
  have answer : ∀ (j : Nat) (e : Env), e.altctl = [v] → e.answer .altctl j = v := by
    intro j
    induction j with
    | zero => intro e he; simp [Env.answer, Env.byteAnswer, Env.bytes, he, scriptHead]
    | succ j ih => intro e he; exact ih _ (by simp [Env.byteRead, Env.setBytes, Env.bytes, he, scriptTail])
  refine ⟨by simp [hs], fun j hj => ?_⟩
  rw [answer _ _ hs, hv] at hj
  exact absurd hj (by simp)

/-- The DMA hook is not implemented; a device that never shows DRQ, and one that shows an error. -/
theorem witness_failures : State.Idle { sA with env := { d0 with startDma := [.unsupported] } }
    ∧ DeviceReady .u0 { read4 with flags := dmaRdF } { sA with env := { d0 with startDma := [.unsupported] } }
    ∧ State.accepts { sA with env := { d0 with startDma := [.unsupported] } } { read4 with flags := dmaRdF } = true
    ∧ (∀ v ∈ [0x50#8, 0x51#8], NoData 1 (altIs [v] sA0) ∧ NoData 1 (altIs [v] sP0)
        ∧ DeviceReady .u0 write4 (altIs [v] sA0) ∧ DeviceReady .u0 (packet 2#8 dmaRdF 4) (altIs [v] sP0)
        ∧ State.accepts (altIs [v] sA0) write4 = true ∧ State.accepts (altIs [v] sP0) (packet 2#8 dmaRdF 4) = true)
    ∧ DeviceReady .u0 (packet 2#8 dmaRdF 4) { sDrq with env := { sDrq.env with startDma := [.unsupported] } }
    ∧ okData (Env.answer .altctl (selectSamples .u0 sDrq) { sDrq.env with startDma := [.unsupported] }) = true := by
  refine ⟨⟨rfl, rfl, rfl, rfl, rfl, rfl, rfl⟩, ?_, by decide +kernel, ?_, ?_, by decide +kernel⟩
  · unfold DeviceReady
    decide +kernel
  · intro v hv
    simp only [List.mem_cons, List.not_mem_nil, or_false] at hv
    rcases hv with rfl | rfl <;>
      exact ⟨no_data rfl (by decide), no_data rfl (by decide), by unfold DeviceReady; decide +kernel,
        by unfold DeviceReady; decide +kernel, by decide +kernel, by decide +kernel⟩
  · unfold DeviceReady
    decide +kernel

/-- The count equal to the chunk, and above it. -/
theorem witness_FirstBlockWritten : ∀ d ∈ [write4, { write4 with chunk := 3#32 }],
    Instr.execioAtaPioWr d ∈ [Instr.execio d, .execioAtaPioWr d] ∧ (Instr.execioAtaPioWr d).desc = some d
    ∧ d.isReset08 = false ∧ State.Idle (altIs [0x58#8] sA0) ∧ State.accepts (altIs [0x58#8] sA0) d = true
    ∧ d.flags.noirq = false ∧ isPIOWriteATA (Command.fresh d) = true ∧ UnitId.ofByte d.unit = some .u0
    ∧ DeviceReady .u0 d (altIs [0x58#8] sA0) ∧ 0 < d.byteCount.toNat
    ∧ okData (Env.answer .altctl (selectSamples .u0 (altIs [0x58#8] sA0)) (altIs [0x58#8] sA0).env) = true := by
  intro d hd
  have hi : State.Idle (altIs [0x58#8] sA0) := ⟨rfl, rfl, rfl, rfl, rfl, rfl, rfl⟩
  simp only [List.mem_cons, List.not_mem_nil, or_false] at hd
  rcases hd with rfl | rfl <;>
    exact ⟨by simp, by decide +kernel, by decide, hi, by decide +kernel, by decide, by decide, by decide,
      by unfold DeviceReady; decide +kernel, by decide, by decide +kernel⟩

theorem witness_PacketSent : ∀ d ∈ [packet 2#8 noFlags 0, packet 2#8 dmaRdF 4],
    Instr.atapiExecio d ∈ execRows d ∧ (Instr.atapiExecio d).desc = some d ∧ d.isReset08 = false ∧ sDrq.Idle
    ∧ sDrq.accepts d = true ∧ d.flags.noirq = false ∧ hasPacket (Command.fresh d) = true
    ∧ UnitId.ofByte d.unit = some .u0 ∧ (sDrq.devInfo .u0).pmode = .drqImmediate ∧ DeviceReady .u0 d sDrq
    ∧ okData (sDrq.env.answer .altctl (selectSamples .u0 sDrq)) = true ∧ sDrq.env.startDma.head? = some .noError := by
  intro d hd
  simp only [List.mem_cons, List.not_mem_nil, or_false] at hd
  rcases hd with rfl | rfl <;>
    exact ⟨by simp [execRows], by decide +kernel, by decide, idle_sDrq, by decide +kernel, by decide, by decide, by decide,
      by decide, by unfold DeviceReady; decide +kernel, by decide +kernel, by decide⟩

/-- `nd` in synchronous mode. -/
def ndSync : Desc := { nd with flags := { noFlags with noirq := true } }

/-- `read4` in synchronous mode. -/
def readSync : Desc := { read4 with flags := { rdF with noirq := true } }

/-- A command without data and a PIO read, on a ready device; an address before the read's bytes, one after them. -/
theorem witness_SynchronousCompletes : Instr.execioAtaNd ndSync ∈ execRows ndSync
    ∧ (Instr.execioAtaNd ndSync).desc = some ndSync ∧ ndSync.isReset08 = false ∧ sA.Idle ∧ sA.accepts ndSync = true
    ∧ ndSync.flags.noirq = true ∧ (Instr.execioAtaPioRd readSync).desc = some readSync ∧ sA.accepts readSync = true
    ∧ UnitId.ofByte readSync.unit = some .u0 ∧ DeviceReady .u0 readSync sA ∧ sA.StoresWf
    ∧ 2 ^ 32 + 99 < Memory.addr readSync.buf readSync.position.toNat
    ∧ Memory.addr readSync.buf readSync.position.toNat + 4 ≤ 2 ^ 32 + 104 :=
  ⟨by simp [execRows], by decide +kernel, by decide, idle_sA, by decide +kernel, by decide, by decide +kernel,
    by decide +kernel, by decide, by unfold DeviceReady; decide +kernel, stores_wf _ rfl rfl, by decide, by decide⟩

/-- The read fills offsets 100 to 103 of buffer 1 and ends with nIEN set; so does one whose device shows no data and times
out, without a byte (R247, R309). -/
theorem test_synchronous_read : ∀ p ∈ [([0x58#8], 4#32, Result.noError), ([0x50#8], 0#32, .timeout)],
    final (fun t => (t.irqEn, t.selected, (t.cmd 0).actual, (t.cmd 0).result,
        t.mem.all (fun c => decide (2 ^ 32 + 100 ≤ c.1 ∧ c.1 < 2 ^ 32 + 104))))
      (exec (.execioAtaPioRd { readSync with timeoutMs := 20#32 }) { altIs p.1 sA0 with
        env := { d0 with altctl := p.1, data16 := [0x1234#16, 0x5678#16] } })
      = some (false, some .u0, p.2.1, p.2.2, true) := by decide +kernel

/-- A poll of the post-select window with no sample that passes. -/
theorem never_ready {u : UnitId} {d : Desc} {k : Nat} {s : State} (h : ∀ j < s.params.nPostSel + 1,
    okReady (needReady (s.devInfo u).type (Command.fresh d)) (s.env.answer .altctl (k + j)) = false) :
    NeverReady u d k s := fun j hj => h j (by omega)

/-- Every way to fail: the lowest invalid unit; DRQ at the first sample; BUSY for the whole pre-select poll of a timeout of
1000 ms, and for one sample of a timeout of 0; not ready after the select write; the cached unit busy. -/
theorem witness_SelectionFailure : ∀ d ∈ [nd, ndSync],
    SelectFails { d with unit := 2#8 } sA .invalidArgument [] 0
    ∧ SelectFails d (altIs [0x58#8] sA) .deviceBusy (.timing .u0 :: pollEvents 0 0 (altIs [0x58#8] sA)) 0
    ∧ SelectFails d (altIs [0x80#8] sA) .deviceBusy (.timing .u0 :: pollEvents 0 100 (altIs [0x80#8] sA)) 100
    ∧ SelectFails { d with timeoutMs := 0#32 } (altIs [0x80#8] sA) .deviceBusy
        (.timing .u0 :: pollEvents 0 0 (altIs [0x80#8] sA)) 0
    ∧ SelectFails d (altIs [0x80#8, 0x10#8] sA) .deviceBusy (.timing .u0 :: pollEvents 0 1 (altIs [0x80#8, 0x10#8] sA)
        ++ .w8 .devhead 0#8 :: pollEvents 2 10 (altIs [0x80#8, 0x10#8] sA)) 11
    ∧ SelectFails d (altIs [0x80#8] sA0) .deviceBusy (.timing .u0 :: pollEvents 0 10 (altIs [0x80#8] sA0)) 10
    ∧ sA.accepts { d with unit := 2#8 } = true ∧ State.Idle (altIs [0x80#8, 0x10#8] sA)
    ∧ State.accepts (altIs [0x80#8, 0x10#8] sA) d = true := by
  intro d hd
  have hi : State.Idle (altIs [0x80#8, 0x10#8] sA) := ⟨rfl, rfl, rfl, rfl, rfl, rfl, rfl⟩
  simp only [List.mem_cons, List.not_mem_nil, or_false] at hd
  rcases hd with rfl | rfl <;>
    exact ⟨.invalidUnit (by decide),
      .preSelect .u0 0 (by decide) (by decide) (.inl rfl) (by unfold PreSelectBusy; decide +kernel)
        (by decide +kernel),
      .preSelect .u0 100 (by decide) (by decide) (.inr (by decide)) (by unfold PreSelectBusy; decide +kernel)
        (by decide +kernel),
      .preSelect .u0 0 (by decide) (by decide) (.inl rfl) (by unfold PreSelectBusy; decide +kernel)
        (by decide +kernel),
      .postSelect .u0 1 (by decide) (by decide) (.inr (by decide)) (by unfold PreSelectBusy; decide +kernel)
        (by decide +kernel) (never_ready (by decide +kernel)),
      .cached .u0 (by decide) (by decide) (.inr (by decide)) (never_ready (by decide +kernel)),
      by decide +kernel, hi, by decide +kernel⟩

theorem witness_SelectFailureInvalidates : (selectDevice 2#8 sA0).1 ≠ .noError := by decide +kernel

theorem witness_SelectCaches : UnitId.ofByte 0#8 = some .u0 ∧ (selectDevice 0#8 sA).1 = .noError
    ∧ sA0.selected = some .u0 := by decide +kernel

/-- An abort condition that never says NoError nor Timeout; a poll that times out. -/
theorem witness_PollBounded : (∀ v t, noAbort v t ≠ some .noError) ∧ (∀ v t, noAbort v t ≠ some .timeout)
    ∧ (pollStatus okData noAbort 2 sA).code = .timeout := by
  refine ⟨fun _ _ => by simp [noAbort], fun _ _ => by simp [noAbort], by decide +kernel⟩

theorem witness_RegisterReadCompletes : Instr.regaccRd (row 3#8 noFlags) ∈ [Instr.regacc (row 3#8 noFlags),
      .regaccRd (row 3#8 noFlags)] ∧ (Instr.regaccRd (row 3#8 noFlags)).desc = some (row 3#8 noFlags)
    ∧ sA.Idle ∧ sA.accepts (row 3#8 noFlags) = true ∧ UnitId.ofByte (row 3#8 noFlags).unit = some .u0
    ∧ DeviceReady .u0 (row 3#8 noFlags) sA :=
  ⟨by simp, by decide +kernel, idle_sA, by decide +kernel, by decide, by unfold DeviceReady; decide +kernel⟩

theorem witness_RegisterWriteCompletes : (Instr.regaccWr (row 3#8 wrF)).desc = some (row 3#8 wrF)
    ∧ (row 3#8 wrF).flags.wr = true ∧ sA.Idle ∧ sA.accepts (row 3#8 wrF) = true
    ∧ UnitId.ofByte (row 3#8 wrF).unit = some .u0 ∧ DeviceReady .u0 (row 3#8 wrF) sA :=
  ⟨by decide +kernel, by decide, idle_sA, by decide +kernel, by decide, by unfold DeviceReady; decide +kernel⟩

theorem witness_RegisterAccessFails : (Instr.regaccRd (row 3#8 noFlags)).desc = some (row 3#8 noFlags)
    ∧ State.Idle (altIs [0x80#8] sA) ∧ State.accepts (altIs [0x80#8] sA) (row 3#8 noFlags) = true
    ∧ State.accepts sA { row 3#8 noFlags with unit := 2#8 } = true
    ∧ SelectFails { row 3#8 noFlags with unit := 2#8 } sA .invalidArgument [] 0
    ∧ SelectFails (row 3#8 noFlags) (altIs [0x80#8] sA) .deviceBusy
        (.timing .u0 :: pollEvents 0 0 (altIs [0x80#8] sA)) 0 :=
  ⟨by decide +kernel, ⟨rfl, rfl, rfl, rfl, rfl, rfl, rfl⟩, by decide +kernel, by decide +kernel, .invalidUnit (by decide),
    .preSelect .u0 0 (by decide) (by decide) (.inl rfl) (by unfold PreSelectBusy; decide +kernel) (by decide +kernel)⟩

theorem witness_WholeBusReset : (Instr.busresetAta (row 5#8 noFlags)).desc = some (row 5#8 noFlags)
    ∧ (Instr.execioReset08 (Desc.asReset08 1#8 nd)).desc = some (Desc.asReset08 1#8 nd) ∧ sA.Idle
    ∧ sA.accepts (row 5#8 noFlags) = true ∧ sA.accepts (Desc.asReset08 1#8 nd) = true
    ∧ sA.env.altctl.head? = some 0x50#8 ∧ okReady (sA.devInfo0.type == .ata) 0x50#8 = true :=
  ⟨by decide +kernel, by decide +kernel, idle_sA, by decide +kernel, by decide +kernel, by decide, by decide⟩

/-- A script of one answer gives it every time. -/
theorem answer_single (v : Byte) (s : State) (j : Nat) : (altIs [v] s).env.answer .altctl j = v := by
  induction j generalizing s with
  | zero => rfl
  | succ j ih =>
    rw [answer_succ]
    exact (answer_congr (f := (altIs [v] s).env.byteRead .altctl) rfl (List.cons_ne_nil v []) j).trans (ih s)

/-- Whole bus: BUSY for ever, and READY missing with BUSY clear; ATAPI-scoped: BUSY for ever. -/
theorem witness_ResetTimesOut : (∀ v ∈ [0x80#8, 0x10#8], State.Idle (altIs [v] sA)
      ∧ State.accepts (altIs [v] sA) (row 5#8 noFlags) = true ∧ (altIs [v] sA).env.altctl ≠ []
      ∧ ∀ j ≤ (altIs [v] sA).params.nReset,
        okReady ((altIs [v] sA).devInfo0.type == .ata) ((altIs [v] sA).env.answer .altctl j) = false)
    ∧ State.Idle (altIs [0x80#8] sP0) ∧ State.accepts (altIs [0x80#8] sP0) (row 5#8 atapiF) = true
    ∧ ((altIs [0x80#8] sP0).devInfo .u0).type = .atapi
    ∧ ∀ j ≤ (altIs [0x80#8] sP0).params.nReset, bsy ((altIs [0x80#8] sP0).env.answer .altctl j) = true := by
  have hi (v : Byte) (s : State) (h : s.Idle) : State.Idle (altIs [v] s) :=
    ⟨h.bus, h.qstate, h.current, h.queue, h.armed, h.host, h.breach⟩
  refine ⟨fun v hv => ⟨hi v sA idle_sA, ?_, List.cons_ne_nil v [], fun j _ => ?_⟩, hi _ _ idle_sP0, by decide +kernel,
    by decide, fun j _ => ?_⟩
  · revert v; decide +kernel
  · rw [answer_single]; clear j ‹_ ≤ _›; revert v; decide +kernel
  · rw [answer_single]; decide

/-- `s` with a poll interval of `n` us: the readiness poll of a reset may then sleep `31000000 / n` times (R213). -/
def pollEvery (n : Nat) (h : 0 < n) (s : State) : State := { s with params := { s.params with tPoll := n, tPoll_pos := h } }

/-- With a budget of no sleep, or of one: a whole bus that lacks READY, and a busy ATAPI unit, time out; the handlers are
told (R214, R284). -/
theorem test_reset_times_out :
    events (exec (.busresetAta (row 5#8 noFlags)) (pollEvery 31000001 (by decide) (altIs [0x10#8] sA)))
      = [.w8 .altctl 0x04#8, .sleep 100, .w8 .altctl 0x00#8, .sleep 2000, .r8 .altctl 0x10#8, .notify .u0 1#8 0xFF#8,
          .notify .u1 1#8 0xFF#8] ++ delivery .timeout
    ∧ events (exec (.busresetAtapi (row 5#8 atapiF)) (pollEvery 31000000 (by decide) (altIs [0x80#8] sP0)))
      = [.w8 .devhead 0x00#8, .w8 .statcmd 0x08#8, .sleep 2000, .r8 .altctl 0x80#8, .sleep 31000000, .r8 .altctl 0x80#8,
          .notify .u0 2#8 0x00#8, .notify .u1 2#8 0x00#8] ++ delivery .timeout := by decide +kernel

theorem witness_UnitReset : (Instr.busresetAtapi (row 5#8 atapiF)).desc = some (row 5#8 atapiF)
    ∧ (Instr.atapiExecioReset08 (Desc.asReset08 2#8 (row 2#8 atapiF))).desc = some (Desc.asReset08 2#8 (row 2#8 atapiF))
    ∧ sP0.Idle ∧ sP0.accepts (row 5#8 atapiF) = true ∧ sP0.accepts (Desc.asReset08 2#8 (row 2#8 atapiF)) = true
    ∧ UnitId.ofByte 0#8 = some .u0 ∧ (sP0.devInfo .u0).type = .atapi ∧ sP0.env.altctl.head? = some 0x50#8
    ∧ bsy 0x50#8 = false :=
  ⟨by decide +kernel, by decide +kernel, idle_sP0, by decide +kernel, by decide +kernel, by decide, by decide, by decide,
    by decide⟩

theorem witness_UnitResetElsewhere : sA.Idle ∧ sA.accepts (row 5#8 atapiF) = true
    ∧ sA.accepts { row 5#8 atapiF with unit := 2#8 } = true ∧ (sA.devInfo .u0).type ≠ .atapi
    ∧ UnitId.ofByte 2#8 = none := ⟨idle_sA, by decide +kernel, by decide +kernel, by decide, by decide⟩

/-- Two commands queued on a Free bus. -/
def sQueued : State := { sA0 with cmds := [inPhase 0#8 nd, inPhase 0#8 nd], queue := [0, 1] }

theorem witness_FlushCancels : sQueued.bus = .free ∧ sQueued.qstate = .opened ∧ sQueued.current = none
    ∧ sQueued.host = [] ∧ sQueued.timer.armed = false ∧ hostBreach sQueued = none
    ∧ (sQueued.queue = [] ∨ (row 4#8 { noFlags with imm := true }).flags.imm = true)
    ∧ sQueued.accepts (Desc.asOp 0x04#8 (row 4#8 { noFlags with imm := true })) = true ∧ sQueued.queue.Nodup
    ∧ (∀ k ∈ sQueued.queue, k < sQueued.cmds.length ∧ (sQueued.cmd k).flags.imm = false
        ∧ (sQueued.cmd k).result = .unset) := by decide +kernel

theorem witness_UnknownOpcodeCompletes : ∀ op ∈ [0x00#8, 0x06#8, 0xFF#8],
    (Instr.opUnknown (row op noFlags)).wellFormed = true ∧ sA.accepts (row op noFlags) = true := by decide +kernel

/-- A running command meets `State.Running`. -/
theorem running_of {ph : Byte} {d : Desc} {s : State} (hq : s.qstate = .opened) (hqu : s.queue = []) (hh : s.host = [])
    (ho : isExecOp d.opcode = true) (hn : d.flags.noirq = false)
    (hw : d.position.toNat + d.byteCount.toNat < 2 ^ 32)
    (hb : s.bufferCovers d.buf d.position.toNat d.byteCount.toNat = true) (hbr : s.breach = none := by rfl) :
    (running ph d s).Running 0 :=
  ⟨rfl, hq, rfl, Nat.zero_lt_one, hqu, hh, hbr, ho, hn, rfl, rfl, ⟨Nat.zero_le _, hw⟩, hb⟩

theorem witness_IrqDropped : sA.irqEn = false := rfl

/-- No current command; a synchronous one; one that is no ExecIO; one in Complete. -/
theorem witness_IrqAcknowledged : ∀ s ∈ [sA0, running 4#8 ndSync sA0, running 1#8 (row 5#8 noFlags) sA0,
      running 5#8 nd sA0], s.irqEn = true ∧ ∀ id, s.current = some id →
        (s.cmd id).flags.noirq = true ∨ isExecOp (s.cmd id).opcode = false ∨ (s.cmd id).state = phComplete := by
  intro s hs
  simp only [List.mem_cons, List.not_mem_nil, or_false] at hs
  rcases hs with rfl | rfl | rfl | rfl
  · exact ⟨rfl, fun id h => nomatch h⟩
  · exact ⟨rfl, fun id h => by obtain rfl : 0 = id := Option.some.inj h; decide +kernel⟩
  · exact ⟨rfl, fun id h => by obtain rfl : 0 = id := Option.some.inj h; decide +kernel⟩
  · exact ⟨rfl, fun id h => by obtain rfl : 0 = id := Option.some.inj h; decide +kernel⟩

/-- A command in Status; a read in DataTransfer with no data, and a packet command in PacketIssue with a device error. -/
theorem witness_IrqEndsCommand : (running 4#8 nd sA0).Running 0 ∧ (running 4#8 nd sA0).irqEn = true
    ∧ ((running 4#8 nd sA0).cmd 0).state = phStatus
    ∧ (running 3#8 read4 sA0).Running 0 ∧ NoData 0 (running 3#8 read4 sA0)
    ∧ ((running 3#8 read4 sA0).cmd 0).state = phDataTransfer ∧ 0 < remaining ((running 3#8 read4 sA0).cmd 0)
    ∧ (running 2#8 (packet 2#8 rdF 4) (altIs [0x51#8] sP0)).Running 0
    ∧ NoData 0 (running 2#8 (packet 2#8 rdF 4) (altIs [0x51#8] sP0))
    ∧ ((running 2#8 (packet 2#8 rdF 4) (altIs [0x51#8] sP0)).cmd 0).state = phPacketIssue :=
  ⟨running_of rfl rfl rfl (by decide) rfl (by decide) (by decide +kernel), rfl, rfl,
    running_of rfl rfl rfl (by decide) rfl (by decide) (by decide +kernel), no_data rfl (by decide), rfl,
    by decide +kernel, running_of rfl rfl rfl (by decide) rfl (by decide) rfl, no_data rfl (by decide), rfl⟩

/-- A read of four bytes in DataTransfer: one byte above the chunk, and exactly the chunk. -/
def dataIn (chunk : Word) : State := running 3#8 { read4 with chunk := chunk } (altIs [0x58#8] sA0)

theorem witness_IrqReadsBlock : (dataIn 3#32).Running 0 ∧ (dataIn 3#32).StoresWf ∧ (dataIn 3#32).irqEn = true
    ∧ (dataIn 3#32).timer.armed = true ∧ ((dataIn 3#32).cmd 0).state = phDataTransfer
    ∧ ((dataIn 3#32).cmd 0).flags.atapi = false ∧ ((dataIn 3#32).cmd 0).flags.rd = true
    ∧ ((dataIn 3#32).cmd 0).chunk.toNat < remaining ((dataIn 3#32).cmd 0)
    ∧ (dataIn 3#32).env.altctl.head? = some 0x58#8 ∧ okData 0x58#8 = true :=
  ⟨running_of rfl rfl rfl (by decide) rfl (by decide) (by decide +kernel), stores_wf _ rfl rfl, rfl, rfl, rfl, rfl, rfl,
    by decide +kernel, rfl, by decide⟩

theorem witness_IrqReadsLastBlock : (dataIn 4#32).Running 0 ∧ (dataIn 4#32).StoresWf
    ∧ ((dataIn 4#32).cmd 0).state = phDataTransfer ∧ ((dataIn 4#32).cmd 0).flags.wr = false
    ∧ 0 < remaining ((dataIn 4#32).cmd 0) ∧ remaining ((dataIn 4#32).cmd 0) ≤ ((dataIn 4#32).cmd 0).chunk.toNat
    ∧ (dataIn 4#32).env.altctl.head? = some 0x58#8 ∧ okData 0x58#8 = true :=
  ⟨running_of rfl rfl rfl (by decide) rfl (by decide) (by decide +kernel), stores_wf _ rfl rfl, rfl, rfl,
    by decide +kernel, by decide +kernel, rfl, by decide⟩

/-- A packet command in phase `ph`, the device ready for data, reporting `lo` bytes. -/
def packetIn (ph : Byte) (f : Flags) (lo : Byte) : State :=
  running ph (packet 2#8 f 4) { sP0 with env := { d0 with altctl := [0x58#8], cyllo := [lo] } }

/-- Four bytes expected: as many, fewer and more reported. -/
theorem witness_IrqReadsDeviceBlock : ∀ lo ∈ [0x04#8, 0x03#8, 0x07#8],
    (packetIn 3#8 rdF lo).Running 0 ∧ (packetIn 3#8 rdF lo).StoresWf ∧ (packetIn 3#8 rdF lo).irqEn = true
    ∧ (packetIn 3#8 rdF lo).timer.armed = true ∧ ((packetIn 3#8 rdF lo).cmd 0).state = phDataTransfer
    ∧ ((packetIn 3#8 rdF lo).cmd 0).flags.atapi = true ∧ ((packetIn 3#8 rdF lo).cmd 0).flags.rd = true
    ∧ 0 < remaining ((packetIn 3#8 rdF lo).cmd 0) ∧ (packetIn 3#8 rdF lo).env.altctl.head? = some 0x58#8
    ∧ okData 0x58#8 = true ∧ (packetIn 3#8 rdF lo).env.cyllo.head? = some lo
    ∧ (packetIn 3#8 rdF lo).env.cylhi.head? = some 0#8 := fun lo _ =>
  ⟨running_of rfl rfl rfl (by decide) rfl (by decide) rfl, stores_wf _ rfl rfl, rfl, rfl, rfl, rfl, rfl,
    show 0 < 4 by decide, rfl, by decide, rfl, rfl⟩

/-- A write of four bytes in DataTransfer, the device ready for data. -/
def dataOut (chunk : Word) : State := running 3#8 { write4 with chunk := chunk } (altIs [0x58#8] sA0)

/-- ATA: the chunk one byte below the count, and at it. ATAPI: four bytes expected; as many, fewer and more reported. -/
theorem witness_IrqWritesBlock : (∀ chunk ∈ [3#32, 4#32], (dataOut chunk).Running 0 ∧ (dataOut chunk).irqEn = true
      ∧ (dataOut chunk).timer.armed = true ∧ ((dataOut chunk).cmd 0).state = phDataTransfer
      ∧ ((dataOut chunk).cmd 0).flags.rd = false ∧ ((dataOut chunk).cmd 0).flags.wr = true
      ∧ ((dataOut chunk).cmd 0).flags.atapi = false ∧ 0 < remaining ((dataOut chunk).cmd 0)
      ∧ (dataOut chunk).env.altctl.head? = some 0x58#8 ∧ okData 0x58#8 = true)
    ∧ ∀ lo ∈ [0x04#8, 0x03#8, 0x07#8],
      (packetIn 3#8 wrF lo).Running 0 ∧ ((packetIn 3#8 wrF lo).cmd 0).state = phDataTransfer
      ∧ ((packetIn 3#8 wrF lo).cmd 0).flags.atapi = true ∧ ((packetIn 3#8 wrF lo).cmd 0).flags.rd = false
      ∧ 0 < remaining ((packetIn 3#8 wrF lo).cmd 0) ∧ (packetIn 3#8 wrF lo).env.altctl.head? = some 0x58#8
      ∧ (packetIn 3#8 wrF lo).env.cyllo.head? = some lo ∧ (packetIn 3#8 wrF lo).env.cylhi.head? = some 0#8 :=
  ⟨fun chunk _ => ⟨running_of rfl rfl rfl (show isExecOp 1#8 = true by decide) rfl (show 4 < 2 ^ 32 by decide) rfl, rfl, rfl, rfl, rfl, rfl, rfl,
      show 0 < 4 by decide, rfl, by decide⟩,
    fun lo _ => ⟨running_of rfl rfl rfl (by decide) rfl (by decide) rfl, rfl, rfl, rfl, show 0 < 4 by decide, rfl, rfl,
      rfl⟩⟩

theorem witness_IrqSendsPacket : (packetIn 2#8 dmaRdF 4#8).Running 0 ∧ (packetIn 2#8 dmaRdF 4#8).irqEn = true
    ∧ (packetIn 2#8 dmaRdF 4#8).timer.armed = true ∧ ((packetIn 2#8 dmaRdF 4#8).cmd 0).state = phPacketIssue
    ∧ (packetIn 2#8 dmaRdF 4#8).env.altctl.head? = some 0x58#8 ∧ okData 0x58#8 = true
    ∧ (packetIn 2#8 dmaRdF 4#8).env.startDma.head? = some .noError
    ∧ State.Running 0 { packetIn 2#8 dmaRdF 4#8 with env := { d0 with altctl := [0x58#8], startDma := [.unsupported] } } :=
  ⟨running_of rfl rfl rfl (by decide) rfl (by decide) (by decide +kernel), rfl, rfl, rfl, rfl, by decide, rfl,
    rfl, rfl, rfl, Nat.zero_lt_one, rfl, rfl, rfl, by decide, rfl, rfl, rfl, ⟨Nat.zero_le _, by decide⟩, by decide +kernel⟩

/-- At the very deadline. -/
def sDue : State := running 4#8 nd { sA0 with now := 1000000 }

theorem witness_ExpireEndsCommand : sDue.Running 0 ∧ sDue.timer.armed = true ∧ sDue.timer.deadline ≤ sDue.now :=
  ⟨running_of rfl rfl rfl (by decide) rfl (by decide) (by decide +kernel), rfl, by decide⟩

/-- One microsecond before the deadline; a command current; a callout in progress; the lowest invalid unit. -/
theorem witness_NotAdmitted : (running 4#8 nd { sA0 with now := 999999 }).timer.armed = true
    ∧ (running 4#8 nd { sA0 with now := 999999 }).now < (running 4#8 nd { sA0 with now := 999999 }).timer.deadline
    ∧ (running 4#8 nd sA0).current ≠ none ∧ State.snap { sA with snap := [⟨none, .free, .opened, .closed⟩] } ≠ []
    ∧ (2#8 : Byte) ≠ 0#8 ∧ (2#8 : Byte) ≠ 1#8 := by decide +kernel

/-- A bus stuck busy, with a scan poll that sleeps once. -/
def sStuck : State := { altIs [0x80#8] sA with params := { sA.params with nScan := 1 } }

/-- A bus that is free, and one stuck busy. -/
theorem witness_ScanSettles : sA.current = none ∧ sA.snap = []
    ∧ (pollStatus okNotBusy noAbort sA.params.nScan sA).code = .noError ∧ sStuck.current = none ∧ sStuck.snap = []
    ∧ (pollStatus okNotBusy noAbort sStuck.params.nScan sStuck).code = .timeout :=
  ⟨rfl, rfl, by decide +kernel, rfl, rfl, by decide +kernel⟩

/-- The three signatures: ATAPI, ATA, neither. -/
theorem witness_ScanClassifies : ∀ g ∈ [(0x14#8, 0xEB#8), (0x00#8, 0x00#8), (0x14#8, 0x00#8)],
    ∃ s : State, s.current = none ∧ s.snap = [] ∧ s.env.altctl = [0x58#8] ∧ bsy 0x58#8 = false
      ∧ s.env.cyllo = [g.1] ∧ s.env.cylhi = [g.2] ∧ s.env.scnt = [1#8] ∧ s.env.snum = [1#8] := fun g _ =>
  ⟨{ sA with env := { d0 with altctl := [0x58#8], cyllo := [g.1], cylhi := [g.2], scnt := [1#8], snum := [1#8] } },
    rfl, rfl, rfl, by decide, rfl, rfl, rfl, rfl⟩

theorem witness_CompletionDelivers : sA.current = none ∧ (running 4#8 nd sA0).current = some 0
    ∧ 0 < (running 4#8 nd sA0).cmds.length ∧ (running 4#8 nd sA0).queue = [] ∧ (running 4#8 nd sA0).host = [] := by
  decide +kernel

theorem witness_PassEndsInStatus : (dataIn 4#32).current = some 0 ∧ 0 < (dataIn 4#32).cmds.length
    ∧ ((dataIn 4#32).cmd 0).state = phDataTransfer ∧ countsWf ((dataIn 4#32).cmd 0) :=
  ⟨rfl, by decide, rfl, by unfold countsWf; decide +kernel⟩

/-- An idle engine meets the invariants, and a step from it answers a next state. -/
theorem witness_invariants : sIrq.StoresWf ∧ sIrq.Quiescent ∧ barredRev sIrq.traceRev = true
    ∧ (State.IrqEnTracks { sIrq with traceRev := [.bar, .w8 .altctl 0x00#8] })
    ∧ (final (fun t => t.inbox) (step sIrq)) = some [] := by
  refine ⟨stores_wf _ rfl rfl, ?_, rfl, ?_, by decide +kernel⟩
  · refine ⟨?_, ⟨rfl, rfl, rfl⟩, ⟨List.nodup_nil, fun _ h => (nomatch h)⟩, fun _ h => (nomatch h),
      fun _ h => (nomatch h), fun _ h => (nomatch h), ?_, fun _ => rfl, List.Pairwise.nil, rfl⟩
    · unfold State.BusMatchesCurrent; decide +kernel
    · decide +kernel
  · unfold State.IrqEnTracks; decide +kernel

/-- An interrupt on an idle engine, and a SUBMIT of a stored record on a Busy bus. -/
theorem witness_EachCommandOnce : (∀ hs ∈ sIrq.host, ∀ h ∈ hs, h.reuse = none)
    ∧ final (fun t => t.ret) (exec .irq sIrq) = some .nothing
    ∧ final (fun t => t.inFlight) (exec (.submit (some 1#32) true)
        { running 4#8 nd sA0 with cmds := [inPhase 4#8 nd, Command.fresh nd] }) = some [0, 1] := by decide +kernel

theorem witness_DevInfoWriters : Instr.irq ≠ .scan ∧ (∀ u m, Instr.irq ≠ .config u m)
    ∧ final (fun t => t.ret) (exec .irq sA0) = some .nothing ∧ (running 4#8 nd sA0).current = some 0 :=
  ⟨fun h => (nomatch h), fun _ _ h => (nomatch h), by decide +kernel, rfl⟩

/-- One command in flight, the current one, in a phase of an ExecIO, with its timer armed. -/
theorem quiescent_running {ph : Byte} {d : Desc} {s : State} (hq : s.queue = []) (ho : s.qstate = .opened)
    (hg : s.igate = .closed) (hs : s.snap = []) (hw : currentWf (inPhase ph d)) (hc : countsWf (inPhase ph d))
    (hb : s.breach = none := by rfl) :
    (running ph d s).Quiescent where
  bus := by simp [State.BusMatchesCurrent, running]
  callout := ⟨ho, hg, hs⟩
  owned := by simp [State.OwnedOnce, State.inFlight, running, hq]
  queued id h := absurd (hq ▸ h : id ∈ []) List.not_mem_nil
  current id h := by
    obtain rfl : 0 = id := by simpa [running] using h
    exact hw
  counts id h := by
    obtain rfl : id = 0 := by simpa [State.inFlight, running, hq] using h
    exact hc
  armed := by simp [running]
  drained h := nomatch h
  order := by simp [State.ImmediateFirst, running, hq]
  breach := hb

/-- A running PIO read in DataTransfer meets the invariants; a DMA read cannot be there (R251, R260). -/
theorem test_data_transfer_is_pio :
    currentWf (inPhase 3#8 read4) ∧ ¬ currentWf (inPhase 3#8 { read4 with flags := dmaRdF }) := by
  unfold currentWf; decide +kernel

/-- Buffer 2 while a read into buffer 1 moves data. -/
theorem witness_MemoryIsolation : (dataIn 4#32).StoresWf ∧ (dataIn 4#32).Quiescent
    ∧ final (fun t => t.ret) (exec .irq (dataIn 4#32)) = some .nothing
    ∧ (∀ c ∈ (dataIn 4#32).cmds, readsInto 2#32 c.toDesc = false) ∧ Instr.irq.desc = none ∧ (dataIn 4#32).host = [] := by
  refine ⟨stores_wf _ rfl rfl, quiescent_running rfl rfl rfl rfl ?_ ?_, by decide +kernel, by decide +kernel, rfl, rfl⟩
  · unfold currentWf; decide +kernel
  · unfold countsWf; decide +kernel

end Sys2Proof.Tests
end

section
/-! Reset (O1, O53), what happens outside the gate (O8), and the RegisterAccess write (O28). -/

namespace Sys2Proof.Machine

/-! ## Reset -/

/-- The reset state is a border of gate actions: nothing is in flight (R33, R55). -/
theorem reset_quiescent : State.reset.Quiescent where
  bus := by simp [State.BusMatchesCurrent, State.reset]
  callout := ⟨rfl, rfl, rfl⟩
  owned := ⟨List.nodup_nil, fun _ h => nomatch h⟩
  queued := fun _ h => nomatch h
  current := fun _ h => nomatch h
  counts := fun _ h => nomatch h
  armed := by simp [State.reset]
  drained := fun _ => rfl
  order := List.Pairwise.nil
  breach := rfl

/-! ## Outside the gate -/

/-- A record of the store that is not in use is filled in its place (R407). -/
theorem hostPrepare_own {id : Nat} {s : State} (d : Desc) (hl : id < s.cmds.length) (hu : (s.cmd id).inUse = false) :
    hostPrepare id d s = .ok { s with cmds := s.cmds.set id (Command.fresh d) } := by
  unfold hostPrepare
  rw [if_neg (by omega), if_neg (by omega), hu, if_neg (by decide)]
  simp [State.refill, State.modCmd, List.modify_eq_set_getElem?, List.getElem?_eq_getElem hl]

/-- The host may take the next new record (R407). -/
theorem hostPrepare_new (d : Desc) (s : State) :
    hostPrepare s.cmds.length d s = .ok { s with cmds := s.cmds ++ [Command.fresh d] } := by
  unfold hostPrepare
  rw [if_neg (by omega), if_pos rfl]

/-- A record in use is refused (U4). -/
theorem hostPrepare_inUse {id : Nat} {s : State} (d : Desc) (hl : id < s.cmds.length) (hu : (s.cmd id).inUse = true) :
    hostPrepare id d s = .error .commandInUse := by
  unfold hostPrepare
  rw [if_neg (by omega), if_neg (by omega), if_pos hu]

/-- Within a buffer of the host a write is decided by the commands in flight alone (R95). -/
theorem hostFill_covered {h : Word} {off : Nat} {bs : List Byte} {s : State}
    (hc : s.bufferCovers h off bs.length = true) (hl : off + bs.length ≤ 2 ^ 32) :
    hostFill h off bs s = if s.inFlight.any (stillMoves h off bs.length s) then .error .bufferInUse
      else .ok { s with mem := Memory.setBytes s.mem (Memory.addr h off) bs } := by
  unfold hostFill State.inFlight
  rw [hc, decide_eq_true hl, if_neg (by decide)]

/-- Some command in flight bars the write exactly if it still owes one of the bytes (R95). -/
theorem any_stillMoves_iff (h : Word) (off n : Nat) (s : State) :
    s.inFlight.any (stillMoves h off n s) = true ↔ ∃ id ∈ s.inFlight, ∃ k < n, stillOwes (s.cmd id) h (off + k) := by
  simp only [List.any_eq_true, stillMoves_iff]

/-! ## RegisterAccess writes -/

/-- The opcode of the rows REGACC (R140, R143). -/
theorem regaccRow_opcode {d e : Desc} {i : Instr} (hi : i ∈ [Instr.regacc d, .regaccRd d, .regaccWr d])
    (h : i.desc = some e) : e.opcode = opRegisterAccess := by
  simp only [List.mem_cons, List.not_mem_nil, or_false] at hi
  rcases hi with rfl | rfl | rfl <;> cases h <;> rfl

/-- The handler of a launched RegisterAccess is `handleRegAccess` (R140). -/
theorem runHandler_regaccess {dn : State → State} {s : State} (h : s.cur.opcode = opRegisterAccess) :
    runHandler dn s = handleRegAccess dn s := by
  unfold runHandler
  rw [if_neg (by rw [h]; decide), if_pos h]

/-- The state of a launched register write on a ready device, before its completion (R274, R276). -/
def writtenRegisters (u : UnitId) (d : Desc) (s : State) : State :=
  { (launched d s).logs (selectEvents u s ++ registerWriteEvents d) with
    env := s.env.reads .altctl (selectSamples u s)
    selected := if d.regMask.getLsbD 6 then none else some u
    irqEn := if d.regMask.getLsbD 8 then irqEnOf d.tf.ctl else true
    cmds := s.cmds ++ [{ Command.fresh d with state := phComplete, inUse := true }] }

theorem launched_devInfo (u : UnitId) (d : Desc) (s : State) : (launched d s).devInfo u = s.devInfo u := by
  cases u <;> rfl

/-- Without reclassification a launched command is Started, its words unchanged (R170). -/
theorem launched_plain {d : Desc} (s : State) (h : (isExecOp d.opcode && d.isReset08) = false) :
    launched d s = { s with
      cmds := s.cmds ++ [{ Command.fresh d with state := phStarted, inUse := true }]
      bus := .busy
      current := some s.cmds.length } := by
  unfold launched
  rw [onDispatch_plain (c := { Command.fresh d with state := phInitial, inUse := true }) h]

/-- The selection of a launched command, not reclassified, whose device is ready at once (R201 to R205). -/
theorem selectDevice_launched {u : UnitId} {d : Desc} {s : State} (hp : (isExecOp d.opcode && d.isReset08) = false)
    (hu : UnitId.ofByte d.unit = some u) (hr : DeviceReady u d s) :
    selectDevice (launched d s).cur.unit (launched d s) = (.noError, { (launched d s).logs (selectEvents u s) with
      env := s.env.reads .altctl (selectSamples u s), selected := some u, irqEn := true }) := by
  have hcur := launched_cur_plain s hp
  have hready : okReady (needReady ((launched d s).devInfo u).type (launched d s).cur)
      ((launched d s).env.answer .altctl (selectSamples u (launched d s) - 1)) = true := by
    rw [hcur, launched_devInfo]; exact hr.2
  have hunit : UnitId.ofByte (launched d s).cur.unit = some u := by rw [hcur]; exact hu
  exact selectDevice_ready hunit hr.1 hready

/-- `handleRegAccess` of a write on a ready device comes to the completion (P274). -/
theorem handleRegAccess_write {dn : State → State} {u : UnitId} {d : Desc} {s : State}
    (ho : d.opcode = opRegisterAccess) (hw : d.flags.wr = true) (hu : UnitId.ofByte d.unit = some u)
    (hr : DeviceReady u d s) :
    handleRegAccess dn (launched d s) = completeIO dn .noError (writtenRegisters u d s) := by
  have hp : (isExecOp d.opcode && d.isReset08) = false := by rw [ho]; rfl
  have hcur := launched_cur_plain s hp
  unfold handleRegAccess
  rw [selectDevice_launched hp hu hr, hcur]
  dsimp only
  rw [if_pos rfl, if_pos (show (Command.fresh d).flags.wr = true from hw), registerWrite_logs]
  have hc : ∀ x e o q, ({ (launched d s).logs x with env := e, selected := o, irqEn := q } : State).cur
      = (launched d s).cur := fun _ _ _ _ => rfl
  rw [hc, hcur, launched_plain s hp]
  simp only [setPhase, State.modCur, State.modCmd, State.logs, modify_append_last, writtenRegisters,
    launched_plain s hp, withBars_append, List.reverse_append, List.append_assoc]
  rfl

/-- A delivery of the new command of an idle engine leaves the older records alone (R180). -/
theorem completed_append_cmds {res : Result} {s t : State} {c : Command} (h : t.cmds = s.cmds ++ [c]) :
    (completed s.cmds.length res t).cmds = s.cmds ++ [deliveredAs res c] := by
  simp only [completed, h, modify_append_last]

/-- What a delivery adds to the trace (R180). -/
theorem completed_did {id : Nat} {res : Result} {s : State} (hu : (s.cmd id).result = .unset) :
    s.Did (completed id res s) (completionEvents id
      (scriptHead (Result.byNumber (Config.freeResult s.env.drawn)) s.env.stopDma) res) := by
  rw [did_iff]
  simp [completed, completionEvents, withBars, Event.isAccess, deliveredAs, delivered, hu]

end Sys2Proof.Machine

namespace Sys2Proof.Proofs

open Sys2Proof.Machine

/-- Settles O1: each field of `State.reset` is the literal of Table RS. -/
theorem resetState : Obligations.ResetState :=
  ⟨rfl, rfl, rfl, rfl, rfl, rfl, rfl, rfl, rfl, rfl, rfl, rfl⟩

/-- Settles O53: at reset nothing is in flight, the memory is empty, the Double Buffer full size, the trace empty. -/
theorem resetIsGood : Obligations.ResetIsGood :=
  ⟨reset_quiescent, ⟨rfl, List.length_replicate⟩, rfl, rfl⟩

/-- Settles O8, act by act; which bytes a command in flight bars is `stillMoves_iff`. -/
theorem outsideActs : Obligations.OutsideActs := by
  intro s
  refine ⟨rfl, fun id d hu hl => hostPrepare_own d hl hu, fun d => hostPrepare_new d s,
    fun id d hl hu => hostPrepare_inUse d hl hu, ?_, ?_⟩
  · intro h off bs hw hc hl hfree
    refine ⟨Memory.setBytes s.mem (Memory.addr h off) bs, ?_, fun a => Memory.get_setBytes hw.1⟩
    show hostFill h off bs s = _
    rw [hostFill_covered hc hl, if_neg]
    rw [any_stillMoves_iff]
    rintro ⟨id, hid, k, hk, howes⟩
    exact hfree id hid k hk howes
  · intro h off bs id k hc hl hid hk howes
    show hostFill h off bs s = _
    rw [hostFill_covered hc hl, if_pos ((any_stillMoves_iff _ _ _ _).mpr ⟨id, hid, k, hk, howes⟩)]

/-- Settles O28: the launched command comes to `writtenRegisters` and is delivered to a silent host. -/
theorem registerWriteCompletes : Obligations.RegisterWriteCompletes := by
  intro d e i u s hi he hw hidle hacc hu hr
  have ho : e.opcode = opRegisterAccess :=
    regaccRow_opcode (d := d) (by simp only [List.mem_cons, List.not_mem_nil, or_false] at hi ⊢; tauto) he
  have hp : (isExecOp e.opcode && e.isReset08) = false := by rw [ho]; rfl
  have hexec : exec i s
      = .next { completed s.cmds.length .noError (writtenRegisters u e s) with ret := .status .noError } := by
    rw [exec_commandRow he, submitRow_idle hidle hacc,
      runHandler_regaccess (by rw [launched_cur_plain s hp]; exact ho), handleRegAccess_write ho hw hu hr,
      completeIO_silent (s := writtenRegisters u e s) _ _ rfl (by simp [writtenRegisters]) hidle.host, dispatchN_zero]
  have hcmds : (completed s.cmds.length .noError (writtenRegisters u e s)).cmds
      = s.cmds ++ [delivered .noError (Command.fresh e)] :=
    completed_append_cmds (t := writtenRegisters u e s)
      (c := { Command.fresh e with state := phComplete, inUse := true }) rfl
  have hlast : (writtenRegisters u e s).cmd s.cmds.length
      = { Command.fresh e with state := phComplete, inUse := true } := by
    simp [State.cmd, writtenRegisters]
  have hdid : s.Did (completed s.cmds.length .noError (writtenRegisters u e s)) _ :=
    Did.trans (b := writtenRegisters u e s) (did_logs _ (launched e s))
      (completed_did (by rw [hlast]; rfl))
  obtain ⟨hsame, -, hcmd⟩ := sameBut_of_append (s := s)
    (t := { completed s.cmds.length .noError (writtenRegisters u e s) with ret := .status .noError })
    rfl rfl rfl rfl rfl rfl rfl rfl rfl rfl hcmds
  exact ⟨_, _, hexec, ⟨rfl, rfl, hidle.queue, rfl⟩, hsame, hdid, hcmd, rfl, rfl, rfl, fun _ => rfl, rfl, rfl⟩

end Sys2Proof.Proofs
end

section
/-! What the work of the engine adds to the trace, and that `irqEn` follows the Device Control writes among it (R30,
R75): one relation, kept by every port access, poll, selection, reset, phase and register access. -/

namespace Sys2Proof.Machine

/-! ## `irqEn` along a list of events -/

/-- `irqEn` after an event: a Device Control write sets it, every other event leaves it (R30). -/
def irqStep (b : Bool) : Event → Bool
  | .w8 .altctl v => irqEnOf v
  | _ => b

/-- What the last Device Control write of a trace, newest event first, says of `irqEn`; 0 before any (R30). -/
def irqRecord (tr : List Event) : Bool :=
  match lastControl tr with
  | some v => irqEnOf v
  | none => false

theorem irqEnTracks_iff (s : State) : s.IrqEnTracks ↔ s.irqEn = irqRecord s.traceRev := Iff.rfl

theorem irqStep_w8 {r : Reg} (h : r ≠ .altctl) (b : Bool) (v : Byte) : irqStep b (.w8 r v) = b := by
  cases r <;> first | rfl | exact absurd rfl h

theorem irqRecord_cons (e : Event) (tr : List Event) : irqRecord (e :: tr) = irqStep (irqRecord tr) e := by
  cases e with
  | w8 r v => cases r <;> rfl
  | _ => rfl

/-- The record after the events `es` and their barriers. -/
theorem irqRecord_withBars (es : List Event) (tr : List Event) :
    irqRecord ((withBars es).reverse ++ tr) = es.foldl irqStep (irqRecord tr) := by
  induction es generalizing tr with
  | nil => rfl
  | cons e es ih =>
    have hsplit : withBars (e :: es) = withBars [e] ++ withBars es := withBars_append [e] es
    have hone : irqRecord ((withBars [e]).reverse ++ tr) = irqStep (irqRecord tr) e := by
      by_cases he : e.isAccess = true
      · simp [withBars, he, irqRecord_cons, irqStep]
      · simp [withBars, he, irqRecord_cons]
    rw [hsplit, List.reverse_append, List.append_assoc, ih, hone, List.foldl_cons]

/-- Such a piece of a trace keeps exactly one barrier after each access (R75). -/
theorem barredRev_withBars {es : List Event} (h : Event.bar ∉ es) (tr : List Event) :
    barredRev ((withBars es).reverse ++ tr) = barredRev tr := by
  induction es generalizing tr with
  | nil => rfl
  | cons e es ih =>
    rw [List.mem_cons, not_or] at h
    have hsplit : withBars (e :: es) = withBars [e] ++ withBars es := withBars_append [e] es
    have hone : barredRev ((withBars [e]).reverse ++ tr) = barredRev tr := by
      by_cases he : e.isAccess = true
      · simp [withBars, he, barredRev]
      · cases e with
        | bar => exact absurd rfl h.1
        | _ => simp_all [withBars, barredRev, Event.isAccess]
    rw [hsplit, List.reverse_append, List.append_assoc, ih h.2, hone]

/-- From `s` to `t` the trace gained events with a barrier after each access, and `irqEn` follows them. -/
def Traced (s t : State) : Prop :=
  ∃ es, Event.bar ∉ es ∧ s.Did t es ∧ t.irqEn = es.foldl irqStep s.irqEn

theorem Traced.refl (s : State) : Traced s s := ⟨[], by simp, (did_iff _ _ _).mpr rfl, rfl⟩

theorem Traced.trans {a b c : State} (h : Traced a b) (k : Traced b c) : Traced a c := by
  obtain ⟨e, he, hd, hi⟩ := h
  obtain ⟨f, hf, kd, ki⟩ := k
  exact ⟨e ++ f, by simp [he, hf], Did.trans hd kd, by rw [ki, hi, List.foldl_append]⟩

/-- A change of neither the trace nor `irqEn`. -/
theorem Traced.of_eq {s t : State} (ht : t.traceRev = s.traceRev) (hi : t.irqEn = s.irqEn) : Traced s t :=
  ⟨[], by simp, (did_iff _ _ _).mpr ht, hi⟩

/-- One event, with its barrier if it is an access. -/
theorem Traced.of_event {s t : State} (e : Event) (hb : Event.bar ≠ e)
    (ht : t.traceRev = (withBars [e]).reverse ++ s.traceRev) (hi : t.irqEn = irqStep s.irqEn e) : Traced s t :=
  ⟨[e], by simpa using hb, (did_iff _ _ _).mpr ht, hi⟩

/-- A tracked `irqEn` stays tracked (R30). -/
theorem Traced.irqEnTracks {s t : State} (h : Traced s t) (w : s.IrqEnTracks) : t.IrqEnTracks := by
  obtain ⟨es, -, hd, hi⟩ := h
  rw [irqEnTracks_iff] at w ⊢
  rw [hi, (did_iff _ _ _).mp hd, irqRecord_withBars, w]

/-- A barred trace stays barred (R75). -/
theorem Traced.barred {s t : State} (h : Traced s t) (w : barredRev s.traceRev = true) :
    barredRev t.traceRev = true := by
  obtain ⟨es, hb, hd, -⟩ := h
  rw [(did_iff _ _ _).mp hd, barredRev_withBars hb, w]

/-! ## Ports, hooks, timer, records -/

theorem wr8_traced {r : Reg} (h : r ≠ .altctl) (v : Byte) (s : State) : Traced s (wr8 r v s) :=
  .of_event (.w8 r v) (by simp) rfl (irqStep_w8 h _ _).symm

/-- A Device Control write of the nIEN that `irqEn` records already (R276). -/
theorem wr8_altctl_traced {v : Byte} {s : State} (h : irqEnOf v = s.irqEn) : Traced s (wr8 .altctl v s) :=
  .of_event (.w8 .altctl v) (by simp) rfl h.symm

theorem rd8_traced (r : Reg) (s : State) : Traced s (rd8 r s).2 := .of_event (.r8 r _) (by simp) rfl rfl
theorem rd16_traced (s : State) : Traced s (rd16 s).2 := .of_event (.r16 _) (by simp) rfl rfl
theorem wr16_traced (w : Half) (s : State) : Traced s (wr16 w s) := .of_event (.w16 w) (by simp) rfl rfl
theorem rd8d_traced (s : State) : Traced s (rd8d s).2 := .of_event (.r8d _) (by simp) rfl rfl
theorem wr8d_traced (b : Byte) (s : State) : Traced s (wr8d b s) := .of_event (.w8d b) (by simp) rfl rfl
theorem writeControl_traced (v : Byte) (s : State) : Traced s (writeControl v s) :=
  .of_event (.w8 .altctl v) (by simp) rfl rfl
theorem sleep_traced (d : Nat) (s : State) : Traced s (sleep d s) := .of_event (.sleep d) (by simp) rfl rfl
theorem timingHook_traced (u : UnitId) (s : State) : Traced s (timingHook u s) :=
  .of_event (.timing u) (by simp) rfl rfl
theorem startDma_traced (s : State) : Traced s (startDma s).2 := .of_event (.startDma _) (by simp) rfl rfl
theorem stopDma_traced (s : State) : Traced s (stopDma s) := .of_event (.stopDma _) (by simp) rfl rfl
theorem stopTimer_traced (s : State) : Traced s (stopTimer s) := .of_event .disarm (by simp) rfl rfl

theorem startTimer_traced (d : Nat) (s : State) : Traced s (startTimer d s) := by
  unfold startTimer
  split
  · exact (stopTimer_traced s).trans (.of_event (.arm d) (by simp) rfl rfl)
  · exact .of_event (.arm d) (by simp) rfl rfl

theorem memRead_traced (h : Word) (off n : Nat) (s : State) : Traced s (memRead h off n s).2 :=
  .of_event (.memRd h off n) (by simp) rfl rfl
theorem memWrite_traced (h : Word) (off : Nat) (bs : List Byte) (s : State) : Traced s (memWrite h off bs s) :=
  .of_event (.memWr h off bs.length bs) (by simp) rfl rfl
theorem loadDbuf_traced (bs : List Byte) (s : State) : Traced s (loadDbuf bs s) := .of_eq rfl rfl
theorem modCur_traced (f : Command → Command) (s : State) : Traced s (s.modCur f) := .of_eq (by simp) (by simp)
theorem setPhase_traced (ph : Byte) (s : State) : Traced s (setPhase ph s) := modCur_traced _ s
theorem selected_traced (x : Option UnitId) (s : State) : Traced s { s with selected := x } := .of_eq rfl rfl

/-! ## Lists of accesses -/

theorem writeWords_traced (ws : List Half) (s : State) : Traced s (writeWords ws s) := by
  induction ws generalizing s with
  | nil => exact .refl s
  | cons w ws ih => exact (wr16_traced w s).trans (ih _)

theorem readWords_traced (n : Nat) (s : State) : Traced s (readWords n s).2 := by
  induction n generalizing s with
  | zero => exact .refl s
  | succ n ih => exact (rd16_traced s).trans (ih _)

theorem readData_traced (n : Nat) (s : State) : Traced s (readData n s).2 := by
  unfold readData
  split
  · exact (readWords_traced _ s).trans (rd8d_traced _)
  · exact readWords_traced _ s

theorem writeData_traced (bs : List Byte) (s : State) : Traced s (writeData bs s) := by
  induction bs, s using writeData.induct with
  | case1 s => exact .refl s
  | case2 => exact wr8d_traced _ _
  | case3 _ _ _ _ ih => exact (wr16_traced _ _).trans ih

theorem pad_traced (m : Nat) (s : State) : Traced s (pad m s) := by
  unfold pad
  split
  · exact (writeWords_traced _ s).trans (wr8d_traced _ _)
  · exact writeWords_traced _ s

theorem twoByteReg_ne_altctl (t : TwoByte) : t.reg ≠ .altctl := by cases t <;> simp [TwoByte.reg]

theorem writeTwoByte_traced (c : Command) (t : TwoByte) (s : State) : Traced s (writeTwoByte c t s) := by
  have h := twoByteReg_ne_altctl t
  unfold writeTwoByte
  split
  · exact (wr8_traced h _ s).trans (wr8_traced h _ _)
  · exact wr8_traced h _ s

theorem writeTwoBytes_traced (c : Command) (ts : List TwoByte) (s : State) : Traced s (writeTwoBytes c ts s) := by
  induction ts generalizing s with
  | nil => exact .refl s
  | cons t ts ih => exact (writeTwoByte_traced c t s).trans (ih _)

theorem readTwoBytes_traced (put : TwoByte → Byte → Command → Command) (ts : List TwoByte) (s : State) :
    Traced s (readTwoBytes put ts s) := by
  induction ts generalizing s with
  | nil => exact .refl s
  | cons t ts ih => exact ((rd8_traced _ s).trans (modCur_traced _ _)).trans (ih _)

theorem whenMasked_traced (c : Command) (r : Reg) {f : State → State} (s : State) (h : ∀ s, Traced s (f s)) :
    Traced s (whenMasked c r f s) := by
  unfold whenMasked
  split
  · exact h s
  · exact .refl s

theorem readInto_traced (r : Reg) (put : Byte → Command → Command) (s : State) : Traced s (readInto r put s) :=
  (rd8_traced r s).trans (modCur_traced _ _)

theorem readDataInto_traced (s : State) : Traced s (readDataInto s) := (rd16_traced s).trans (modCur_traced _ _)

/-- nIEN as `irqEn` records it, written back with or without HOB, leaves `irqEn` the record (R276). -/
theorem irqEnOf_nIenNow (s : State) : irqEnOf (nIenNow s) = s.irqEn ∧ irqEnOf (ctlHob ||| nIenNow s) = s.irqEn := by
  unfold nIenNow
  cases s.irqEn <;> decide

theorem readHighBytes_traced (c : Command) (s : State) : Traced s (readHighBytes c (nIenNow s) s) := by
  obtain ⟨hn, hhob⟩ := irqEnOf_nIenNow s
  refine ((wr8_altctl_traced hhob).trans (readTwoBytes_traced _ _ _)).trans (wr8_altctl_traced ?_)
  rw [(readTwoBytes_kept _ _ _).irqEn, hn]
  rfl

/-- `registerAccess(true)` (R276). -/
theorem registerWrite_traced (s : State) : Traced s (registerWrite s) := by
  unfold registerWrite
  refine ((((writeTwoBytes_traced _ _ s).trans (whenMasked_traced _ _ _ ?_)).trans
    (whenMasked_traced _ _ _ (writeControl_traced _))).trans (whenMasked_traced _ _ _ (wr16_traced _))).trans
    (whenMasked_traced _ _ _ (wr8_traced (by simp) _))
  exact fun s => (wr8_traced (by simp) _ s).trans (selected_traced _ _)

/-- `registerAccess(false)` (R276). -/
theorem registerRead_traced (s : State) : Traced s (registerRead s) := by
  have base := ((((readTwoBytes_traced TwoByte.setLo (maskedTwoBytes s.cur) s).trans
    (whenMasked_traced s.cur .devhead _
      (readInto_traced .devhead (fun v c => { c with tf := { c.tf with dh := v } })))).trans
    (whenMasked_traced s.cur .altctl _
      (readInto_traced .altctl (fun v c => { c with tf := { c.tf with ctl := v } })))).trans
    (whenMasked_traced s.cur .data _ readDataInto_traced)).trans
    (whenMasked_traced s.cur .statcmd _
      (readInto_traced .statcmd (fun v c => { c with tf := { c.tf with cmd := v } })))
  unfold registerRead
  dsimp only
  split
  · exact base.trans (readHighBytes_traced _ _)
  · exact base

theorem captureResult_traced (s : State) : Traced s (captureResult s) := by
  unfold captureResult
  split
  · exact registerRead_traced s
  · exact .refl s

/-- `statusPhase` (P270). -/
theorem statusPhase_traced (e : Result) (s : State) : Traced s (statusPhase e s).2 :=
  ((((rd8_traced .statcmd s).trans (rd8_traced .errfeat _)).trans (modCur_traced (fun c =>
    { c with endStatus := (rd8 .statcmd s).1, endError := (rd8 .errfeat (rd8 .statcmd s).2).1 }) _)).trans
    (captureResult_traced _)).trans (setPhase_traced _ _)

/-! ## Polls, selection, reset -/

theorem pollStatus_traced (ok : Byte → Bool) (abort : Byte → State → Option Result) (n : Nat) (s : State) :
    Traced s (pollStatus ok abort n s).state := by
  induction n generalizing s with
  | zero =>
    unfold pollStatus
    dsimp only
    split
    · exact rd8_traced _ s
    · split <;> exact rd8_traced _ s
  | succ n ih =>
    unfold pollStatus
    dsimp only
    split
    · exact rd8_traced _ s
    · split
      · exact rd8_traced _ s
      · exact ((rd8_traced _ s).trans (sleep_traced _ _)).trans (ih _)

theorem preSelect_traced (u : UnitId) (s : State) : Traced s (preSelect u s).2 := by
  unfold preSelect
  split
  · exact .refl s
  · dsimp only
    split
    · exact ((pollStatus_traced _ _ _ s).trans (wr8_traced (by simp) _ _)).trans (selected_traced _ _)
    · exact (pollStatus_traced _ _ _ s).trans (selected_traced _ _)

theorem postSelect_traced (u : UnitId) (s : State) : Traced s (postSelect u s).2 := by
  unfold postSelect
  dsimp only
  split
  · exact ((pollStatus_traced _ _ _ s).trans (writeControl_traced _ _)).trans (selected_traced _ _)
  · exact (pollStatus_traced _ _ _ s).trans (selected_traced _ _)

/-- `selectDevice` (P201). -/
theorem selectDevice_traced (unit : Byte) (s : State) : Traced s (selectDevice unit s).2 := by
  unfold selectDevice
  split
  · exact selected_traced _ _
  · next u _ =>
    have h := (timingHook_traced u s).trans (preSelect_traced u _)
    dsimp only
    split
    · exact h.trans (postSelect_traced _ _)
    · exact h

/-- The SRST pulse writes Device Control twice, and `irqEn` is set with the second (R212). -/
theorem resetPulse_traced (a : Bool) (s : State) : Traced s (resetPulse a s) := by
  unfold resetPulse
  split
  · exact wr8_traced (by simp) _ s
  · exact ⟨[.w8 .altctl ctlSrst, .sleep s.params.tSrstHold, .w8 .altctl ctlClear], by simp,
      (did_iff _ _ _).mpr rfl, rfl⟩

/-- `softResetBus` (P210). -/
theorem softResetBus_traced (a : Bool) (s : State) : Traced s (softResetBus a s).2 :=
  ((resetPulse_traced a s).trans (sleep_traced _ _)).trans (pollStatus_traced _ _ _ _)

/-! ## The PIO engine -/

theorem readSlice_traced (n : Nat) (s : State) : Traced s (readSlice n s) :=
  ((readData_traced n s).trans (loadDbuf_traced _ _)).trans (memWrite_traced _ _ _ _)

theorem writeSlice_traced (n : Nat) (s : State) : Traced s (writeSlice n s) :=
  ((memRead_traced _ _ n s).trans (loadDbuf_traced _ _)).trans (writeData_traced _ _)

theorem moveSlice_traced (n : Nat) (s : State) : Traced s (moveSlice n s) := by
  unfold moveSlice
  refine Traced.trans ?_ (modCur_traced _ _)
  split
  · exact readSlice_traced n s
  · exact writeSlice_traced n s

theorem moveSlices_traced (fuel n : Nat) (s : State) : Traced s (moveSlices fuel n s) := by
  induction fuel generalizing n s with
  | zero => exact .refl s
  | succ fuel ih =>
    unfold moveSlices
    split
    · exact .refl s
    · exact (moveSlice_traced _ s).trans (ih _ _)

theorem passCount_traced (s : State) : Traced s (passCount s).2 := by
  unfold passCount
  dsimp only
  split
  · exact (rd8_traced _ s).trans (rd8_traced _ _)
  · exact .refl s

theorem settleOverrun_traced (m : Nat) (s : State) : Traced s (settleOverrun m s) := by
  unfold settleOverrun
  split
  · exact .refl s
  · split
    · exact readData_traced m s
    · exact pad_traced m s

theorem endPass_traced (s : State) : Traced s (endPass s) := by
  unfold endPass
  split
  · exact setPhase_traced _ s
  · exact .refl s

theorem passData_traced (s : State) : Traced s (passData s) :=
  (((passCount_traced s).trans (moveSlices_traced _ _ _)).trans (settleOverrun_traced _ _)).trans (endPass_traced _)

/-- `pioPass` (P300). -/
theorem pioPass_traced (s : State) : Traced s (pioPass s).2 := by
  unfold pioPass
  split
  · exact setPhase_traced _ s
  · dsimp only
    split
    · exact (pollStatus_traced _ _ _ s).trans (passData_traced _)
    · exact pollStatus_traced _ _ _ s

/-! ## The phases and the two modes -/

theorem issueTaskfile_traced (s : State) : Traced s (issueTaskfile s) :=
  ((wr8_traced (by simp) _ s).trans (writeTwoBytes_traced _ _ _)).trans (wr8_traced (by simp) _ _)

/-- A DMA start that the command may not ask for (R252, R264). -/
theorem startDmaIf_traced (b : Bool) (s : State) :
    Traced s (if b then startDma s else (Result.noError, s)).2 := by
  split
  · exact startDma_traced s
  · exact .refl s

theorem startedPhase_traced (s : State) : Traced s (startedPhase s).2 := by
  unfold startedPhase
  dsimp only
  have h := startDmaIf_traced (s.cur.flags.dma && !hasPacket s.cur) s
  generalize (if s.cur.flags.dma && !hasPacket s.cur then startDma s else (.noError, s)) = r at h
  split
  · exact (h.trans (issueTaskfile_traced _)).trans (setPhase_traced _ _)
  · exact h

theorem sendPacket_traced (s : State) : Traced s (sendPacket s).2 := by
  unfold sendPacket
  dsimp only
  have h := (writeWords_traced (packetWords s.cur) s).trans (startDmaIf_traced s.cur.flags.dma _)
  generalize (if s.cur.flags.dma then startDma (writeWords (packetWords s.cur) s)
    else (.noError, writeWords (packetWords s.cur) s)) = r at h
  split
  · exact h.trans (setPhase_traced _ _)
  · exact h

theorem packetPhase_traced (s : State) : Traced s (packetPhase s).2 := by
  unfold packetPhase
  dsimp only
  split
  · exact (pollStatus_traced _ _ _ s).trans (sendPacket_traced _)
  · exact pollStatus_traced _ _ _ s

theorem packetStep_traced (s : State) : Traced s (packetStep s).2 := by
  unfold packetStep
  dsimp only
  split
  · exact packetPhase_traced s
  · exact (packetPhase_traced s).trans (statusPhase_traced _ _)

theorem dataStep_traced (s : State) : Traced s (dataStep s).2 := by
  have h := pioPass_traced s
  unfold dataStep
  dsimp only
  split
  · exact h.trans (statusPhase_traced _ _)
  split
  · exact h
  split
  · exact h
  · exact h.trans (statusPhase_traced _ _)

theorem startedStep_traced (s : State) : Traced s (startedStep s).2 := by
  have h := startedPhase_traced s
  unfold startedStep
  dsimp only
  split
  · exact h.trans (statusPhase_traced _ _)
  split
  · exact h.trans (packetStep_traced _)
  split
  · exact h.trans (dataStep_traced _)
  · exact h

/-- `phaseStep` (P250). -/
theorem phaseStep_traced (s : State) : Traced s (phaseStep s).2 := by
  unfold phaseStep
  split
  · exact startedStep_traced s
  split
  · exact packetStep_traced s
  split
  · exact dataStep_traced s
  split
  · exact statusPhase_traced _ s
  · exact setPhase_traced _ s

theorem syncWaitN_traced (n : Nat) (s : State) : Traced s (syncWaitN n s).2 := by
  induction n generalizing s with
  | zero => exact .refl s
  | succ n ih =>
    unfold syncWaitN
    split
    · exact .refl s
    · have h := (sleep_traced s.params.tPoll s).trans (rd8_traced .altctl _)
      dsimp only
      split
      · exact h.trans (ih _)
      · exact h

theorem syncLoop_traced (n : Nat) (s : State) : Traced s (syncLoop n s).2 := by
  induction n generalizing s with
  | zero =>
    unfold syncLoop
    dsimp only
    split
    · exact phaseStep_traced s
    · exact (phaseStep_traced s).trans (statusPhase_traced _ _)
  | succ n ih =>
    unfold syncLoop syncWait
    dsimp only
    have h := (phaseStep_traced s).trans (syncWaitN_traced (deadlineSleeps (phaseStep s).2) _)
    split
    · exact phaseStep_traced s
    split
    · exact h.trans (ih _)
    · exact h.trans (statusPhase_traced _ _)

end Sys2Proof.Machine
end

section
/-! Everything an instruction and a step can answer a next state on, said once; an invariant of every step from its
parts. -/

namespace Sys2Proof.Machine

/-- How `exec` can answer a next state. -/
inductive Answers : Instr → State → State → Prop
  /-- a descriptor row submits its command (R160; entry 8) -/
  | row {i : Instr} {d : Desc} {s : State} (hi : i.desc = some d) (hb : hostBreach s = none)
      (ha : s.accepts d = true) (ht : (submitNew dispatchNext d s).breach = none) :
      Answers i s { submitNew dispatchNext d s with ret := .status .noError }
  /-- SUBMIT of a null command or to a null target (R160) -/
  | submitNull (cmd : Option Word) (target : Bool) (s : State) :
      Answers (.submit cmd target) s { s with ret := .status .invalidArgument }
  /-- SUBMIT of a stored record (R160, R150) -/
  | submitStored {r : Word} {s : State} (hb : hostBreach s = none) (hl : r.toNat < s.cmds.length)
      (hu : (s.cmd r.toNat).inUse = false) (hn : initialised (s.cmd r.toNat) = true)
      (ha : s.accepts (s.cmd r.toNat).toDesc = true) (ht : (submitRef dispatchNext r.toNat s).breach = none) :
      Answers (.submit (some r) true) s { submitRef dispatchNext r.toNat s with ret := .status .noError }
  /-- an IRQ that advances the current command (R360) -/
  | irqRuns {s : State} (hr : irqRuns s = true) (hb : hostBreach s = none) (hp : unboundedPoll s = false)
      (ht : (irqEntry s).breach = none) : Answers .irq s { irqEntry s with ret := .nothing }
  /-- an IRQ that is dropped or only acknowledged (R360) -/
  | irqIdle {s : State} (hr : irqRuns s = false) : Answers .irq s { irqEntry s with ret := .nothing }
  /-- an EXPIRE that is enabled (R336) -/
  | expire {s : State} (he : expireEnabled s = true) (hb : hostBreach s = none) (ht : (expireEntry s).breach = none) :
      Answers .expire s { expireEntry s with ret := .nothing }
  /-- a SCAN that is admitted (R220) -/
  | scan {s : State} (hs : scanAdmitted s = true) :
      Answers .scan s { (scanForDrives s).2 with ret := .count (scanForDrives s).1 }
  /-- CONFIG of a unit of the bus (R292) -/
  | config {unit : Byte} {u : UnitId} (m : PMode) (s : State) (hu : UnitId.ofByte unit = some u) :
      Answers (.config unit m) s { setPMode u m s with ret := .nothing }

theorem submitRow_answers {i : Instr} {d : Desc} {s t : State} (hi : i.desc = some d)
    (h : submitRow d s = .next t) : Answers i s t := by
  obtain ⟨hb, ho, ht⟩ := guarded_eq_next.mp h
  split at ho
  · next ha => cases ho; exact .row hi hb ha ht
  · cases ho

theorem execSubmit_answers {cmd : Option Word} {target : Bool} {s t : State} (h : execSubmit cmd target s = .next t) :
    Answers (.submit cmd target) s t := by
  unfold execSubmit at h
  split at h
  · cases h; exact .submitNull _ _ s
  · next r =>
    cases target with
    | false => cases h; exact .submitNull _ _ s
    | true =>
      obtain ⟨hb, ho, ht⟩ := guarded_eq_next.mp h
      split at ho
      · cases ho
      next hl =>
      split at ho
      · cases ho
      next hu =>
      split at ho
      · next ha =>
        cases ho
        rw [Bool.and_eq_true] at ha
        exact .submitStored hb (by omega) (by simpa using hu) ha.1 ha.2 ht
      · cases ho

theorem execIrq_answers {s t : State} (h : execIrq s = .next t) : Answers .irq s t := by
  unfold execIrq at h
  split at h
  · next hr =>
    obtain ⟨hb, ho, ht⟩ := guarded_eq_next.mp h
    split at ho
    · cases ho
    · next hp => cases ho; exact .irqRuns hr hb (by simpa using hp) ht
  · next hr => cases h; exact .irqIdle (by simpa using hr)

theorem execExpire_answers {s t : State} (h : execExpire s = .next t) : Answers .expire s t := by
  unfold execExpire at h
  split at h
  · next he =>
    obtain ⟨hb, ho, ht⟩ := guarded_eq_next.mp h
    cases ho
    exact .expire he hb ht
  · cases h

theorem execScan_answers {s t : State} (h : execScan s = .next t) : Answers .scan s t := by
  unfold execScan at h
  split at h
  · next hs => cases h; exact .scan hs
  · cases h

theorem execConfig_answers {unit : Byte} {m : PMode} {s t : State} (h : execConfig unit m s = .next t) :
    Answers (.config unit m) s t := by
  unfold execConfig at h
  split at h
  · cases h
  · next u hu => cases h; exact .config m s hu

/-- Every next state of an instruction is one of `Answers`. -/
theorem exec_answers {i : Instr} {s t : State} (h : exec i s = .next t) : Answers i s t := by
  cases hd : i.desc with
  | some d => exact submitRow_answers hd (by rw [← exec_commandRow hd]; exact h)
  | none =>
    cases i with
    | submit cmd target => exact execSubmit_answers h
    | irq => exact execIrq_answers h
    | expire => exact execExpire_answers h
    | scan => exact execScan_answers h
    | config unit m => exact execConfig_answers h
    | _ => cases hd

/-! ## A step -/

/-- A step with a next state: nothing was to be admitted, or the acts outside the gate and then the instruction ran. -/
theorem step_next {s t : State} (h : step s = .next t) :
    t = s ∨ ∃ a rest i u, outsideActs a.acts s = .ok u ∧ exec i (u.admitting a rest) = .next t := by
  unfold step at h
  split at h
  · cases h; exact .inl rfl
  · next a rest _ =>
    split at h
    · cases h
    · cases h
    · next i _ =>
      split at h
      · split at h
        · cases h
        · next u hu => exact .inr ⟨a, rest, i, u, hu, h⟩
      · cases h

/-- What each act outside the gate keeps, the acts before an action keep. -/
theorem outsideActs_keep {P : State → Prop} (hact : ∀ a s t, outsideAct a s = .ok t → P s → P t)
    {as : List OutsideAct} {s t : State} (h : outsideActs as s = .ok t) (hs : P s) : P t := by
  induction as generalizing s with
  | nil => cases h; exact hs
  | cons a as ih =>
    unfold outsideActs at h
    split at h
    · cases h
    · next u hu => exact ih h (hact a s u hu hs)

/-- An invariant of every step: kept outside the gate, by the admission and by every instruction. -/
theorem step_keeps {P : State → Prop} (hact : ∀ a s t, outsideAct a s = .ok t → P s → P t)
    (hgate : ∀ a rest s, P s → P (s.admitting a rest)) (hexec : ∀ i s t, Answers i s t → P s → P t)
    {s t : State} (hs : P s) (h : step s = .next t) : P t := by
  obtain rfl | ⟨a, rest, i, u, hu, he⟩ := step_next h
  · exact hs
  · exact hexec i _ t (exec_answers he) (hgate a rest u (outsideActs_keep hact hu hs))

/-- What an act outside the gate can do (entry 22). -/
theorem outsideAct_ok {a : OutsideAct} {s t : State} (h : outsideAct a s = .ok t) :
    t = s.resetBlock ∨ (∃ b, t = { s with bufs := b })
      ∨ (∃ k bs, t = { s with mem := Memory.setBytes s.mem k bs })
      ∨ (∃ d, t = { s with cmds := s.cmds ++ [Command.fresh d] })
      ∨ ∃ id d, id < s.cmds.length ∧ (s.cmd id).inUse = false ∧ t = s.refill id d := by
  cases a with
  | reset => cases h; exact .inl rfl
  | provide b n => cases h; exact .inr (.inl ⟨_, rfl⟩)
  | fill b off bs =>
    simp only [outsideAct, hostFill] at h
    split at h
    · cases h
    split at h
    · cases h
    · cases h; exact .inr (.inr (.inl ⟨_, _, rfl⟩))
  | prepare id d =>
    simp only [outsideAct, hostPrepare] at h
    split at h
    · cases h
    split at h
    · cases h; exact .inr (.inr (.inr (.inl ⟨d, rfl⟩)))
    split at h
    · cases h
    · next hu => cases h; exact .inr (.inr (.inr (.inr ⟨id, d, by omega, by simpa using hu, rfl⟩)))

end Sys2Proof.Machine
end

section
/-! What every gate action keeps, host code and nested dispatches included: the form of the stores, a trace with its
barriers that `irqEn` follows, and, but for SCAN and CONFIG, the device table. From it O54 and O57. -/

namespace Sys2Proof.Machine

/-- From `s` to `t` the stores kept their form, and the trace its own with `irqEn`. -/
structure Recorded (s t : State) : Prop where
  stores : s.StoresWf → t.StoresWf
  traced : Traced s t

/-- From `s` to `t` commands were run: as `Recorded`, and the device table is as before (R421). -/
structure Acted (s t : State) : Prop extends Recorded s t where
  devInfo0 : t.devInfo0 = s.devInfo0
  devInfo1 : t.devInfo1 = s.devInfo1

theorem Recorded.trans {a b c : State} (h : Recorded a b) (k : Recorded b c) : Recorded a c :=
  ⟨fun w => k.stores (h.stores w), h.traced.trans k.traced⟩

theorem Acted.refl (s : State) : Acted s s := ⟨⟨id, .refl s⟩, rfl, rfl⟩

theorem Acted.trans {a b c : State} (h : Acted a b) (k : Acted b c) : Acted a c :=
  ⟨h.toRecorded.trans k.toRecorded, k.devInfo0.trans h.devInfo0, k.devInfo1.trans h.devInfo1⟩

/-- The work for the current command. -/
theorem Handled.acted {s t : State} (h : Handled s t) (k : Traced s t) : Acted s t :=
  ⟨⟨h.stores, k⟩, h.devInfo0, h.devInfo1⟩

/-- The bookkeeping of the arbiter: none of the fields in question changes. -/
theorem Acted.of_eq {s t : State} (ht : t.traceRev = s.traceRev) (hi : t.irqEn = s.irqEn) (hm : t.mem = s.mem)
    (hd : t.dbuf = s.dbuf) (h0 : t.devInfo0 = s.devInfo0) (h1 : t.devInfo1 = s.devInfo1) : Acted s t :=
  ⟨⟨fun w => by unfold State.StoresWf at *; rwa [hm, hd], .of_eq ht hi⟩, h0, h1⟩

/-- An event that is no access of a register. -/
theorem emit_acted {e : Event} (s : State) (ha : e.isAccess = false) (hb : Event.bar ≠ e) : Acted s (s.emit e) :=
  ⟨⟨id, .of_event e hb (by simp [withBars, ha])
    (by cases e <;> first | rfl | simp [Event.isAccess] at ha)⟩, rfl, rfl⟩

theorem modCmd_acted (id : Nat) (f : Command → Command) (s : State) : Acted s (s.modCmd id f) :=
  .of_eq rfl rfl rfl rfl rfl rfl

theorem setPhase_acted (ph : Byte) (s : State) : Acted s (setPhase ph s) :=
  (setPhase_handled ph s).acted (setPhase_traced ph s)

/-! ## Host calls and deliveries -/

section Nested

variable {dn : State → State}

theorem submitRef_acted (hd : ∀ s, Acted s (dn s)) (id : Nat) (s : State) : Acted s (submitRef dn id s) :=
  (Acted.of_eq (by simp) (by simp) (by simp) (by simp) (by simp) (by simp)).trans (hd _)

theorem submitNew_acted (hd : ∀ s, Acted s (dn s)) (d : Desc) (s : State) : Acted s (submitNew dn d s) :=
  (Acted.of_eq rfl rfl rfl rfl rfl rfl : Acted s { s with cmds := s.cmds ++ [Command.fresh d] }).trans
    (submitRef_acted hd _ _)

theorem submitOne_acted (hd : ∀ s, Acted s (dn s)) (h : HostSubmit) (s : State) : Acted s (submitOne dn h s) := by
  unfold submitOne
  split
  · exact .of_eq rfl rfl rfl rfl rfl rfl
  split
  · exact (modCmd_acted _ _ s).trans (submitRef_acted hd _ _)
  · exact submitNew_acted hd _ s

theorem submitAll_acted (hd : ∀ s, Acted s (dn s)) (hs : List HostSubmit) (s : State) :
    Acted s (submitAll dn hs s) := by
  induction hs generalizing s with
  | nil => exact .refl s
  | cons h hs ih => exact (submitOne_acted hd h s).trans (ih _)

theorem hostCall_acted (hd : ∀ s, Acted s (dn s)) (s : State) : Acted s (hostCall dn s) := by
  unfold hostCall
  split
  · exact .refl s
  · next hs rest _ =>
    exact (Acted.of_eq rfl rfl rfl rfl rfl rfl : Acted s { s with host := rest }).trans (submitAll_acted hd _ _)

theorem callback_acted (hd : ∀ s, Acted s (dn s)) (id : Nat) (s : State) : Acted s (callback dn id s) :=
  (emit_acted s rfl (by simp)).trans (hostCall_acted hd _)

theorem notifyIf_acted (hd : ∀ s, Acted s (dn s)) (a : Bool) (h : UnitId) (ev : EvKind) (u : Option UnitId)
    (s : State) : Acted s (notifyIf a dn h ev u s) := by
  unfold notifyIf
  split
  · exact (emit_acted s rfl (by simp)).trans (hostCall_acted hd _)
  · exact .refl s

theorem finish_acted (id : Nat) (res : Result) (s : State) : Acted s (finish id res s) := by
  have h1 : Acted s (stopDma (stopTimer (s.modCmd id (fun c => { c with state := phDone })))) :=
    ((modCmd_acted _ _ s).trans ((stopTimer_handled _).acted (stopTimer_traced _))).trans
      ((stopDma_handled _).acted (stopDma_traced _))
  exact h1.trans (.of_eq rfl rfl rfl rfl rfl rfl)

theorem completeIO_acted (hd : ∀ s, Acted s (dn s)) (res : Result) (s : State) : Acted s (completeIO dn res s) := by
  unfold completeIO
  split
  · exact .refl s
  · exact ((finish_acted _ res s).trans (callback_acted hd _ _)).trans (hd _)

theorem notifyEvent_acted (hd : ∀ s, Acted s (dn s)) (ev : EvKind) (u : Option UnitId) (s : State) :
    Acted s (notifyEvent dn ev u s) := by
  have henter : Acted s (enterCallout s) := .of_eq rfl rfl rfl rfl rfl rfl
  have hleave : ∀ s, Acted s (leaveCallout s) := fun s =>
    .of_eq (by simp) (by simp) (by simp) (by simp) (by simp) (by simp)
  exact ((henter.trans (notifyIf_acted hd _ _ _ _ _)).trans (notifyIf_acted hd _ _ _ _ _)).trans (hleave _)

theorem cancelAll_acted (hd : ∀ s, Acted s (dn s)) (vs : List Nat) (s : State) : Acted s (cancelAll dn vs s) := by
  induction vs generalizing s with
  | nil => exact .refl s
  | cons v vs ih => exact ((modCmd_acted v _ s).trans (callback_acted hd v _)).trans (ih _)

/-! ## The handlers -/

theorem asyncIO_acted (hd : ∀ s, Acted s (dn s)) (s : State) : Acted s (asyncIO dn s) := by
  have h := (phaseStep_handled s).acted (phaseStep_traced s)
  unfold asyncIO
  dsimp only
  split
  · exact h.trans (completeIO_acted hd _ _)
  · exact h

theorem startTimer_acted (d : Nat) (s : State) : Acted s (startTimer d s) :=
  (startTimer_handled d s).acted (startTimer_traced d s)

theorem selectionFailed_acted (hd : ∀ s, Acted s (dn s)) (s : State) : Acted s (selectionFailed dn s) := by
  unfold selectionFailed
  split
  · exact (setPhase_acted _ s).trans (completeIO_acted hd _ _)
  · exact (setPhase_acted _ s).trans (startTimer_acted _ _)

theorem synchronousIO_acted (hd : ∀ s, Acted s (dn s)) (s : State) : Acted s (synchronousIO dn s) :=
  (((writeControl_handled _ s).acted (writeControl_traced _ s)).trans
    ((syncLoop_handled _ _).acted (syncLoop_traced _ _))).trans (completeIO_acted hd _ _)

theorem selectDevice_acted (unit : Byte) (s : State) : Acted s (selectDevice unit s).2 :=
  (selectDevice_handled unit s).acted (selectDevice_traced unit s)

theorem handleExecIO_acted (hd : ∀ s, Acted s (dn s)) (s : State) : Acted s (handleExecIO dn s) := by
  have h := selectDevice_acted s.cur.unit s
  unfold handleExecIO
  dsimp only
  split
  · exact h.trans (selectionFailed_acted hd _)
  split
  · exact (h.trans (startTimer_acted _ _)).trans (synchronousIO_acted hd _)
  · exact (h.trans (startTimer_acted _ _)).trans (asyncIO_acted hd _)

theorem handleRegAccess_acted (hd : ∀ s, Acted s (dn s)) (s : State) : Acted s (handleRegAccess dn s) := by
  have h := selectDevice_acted s.cur.unit s
  unfold handleRegAccess
  dsimp only
  refine Acted.trans (Acted.trans ?_ (setPhase_acted _ _)) (completeIO_acted hd _ _)
  split
  · split
    · exact h.trans ((registerWrite_handled _).acted (registerWrite_traced _))
    · exact h.trans ((registerRead_handled _).acted (registerRead_traced _))
  · exact h

theorem softResetBus_acted (a : Bool) (s : State) : Acted s (softResetBus a s).2 :=
  (softResetBus_handled a s).acted (softResetBus_traced a s)

theorem atapiReset_acted (u : UnitId) (s : State) : Acted s (atapiReset u s).2 := by
  unfold atapiReset
  split
  · exact (((selected_handled none s).trans (wr8_handled _ _ _)).acted
      ((selected_traced none s).trans (wr8_traced (by simp) _ _))).trans (softResetBus_acted _ _)
  · exact .refl s

theorem finishReset_acted (hd : ∀ s, Acted s (dn s)) (ev : EvKind) (u : Option UnitId) (r : Result × State) :
    Acted r.2 (finishReset dn ev u r) :=
  ((notifyEvent_acted hd ev u r.2).trans (setPhase_acted _ _)).trans (completeIO_acted hd _ _)

theorem handleBusReset_acted (hd : ∀ s, Acted s (dn s)) (s : State) : Acted s (handleBusReset dn s) := by
  unfold handleBusReset
  split
  · split
    · exact (setPhase_acted _ _).trans (completeIO_acted hd _ _)
    · exact (atapiReset_acted _ s).trans (finishReset_acted hd _ _ _)
  · exact (softResetBus_acted _ s).trans (finishReset_acted hd _ _ _)

theorem handleQueueFlush_acted (hd : ∀ s, Acted s (dn s)) (s : State) : Acted s (handleQueueFlush dn s) := by
  have h : Acted s { s with queue := [] } := .of_eq rfl rfl rfl rfl rfl rfl
  exact ((h.trans (cancelAll_acted hd s.queue _)).trans (setPhase_acted _ _)).trans (completeIO_acted hd _ _)

theorem runHandler_acted (hd : ∀ s, Acted s (dn s)) (s : State) : Acted s (runHandler dn s) := by
  unfold runHandler
  split
  · exact handleExecIO_acted hd s
  split
  · exact handleRegAccess_acted hd s
  split
  · exact handleBusReset_acted hd s
  split
  · exact handleQueueFlush_acted hd s
  · exact (setPhase_acted _ s).trans (completeIO_acted hd _ _)

end Nested

/-! ## Dispatch, and the actions -/

theorem dispatchN_acted (n : Nat) (s : State) : Acted s (dispatchN n s) := by
  induction n generalizing s with
  | zero => exact .refl s
  | succ n ih =>
    show Acted s (dispatchStep (dispatchN n) s)
    unfold dispatchStep
    split
    · dsimp only
      have h : Acted s (dequeueFirst { s with bus := .busy }).2 :=
        .of_eq (by simp) (by simp) (by simp) (by simp) (by simp) (by simp)
      split
      · exact h.trans (.of_eq rfl rfl rfl rfl rfl rfl)
      · next id _ =>
        have hcur : Acted (dequeueFirst { s with bus := .busy }).2
            (becomeCurrent id (dequeueFirst { s with bus := .busy }).2) := .of_eq rfl rfl rfl rfl rfl rfl
        exact (h.trans hcur).trans (runHandler_acted ih _)
    · exact .refl s

theorem dispatchNext_acted (s : State) : Acted s (dispatchNext s) := dispatchN_acted _ s

theorem irqEntry_acted (s : State) : Acted s (irqEntry s) := by
  have h := (rd8_handled .statcmd s).acted (rd8_traced .statcmd s)
  unfold irqEntry
  split
  · dsimp only
    split
    · exact h
    · split
      · exact h.trans (asyncIO_acted dispatchNext_acted _)
      · exact h
  · exact .refl s

theorem handleTimeout_acted (s : State) : Acted s (handleTimeout dispatchNext s) := by
  unfold handleTimeout
  split
  · exact dispatchNext_acted s
  · next id _ =>
    have hstop : Acted s (if (s.cmd id).flags.dma then stopDma s else s) := by
      split
      · exact (stopDma_handled s).acted (stopDma_traced s)
      · exact .refl s
    exact ((hstop.trans (modCmd_acted _ _ _)).trans ((statusPhase_handled _ _).acted (statusPhase_traced _ _))).trans
      (completeIO_acted dispatchNext_acted _ _)

theorem expireEntry_acted (s : State) : Acted s (expireEntry s) :=
  (Acted.of_eq rfl rfl rfl rfl rfl rfl : Acted s { s with timer := { s.timer with armed := false } }).trans
    (handleTimeout_acted _)

/-! ## SCAN and CONFIG -/

/-- From `s` to `t` a SCAN or CONFIG was at work: beside what `Recorded` says of, only the device table, the selection
cache, the clock and the draws may differ (R220, R292). -/
structure Surveyed (s t : State) : Prop extends Recorded s t where
  bus     : t.bus = s.bus
  qstate  : t.qstate = s.qstate
  igate   : t.igate = s.igate
  current : t.current = s.current
  queue   : t.queue = s.queue
  snap    : t.snap = s.snap
  timer   : t.timer = s.timer
  params  : t.params = s.params
  bufs    : t.bufs = s.bufs
  host    : t.host = s.host
  inbox   : t.inbox = s.inbox
  breach  : t.breach = s.breach
  length  : t.cmds.length = s.cmds.length
  others  : ∀ k, s.current ≠ some k → t.cmd k = s.cmd k

theorem Surveyed.trans {a b c : State} (h : Surveyed a b) (k : Surveyed b c) : Surveyed a c where
  toRecorded := h.toRecorded.trans k.toRecorded
  bus := k.bus.trans h.bus
  qstate := k.qstate.trans h.qstate
  igate := k.igate.trans h.igate
  current := k.current.trans h.current
  queue := k.queue.trans h.queue
  snap := k.snap.trans h.snap
  timer := k.timer.trans h.timer
  params := k.params.trans h.params
  bufs := k.bufs.trans h.bufs
  host := k.host.trans h.host
  inbox := k.inbox.trans h.inbox
  breach := k.breach.trans h.breach
  length := k.length.trans h.length
  others := fun i hi => (k.others i (by rw [h.current]; exact hi)).trans (h.others i hi)

/-- Work that leaves the timer alone. -/
theorem Handled.surveyed {s t : State} (h : Handled s t) (k : Traced s t) (ht : t.timer = s.timer) : Surveyed s t :=
  ⟨⟨h.stores, k⟩, h.bus, h.qstate, h.igate, h.current, h.queue, h.snap, ht, h.params, h.bufs, h.host, h.inbox,
    h.breach, h.length, h.others⟩

theorem setDevInfo_surveyed (u : UnitId) (i : DevInfo) (s : State) : Surveyed s (s.setDevInfo u i) := by
  cases u <;>
    exact ⟨⟨fun w => w, .of_eq rfl rfl⟩, rfl, rfl, rfl, rfl, rfl, rfl, rfl, rfl, rfl, rfl, rfl, rfl, rfl,
      fun _ _ => rfl⟩

theorem setType_surveyed (u : UnitId) (ty : DevType) (s : State) : Surveyed s (setType u ty s) :=
  setDevInfo_surveyed _ _ s

theorem rd8_surveyed (r : Reg) (s : State) : Surveyed s (rd8 r s).2 :=
  (rd8_handled r s).surveyed (rd8_traced r s) rfl

theorem wr8_surveyed {r : Reg} (h : r ≠ .altctl) (v : Byte) (s : State) : Surveyed s (wr8 r v s) :=
  (wr8_handled r v s).surveyed (wr8_traced h v s) rfl

theorem pollStatus_surveyed (ok : Byte → Bool) (abort : Byte → State → Option Result) (n : Nat) (s : State) :
    Surveyed s (pollStatus ok abort n s).state :=
  (pollStatus_handled ok abort n s).surveyed (pollStatus_traced ok abort n s) (pollStatus_kept ok abort n s).timer

theorem readWords_surveyed (n : Nat) (s : State) : Surveyed s (readWords n s).2 :=
  (readWords_handled n s).surveyed (readWords_traced n s) (readWords_kept n s).timer

/-- `atapiSlaveExists` (P225). -/
theorem atapiSlaveExists_surveyed (s : State) : Surveyed s (atapiSlaveExists s).2 := by
  have hctl : Surveyed s (writeControl ctlNIen s) :=
    (writeControl_handled _ s).surveyed (writeControl_traced _ s) rfl
  have h := (hctl.trans (wr8_surveyed (r := .statcmd) (by simp) Config.cmdIdentifyPacket _)).trans
    (pollStatus_surveyed okNotBusy noAbort s.params.nProbe _)
  unfold atapiSlaveExists
  dsimp only
  split
  · exact h.trans (readWords_surveyed _ _)
  · exact h

theorem readSignature_surveyed (s : State) : Surveyed s (readSignature s).2 :=
  ((((rd8_surveyed .cyllo s).trans (rd8_surveyed .cylhi _)).trans (rd8_surveyed .scnt _)).trans
    (rd8_surveyed .snum _)).trans (rd8_surveyed .altctl _)

/-- `classify` (R223 to R226). -/
theorem classify_surveyed (u : UnitId) (s : State) : Surveyed s (classify u s).2 := by
  have h := readSignature_surveyed s
  unfold classify
  dsimp only
  split
  · split
    · split
      · exact (h.trans (atapiSlaveExists_surveyed _)).trans (setType_surveyed _ _ _)
      · exact (h.trans (atapiSlaveExists_surveyed _)).trans (setType_surveyed _ _ _)
    · exact h.trans (setType_surveyed _ _ _)
  split
  · exact h.trans (setType_surveyed _ _ _)
  · exact h.trans (setType_surveyed _ _ _)

theorem scanSelect_surveyed (u : UnitId) (s : State) : Surveyed s (scanSelect u s).state :=
  (wr8_surveyed (by simp) _ s).trans (pollStatus_surveyed _ _ _ _)

theorem scanUnit1_surveyed (s : State) : Surveyed s (scanUnit1 s).2 := by
  have h := scanSelect_surveyed .u1 s
  unfold scanUnit1
  dsimp only
  split
  · exact h.trans (classify_surveyed _ _)
  · exact h.trans (setType_surveyed .u1 .unknown _)

theorem scanUnits_surveyed (s : State) : Surveyed s (scanUnits s).2 := by
  have h := scanSelect_surveyed .u0 s
  unfold scanUnits
  dsimp only
  split
  · exact (h.trans (classify_surveyed _ _)).trans (scanUnit1_surveyed _)
  · exact (h.trans (setType_surveyed .u0 .unknown _)).trans (setType_surveyed .u1 .unknown _)

/-- `scanForDrives` (P220). -/
theorem scanForDrives_surveyed (s : State) : Surveyed s (scanForDrives s).2 := by
  have h := pollStatus_surveyed okNotBusy noAbort s.params.nScan s
  have hend : ∀ t, Surveyed t { wr8 .devhead UnitId.u0.selectValue t with selected := none } := fun t =>
    ((wr8_handled _ _ t).trans (selected_handled none _)).surveyed
      ((wr8_traced (by simp) _ t).trans (selected_traced none _)) rfl
  unfold scanForDrives
  dsimp only
  split
  · exact (h.trans (scanUnits_surveyed _)).trans (hend _)
  · exact h.trans (hend _)

/-! ## Every instruction, every step -/

/-- The value returned to the caller is no part of what `Acted` speaks of. -/
theorem Acted.ret {s t : State} (h : Acted s t) (r : Return) : Acted s { t with ret := r } :=
  h.trans (.of_eq rfl rfl rfl rfl rfl rfl)

theorem Surveyed.ret {s t : State} (h : Surveyed s t) (r : Return) : Recorded s { t with ret := r } :=
  h.toRecorded.trans ((Acted.refl t).ret r).toRecorded

/-- Every instruction but SCAN and CONFIG keeps the device table too (R421). -/
theorem answers_acted {i : Instr} {s t : State} (h : Answers i s t) (hs : i ≠ .scan)
    (hc : ∀ u m, i ≠ .config u m) : Acted s t := by
  cases h with
  | row hi hb ha ht => exact (submitNew_acted dispatchNext_acted _ s).ret _
  | submitNull => exact (Acted.refl s).ret _
  | submitStored hb hl hu hn ha ht => exact (submitRef_acted dispatchNext_acted _ s).ret _
  | irqRuns hr hb hp ht => exact (irqEntry_acted s).ret _
  | irqIdle hr => exact (irqEntry_acted s).ret _
  | expire he hb ht => exact (expireEntry_acted s).ret _
  | scan => exact absurd rfl hs
  | config => exact absurd rfl (hc _ _)

theorem answers_recorded {i : Instr} {s t : State} (h : Answers i s t) : Recorded s t := by
  by_cases hs : i = .scan
  · subst hs
    cases h with
    | row hi => cases hi
    | scan => exact (scanForDrives_surveyed s).ret _
  by_cases hc : ∃ u m, i = .config u m
  · obtain ⟨u, m, rfl⟩ := hc
    cases h with
    | row hi => cases hi
    | config => exact (setDevInfo_surveyed _ _ s).ret _
  · exact (answers_acted h hs (fun u m e => hc ⟨u, m, e⟩)).toRecorded

/-- An act outside the gate keeps the form of the stores. -/
theorem outsideAct_stores {a : OutsideAct} {s t : State} (h : outsideAct a s = .ok t) (w : s.StoresWf) :
    t.StoresWf := by
  obtain rfl | ⟨b, rfl⟩ | ⟨k, bs, rfl⟩ | ⟨d, rfl⟩ | ⟨id, d, -, -, rfl⟩ := outsideAct_ok h
  case inr.inr.inl => exact ⟨Memory.wf_setBytes w.1, w.2⟩
  all_goals exact w

/-- A reset empties the trace and clears `irqEn`; the other acts outside the gate touch neither (R55). -/
theorem outsideAct_irqEn {a : OutsideAct} {s t : State} (h : outsideAct a s = .ok t) (w : s.IrqEnTracks) :
    t.IrqEnTracks := by
  obtain rfl | ⟨b, rfl⟩ | ⟨k, bs, rfl⟩ | ⟨d, rfl⟩ | ⟨id, d, -, -, rfl⟩ := outsideAct_ok h
  case inl => exact rfl
  all_goals exact w

end Sys2Proof.Machine

namespace Sys2Proof.Proofs

open Sys2Proof.Machine

/-- Settles O54: each act outside the gate and each instruction (`answers_recorded`) keeps the form of the stores. -/
theorem stepKeepsStores : Obligations.StepKeepsStores := fun _ _ hs h =>
  step_keeps (fun _ _ _ => outsideAct_stores) (fun _ _ _ w => w) (fun _ _ _ ha => (answers_recorded ha).stores) hs h

/-- Settles O57: what an instruction adds to the trace, `irqEn` follows (`Traced`). -/
theorem stepKeepsIrqEn : Obligations.StepKeepsIrqEn := fun _ _ hs h =>
  step_keeps (fun _ _ _ => outsideAct_irqEn) (fun _ _ _ w => w)
    (fun _ _ _ ha => (answers_recorded ha).traced.irqEnTracks) hs h

end Sys2Proof.Proofs
end

section
/-! The phase in which a step of an asynchronous command leaves it (R250 to R256): one of those of an ExecIO, and
DataTransfer only for a PIO command with data. -/

namespace Sys2Proof.Machine

/-! ## What leaves the store alone -/

@[simp] theorem writeWords_cmds (ws : List Half) (s : State) : (writeWords ws s).cmds = s.cmds := by
  rw [writeWords_logs]; rfl

@[simp] theorem settleOverrun_cmds (m : Nat) (s : State) : (settleOverrun m s).cmds = s.cmds := by
  unfold settleOverrun
  split
  · rfl
  split
  · exact readData_cmds m s
  · rw [pad_logs]; rfl

@[simp] theorem pollStatus_cmds (ok : Byte → Bool) (abort : Byte → State → Option Result) (n : Nat) (s : State) :
    (pollStatus ok abort n s).state.cmds = s.cmds := by
  induction n generalizing s with
  | zero =>
    unfold pollStatus
    dsimp only
    split
    · rfl
    · split <;> rfl
  | succ n ih =>
    unfold pollStatus
    dsimp only
    split
    · rfl
    split
    · rfl
    · rw [ih]; rfl

@[simp] theorem preSelect_cmds (u : UnitId) (s : State) : (preSelect u s).2.cmds = s.cmds := by
  unfold preSelect
  split
  · rfl
  · dsimp only
    split <;> simp

@[simp] theorem postSelect_cmds (u : UnitId) (s : State) : (postSelect u s).2.cmds = s.cmds := by
  unfold postSelect
  dsimp only
  split <;> simp

/-- A selection writes no command record (P201). -/
@[simp] theorem selectDevice_cmds (unit : Byte) (s : State) : (selectDevice unit s).2.cmds = s.cmds := by
  unfold selectDevice
  split
  · rfl
  · dsimp only
    split <;> simp

/-- The work for the current command keeps its order. -/
theorem Handled.cur_order {s t : State} (h : Handled s t) : SameOrder s.cur t.cur := by
  cases hc : s.current with
  | none => simp only [State.cur, hc, h.current]; exact SameOrder.refl _
  | some id => simp only [State.cur, hc, h.current]; exact h.order id

theorem SameOrder.isPIOData {c c' : Command} (h : SameOrder c c') : isPIOData c' = isPIOData c := by
  unfold Machine.isPIOData
  rw [h.flags]

/-! ## The phases of an ExecIO -/

/-- The phase of a current command as `currentWf` asks it: that of an ExecIO, DataTransfer only for PIO data. -/
def phaseWf (c : Command) : Prop :=
  (c.state = phStarted ∨ c.state = phPacketIssue ∨ c.state = phDataTransfer ∨ c.state = phStatus
      ∨ c.state = phComplete)
    ∧ (c.state = phDataTransfer → isPIOData c = true)

theorem currentWf_iff (c : Command) : currentWf c ↔
    c.inUse = true ∧ c.result = .unset ∧ isExecOp c.opcode = true ∧ c.flags.noirq = false ∧ phaseWf c := Iff.rfl

theorem phaseWf_started {c : Command} (h : c.state = phStarted) : phaseWf c :=
  ⟨.inl h, fun k => absurd (h.symm.trans k) (by decide)⟩

theorem phaseWf_packetIssue {c : Command} (h : c.state = phPacketIssue) : phaseWf c :=
  ⟨.inr (.inl h), fun k => absurd (h.symm.trans k) (by decide)⟩

theorem phaseWf_dataTransfer {c : Command} (h : c.state = phDataTransfer) (hp : isPIOData c = true) : phaseWf c :=
  ⟨.inr (.inr (.inl h)), fun _ => hp⟩

theorem phaseWf_status {c : Command} (h : c.state = phStatus) : phaseWf c :=
  ⟨.inr (.inr (.inr (.inl h))), fun k => absurd (h.symm.trans k) (by decide)⟩

theorem phaseWf_complete {c : Command} (h : c.state = phComplete) : phaseWf c :=
  ⟨.inr (.inr (.inr (.inr h))), fun k => absurd (h.symm.trans k) (by decide)⟩

theorem setPhase_state (ph : Byte) {s : State} (h : s.Live) : (setPhase ph s).cur.state = ph := by
  rw [setPhase_cur ph s h]

theorem statusPhase_phaseWf (e : Result) {s : State} (h : s.Live) : phaseWf (statusPhase e s).2.cur :=
  phaseWf_complete (statusPhase_phase e s h)

/-! ## The Started and PacketIssue phases -/

/-- The phase that the taskfile leaves the command in (R251). -/
theorem phaseAfterStart_phaseWf {c c' : Command} (h : SameOrder c c') (hs : c'.state = phaseAfterStart c) :
    phaseWf c' := by
  unfold phaseAfterStart at hs
  split at hs
  · exact phaseWf_packetIssue hs
  split at hs
  · next hp => exact phaseWf_dataTransfer hs (h.isPIOData.trans hp)
  · exact phaseWf_status hs

theorem startDmaIf_handled (b : Bool) (s : State) : Handled s (if b then startDma s else (Result.noError, s)).2 := by
  split
  · exact startDma_handled s
  · exact .refl s

theorem startedPhase_phaseWf {s : State} (hl : s.Live) (hr : (startedPhase s).1 = .noError) :
    phaseWf (startedPhase s).2.cur := by
  refine phaseAfterStart_phaseWf (startedPhase_handled s).cur_order ?_
  have h := startDmaIf_handled (s.cur.flags.dma && !hasPacket s.cur) s
  unfold startedPhase at hr ⊢
  dsimp only at hr ⊢
  generalize (if s.cur.flags.dma && !hasPacket s.cur then startDma s else (.noError, s)) = r at h hr ⊢
  by_cases he : r.1 = .noError
  · rw [if_pos he]
    exact setPhase_state _ ((h.trans (issueTaskfile_handled _)).live hl)
  · rw [if_neg he] at hr
    exact absurd hr he

theorem sendPacket_phaseWf {s : State} (hl : s.Live) (hr : (sendPacket s).1 = .noError) :
    phaseWf (sendPacket s).2.cur := by
  have horder := (sendPacket_handled s).cur_order
  have h := (writeWords_handled (packetWords s.cur) s).trans (startDmaIf_handled s.cur.flags.dma _)
  have hstate : (sendPacket s).2.cur.state = if isPIOData s.cur then phDataTransfer else phStatus := by
    unfold sendPacket at hr ⊢
    dsimp only at hr ⊢
    generalize (if s.cur.flags.dma then startDma (writeWords (packetWords s.cur) s)
      else (.noError, writeWords (packetWords s.cur) s)) = r at h hr ⊢
    by_cases he : r.1 = .noError
    · rw [if_pos he]
      exact setPhase_state _ (h.live hl)
    · rw [if_neg he] at hr
      exact absurd hr he
  split at hstate
  · next hp => exact phaseWf_dataTransfer hstate (horder.isPIOData.trans hp)
  · exact phaseWf_status hstate

theorem packetPhase_phaseWf {s : State} (hl : s.Live) (hr : (packetPhase s).1 = .noError) :
    phaseWf (packetPhase s).2.cur := by
  have h := pollStatus_handled okData abortData s.params.nPkt s
  unfold packetPhase at hr ⊢
  dsimp only at hr ⊢
  generalize pollStatus okData abortData s.params.nPkt s = p at h hr ⊢
  by_cases hp : p.code = .noError
  · rw [if_pos hp] at hr ⊢
    exact sendPacket_phaseWf (h.live hl) hr
  · rw [if_neg hp] at hr
    exact absurd hr hp

theorem packetStep_phaseWf {s : State} (hl : s.Live) : phaseWf (packetStep s).2.cur := by
  unfold packetStep
  dsimp only
  split
  · next hr => exact packetPhase_phaseWf hl hr
  · exact statusPhase_phaseWf _ ((packetPhase_handled s).live hl)

/-! ## The DataTransfer phase -/

theorem moveSlice_state (n : Nat) {s : State} (hl : s.Live) (hn : n ≤ Config.dbufBytes) :
    (moveSlice n s).cur.state = s.cur.state := by
  have h := slice_handled n s hn
  unfold moveSlice
  rw [modCur_cur _ _ (h.live hl)]
  exact congrArg (·.state) (h.cur_eq (slice_cmds n s))

theorem moveSlices_state (fuel n : Nat) {s : State} (hl : s.Live) (hr : n ≤ remaining s.cur) :
    (moveSlices fuel n s).cur.state = s.cur.state := by
  induction fuel generalizing n s with
  | zero => rfl
  | succ fuel ih =>
    have hm : min n Config.dbufBytes ≤ Config.dbufBytes := Nat.min_le_right _ _
    have hn : min n Config.dbufBytes ≤ remaining s.cur := (Nat.min_le_left _ _).trans hr
    unfold moveSlices
    split
    · rfl
    · have hrest : n - min n Config.dbufBytes ≤ remaining (moveSlice (min n Config.dbufBytes) s).cur := by
        rw [moveSlice_remaining _ s hm hn]
        omega
      rw [ih _ ((moveSlice_handled _ s hm hn).live hl) hrest, moveSlice_state _ hl hm]

/-- A pass leaves the command in its phase, or in Status (R314). -/
theorem passData_state {s : State} (hl : s.Live) :
    (passData s).cur.state = phStatus ∨ (passData s).cur.state = s.cur.state := by
  have hcount := passCount_handled s
  have hcur := hcount.cur_eq (passCount_cmds s)
  have hle : (passCount s).1.1 ≤ remaining (passCount s).2.cur := by rw [hcur]; exact passCount_le s
  have hslices := moveSlices_handled ((passCount s).1.1 / Config.dbufBytes + 1) _ _ hle
  have hover := settleOverrun_handled (passCount s).1.2
    (moveSlices ((passCount s).1.1 / Config.dbufBytes + 1) (passCount s).1.1 (passCount s).2)
  unfold passData endPass
  dsimp only
  split
  · exact .inl (setPhase_state _ (((hcount.trans hslices).trans hover).live hl))
  · right
    rw [hover.cur_eq (settleOverrun_cmds _ _), moveSlices_state _ _ (hcount.live hl) hle, hcur]

/-- A pass that succeeds leaves the command in its phase, or in Status (P300). -/
theorem pioPass_state {s : State} (hl : s.Live) (hr : (pioPass s).1 = .noError) :
    (pioPass s).2.cur.state = phStatus ∨ (pioPass s).2.cur.state = s.cur.state := by
  have h := pollStatus_handled okData abortData (deadlineSleeps s) s
  have hcur := h.cur_eq (pollStatus_cmds _ _ _ s)
  unfold pioPass at hr ⊢
  split at hr
  · next hz => rw [if_pos hz]; exact .inl (setPhase_state _ hl)
  · next hz =>
    rw [if_neg hz]
    dsimp only at hr ⊢
    generalize pollStatus okData abortData (deadlineSleeps s) s = p at h hcur hr ⊢
    by_cases hp : p.code = .noError
    · rw [if_pos hp, ← hcur]
      exact passData_state (h.live hl)
    · rw [if_neg hp] at hr
      exact absurd hr hp

theorem dataStep_phaseWf {s : State} (hl : s.Live) (hd : s.cur.state = phDataTransfer)
    (hp : isPIOData s.cur = true) : phaseWf (dataStep s).2.cur := by
  have h := pioPass_handled s
  have hok : (pioPass s).1 = .noError → phaseWf (pioPass s).2.cur := fun hr => by
    rcases pioPass_state hl hr with hs | hs
    · exact phaseWf_status hs
    · exact phaseWf_dataTransfer (hs.trans hd) (h.cur_order.isPIOData.trans hp)
  unfold dataStep
  dsimp only
  split
  · exact statusPhase_phaseWf _ (h.live hl)
  next hr =>
  have hr := hok (not_not.mp hr)
  split
  · exact hr
  split
  · exact hr
  · exact statusPhase_phaseWf _ (h.live hl)

/-! ## A step of the protocol -/

theorem startedStep_phaseWf {s : State} (hl : s.Live) : phaseWf (startedStep s).2.cur := by
  have h := startedPhase_handled s
  unfold startedStep
  dsimp only
  split
  · exact statusPhase_phaseWf _ (h.live hl)
  next hr =>
  have hr := startedPhase_phaseWf hl (not_not.mp hr)
  split
  · exact packetStep_phaseWf (h.live hl)
  split
  · next hd =>
    have hd : (startedPhase s).2.cur.state = phDataTransfer := by
      rw [Bool.and_eq_true, decide_eq_true_eq] at hd
      exact hd.1
    exact dataStep_phaseWf (h.live hl) hd (hr.2 hd)
  · exact hr

/-- `phaseStep` leaves a command of an ExecIO in a phase of an ExecIO (P250). -/
theorem phaseStep_phaseWf {s : State} (hl : s.Live) (hw : phaseWf s.cur) : phaseWf (phaseStep s).2.cur := by
  unfold phaseStep
  split
  · exact startedStep_phaseWf hl
  split
  · exact packetStep_phaseWf hl
  split
  · next hd => exact dataStep_phaseWf hl hd (hw.2 hd)
  split
  · exact statusPhase_phaseWf _ hl
  · exact phaseWf_complete (setPhase_state _ hl)

end Sys2Proof.Machine
end

section
/-! The invariant of the arbiter wherever host code or a dispatch may run, inside an action too (R33), and what nested
host code can do to it: two relations, one for host code and nested dispatches, one for the handling of a command to
its end. -/

namespace Sys2Proof.Machine

/-! ## The invariant -/

/-- What holds of the arbiter wherever host code or a dispatch may run: I-a to I-c of R33, I-e of the queue, the
counts and the order of the queue, and that the timer is off on a Free bus. -/
structure State.Arbiter (s : State) : Prop where
  bus    : s.BusMatchesCurrent
  owned  : s.OwnedOnce
  queued : ∀ id ∈ s.queue, queuedWf (s.cmd id)
  inUse  : ∀ id, s.current = some id → (s.cmd id).inUse = true
  counts : ∀ id ∈ s.inFlight, countsWf (s.cmd id)
  order  : s.ImmediateFirst
  idle   : s.bus = .free → s.timer.armed = false

/-- A record in use that is not in flight: an action around this one holds it (the current command of a callout, a
victim of a flush). -/
def State.Held (id : Nat) (s : State) : Prop := id < s.cmds.length ∧ (s.cmd id).inUse = true ∧ id ∉ s.inFlight

theorem mem_inFlight {id : Nat} {s : State} : id ∈ s.inFlight ↔ s.current = some id ∨ id ∈ s.queue := by
  simp [State.inFlight]

/-- The commands in flight are in use (R33 I-e). -/
theorem State.Arbiter.inFlight_inUse {s : State} (h : s.Arbiter) {id : Nat} (hid : id ∈ s.inFlight) :
    (s.cmd id).inUse = true := by
  rcases mem_inFlight.mp hid with hc | hq
  · exact h.inUse id hc
  · exact (h.queued id hq).2.1

theorem State.Arbiter.not_mem_inFlight {s : State} (h : s.Arbiter) {id : Nat} (hu : (s.cmd id).inUse = false) :
    id ∉ s.inFlight := fun hid => by
  rw [h.inFlight_inUse hid] at hu
  cases hu

/-- The current command is not queued (R33 I-c). -/
theorem State.Arbiter.current_not_queued {s : State} (h : s.Arbiter) {id : Nat} (hc : s.current = some id) :
    id ∉ s.queue := by
  have hn := h.owned.1
  simp only [State.inFlight, hc, Option.toList_some, List.singleton_append, List.nodup_cons] at hn
  exact hn.1

theorem State.Arbiter.current_stored {s : State} (h : s.Arbiter) {id : Nat} (hc : s.current = some id) :
    id < s.cmds.length := h.owned.2 id (mem_inFlight.mpr (.inl hc))

theorem State.Arbiter.live {s : State} (h : s.Arbiter) {id : Nat} (hc : s.current = some id) : s.Live :=
  ⟨id, hc, h.current_stored hc⟩

theorem State.Arbiter.busy {s : State} (h : s.Arbiter) {id : Nat} (hc : s.current = some id) : s.bus = .busy :=
  h.bus.mpr (by simp [hc])

theorem State.Arbiter.free_current {s : State} (h : s.Arbiter) (hb : s.bus = .free) : s.current = none := by
  have hn : ¬ s.current.isSome = true := fun k => by
    have := h.bus.mpr k
    rw [hb] at this
    cases this
  simpa using hn

theorem bus_free_or_busy (s : State) : s.bus = .free ∨ s.bus = .busy := by
  cases s.bus
  · exact .inl rfl
  · exact .inr rfl

/-- The invariant looks only at the arbiter's fields and the records in flight. -/
theorem State.Arbiter.congr {s t : State} (h : s.Arbiter) (hb : t.bus = s.bus) (hc : t.current = s.current)
    (hq : t.queue = s.queue) (hl : s.cmds.length ≤ t.cmds.length) (hidle : t.bus = .free → t.timer.armed = false)
    (hqueue : ∀ id ∈ s.queue, t.cmd id = s.cmd id)
    (hcur : ∀ id, s.current = some id → (t.cmd id).inUse = true ∧ countsWf (t.cmd id)) : t.Arbiter where
  bus := by unfold State.BusMatchesCurrent; rw [hb, hc]; exact h.bus
  owned := by
    unfold State.OwnedOnce State.inFlight
    rw [hc, hq]
    exact ⟨h.owned.1, fun id hid => (h.owned.2 id hid).trans_le hl⟩
  queued := fun id hid => by
    rw [hq] at hid
    rw [hqueue id hid]
    exact h.queued id hid
  inUse := fun id hid => (hcur id (hc.symm.trans hid)).1
  counts := fun id hid => by
    rcases mem_inFlight.mp hid with hi | hi
    · exact (hcur id (hc.symm.trans hi)).2
    · rw [hq] at hi
      rw [hqueue id hi]
      exact h.counts id (mem_inFlight.mpr (.inr hi))
  order := by
    unfold State.ImmediateFirst
    rw [hq]
    exact h.order.imp_of_mem (fun {a b} ha hb hab => by rw [hqueue a ha, hqueue b hb]; exact hab)
  idle := hidle

/-- The invariant when the records in flight are as before too. -/
theorem State.Arbiter.congr_inFlight {s t : State} (h : s.Arbiter) (hb : t.bus = s.bus) (hc : t.current = s.current)
    (hq : t.queue = s.queue) (hl : s.cmds.length ≤ t.cmds.length) (ht : t.timer = s.timer)
    (hcmd : ∀ id ∈ s.inFlight, t.cmd id = s.cmd id) : t.Arbiter :=
  h.congr hb hc hq hl (fun hf => by rw [ht]; exact h.idle (hb ▸ hf))
    (fun id hid => hcmd id (mem_inFlight.mpr (.inr hid)))
    (fun id hid => by
      have hm := mem_inFlight.mpr (.inl hid)
      rw [hcmd id hm]
      exact ⟨h.inUse id hid, h.counts id hm⟩)

/-- The work for the current command keeps the invariant. -/
theorem Handled.arbiter {s t : State} (h : Handled s t) (ha : s.Arbiter) {id : Nat} (hc : s.current = some id) :
    t.Arbiter :=
  ha.congr h.bus h.current h.queue h.length.ge
    (fun hf => by rw [h.bus, ha.busy hc] at hf; cases hf)
    (fun k hk => h.others k (fun e => ha.current_not_queued e hk))
    (fun k hk => ⟨(h.order k).inUse.trans (ha.inUse k hk),
      (h.order k).counts (ha.counts k (mem_inFlight.mpr (.inl hk)))⟩)

/-! ## What an action inside another leaves alone -/

/-- From `s` to `t` the locks and snapshots are as before, and so are the records that an action around this one
holds. -/
structure Leaves (s t : State) : Prop where
  qstate : t.qstate = s.qstate
  igate  : t.igate = s.igate
  snap   : t.snap = s.snap
  held   : ∀ id, s.Held id → t.cmd id = s.cmd id ∧ t.Held id

theorem Leaves.refl (s : State) : Leaves s s := ⟨rfl, rfl, rfl, fun _ h => ⟨rfl, h⟩⟩

theorem Leaves.trans {a b c : State} (h : Leaves a b) (k : Leaves b c) : Leaves a c :=
  ⟨k.qstate.trans h.qstate, k.igate.trans h.igate, k.snap.trans h.snap, fun id hid =>
    ⟨(k.held id (h.held id hid).2).1.trans (h.held id hid).1, (k.held id (h.held id hid).2).2⟩⟩

/-- Records in use are as before, and nothing came in flight. -/
theorem Leaves.of_inFlight {s t : State} (hq : t.qstate = s.qstate) (hg : t.igate = s.igate) (hs : t.snap = s.snap)
    (hl : s.cmds.length ≤ t.cmds.length) (hf : ∀ id ∈ t.inFlight, id ∈ s.inFlight)
    (hcmd : ∀ id, s.Held id → t.cmd id = s.cmd id) : Leaves s t :=
  ⟨hq, hg, hs, fun id h => ⟨hcmd id h, h.1.trans_le hl, by rw [hcmd id h]; exact h.2.1, fun k => h.2.2 (hf id k)⟩⟩

theorem Handled.inFlight {s t : State} (h : Handled s t) : t.inFlight = s.inFlight := by
  unfold State.inFlight
  rw [h.current, h.queue]

theorem Handled.leaves {s t : State} (h : Handled s t) : Leaves s t :=
  .of_inFlight h.qstate h.igate h.snap h.length.ge (fun _ k => h.inFlight ▸ k)
    (fun id k => h.others id (fun e => k.2.2 (mem_inFlight.mpr (.inl e))))

theorem Handled.pendingWork {s t : State} (h : Handled s t) : Machine.pendingWork t = Machine.pendingWork s := by
  unfold Machine.pendingWork
  rw [h.queue, h.host]

/-! ## Host code and nested dispatches -/

/-- The current command is asynchronous and waits for an interrupt or its deadline (R335). -/
structure State.InProgress (t : State) : Prop where
  bus     : t.bus = .busy
  qstate  : t.qstate = .opened
  armed   : t.timer.armed = true
  current : ∀ id, t.current = some id → currentWf (t.cmd id)

/-- From `s` to `t` host code ran inside an action, with the dispatches it nested: on a Busy bus it could only queue,
on a Free one every command it started is done or in progress. -/
structure Nested (s t : State) : Prop where
  arbiter : t.Arbiter
  leaves  : Leaves s t
  busy    : s.bus = .busy → t.bus = .busy ∧ t.current = s.current ∧ t.timer = s.timer
    ∧ ∀ id, s.current = some id → t.cmd id = s.cmd id
  free    : s.bus = .free → t.bus = .free ∨ t.InProgress

/-- Nothing waits on a Free bus with an Open queue (R170). -/
def State.Drained (t : State) : Prop := t.bus = .free → t.qstate = .opened → t.queue = []

/-- A command in progress stays so while host code can only queue. -/
theorem State.InProgress.nested {s t : State} (h : s.InProgress) (k : Nested s t) : t.InProgress := by
  obtain ⟨hb, hc, ht, hcmd⟩ := k.busy h.bus
  exact ⟨hb, k.leaves.qstate.trans h.qstate, by rw [ht]; exact h.armed, fun id hid => by
    rw [hc] at hid
    rw [hcmd id hid]
    exact h.current id hid⟩

theorem Nested.refl {s : State} (h : s.Arbiter) : Nested s s :=
  ⟨h, .refl s, fun hb => ⟨hb, rfl, rfl, fun _ _ => rfl⟩, .inl⟩

theorem Nested.trans {a b c : State} (h : Nested a b) (k : Nested b c) : Nested a c where
  arbiter := k.arbiter
  leaves := h.leaves.trans k.leaves
  busy := fun ha => by
    obtain ⟨hb, hc, ht, hcmd⟩ := h.busy ha
    obtain ⟨kb, kc, kt, kcmd⟩ := k.busy hb
    exact ⟨kb, kc.trans hc, kt.trans ht, fun id hid => (kcmd id (hc.trans hid)).trans (hcmd id hid)⟩
  free := fun ha => (h.free ha).elim k.free (fun hp => .inr (hp.nested k))

/-- A change that the arbiter does not see: of a record not in use, of the script, the trace, the refusal. -/
theorem Nested.of_same {s t : State} (h : s.Arbiter) (hb : t.bus = s.bus) (hc : t.current = s.current)
    (hq : t.queue = s.queue) (hqs : t.qstate = s.qstate) (hg : t.igate = s.igate) (hs : t.snap = s.snap)
    (ht : t.timer = s.timer) (hl : s.cmds.length ≤ t.cmds.length)
    (hcmd : ∀ id, id < s.cmds.length → (s.cmd id).inUse = true → t.cmd id = s.cmd id) : Nested s t := by
  have hfl : ∀ id ∈ s.inFlight, t.cmd id = s.cmd id := fun id hid =>
    hcmd id (h.owned.2 id hid) (h.inFlight_inUse hid)
  have hf : t.inFlight = s.inFlight := by
    unfold State.inFlight
    rw [hc, hq]
  refine ⟨h.congr_inFlight hb hc hq hl ht hfl, .of_inFlight hqs hg hs hl (fun _ k => hf ▸ k)
    (fun id k => hcmd id k.1 k.2.1), fun hbs => ⟨hb.trans hbs, hc, ht, fun id hid => ?_⟩, fun hf => .inl (hb.trans hf)⟩
  exact hfl id (mem_inFlight.mpr (.inl hid))

/-! ## The handling of the current command -/

/-- From `s`, where a command is current, to `t`: it was handled to its end, and what it left to dispatch with it, or
is in progress. -/
structure Settled (s t : State) : Prop where
  arbiter : t.Arbiter
  leaves  : Leaves s t
  done    : t.bus = .free ∨ t.InProgress
  drained : t.Drained
  work    : pendingWork t ≤ pendingWork s

/-- What comes before the rest of the handling. -/
theorem Settled.after {s t u : State} (k : Settled t u) (h : Leaves s t) (hw : pendingWork t ≤ pendingWork s) :
    Settled s u :=
  ⟨k.arbiter, h.trans k.leaves, k.done, k.drained, k.work.trans hw⟩

theorem Handled.settled {s t u : State} (h : Handled s t) (k : Settled t u) : Settled s u :=
  k.after h.leaves h.pendingWork.le

/-- A command in progress is settled: it waits. -/
theorem Settled.of_inProgress {s t : State} (h : Leaves s t) (ha : t.Arbiter) (hp : t.InProgress)
    (hw : pendingWork t ≤ pendingWork s) : Settled s t :=
  ⟨ha, h, .inr hp, fun hf => absurd (hp.bus.symm.trans hf) (by decide), hw⟩

/-- A nested dispatch that may find up to `n` commands to run. -/
def Dispatches (n : Nat) (dn : State → State) : Prop :=
  ∀ s : State, s.Arbiter → pendingWork s ≤ n →
    Nested s (dn s) ∧ (dn s).Drained ∧ pendingWork (dn s) ≤ pendingWork s

end Sys2Proof.Machine
end

section
/-! Host code inside an action: submissions, host calls, completions, callouts and flushes keep the invariant of the
arbiter (R88, R89, R180, R185, R288). -/

namespace Sys2Proof.Machine

/-! ## The queue -/

/-- Where a command is put in the queue (R164). -/
theorem enqueue_perm (id : Nat) (s : State) : (enqueue id s).queue.Perm (id :: s.queue) := by
  unfold enqueue
  split
  · exact List.perm_middle.trans (by rw [List.takeWhile_append_dropWhile])
  · exact List.perm_append_singleton id s.queue

theorem mem_enqueue {id k : Nat} {s : State} : k ∈ (enqueue id s).queue ↔ k = id ∨ k ∈ s.queue := by
  rw [(enqueue_perm id s).mem_iff, List.mem_cons]

@[simp] theorem enqueue_cmd (id k : Nat) (s : State) : (enqueue id s).cmd k = s.cmd k := by simp [State.cmd]

/-- The order of the queue is kept (R164). -/
theorem enqueue_order {id : Nat} {s : State} (h : s.ImmediateFirst) : (enqueue id s).ImmediateFirst := by
  unfold State.ImmediateFirst at h ⊢
  simp only [enqueue_cmd]
  unfold enqueue
  split
  · next hi =>
    have hfront : ∀ a ∈ s.queue.takeWhile (fun k => (s.cmd k).flags.imm), (s.cmd a).flags.imm = true :=
      fun a ha => List.mem_takeWhile_imp (p := fun k => (s.cmd k).flags.imm) ha
    rw [List.pairwise_append]
    refine ⟨h.sublist (List.takeWhile_sublist _), ?_, fun a ha b _ _ => hfront a ha⟩
    exact List.pairwise_cons.mpr ⟨fun _ _ _ => hi, h.sublist (List.dropWhile_sublist _)⟩
  · next hi =>
    rw [List.pairwise_append]
    refine ⟨h, List.pairwise_singleton _ _, fun a _ b hb hbi => ?_⟩
    rw [List.mem_singleton.mp hb] at hbi
    exact absurd hbi hi

/-- Queueing a record that is ready for it (R56, R162). -/
theorem enqueue_arbiter {id : Nat} {s : State} (h : s.Arbiter) (hl : id < s.cmds.length) (hf : id ∉ s.inFlight)
    (hw : queuedWf (s.cmd id)) (hc : countsWf (s.cmd id)) : (enqueue id s).Arbiter where
  bus := by unfold State.BusMatchesCurrent; rw [enqueue_bus, enqueue_current]; exact h.bus
  owned := by
    have hp : (enqueue id s).inFlight.Perm (id :: s.inFlight) := by
      unfold State.inFlight
      rw [enqueue_current]
      exact ((enqueue_perm id s).append_left _).trans List.perm_middle
    refine ⟨hp.nodup_iff.mpr (List.nodup_cons.mpr ⟨hf, h.owned.1⟩), fun k hk => ?_⟩
    rw [enqueue_cmds]
    rcases List.mem_cons.mp (hp.mem_iff.mp hk) with rfl | hk
    · exact hl
    · exact h.owned.2 k hk
  queued := fun k hk => by
    rw [enqueue_cmd]
    rcases mem_enqueue.mp hk with rfl | hk
    · exact hw
    · exact h.queued k hk
  inUse := fun k hk => by rw [enqueue_cmd]; exact h.inUse k (by simpa using hk)
  counts := fun k hk => by
    rw [enqueue_cmd]
    rw [mem_inFlight, enqueue_current, mem_enqueue] at hk
    rcases hk with hk | rfl | hk
    · exact h.counts k (mem_inFlight.mpr (.inl hk))
    · exact hc
    · exact h.counts k (mem_inFlight.mpr (.inr hk))
  order := enqueue_order h.order
  idle := fun hb => by rw [enqueue_timer]; exact h.idle (by simpa using hb)

theorem pendingWork_enqueue (id : Nat) (s : State) : pendingWork (enqueue id s) = pendingWork s + 1 := by
  unfold pendingWork
  rw [(enqueue_perm id s).length_eq, enqueue_host, List.length_cons]
  omega

/-! ## Submissions -/

/-- A record that the host may submit: stored, not in use, as R56 asks, its counts in bounds. -/
structure State.Ready (id : Nat) (s : State) : Prop where
  stored : id < s.cmds.length
  unused : (s.cmd id).inUse = false
  result : (s.cmd id).result = .unset
  actual : (s.cmd id).actual = 0#32
  counts : countsWf (s.cmd id)

/-- The counts of a command that has moved nothing are in bounds (W6). -/
theorem countsWf_fresh {c : Command} (ha : c.actual = 0#32) (hw : c.toDesc.legal = true) : countsWf c := by
  have h6 : c.position.toNat + c.byteCount.toNat < 2 ^ 32 := by
    simp only [Desc.legal, Bool.and_eq_true, Desc.w6, decide_eq_true_eq] at hw
    exact hw.1.1.1.2
  unfold countsWf remaining
  rw [ha]
  exact ⟨Nat.zero_le _, by simpa using h6⟩

theorem accepts_legal {s : State} {d : Desc} (h : s.accepts d = true) : d.legal = true := by
  unfold State.accepts at h
  exact (Bool.and_eq_true _ _ ▸ h).1

/-- The state in which a submission dispatches: the record is in use, Initial and queued (P160, R162). -/
def queuedUp (id : Nat) (s : State) : State :=
  enqueue id (s.modCmd id (fun c => { c with inUse := true, state := phInitial }))

theorem submitRef_eq (dn : State → State) (id : Nat) (s : State) : submitRef dn id s = dn (queuedUp id s) := by
  unfold submitRef handle queuedUp
  rw [modCmd_modCmd]

theorem pendingWork_queuedUp (id : Nat) (s : State) : pendingWork (queuedUp id s) = pendingWork s + 1 :=
  pendingWork_enqueue _ _

theorem queuedUp_cmd_other {id k : Nat} {s : State} (h : k ≠ id) : (queuedUp id s).cmd k = s.cmd k := by
  unfold queuedUp
  rw [enqueue_cmd, modCmd_cmd_other _ _ _ _ h]

theorem queuedUp_mem_inFlight {id k : Nat} {s : State} : k ∈ (queuedUp id s).inFlight ↔ k = id ∨ k ∈ s.inFlight := by
  unfold queuedUp
  rw [mem_inFlight, mem_inFlight, mem_enqueue, enqueue_current]
  exact or_left_comm

/-- Queueing a ready record keeps the invariant (R56, R162, R164). -/
theorem queuedUp_arbiter {id : Nat} {s : State} (h : s.Arbiter) (hr : s.Ready id) : (queuedUp id s).Arbiter := by
  have hf : id ∉ s.inFlight := h.not_mem_inFlight hr.unused
  have hl : (s.modCmd id (fun c => { c with inUse := true, state := phInitial })).cmds.length = s.cmds.length :=
    modCmd_length _ _ _
  have hcmd := modCmd_cmd_same id (fun c => { c with inUse := true, state := phInitial }) s hr.stored
  have ha : (s.modCmd id (fun c => { c with inUse := true, state := phInitial })).Arbiter :=
    h.congr_inFlight rfl rfl rfl hl.ge rfl (fun k hk => modCmd_cmd_other _ _ _ _ (fun e => hf (e ▸ hk)))
  refine enqueue_arbiter ha (hl.symm ▸ hr.stored) hf ?_ ?_
  · rw [hcmd]
    exact ⟨rfl, rfl, hr.result, hr.actual⟩
  · rw [hcmd]
    exact hr.counts

/-- Queueing a ready record is host code that changes only that record and the queue. -/
theorem queuedUp_nested {id : Nat} {s : State} (h : s.Arbiter) (hr : s.Ready id) : Nested s (queuedUp id s) := by
  have hin : ∀ k, (s.cmd k).inUse = true → k ≠ id := fun k hk e => by
    rw [e, hr.unused] at hk
    cases hk
  have hb : (queuedUp id s).bus = s.bus := enqueue_bus _ _
  have hheld : ∀ k, s.Held k → (queuedUp id s).cmd k = s.cmd k ∧ (queuedUp id s).Held k := fun k hk => by
    have hc : (queuedUp id s).cmd k = s.cmd k := queuedUp_cmd_other (hin k hk.2.1)
    refine ⟨hc, by simpa [queuedUp] using hk.1, by rw [hc]; exact hk.2.1, fun hm => ?_⟩
    exact (queuedUp_mem_inFlight.mp hm).elim (hin k hk.2.1) hk.2.2
  exact ⟨queuedUp_arbiter h hr, ⟨enqueue_qstate _ _, enqueue_igate _ _, enqueue_snap _ _, hheld⟩,
    fun hs => ⟨hb.trans hs, enqueue_current _ _, enqueue_timer _ _,
      fun k hk => queuedUp_cmd_other (hin k (h.inUse k hk))⟩,
    fun hs => .inl (hb.trans hs)⟩

section Host

variable {n : Nat} {dn : State → State}

/-- A submission queues its command and dispatches (P160). -/
theorem submitRef_nested (hd : Dispatches n dn) {id : Nat} {s : State} (h : s.Arbiter) (hr : s.Ready id)
    (hw : pendingWork s + 1 ≤ n) :
    Nested s (submitRef dn id s) ∧ (submitRef dn id s).Drained
      ∧ pendingWork (submitRef dn id s) ≤ pendingWork s + 1 := by
  have hq := queuedUp_nested h hr
  rw [submitRef_eq]
  rw [← pendingWork_queuedUp id s] at hw ⊢
  obtain ⟨hn, hdr, hle⟩ := hd _ hq.arbiter hw
  exact ⟨hq.trans hn, hdr, hle⟩

/-- A record that the host has filled anew is ready (R56). -/
theorem ready_of_fresh {id : Nat} {d : Desc} {s : State} (hl : id < s.cmds.length) (hc : s.cmd id = Command.fresh d)
    (hw : d.legal = true) : s.Ready id :=
  ⟨hl, by rw [hc]; rfl, by rw [hc]; rfl, by rw [hc]; rfl, by rw [hc]; exact countsWf_fresh rfl hw⟩

/-- The host makes a new record. -/
theorem newRecord_nested {s : State} (d : Desc) (h : s.Arbiter) :
    Nested s { s with cmds := s.cmds ++ [Command.fresh d] } :=
  .of_same h rfl rfl rfl rfl rfl rfl rfl (by simp) (fun k hk _ => List.getD_append _ _ _ _ hk)

/-- The host fills a record that is not in use. -/
theorem refill_nested {id : Nat} {s : State} (d : Desc) (h : s.Arbiter) (hu : (s.cmd id).inUse = false) :
    Nested s (s.refill id d) :=
  .of_same h rfl rfl rfl rfl rfl rfl rfl (modCmd_length _ _ _).ge (fun k _ hk =>
    modCmd_cmd_other _ _ _ _ (fun e => by rw [e, hu] at hk; cases hk))

/-- A descriptor is submitted as a new record (entry 8). -/
theorem submitNew_nested (hd : Dispatches n dn) {d : Desc} {s : State} (h : s.Arbiter) (hl : d.legal = true)
    (hw : pendingWork s + 1 ≤ n) :
    Nested s (submitNew dn d s) ∧ (submitNew dn d s).Drained
      ∧ pendingWork (submitNew dn d s) ≤ pendingWork s + 1 := by
  have hn := newRecord_nested d h
  have hr : State.Ready s.cmds.length { s with cmds := s.cmds ++ [Command.fresh d] } :=
    ready_of_fresh (by simp) (by simp [State.cmd]) hl
  obtain ⟨hs, hdr, hle⟩ := submitRef_nested hd hn.arbiter hr hw
  exact ⟨hn.trans hs, hdr, hle⟩

/-- What a nested submission that is not refused names (R160). -/
theorem nestedBreach_none {s : State} {h : HostSubmit} (hb : s.nestedBreach h = none) :
    (∀ id, h.reuse = some id → id < s.cmds.length ∧ (s.cmd id).inUse = false) ∧ s.accepts h.desc = true := by
  unfold State.nestedBreach at hb
  split at hb
  · cases hb
  next h1 =>
  split at hb
  · cases hb
  next h2 =>
  split at hb
  · next h3 =>
    refine ⟨fun id hid => ?_, h3⟩
    rw [hid] at h1 h2
    exact ⟨by simpa using h1, by simpa using h2⟩
  · cases hb

/-- One nested submission, refused or not (R89, R160). -/
theorem submitOne_nested (hd : Dispatches n dn) (hs : HostSubmit) {s : State} (h : s.Arbiter)
    (hw : pendingWork s + 1 ≤ n) :
    Nested s (submitOne dn hs s) ∧ pendingWork (submitOne dn hs s) ≤ pendingWork s + 1 := by
  unfold submitOne
  split
  · exact ⟨.of_same h rfl rfl rfl rfl rfl rfl rfl le_rfl (fun _ _ _ => rfl), Nat.le_succ _⟩
  next hb =>
  obtain ⟨hreuse, hacc⟩ := nestedBreach_none hb
  have hl := accepts_legal hacc
  split
  · next id hid =>
    obtain ⟨hst, hu⟩ := hreuse id hid
    have hn := refill_nested hs.desc h hu
    have hr : (s.refill id hs.desc).Ready id :=
      ready_of_fresh ((modCmd_length _ _ _).symm ▸ hst) (modCmd_cmd_same _ _ _ hst) hl
    obtain ⟨hsub, -, hle⟩ := submitRef_nested hd hn.arbiter hr hw
    exact ⟨hn.trans hsub, hle⟩
  · obtain ⟨hsub, -, hle⟩ := submitNew_nested hd h hl hw
    exact ⟨hsub, hle⟩

theorem submitAll_nested (hd : Dispatches n dn) (hs : List HostSubmit) {s : State} (h : s.Arbiter)
    (hw : pendingWork s + hs.length ≤ n) :
    Nested s (submitAll dn hs s) ∧ pendingWork (submitAll dn hs s) ≤ pendingWork s + hs.length := by
  induction hs generalizing s with
  | nil => exact ⟨.refl h, le_rfl⟩
  | cons x xs ih =>
    rw [List.length_cons] at hw ⊢
    obtain ⟨h1, hle1⟩ := submitOne_nested hd x h (by omega)
    obtain ⟨h2, hle2⟩ := ih h1.arbiter (by omega)
    exact ⟨h1.trans h2, by rw [submitAll]; omega⟩

/-- A host call takes its submissions off the script (U11). -/
theorem hostCall_nested (hd : Dispatches n dn) {s : State} (h : s.Arbiter) (hw : pendingWork s ≤ n) :
    Nested s (hostCall dn s) ∧ pendingWork (hostCall dn s) ≤ pendingWork s := by
  unfold hostCall
  split
  · exact ⟨.refl h, le_rfl⟩
  · next hs rest hhost =>
    have hn : Nested s { s with host := rest } :=
      .of_same h rfl rfl rfl rfl rfl rfl rfl le_rfl (fun _ _ _ => rfl)
    have hp : pendingWork { s with host := rest } + hs.length = pendingWork s := by
      simp only [pendingWork, hhost, List.map_cons, List.sum_cons]
      omega
    obtain ⟨h2, hle⟩ := submitAll_nested hd hs hn.arbiter (by omega)
    exact ⟨hn.trans h2, by omega⟩

theorem emit_nested (e : Event) {s : State} (h : s.Arbiter) : Nested s (s.emit e) :=
  .of_same h rfl rfl rfl rfl rfl rfl rfl le_rfl (fun _ _ _ => rfl)

/-- `callback` (R89). -/
theorem callback_nested (hd : Dispatches n dn) (id : Nat) {s : State} (h : s.Arbiter) (hw : pendingWork s ≤ n) :
    Nested s (callback dn id s) ∧ pendingWork (callback dn id s) ≤ pendingWork s := by
  have he := emit_nested (.callback id (s.cmd id).result) h
  obtain ⟨h2, hle⟩ := hostCall_nested hd he.arbiter hw
  exact ⟨he.trans h2, hle⟩

/-- `notify`, if a driver is attached (R88). -/
theorem notifyIf_nested (hd : Dispatches n dn) (a : Bool) (hu : UnitId) (ev : EvKind) (u : Option UnitId) {s : State}
    (h : s.Arbiter) (hw : pendingWork s ≤ n) :
    Nested s (notifyIf a dn hu ev u s) ∧ pendingWork (notifyIf a dn hu ev u s) ≤ pendingWork s := by
  unfold notifyIf
  split
  · have he := emit_nested (.notify hu ev.code (unitArgument u)) h
    obtain ⟨h2, hle⟩ := hostCall_nested hd he.arbiter hw
    exact ⟨he.trans h2, hle⟩
  · exact ⟨.refl h, le_rfl⟩

/-! ## Completion -/

theorem finish_cmd_other {id k : Nat} {res : Result} {s : State} (h : k ≠ id) : (finish id res s).cmd k = s.cmd k := by
  unfold finish
  rw [modCmd_cmd_other _ _ _ _ h]
  exact modCmd_cmd_other id k _ s h

/-- The delivery of the current command frees the bus and takes it out of flight (R180). -/
theorem finish_inFlight {id : Nat} {res : Result} {s : State} : (finish id res s).inFlight = s.queue := rfl

theorem finish_length (id : Nat) (res : Result) (s : State) : (finish id res s).cmds.length = s.cmds.length := by
  simp [finish]

theorem finish_arbiter {id : Nat} {res : Result} {s : State} (h : s.Arbiter) (hc : s.current = some id) :
    (finish id res s).Arbiter := by
  have hq : ∀ k ∈ s.queue, (finish id res s).cmd k = s.cmd k := fun k hk =>
    finish_cmd_other (fun e => h.current_not_queued hc (e ▸ hk))
  have hsub : ∀ k ∈ s.queue, k ∈ s.inFlight := fun k hk => mem_inFlight.mpr (.inr hk)
  refine ⟨by simp [State.BusMatchesCurrent, finish], ⟨?_, fun k hk => ?_⟩, fun k hk => ?_, fun k hk => ?_,
    fun k hk => ?_, ?_, fun _ => rfl⟩
  · exact (List.nodup_append.mp h.owned.1).2.1
  · rw [finish_length]
    exact h.owned.2 k (hsub k hk)
  · rw [hq k hk]
    exact h.queued k hk
  · cases hk
  · rw [finish_inFlight] at hk
    rw [hq k hk]
    exact h.counts k (hsub k hk)
  · exact h.order.imp_of_mem (fun {a b} ha hb hab => by rw [hq a ha, hq b hb]; exact hab)

theorem finish_leaves {id : Nat} {res : Result} {s : State} (hc : s.current = some id) :
    Leaves s (finish id res s) :=
  .of_inFlight rfl rfl rfl (finish_length _ _ _).ge (fun _ hk => mem_inFlight.mpr (.inr hk))
    (fun _ hk => finish_cmd_other (fun e => hk.2.2 (mem_inFlight.mpr (.inl (e ▸ hc)))))

/-- A completion settles its command: it is delivered, and what is queued behind it is dispatched (P180). -/
theorem completeIO_settled (hd : Dispatches n dn) (res : Result) {id : Nat} {s : State} (h : s.Arbiter)
    (hc : s.current = some id) (hw : pendingWork s ≤ n) : Settled s (completeIO dn res s) := by
  have hp : pendingWork (finish id res s) = pendingWork s := rfl
  obtain ⟨hcb, hle⟩ := callback_nested hd id (finish_arbiter (res := res) h hc) (hp ▸ hw)
  obtain ⟨hdn, hdr, hle'⟩ := hd _ hcb.arbiter (hle.trans (hp ▸ hw))
  have hn := hcb.trans hdn
  unfold completeIO
  rw [hc]
  exact ⟨hn.arbiter, (finish_leaves hc).trans hn.leaves, hn.free rfl, hdr, hle'.trans (hle.trans hp.le)⟩

/-- The end of a command's handling: its last phase, then the completion. -/
theorem complete_settled (hd : Dispatches n dn) (res : Result) {id : Nat} {s : State} (h : s.Arbiter)
    (hc : s.current = some id) (hw : pendingWork s ≤ n) :
    Settled s (completeIO dn res (setPhase phComplete s)) := by
  have hp := setPhase_handled phComplete s
  exact hp.settled (completeIO_settled hd res (hp.arbiter h hc) (hp.current.trans hc) (hp.pendingWork.trans_le hw))

/-! ## Callouts -/

theorem enterCallout_arbiter {s : State} (h : s.Arbiter) (ht : s.timer.armed = false) : (enterCallout s).Arbiter where
  bus := by simp [State.BusMatchesCurrent]
  owned := ⟨(List.nodup_append.mp h.owned.1).2.1, fun k hk => h.owned.2 k (mem_inFlight.mpr (.inr hk))⟩
  queued := h.queued
  inUse := fun _ hk => nomatch hk
  counts := fun k hk => h.counts k (mem_inFlight.mpr (.inr hk))
  order := h.order
  idle := fun _ => ht

/-- In a callout the command that asked for it is held by the action around (P185). -/
theorem enterCallout_held {id : Nat} {s : State} (h : s.Arbiter) (hc : s.current = some id) :
    (enterCallout s).Held id :=
  ⟨h.current_stored hc, h.inUse id hc, h.current_not_queued hc⟩

theorem leaveCallout_of_snap {t : State} {p : Snapshot} {rest : List Snapshot} (h : t.snap = p :: rest) :
    leaveCallout t = { t with
      current := p.current, bus := p.bus, qstate := p.qstate, igate := p.igate, snap := rest } := by
  unfold leaveCallout
  rw [h]

/-- A held command may become current again on a Free bus, whatever the locks (R385). -/
theorem State.Arbiter.resume {id : Nat} {t : State} (h : t.Arbiter) (hn : t.current = none) (hh : t.Held id)
    (hc : countsWf (t.cmd id)) {q : QState} {g : Gate} {p : List Snapshot} :
    State.Arbiter { t with current := some id, bus := .busy, qstate := q, igate := g, snap := p } where
  bus := by simp [State.BusMatchesCurrent]
  owned := by
    have ho := h.owned
    have hf := hh.2.2
    simp only [State.OwnedOnce, State.inFlight, hn, Option.toList_none, List.nil_append] at ho hf
    exact ⟨List.nodup_cons.mpr ⟨hf, ho.1⟩, fun k hk => (List.mem_cons.mp hk).elim (fun e => e ▸ hh.1) (ho.2 k)⟩
  queued := h.queued
  inUse := fun k hk => by
    cases hk
    exact hh.2.1
  counts := fun k hk => by
    rcases mem_inFlight.mp hk with hk | hk
    · cases hk
      exact hc
    · exact h.counts k (mem_inFlight.mpr (.inr hk))
  order := h.order
  idle := fun hb => by cases hb

/-- What a callout comes to: the arbiter is as before it, the command that asked for it current again (P185, R385). -/
theorem notifyEvent_keeps (hd : Dispatches n dn) (ev : EvKind) (u : Option UnitId) {id : Nat} {s : State}
    (h : s.Arbiter) (hc : s.current = some id) (ht : s.timer.armed = false) (hw : pendingWork s ≤ n) :
    (notifyEvent dn ev u s).Arbiter ∧ Leaves s (notifyEvent dn ev u s) ∧ (notifyEvent dn ev u s).current = some id
      ∧ pendingWork (notifyEvent dn ev u s) ≤ pendingWork s := by
  have henter := enterCallout_arbiter h ht
  obtain ⟨h0, hle0⟩ := notifyIf_nested hd s.params.attached0 .u0 ev u henter hw
  obtain ⟨h1, hle1⟩ := notifyIf_nested hd s.params.attached1 .u1 ev u h0.arbiter (hle0.trans hw)
  unfold notifyEvent
  generalize notifyIf s.params.attached1 dn .u1 ev u
    (notifyIf s.params.attached0 dn .u0 ev u (enterCallout s)) = t at h1 hle1 ⊢
  have hn := h0.trans h1
  have hle : pendingWork t ≤ pendingWork s := hle1.trans hle0
  have hid := hn.leaves.held id (enterCallout_held h hc)
  rw [leaveCallout_of_snap (hn.leaves.snap.trans (enterCallout_snap s))]
  have hfree : t.bus = .free := (hn.free rfl).resolve_right (fun hp =>
    absurd (hp.qstate.symm.trans hn.leaves.qstate) (by simp))
  have hnone : t.current = none := hn.arbiter.free_current hfree
  have hinfl : t.inFlight = t.queue := by
    unfold State.inFlight
    rw [hnone]
    rfl
  have ha : State.Arbiter { t with
      current := s.current, bus := s.bus, qstate := s.qstate, igate := s.igate, snap := s.snap } := by
    rw [hc, h.busy hc]
    exact hn.arbiter.resume hnone hid.2 (hid.1 ▸ h.counts id (mem_inFlight.mpr (.inl hc)))
  refine ⟨ha, ⟨rfl, rfl, rfl, fun k hk => ?_⟩, hc, hle⟩
  have hkq : (enterCallout s).Held k := ⟨hk.1, hk.2.1, fun hm => hk.2.2 (mem_inFlight.mpr (.inr hm))⟩
  obtain ⟨hkc, hks, hku, hkf⟩ := hn.leaves.held k hkq
  refine ⟨hkc, hks, hku, fun hm => ?_⟩
  rcases mem_inFlight.mp hm with hm | hm
  · exact hk.2.2 (mem_inFlight.mpr (.inl hm))
  · exact hkf (hinfl ▸ hm)

/-! ## Flushes -/

/-- What a flush makes of a victim's record (P288). -/
def cancelled (c : Command) : Command :=
  { c with state := phDone, result := if c.result = .unset then .cancelled else c.result, inUse := false }

theorem cancelAll_cons (v : Nat) (vs : List Nat) (s : State) :
    cancelAll dn (v :: vs) s = cancelAll dn vs (callback dn v (s.modCmd v cancelled)) := rfl

/-- Cancelling held victims, in order: the arbiter goes on as it was, and the other records held stay (P288). -/
theorem cancelAll_keeps (hd : Dispatches n dn) (vs : List Nat) {id : Nat} {s : State} (h : s.Arbiter)
    (hc : s.current = some id) (hnd : vs.Nodup) (hv : ∀ v ∈ vs, s.Held v) (hw : pendingWork s ≤ n) :
    (cancelAll dn vs s).Arbiter ∧ (cancelAll dn vs s).current = some id
      ∧ ((cancelAll dn vs s).qstate = s.qstate ∧ (cancelAll dn vs s).igate = s.igate
        ∧ (cancelAll dn vs s).snap = s.snap)
      ∧ (∀ k, s.Held k → k ∉ vs → (cancelAll dn vs s).cmd k = s.cmd k ∧ (cancelAll dn vs s).Held k)
      ∧ pendingWork (cancelAll dn vs s) ≤ pendingWork s := by
  induction vs generalizing s with
  | nil => exact ⟨h, hc, ⟨rfl, rfl, rfl⟩, fun k hk _ => ⟨rfl, hk⟩, le_rfl⟩
  | cons v vs ih =>
    rw [cancelAll_cons]
    obtain ⟨hvn, hnd⟩ := List.nodup_cons.mp hnd
    have hvh := hv v List.mem_cons_self
    have hother : ∀ k, k ≠ v → (s.modCmd v cancelled).cmd k = s.cmd k := fun k hk => modCmd_cmd_other _ _ _ _ hk
    have ha : (s.modCmd v cancelled).Arbiter := h.congr_inFlight rfl rfl rfl (modCmd_length _ _ _).ge rfl
      (fun k hk => hother k (fun e => hvh.2.2 (e ▸ hk)))
    have hheld : ∀ k, s.Held k → k ≠ v → (s.modCmd v cancelled).cmd k = s.cmd k
        ∧ (s.modCmd v cancelled).Held k := fun k hk hkv =>
      ⟨hother k hkv, (modCmd_length v cancelled s).symm ▸ hk.1, by rw [hother k hkv]; exact hk.2.1, hk.2.2⟩
    obtain ⟨hcb, hle⟩ := callback_nested hd v ha hw
    have hc1 : (callback dn v (s.modCmd v cancelled)).current = some id := (hcb.busy (h.busy hc)).2.1.trans hc
    have hstep : ∀ k, s.Held k → k ≠ v → (callback dn v (s.modCmd v cancelled)).cmd k = s.cmd k
        ∧ (callback dn v (s.modCmd v cancelled)).Held k := fun k hk hkv => by
      obtain ⟨hk1, hk2⟩ := hheld k hk hkv
      obtain ⟨hk3, hk4⟩ := hcb.leaves.held k hk2
      exact ⟨hk3.trans hk1, hk4⟩
    obtain ⟨ra, rc, ⟨rq, rg, rs⟩, rh, rw'⟩ := ih hcb.arbiter hc1 hnd
      (fun w hw => (hstep w (hv w (List.mem_cons_of_mem _ hw)) (fun e => hvn (e ▸ hw))).2) (hle.trans hw)
    refine ⟨ra, rc, ⟨rq.trans hcb.leaves.qstate, rg.trans hcb.leaves.igate, rs.trans hcb.leaves.snap⟩,
      fun k hk hkv => ?_, rw'.trans hle⟩
    rw [List.mem_cons, not_or] at hkv
    obtain ⟨hkv, hkvs⟩ := hkv
    obtain ⟨h1, h2⟩ := hstep k hk hkv
    obtain ⟨h3, h4⟩ := rh k h2 hkvs
    exact ⟨h3.trans h1, h4⟩

end Host

end Sys2Proof.Machine
end

section
/-! The handlers settle the command they are called for, and so does the dispatch, however deep it nests (R170, R183);
what holds at a border of gate actions, from the invariant of the arbiter. -/

namespace Sys2Proof.Machine

section Handlers

variable {n : Nat} {dn : State → State}

/-- What the order of a command and its phase say of a current one (R33 I-e, R335). -/
theorem SameOrder.currentWf {c c' : Command} (h : SameOrder c c') (hu : c.inUse = true) (hr : c.result = .unset)
    (ho : isExecOp c.opcode = true) (hn : c.flags.noirq = false) (hp : phaseWf c') : Machine.currentWf c' :=
  ⟨h.inUse.trans hu, h.result.trans hr, by rw [h.opcode]; exact ho, by rw [h.flags]; exact hn, hp⟩

/-- The current command is an ExecIO not yet delivered; an asynchronous one only with an Open queue (R171). -/
structure State.Executing (id : Nat) (s : State) : Prop where
  arbiter : s.Arbiter
  current : s.current = some id
  unset   : s.cur.result = .unset
  exec    : isExecOp s.cur.opcode = true
  async   : s.cur.flags.noirq = false → s.qstate = .opened

theorem State.Executing.live {id : Nat} {s : State} (h : s.Executing id) : s.Live := h.arbiter.live h.current

theorem State.Executing.inUse {id : Nat} {s : State} (h : s.Executing id) : s.cur.inUse = true := by
  rw [cur_some id s h.current]
  exact h.arbiter.inUse id h.current

/-- The work for the command leaves it so. -/
theorem Handled.executing {id : Nat} {s t : State} (h : Handled s t) (he : s.Executing id) : t.Executing id :=
  ⟨h.arbiter he.arbiter he.current, h.current.trans he.current, h.cur_order.result.trans he.unset,
    by rw [h.cur_order.opcode]; exact he.exec,
    fun hn => h.qstate.trans (he.async (by rw [← h.cur_order.flags]; exact hn))⟩

/-- An asynchronous ExecIO with an armed timer, in a phase of an ExecIO, is in progress. -/
theorem State.Executing.inProgress {id : Nat} {s : State} (h : s.Executing id) (hn : s.cur.flags.noirq = false)
    (hp : phaseWf s.cur) (ht : s.timer.armed = true) : s.InProgress :=
  ⟨h.arbiter.busy h.current, h.async hn, ht, fun k hk => by
    rw [← cur_some k s hk]
    exact (SameOrder.refl s.cur).currentWf h.inUse h.unset h.exec hn hp⟩

/-- One step of an asynchronous command completes it or leaves it in progress (P246). -/
theorem asyncIO_settled (hd : Dispatches n dn) {id : Nat} {s : State} (h : s.Executing id)
    (hn : s.cur.flags.noirq = false) (hp : phaseWf s.cur) (ht : s.timer.armed = true) (hw : pendingWork s ≤ n) :
    Settled s (asyncIO dn s) := by
  have hh := phaseStep_handled s
  have he := hh.executing h
  unfold asyncIO
  dsimp only
  split
  · exact hh.settled (completeIO_settled hd _ he.arbiter he.current (hh.pendingWork.trans_le hw))
  · have hprog := he.inProgress (by rw [hh.cur_order.flags]; exact hn) (phaseStep_phaseWf h.live hp)
      (by rw [(phaseStep_kept s).timer]; exact ht)
    exact .of_inProgress hh.leaves he.arbiter hprog hh.pendingWork.le

/-- A failed selection completes a synchronous command, and leaves an asynchronous one to its deadline (R244). -/
theorem selectionFailed_settled (hd : Dispatches n dn) {id : Nat} {s : State} (h : s.Executing id)
    (hw : pendingWork s ≤ n) : Settled s (selectionFailed dn s) := by
  unfold selectionFailed
  split
  · exact complete_settled hd _ h.arbiter h.current hw
  · next hn =>
    have hh := (setPhase_handled phComplete s).trans (startTimer_handled s.params.tSelFail _)
    have hphase : (startTimer s.params.tSelFail (setPhase phComplete s)).cur.state = phComplete := by
      rw [(startTimer_handled _ _).cur_eq (startTimer_cmds _ _), setPhase_state _ h.live]
    have hprog := (hh.executing h).inProgress (by rw [hh.cur_order.flags]; simpa using hn)
      (phaseWf_complete hphase) (by rw [startTimer_timer])
    exact .of_inProgress hh.leaves (hh.executing h).arbiter hprog hh.pendingWork.le

/-- A synchronous command is completed in the same action (P247). -/
theorem synchronousIO_settled (hd : Dispatches n dn) {id : Nat} {s : State} (h : s.Arbiter)
    (hc : s.current = some id) (hw : pendingWork s ≤ n) : Settled s (synchronousIO dn s) := by
  have hh := (writeControl_handled ctlNIen s).trans
    (syncLoop_handled (deadlineSleeps (writeControl ctlNIen s)) (writeControl ctlNIen s))
  exact hh.settled (completeIO_settled hd _ (hh.arbiter h hc) (hh.current.trans hc) (hh.pendingWork.trans_le hw))

/-- `handleExecIO` (P242). -/
theorem handleExecIO_settled (hd : Dispatches n dn) {id : Nat} {s : State} (h : s.Executing id)
    (hs : s.cur.state = phStarted) (hw : pendingWork s ≤ n) : Settled s (handleExecIO dn s) := by
  have hsel := selectDevice_handled s.cur.unit s
  unfold handleExecIO
  dsimp only
  split
  · exact hsel.settled (selectionFailed_settled hd (hsel.executing h) (hsel.pendingWork.trans_le hw))
  have hh := hsel.trans (startTimer_handled (timeoutUs s.cur) _)
  have hcur := hh.cur_eq ((startTimer_cmds _ _).trans (selectDevice_cmds _ s))
  split
  · exact hh.settled (synchronousIO_settled hd (hh.executing h).arbiter (hh.executing h).current
      (hh.pendingWork.trans_le hw))
  · next hn =>
    exact hh.settled (asyncIO_settled hd (hh.executing h) (by rw [hcur]; simpa [hcur] using hn)
      (by rw [hcur]; exact phaseWf_started hs) (by rw [startTimer_timer]) (hh.pendingWork.trans_le hw))

/-- `handleRegAccess` (P274). -/
theorem handleRegAccess_settled (hd : Dispatches n dn) {id : Nat} {s : State} (h : s.Arbiter)
    (hc : s.current = some id) (hw : pendingWork s ≤ n) : Settled s (handleRegAccess dn s) := by
  have hsel := selectDevice_handled s.cur.unit s
  have hend : ∀ t code, Handled s t → Settled s (completeIO dn code (setPhase phComplete t)) := fun t code ht =>
    ht.settled (complete_settled hd code (ht.arbiter h hc) (ht.current.trans hc) (ht.pendingWork.trans_le hw))
  unfold handleRegAccess
  dsimp only
  split
  · split
    · exact hend _ _ (hsel.trans (registerWrite_handled _))
    · exact hend _ _ (hsel.trans (registerRead_handled _))
  · exact hend _ _ hsel

/-! ## Resets -/

theorem resetPulse_timer (a : Bool) (s : State) : (resetPulse a s).timer = s.timer := by
  unfold resetPulse
  split <;> simp

theorem softResetBus_timer (a : Bool) (s : State) : (softResetBus a s).2.timer = s.timer := by
  have h := (pollStatus_kept (okReady (!a && s.devInfo0.type == .ata)) noAbort s.params.nReset
    (sleep s.params.tSettle (resetPulse a s))).timer
  rw [sleep_timer, resetPulse_timer] at h
  exact h

theorem atapiReset_handled (u : UnitId) (s : State) : Handled s (atapiReset u s).2 := by
  unfold atapiReset
  split
  · exact ((selected_handled none s).trans (wr8_handled _ _ _)).trans (softResetBus_handled _ _)
  · exact .refl s

theorem atapiReset_timer (u : UnitId) (s : State) : (atapiReset u s).2.timer = s.timer := by
  unfold atapiReset
  split
  · exact softResetBus_timer _ _
  · rfl

/-- The callout and the completion of a reset (R284, R285). -/
theorem finishReset_settled (hd : Dispatches n dn) (ev : EvKind) (u : Option UnitId) (r : Result × State) {id : Nat}
    (h : r.2.Arbiter) (hc : r.2.current = some id) (ht : r.2.timer.armed = false) (hw : pendingWork r.2 ≤ n) :
    Settled r.2 (finishReset dn ev u r) := by
  obtain ⟨ha, hl, hc', hle⟩ := notifyEvent_keeps hd ev u h hc ht hw
  exact (complete_settled hd r.1 ha hc' (hle.trans hw)).after hl hle

/-- `handleBusReset` (P280). -/
theorem handleBusReset_settled (hd : Dispatches n dn) {id : Nat} {s : State} (h : s.Arbiter)
    (hc : s.current = some id) (ht : s.timer.armed = false) (hw : pendingWork s ≤ n) :
    Settled s (handleBusReset dn s) := by
  have hend : ∀ (ev : EvKind) (u : Option UnitId) (r : Result × State), Handled s r.2 → r.2.timer = s.timer →
      Settled s (finishReset dn ev u r) := fun ev u r hr htr =>
    hr.settled (finishReset_settled hd ev u r (hr.arbiter h hc) (hr.current.trans hc) (by rw [htr]; exact ht)
      (hr.pendingWork.trans_le hw))
  unfold handleBusReset
  split
  · split
    · exact complete_settled hd _ h hc hw
    · exact hend _ _ _ (atapiReset_handled _ s) (atapiReset_timer _ s)
  · exact hend _ _ _ (softResetBus_handled _ s) (softResetBus_timer _ s)

/-! ## Flushes -/

/-- The queue is emptied before the victims are cancelled (P288). -/
theorem emptied_arbiter {s : State} (h : s.Arbiter) : State.Arbiter { s with queue := [] } where
  bus := h.bus
  owned := ⟨by
      have hn := (List.nodup_append.mp h.owned.1).1
      simpa [State.inFlight] using hn,
    fun k hk => h.owned.2 k (mem_inFlight.mpr ((mem_inFlight.mp hk).imp_right (fun m => nomatch m)))⟩
  queued := fun _ hk => nomatch hk
  inUse := h.inUse
  counts := fun k hk => h.counts k (mem_inFlight.mpr ((mem_inFlight.mp hk).imp_right (fun m => nomatch m)))
  order := List.Pairwise.nil
  idle := h.idle

/-- `handleQueueFlush` (P288). -/
theorem handleQueueFlush_settled (hd : Dispatches n dn) {id : Nat} {s : State} (h : s.Arbiter)
    (hc : s.current = some id) (hw : pendingWork s ≤ n) : Settled s (handleQueueFlush dn s) := by
  have hwork : pendingWork { s with queue := [] } ≤ pendingWork s := Nat.add_le_add_right (Nat.zero_le _) _
  have hheld : ∀ k, k ∈ s.queue ∨ s.Held k → State.Held k { s with queue := [] } := fun k hk => by
    have hstored : k < s.cmds.length := hk.elim (fun m => h.owned.2 k (mem_inFlight.mpr (.inr m))) (·.1)
    have huse : (s.cmd k).inUse = true := hk.elim (fun m => (h.queued k m).2.1) (·.2.1)
    refine ⟨hstored, huse, fun hm => ?_⟩
    have hcur : s.current = some k := (mem_inFlight.mp hm).resolve_right (fun m => nomatch m)
    exact hk.elim (h.current_not_queued hcur) (fun m => m.2.2 (mem_inFlight.mpr (.inl hcur)))
  obtain ⟨ha, hc', ⟨hq, hg, hs⟩, hk, hle⟩ := cancelAll_keeps hd s.queue (emptied_arbiter h) hc
    (List.nodup_append.mp h.owned.1).2.1 (fun v hv => hheld v (.inl hv)) (hwork.trans hw)
  have hl : Leaves s (cancelAll dn s.queue { s with queue := [] }) := ⟨hq, hg, hs, fun k hkh =>
    hk k (hheld k (.inr hkh)) (fun m => hkh.2.2 (mem_inFlight.mpr (.inr m)))⟩
  have hle' := hle.trans hwork
  exact (complete_settled hd _ ha hc' (hle'.trans hw)).after hl hle'

/-! ## Every handler -/

/-- The current command was just dispatched: Started, not delivered, asynchronous only with an Open queue (P170). -/
structure State.Dispatched (id : Nat) (s : State) : Prop where
  arbiter : s.Arbiter
  current : s.current = some id
  started : s.cur.state = phStarted
  unset   : s.cur.result = .unset
  async   : s.cur.flags.noirq = false → s.qstate = .opened
  idle    : s.timer.armed = false

/-- The handler of a dispatched command settles it, whatever its opcode (R140, R183). -/
theorem runHandler_settled (hd : Dispatches n dn) {id : Nat} {s : State} (h : s.Dispatched id)
    (hw : pendingWork s ≤ n) : Settled s (runHandler dn s) := by
  unfold runHandler
  split
  · next ho => exact handleExecIO_settled hd ⟨h.arbiter, h.current, h.unset, ho, h.async⟩ h.started hw
  split
  · exact handleRegAccess_settled hd h.arbiter h.current hw
  split
  · exact handleBusReset_settled hd h.arbiter h.current h.idle hw
  split
  · exact handleQueueFlush_settled hd h.arbiter h.current hw
  · exact complete_settled hd _ h.arbiter h.current hw

/-! ## Dispatch -/

/-- The state in which the handler of the head of the queue runs (P170). -/
def headTaken (id : Nat) (rest : List Nat) (s : State) : State :=
  becomeCurrent id { s with bus := .busy, queue := rest }

theorem headTaken_length (id : Nat) (rest : List Nat) (s : State) :
    (headTaken id rest s).cmds.length = s.cmds.length := modCmd_length _ _ _

theorem headTaken_cmd_other {id k : Nat} {rest : List Nat} {s : State} (h : k ≠ id) :
    (headTaken id rest s).cmd k = s.cmd k := modCmd_cmd_other id k _ _ h

theorem headTaken_cmd_same {id : Nat} {rest : List Nat} {s : State} (h : id < s.cmds.length) :
    (headTaken id rest s).cmd id = onDispatch (s.qstate == .locked) (s.cmd id) := modCmd_cmd_same id _ _ h

/-- What waits after a command was taken off the queue (entry 16). -/
theorem pendingWork_headTaken {id : Nat} {rest : List Nat} {s : State} (hq : s.queue = id :: rest) :
    pendingWork (headTaken id rest s) + 1 = pendingWork s := by
  have hp : pendingWork (headTaken id rest s) = rest.length + (s.host.map List.length).sum := rfl
  rw [hp, pendingWork, hq, List.length_cons]
  omega

/-- The command taken off the queue was in flight, so no record that is held changes (P170). -/
theorem headTaken_leaves {id : Nat} {rest : List Nat} {s : State} (hq : s.queue = id :: rest) :
    Leaves s (headTaken id rest s) := by
  have hin : ∀ k, k = id ∨ k ∈ rest → k ∈ s.inFlight := fun k hk =>
    mem_inFlight.mpr (.inr (hq ▸ List.mem_cons.mpr hk))
  refine .of_inFlight rfl rfl rfl (headTaken_length _ _ _).ge (fun k hk => hin k ?_) (fun k hk => ?_)
  · exact (mem_inFlight.mp hk).imp_left (fun e => (Option.some.inj e).symm)
  · exact headTaken_cmd_other (fun e => hk.2.2 (hin k (.inl e)))

/-- The head of the queue is one stored record, and stands in the queue once (R33 I-b, I-c). -/
theorem State.Arbiter.head {id : Nat} {rest : List Nat} {s : State} (h : s.Arbiter) (hq : s.queue = id :: rest) :
    id < s.cmds.length ∧ id ∉ rest ∧ rest.Nodup := by
  have hn := (List.nodup_append.mp h.owned.1).2.1
  rw [hq] at hn
  exact ⟨h.owned.2 id (mem_inFlight.mpr (.inr (hq ▸ List.mem_cons_self))), List.nodup_cons.mp hn⟩

/-- Taking the head of the queue keeps the invariant (P170, R166). -/
theorem headTaken_arbiter {id : Nat} {rest : List Nat} {s : State} (h : s.Arbiter) (hq : s.queue = id :: rest) :
    (headTaken id rest s).Arbiter := by
  obtain ⟨hid, hnd⟩ := h.head hq
  have hqueue : ∀ k ∈ id :: rest, k ∈ s.queue := fun k hk => hq ▸ hk
  have hin : ∀ k ∈ id :: rest, k ∈ s.inFlight := fun k hk => mem_inFlight.mpr (.inr (hqueue k hk))
  have hcmd := headTaken_cmd_same (rest := rest) hid
  have hrest : ∀ k ∈ rest, (headTaken id rest s).cmd k = s.cmd k := fun k hk =>
    headTaken_cmd_other (fun e => hnd.1 (e ▸ hk))
  have horder : (id :: rest).Pairwise (fun a b => (s.cmd b).flags.imm = true → (s.cmd a).flags.imm = true) :=
    hq ▸ h.order
  refine ⟨by simp [State.BusMatchesCurrent, headTaken, becomeCurrent], ⟨List.nodup_cons.mpr hnd, fun k hk => ?_⟩,
    fun k hk => ?_, fun k hk => ?_, fun k hk => ?_, ?_, fun hf => by cases hf⟩
  · rw [headTaken_length]
    exact h.owned.2 k (hin k hk)
  · rw [hrest k hk]
    exact h.queued k (hqueue k (List.mem_cons_of_mem _ hk))
  · cases hk
    rw [hcmd]
    exact (h.queued id (hqueue id List.mem_cons_self)).2.1
  · rcases mem_inFlight.mp hk with hk | hk
    · cases hk
      rw [hcmd]
      exact h.counts id (hin id List.mem_cons_self)
    · rw [hrest k hk]
      exact h.counts k (hin k (List.mem_cons_of_mem _ hk))
  · exact (List.pairwise_cons.mp horder).2.imp_of_mem (fun {a b} ha hb hab => by
      rw [hrest a ha, hrest b hb]; exact hab)

/-- Under a Locked queue `noirq` is forced, so an asynchronous command was dispatched from an Open one (R171). -/
theorem onDispatch_async {q : QState} {c : Command} (h : (onDispatch (q == .locked) c).flags.noirq = false) :
    q = .opened := by
  have hl : (q == QState.locked) = false := (Bool.or_eq_false_iff.mp h).2
  cases q with
  | opened => rfl
  | locked => cases hl

/-- The head of the queue of a Free bus is dispatched when it is taken (P170, R171, R172). -/
theorem headTaken_dispatched {id : Nat} {rest : List Nat} {s : State} (h : s.Arbiter) (hb : s.bus = .free)
    (hq : s.queue = id :: rest) : (headTaken id rest s).Dispatched id := by
  obtain ⟨hid, -⟩ := h.head hq
  obtain ⟨-, -, hunset, -⟩ := h.queued id (hq ▸ List.mem_cons_self)
  have hcur : (headTaken id rest s).cur = onDispatch (s.qstate == .locked) (s.cmd id) :=
    (cur_some id _ rfl).trans (headTaken_cmd_same hid)
  exact ⟨headTaken_arbiter h hq, rfl, by rw [hcur]; rfl, by rw [hcur]; exact hunset,
    fun hn => onDispatch_async (hcur ▸ hn), h.idle hb⟩

theorem canDispatch_free {s : State} (h : canDispatch s = true) : s.bus = .free := by
  unfold canDispatch at h
  rw [Bool.and_eq_true] at h
  exact eq_of_beq h.1

/-- An Open queue on a Free bus may be dispatched (R168). -/
theorem canDispatch_opened {s : State} (hb : s.bus = .free) (hq : s.qstate = .opened) : canDispatch s = true := by
  simp [canDispatch, hb, hq]

theorem dispatchStep_blocked {s : State} (h : ¬ canDispatch s = true) : dispatchStep dn s = s := by
  unfold dispatchStep
  rw [if_neg h]

/-- With nothing queued a dispatch changes nothing (R170). -/
theorem dispatchStep_nil {s : State} (h : canDispatch s = true) (hq : s.queue = []) : dispatchStep dn s = s := by
  have hd : dequeueFirst { s with bus := .busy } = (none, { s with bus := .busy }) := by simp [dequeueFirst, hq]
  unfold dispatchStep
  rw [if_pos h, hd]
  dsimp only
  rw [← canDispatch_free h]

/-- The head of the queue becomes current and its handler runs (P170). -/
theorem dispatchStep_cons {id : Nat} {rest : List Nat} {s : State} (h : canDispatch s = true)
    (hq : s.queue = id :: rest) :
    dispatchStep dn s = runHandler dn (headTaken id rest s) := by
  have hd : dequeueFirst { s with bus := .busy } = (some id, { s with bus := .busy, queue := rest }) := by
    simp [dequeueFirst, hq]
  unfold dispatchStep
  rw [if_pos h, hd]
  rfl

/-- One dispatch, with the dispatches it nests (P170). -/
theorem dispatchStep_dispatches (hd : Dispatches n dn) : Dispatches (n + 1) (dispatchStep dn) := by
  intro s h hw
  by_cases hcan : canDispatch s = true
  case neg =>
    rw [dispatchStep_blocked hcan]
    exact ⟨.refl h, fun hb hq => absurd (canDispatch_opened hb hq) hcan, le_rfl⟩
  cases hq : s.queue with
  | nil =>
    rw [dispatchStep_nil hcan hq]
    exact ⟨.refl h, fun _ _ => hq, le_rfl⟩
  | cons id rest =>
    have hb := canDispatch_free hcan
    have hwork := pendingWork_headTaken hq
    have hst := runHandler_settled hd (headTaken_dispatched h hb hq) (by omega)
    rw [dispatchStep_cons hcan hq]
    refine ⟨⟨hst.arbiter, (headTaken_leaves hq).trans hst.leaves, fun hbusy => ?_, fun _ => hst.done⟩,
      hst.drained, hst.work.trans (by omega)⟩
    rw [hb] at hbusy
    cases hbusy

end Handlers

theorem dispatchN_dispatches (n : Nat) : Dispatches n (dispatchN n) := by
  induction n with
  | zero =>
    intro s h hw
    have hq : s.queue = [] := by
      rw [pendingWork] at hw
      exact List.length_eq_zero_iff.mp (by omega)
    exact ⟨.refl h, fun _ _ => hq, le_rfl⟩
  | succ n ih => exact dispatchStep_dispatches ih

/-- `dispatchNext` finds all that waits, whatever the bound: its own is enough (entry 16). -/
theorem dispatchNext_dispatches (n : Nat) : Dispatches n dispatchNext := fun s h _ =>
  dispatchN_dispatches (pendingWork s) s h le_rfl

/-! ## Between gate actions -/

theorem State.Quiescent.arbiter {s : State} (h : s.Quiescent) : s.Arbiter where
  bus := h.bus
  owned := h.owned
  queued := h.queued
  inUse := fun id hid => (h.current id hid).1
  counts := h.counts
  order := h.order
  idle := fun hb => by
    have hn : ¬ s.timer.armed = true := fun ha => by
      have := h.bus.mpr (h.armed.mp ha)
      rw [hb] at this
      cases this
    simpa using hn

/-- A current command between gate actions is in progress (R335). -/
theorem State.Quiescent.inProgress {s : State} (h : s.Quiescent) (hb : s.bus = .busy) : s.InProgress :=
  ⟨hb, h.callout.1, h.armed.mpr (h.bus.mp hb), h.current⟩

/-- The invariant of the arbiter gives back what holds between gate actions, when no callout is in progress, nothing
waits on a Free bus, and a current command is in progress. -/
theorem State.Arbiter.quiescent {t : State} (h : t.Arbiter) (hn : t.NoCallout) (hd : t.bus = .free ∨ t.InProgress)
    (hdr : t.Drained) (hb : t.breach = none) : t.Quiescent where
  bus := h.bus
  callout := hn
  owned := h.owned
  queued := h.queued
  current := fun id hid => hd.elim (fun hf => by rw [h.free_current hf] at hid; cases hid) (·.current id hid)
  counts := h.counts
  armed := hd.elim (fun hf => by simp [h.idle hf, h.free_current hf]) (fun hp => by simp [hp.armed, h.bus.mp hp.bus])
  drained := fun hf => hdr hf hn.1
  order := h.order
  breach := hb

theorem Leaves.noCallout {s t : State} (h : Leaves s t) (hn : s.NoCallout) : t.NoCallout :=
  ⟨h.qstate.trans hn.1, h.igate.trans hn.2.1, h.snap.trans hn.2.2⟩

/-- Host code outside every action: a submission at a border of gate actions comes to one (P160). -/
theorem State.Quiescent.nested {s t : State} (h : s.Quiescent) (k : Nested s t) (hd : t.Drained)
    (hb : t.breach = none) : t.Quiescent :=
  k.arbiter.quiescent (k.leaves.noCallout h.callout)
    ((bus_free_or_busy s).elim k.free (fun hs => .inr ((h.inProgress hs).nested k))) hd hb

/-- An action on the current command comes to a border of gate actions. -/
theorem Settled.quiescent {s t : State} (h : Settled s t) (hn : s.NoCallout) (hb : t.breach = none) : t.Quiescent :=
  h.arbiter.quiescent (h.leaves.noCallout hn) h.done h.drained hb

/-- What holds between gate actions looks only at the arbiter's fields and the records in flight. -/
theorem State.Quiescent.congr {s t : State} (h : s.Quiescent) (hb : t.bus = s.bus) (hc : t.current = s.current)
    (hq : t.queue = s.queue) (hqs : t.qstate = s.qstate) (hg : t.igate = s.igate) (hs : t.snap = s.snap)
    (ht : t.timer = s.timer) (hbr : t.breach = s.breach) (hl : s.cmds.length ≤ t.cmds.length)
    (hcmd : ∀ id ∈ s.inFlight, t.cmd id = s.cmd id) : t.Quiescent := by
  refine (h.arbiter.congr_inFlight hb hc hq hl ht hcmd).quiescent ⟨hqs.trans h.callout.1, hg.trans h.callout.2.1,
    hs.trans h.callout.2.2⟩ ?_ (fun hf _ => hq.trans (h.drained (hb.symm.trans hf))) (hbr.trans h.breach)
  refine (bus_free_or_busy s).imp (hb.trans ·) (fun hbusy => ?_)
  have hp := h.inProgress hbusy
  refine ⟨hb.trans hbusy, hqs.trans hp.qstate, by rw [ht]; exact hp.armed, fun id hid => ?_⟩
  have hid := hc.symm.trans hid
  rw [hcmd id (mem_inFlight.mpr (.inl hid))]
  exact hp.current id hid

/-- A change of no field that the invariants of a border speak of. -/
theorem State.Quiescent.of_eq {s t : State} (h : s.Quiescent) (hb : t.bus = s.bus) (hc : t.current = s.current)
    (hq : t.queue = s.queue) (hqs : t.qstate = s.qstate) (hg : t.igate = s.igate) (hs : t.snap = s.snap)
    (ht : t.timer = s.timer) (hbr : t.breach = s.breach) (hcm : t.cmds = s.cmds) : t.Quiescent :=
  h.congr hb hc hq hqs hg hs ht hbr (by rw [hcm]) (fun id _ => by unfold State.cmd; rw [hcm])

theorem State.Quiescent.ret {s : State} (h : s.Quiescent) (r : Return) : State.Quiescent { s with ret := r } :=
  h.of_eq rfl rfl rfl rfl rfl rfl rfl rfl rfl

end Sys2Proof.Machine
end

section
/-! Every instruction and every act outside the gate goes from one border of gate actions to another (R33, R335): O55.
-/

namespace Sys2Proof.Machine

/-! ## Submissions -/

/-- A stored record that SUBMIT accepts is ready to be queued (R150, R160). -/
theorem ready_of_accepted {id : Nat} {s : State} (hl : id < s.cmds.length) (hu : (s.cmd id).inUse = false)
    (hn : initialised (s.cmd id) = true) (ha : s.accepts (s.cmd id).toDesc = true) : s.Ready id := by
  obtain ⟨hr, hact⟩ := Bool.and_eq_true _ _ ▸ hn
  have hact : (s.cmd id).actual = 0#32 := eq_of_beq hact
  exact ⟨hl, hu, eq_of_beq hr, hact, countsWf_fresh hact (accepts_legal ha)⟩

theorem submitNew_quiescent {d : Desc} {s : State} (h : s.Quiescent) (ha : s.accepts d = true)
    (hb : (submitNew dispatchNext d s).breach = none) : (submitNew dispatchNext d s).Quiescent := by
  obtain ⟨hn, hd, -⟩ := submitNew_nested (dispatchNext_dispatches _) h.arbiter (accepts_legal ha) le_rfl
  exact h.nested hn hd hb

theorem submitRef_quiescent {id : Nat} {s : State} (h : s.Quiescent) (hr : s.Ready id)
    (hb : (submitRef dispatchNext id s).breach = none) : (submitRef dispatchNext id s).Quiescent := by
  obtain ⟨hn, hd, -⟩ := submitRef_nested (dispatchNext_dispatches _) h.arbiter hr le_rfl
  exact h.nested hn hd hb

/-! ## Interrupts -/

theorem State.Quiescent.executing {id : Nat} {s : State} (h : s.Quiescent) (hc : s.current = some id) :
    s.Executing id := by
  obtain ⟨-, hu, ho, -⟩ := h.current id hc
  rw [← cur_some id s hc] at hu ho
  exact ⟨h.arbiter, hc, hu, ho, fun _ => h.callout.1⟩

/-- An IRQ that advances the current command acknowledges the interrupt and runs a step of it (P360). -/
theorem irqEntry_runs {s : State} (h : irqRuns s = true) :
    ∃ id, s.current = some id ∧ irqEntry s = asyncIO dispatchNext (rd8 .statcmd s).2 := by
  unfold irqRuns at h
  rw [Bool.and_eq_true] at h
  obtain ⟨hen, hadv⟩ := h
  cases hc : s.current with
  | none => rw [hc] at hadv; cases hadv
  | some id =>
    rw [hc] at hadv
    refine ⟨id, rfl, ?_⟩
    simp only [irqEntry, if_pos hen, hc, if_pos hadv]

/-- Another IRQ is dropped or only acknowledged (P360). -/
theorem irqEntry_idle {s : State} (h : irqRuns s = false) : irqEntry s = s ∨ irqEntry s = (rd8 .statcmd s).2 := by
  unfold irqRuns at h
  unfold irqEntry
  by_cases hen : s.irqEn = true
  · rw [if_pos hen]
    rw [hen, Bool.true_and] at h
    dsimp only
    cases hc : s.current with
    | none => exact .inr rfl
    | some id =>
      rw [hc] at h
      dsimp only at h ⊢
      rw [h]
      exact .inr rfl
  · rw [if_neg hen]
    exact .inl rfl

theorem rd8_quiescent (r : Reg) {s : State} (h : s.Quiescent) : (rd8 r s).2.Quiescent :=
  h.of_eq rfl rfl rfl rfl rfl rfl rfl rfl rfl

theorem irqRuns_quiescent {s : State} (h : s.Quiescent) (hr : irqRuns s = true) (hb : (irqEntry s).breach = none) :
    (irqEntry s).Quiescent := by
  obtain ⟨id, hc, he⟩ := irqEntry_runs hr
  have h1 := rd8_quiescent .statcmd h
  have hw := h1.current id hc
  rw [← cur_some id (rd8 .statcmd s).2 hc] at hw
  obtain ⟨-, -, -, hn, hp⟩ := (currentWf_iff _).mp hw
  have hst := asyncIO_settled (dispatchNext_dispatches _) (h1.executing hc) hn hp
    (h1.armed.mpr (by rw [rd8_current, hc]; rfl)) le_rfl
  rw [he] at hb ⊢
  exact hst.quiescent h1.callout hb

/-! ## The timeout -/

/-- A change of the current record that keeps it in use and its counts in bounds is none that others see. -/
theorem State.Arbiter.modCmd_current {id : Nat} {f : Command → Command} {s : State} (h : s.Arbiter)
    (hc : s.current = some id) (hu : (f (s.cmd id)).inUse = true) (hw : countsWf (f (s.cmd id))) :
    (s.modCmd id f).Arbiter ∧ Leaves s (s.modCmd id f) := by
  have hid := modCmd_cmd_same id f s (h.current_stored hc)
  refine ⟨h.congr rfl rfl rfl (modCmd_length _ _ _).ge h.idle (fun k hk => ?_) (fun k hk => ?_),
    .of_inFlight rfl rfl rfl (modCmd_length _ _ _).ge (fun _ hk => hk) (fun k hk => ?_)⟩
  · exact modCmd_cmd_other id k f s (fun e => h.current_not_queued hc (e ▸ hk))
  · cases hc.symm.trans hk
    rw [hid]
    exact ⟨hu, hw⟩
  · exact modCmd_cmd_other id k f s (fun e => hk.2.2 (mem_inFlight.mpr (.inl (e ▸ hc))))

/-- A timeout delivers the current command (P338). -/
theorem handleTimeout_settled {n : Nat} {dn : State → State} (hd : Dispatches n dn) {id : Nat} {s : State}
    (h : s.Arbiter) (hc : s.current = some id) (hw : pendingWork s ≤ n) : Settled s (handleTimeout dn s) := by
  have hstop : Handled s (if (s.cmd id).flags.dma then stopDma s else s) := by
    split
    · exact stopDma_handled s
    · exact .refl s
  unfold handleTimeout
  rw [hc]
  dsimp only
  generalize (if (s.cmd id).flags.dma then stopDma s else s) = s1 at hstop
  have h1 := hstop.arbiter h hc
  have hc1 := hstop.current.trans hc
  obtain ⟨h2, hl2⟩ := h1.modCmd_current (f := fun c => { c with result := .timeout }) hc1 (h1.inUse id hc1)
    (h1.counts id (mem_inFlight.mpr (.inl hc1)))
  have hph := statusPhase_handled .timeout (s1.modCmd id (fun c => { c with result := .timeout }))
  have hend := completeIO_settled hd .timeout (hph.arbiter h2 hc1) (hph.current.trans hc1)
    (hph.pendingWork.trans_le (hstop.pendingWork.trans_le hw))
  exact hstop.settled ((hph.settled hend).after hl2 le_rfl)

theorem expireEntry_quiescent {s : State} (h : s.Quiescent) (he : expireEnabled s = true)
    (hb : (expireEntry s).breach = none) : (expireEntry s).Quiescent := by
  have harmed : s.timer.armed = true := (Bool.and_eq_true _ _ ▸ he).1
  obtain ⟨id, hc⟩ := Option.isSome_iff_exists.mp (h.armed.mp harmed)
  have ha : State.Arbiter { s with timer := { s.timer with armed := false } } :=
    h.arbiter.congr rfl rfl rfl le_rfl (fun _ => rfl) (fun _ _ => rfl)
      (fun k hk => ⟨h.arbiter.inUse k hk, h.counts k (mem_inFlight.mpr (.inl hk))⟩)
  exact (handleTimeout_settled (dispatchNext_dispatches _) ha hc le_rfl).quiescent h.callout hb

/-! ## Every instruction, every step -/

/-- SCAN is admitted only with no command current, and touches no record (R220). -/
theorem scan_quiescent {s : State} (h : s.Quiescent) (hs : scanAdmitted s = true) : (scanForDrives s).2.Quiescent := by
  have hk := scanForDrives_surveyed s
  have hn : s.current = none := by
    unfold scanAdmitted at hs
    rw [Bool.and_eq_true] at hs
    simpa using hs.1
  exact h.congr hk.bus hk.current hk.queue hk.qstate hk.igate hk.snap hk.timer hk.breach hk.length.ge
    (fun id _ => hk.others id (by rw [hn]; simp))

theorem setPMode_quiescent (u : UnitId) (m : PMode) {s : State} (h : s.Quiescent) : (setPMode u m s).Quiescent :=
  h.of_eq (setDevInfo_bus _ _ _) (setDevInfo_current _ _ _) (setDevInfo_queue _ _ _) (setDevInfo_qstate _ _ _)
    (setDevInfo_igate _ _ _) (setDevInfo_snap _ _ _) (setDevInfo_timer _ _ _) (setDevInfo_breach _ _ _)
    (setDevInfo_cmds _ _ _)

/-- Every instruction keeps what holds between gate actions. -/
theorem answers_quiescent {i : Instr} {s t : State} (h : Answers i s t) (hs : s.Quiescent) : t.Quiescent := by
  cases h with
  | row hi hb ha ht => exact (submitNew_quiescent hs ha ht).ret _
  | submitNull => exact hs.ret _
  | submitStored hb hl hu hn ha ht => exact (submitRef_quiescent hs (ready_of_accepted hl hu hn ha) ht).ret _
  | irqRuns hr hb hp ht => exact (irqRuns_quiescent hs hr ht).ret _
  | irqIdle hr =>
    rcases irqEntry_idle hr with he | he
    · rw [he]
      exact hs.ret _
    · rw [he]
      exact (rd8_quiescent _ hs).ret _
  | expire he hb ht => exact (expireEntry_quiescent hs he ht).ret _
  | scan hadm => exact (scan_quiescent hs hadm).ret _
  | config m _ hu => exact (setPMode_quiescent _ m hs).ret _

/-- A reset leaves nothing in flight (R55, R400). -/
theorem resetBlock_quiescent {s : State} (h : s.breach = none) : s.resetBlock.Quiescent where
  bus := by simp [State.BusMatchesCurrent, State.resetBlock]
  callout := ⟨rfl, rfl, rfl⟩
  owned := ⟨List.nodup_nil, fun _ hk => nomatch hk⟩
  queued := fun _ hk => nomatch hk
  current := fun _ hk => nomatch hk
  counts := fun _ hk => nomatch hk
  armed := by simp [State.resetBlock]
  drained := fun _ => rfl
  order := List.Pairwise.nil
  breach := h

/-- The host fills only records that are not in flight (R95). -/
theorem outsideAct_quiescent {a : OutsideAct} {s t : State} (h : outsideAct a s = .ok t) (hs : s.Quiescent) :
    t.Quiescent := by
  obtain rfl | ⟨b, rfl⟩ | ⟨k, bs, rfl⟩ | ⟨d, rfl⟩ | ⟨id, d, -, hu, rfl⟩ := outsideAct_ok h
  · exact resetBlock_quiescent hs.breach
  · exact hs.of_eq rfl rfl rfl rfl rfl rfl rfl rfl rfl
  · exact hs.of_eq rfl rfl rfl rfl rfl rfl rfl rfl rfl
  · exact hs.congr rfl rfl rfl rfl rfl rfl rfl rfl (by simp)
      (fun k hk => List.getD_append _ _ _ _ (hs.owned.2 k hk))
  · exact hs.congr rfl rfl rfl rfl rfl rfl rfl rfl (modCmd_length _ _ _).ge
      (fun k hk => modCmd_cmd_other _ _ _ _ (fun e => hs.arbiter.not_mem_inFlight hu (e ▸ hk)))

end Sys2Proof.Machine

namespace Sys2Proof.Proofs

open Sys2Proof.Machine

/-- Settles O55: each act outside the gate and each instruction (`answers_quiescent`) comes to a border of gate actions;
the heart is `dispatchStep_dispatches`, that a dispatch settles its command whatever it nests. -/
theorem stepKeepsQuiescent : Obligations.StepKeepsQuiescent := fun _ _ hs h =>
  step_keeps (fun _ _ _ => outsideAct_quiescent)
    (fun _ _ _ w => w.of_eq rfl rfl rfl rfl rfl rfl rfl rfl rfl) (fun _ _ _ => answers_quiescent) hs h

end Sys2Proof.Proofs
end

section
/-! The two directions of the encoding (30_encoding.md sections 1 to 4): the fields of a descriptor and the bytes of its
image determine each other, and so do a descriptor and its row of the table. -/

namespace Sys2Proof

/-! ## Fields and bytes -/

/-- A bit as the one-bit field it is. -/
theorem ofBool_getLsbD {w : Nat} (x : BitVec w) (k : Nat) : BitVec.ofBool (x.getLsbD k) = x.extractLsb' k 1 := by
  ext j hj
  obtain rfl : j = 0 := by omega
  simp

/-- Four neighbouring bytes of a field make a word of it (R97). -/
theorem word_of_bytes {w : Nat} (x : BitVec w) (k : Nat) :
    x.extractLsb' (k + 24) 8 ++ x.extractLsb' (k + 16) 8 ++ x.extractLsb' (k + 8) 8 ++ x.extractLsb' k 8
      = x.extractLsb' k 32 := by
  rw [BitVec.extractLsb'_append_extractLsb'_eq_extractLsb' (by omega),
    BitVec.extractLsb'_append_extractLsb'_eq_extractLsb' (by omega),
    BitVec.extractLsb'_append_extractLsb'_eq_extractLsb' (by omega)]

/-- The four bytes of a word make the word. -/
theorem word_bytes (x : Word) :
    x.extractLsb' 24 8 ++ x.extractLsb' 16 8 ++ x.extractLsb' 8 8 ++ x.extractLsb' 0 8 = x :=
  (word_of_bytes x 0).trans BitVec.extractLsb'_eq_self

/-- The four words of the packet make the packet (W13 to W16). -/
theorem pkt_of_words (x : BitVec 128) :
    x.extractLsb' 96 32 ++ x.extractLsb' 64 32 ++ x.extractLsb' 32 32 ++ x.extractLsb' 0 32 = x := by
  rw [BitVec.extractLsb'_append_extractLsb'_eq_extractLsb' (by omega),
    BitVec.extractLsb'_append_extractLsb'_eq_extractLsb' (by omega),
    BitVec.extractLsb'_append_extractLsb'_eq_extractLsb' (by omega), BitVec.extractLsb'_eq_self]

/-- The flags are read back from their two bytes. -/
theorem flags_ofBytes (f : Flags) : Flags.ofBytes f.lowByte f.highByte = f := by
  simp only [Flags.ofBytes, Flags.lowByte, Flags.highByte, BitVec.getLsbD_append, BitVec.getLsbD_ofBool]
  simp

/-- The first flag byte is read back from its flags. -/
theorem lowByte_ofBytes (lo hi : Byte) : (Flags.ofBytes lo hi).lowByte = lo := by
  simp only [Flags.lowByte, Flags.ofBytes, ofBool_getLsbD]
  rw [BitVec.extractLsb'_append_extractLsb'_eq_extractLsb' (by omega),
    BitVec.extractLsb'_append_extractLsb'_eq_extractLsb' (by omega),
    BitVec.extractLsb'_append_extractLsb'_eq_extractLsb' (by omega),
    BitVec.extractLsb'_append_extractLsb'_eq_extractLsb' (by omega),
    BitVec.extractLsb'_append_extractLsb'_eq_extractLsb' (by omega),
    BitVec.extractLsb'_append_extractLsb'_eq_extractLsb' (by omega),
    BitVec.extractLsb'_append_extractLsb'_eq_extractLsb' (by omega), BitVec.extractLsb'_eq_self]

/-- A byte whose bits above the first are clear is its first bit. -/
theorem bit_of_byte {b : Byte} (h : b >>> 1 = 0#8) : (0#7 : BitVec 7) ++ BitVec.ofBool (b.getLsbD 0) = b := by
  have hhigh : b.extractLsb' 1 7 = 0#7 := by
    ext j hj
    have := congrArg (·.getLsbD j) h
    simpa using this
  rw [← hhigh, ofBool_getLsbD, BitVec.extractLsb'_append_extractLsb'_eq_extractLsb' (by omega),
    BitVec.extractLsb'_eq_self]

/-! ## The image of a descriptor -/

/-- The descriptor fields of an image are read back, whatever the write-back words hold (R112). -/
theorem ofBytes_inputBytes (d : Desc) (r : Byte) (a : Word) (u : Bool) :
    Desc.ofBytes (d.inputBytes ++ writeBackBytes d.state r d.endStatus d.endError a u) = d := by
  obtain ⟨op, unit, fl, rm, pl, tm, bc, po, ch, bu, cb, tf, ex, pk, st, es, ee⟩ := d
  simp only [Desc.ofBytes, Desc.mk.injEq]
  refine ⟨rfl, rfl, flags_ofBytes fl, Machine.word_halves rm, rfl, word_bytes tm, word_bytes bc, word_bytes po,
    word_bytes ch, word_bytes bu, word_bytes cb, ?_, rfl, ?_, rfl, rfl, rfl⟩
  · exact congrArg (Taskfile.mk _ _ _ _ _ _ _ _) (Machine.word_halves tf.data)
  · refine Eq.trans ?_ (pkt_of_words pk)
    exact congr (congrArg _ (congr (congrArg _ (congr (congrArg _ (word_of_bytes pk 96)) (word_of_bytes pk 64))) 
      (word_of_bytes pk 32))) (word_of_bytes pk 0)

/-- An image is the list of its bytes. -/
theorem map_byteAt {n : Nat} {bs : List Byte} (hl : bs.length = n) : (List.range n).map (byteAt bs) = bs := by
  apply List.ext_getElem (by simp [hl])
  intro k _ hk
  simp [byteAt, hk]

/-- The bytes of a word of an image (R97). -/
theorem bytes_wordAt (bs : List Byte) (k : Nat) :
    (wordAt bs k).extractLsb' 0 8 = byteAt bs k ∧ (wordAt bs k).extractLsb' 8 8 = byteAt bs (k + 1)
      ∧ (wordAt bs k).extractLsb' 16 8 = byteAt bs (k + 2) ∧ (wordAt bs k).extractLsb' 24 8 = byteAt bs (k + 3) := by
  unfold wordAt
  simp (disch := decide) only [BitVec.extractLsb'_append_eq_of_le, BitVec.extractLsb'_append_eq_of_add_le,
    BitVec.extractLsb'_eq_self, Nat.reduceSub, and_self]

/-- The bytes of a half word of an image (R97). -/
theorem bytes_halfAt (bs : List Byte) (k : Nat) :
    (halfAt bs k).extractLsb' 0 8 = byteAt bs k ∧ (halfAt bs k).extractLsb' 8 8 = byteAt bs (k + 1) :=
  ⟨BitVec.extractLsb'_append_eq_right, BitVec.extractLsb'_append_eq_left⟩

/-- A reserved half word is two reserved bytes. -/
theorem halfAt_zero {bs : List Byte} {k : Nat} (h : halfAt bs k = 0#16) :
    byteAt bs k = 0#8 ∧ byteAt bs (k + 1) = 0#8 := by
  obtain ⟨hlow, hhigh⟩ := bytes_halfAt bs k
  rw [h] at hlow hhigh
  exact ⟨hlow.symm, hhigh.symm⟩

/-- The input bytes of an image with clear reserved bits are those of its fields: no bit is dropped (R112). -/
theorem inputBytes_ofBytes {bs : List Byte} (hr : reservedClear bs = true) :
    (Desc.ofBytes bs).inputBytes = (List.range 68).map (byteAt bs) := by
  simp only [reservedClear, Bool.and_eq_true, beq_iff_eq] at hr
  obtain ⟨⟨⟨⟨⟨⟨⟨h3, h7⟩, h42⟩, h49⟩, h50⟩, -⟩, -⟩, -⟩ := hr
  have hflags : (Flags.ofBytes (byteAt bs 2) (byteAt bs 3)).highByte = byteAt bs 3 := bit_of_byte h3
  obtain ⟨h42, h43⟩ := halfAt_zero h42
  obtain ⟨h50, h51⟩ := halfAt_zero h50
  simp (disch := decide) only [Desc.inputBytes, Desc.ofBytes, hflags, lowByte_ofBytes, bytes_wordAt, bytes_halfAt,
    BitVec.extractLsb'_append_eq_of_le, BitVec.extractLsb'_append_eq_of_add_le, Nat.reduceSub]
  simp only [List.range, List.range.loop, List.map_cons, List.map_nil, h7, h42, h43, h49, h50, h51, Nat.reduceAdd]

/-- The write-back bytes of an image with clear reserved bits are those of its fields (R112, R126). -/
theorem writeBackBytes_of {bs : List Byte} (hr : reservedClear bs = true) :
    writeBackBytes (byteAt bs 68) (byteAt bs 69) (byteAt bs 70) (byteAt bs 71) (wordAt bs 72)
      ((byteAt bs 76).getLsbD 0) = (List.range' 68 12).map (byteAt bs) := by
  simp only [reservedClear, Bool.and_eq_true, beq_iff_eq] at hr
  obtain ⟨⟨⟨-, h76⟩, h77⟩, h78⟩ := hr
  obtain ⟨h78, h79⟩ := halfAt_zero h78
  simp only [writeBackBytes, bytes32, bytes_wordAt, bit_of_byte h76, List.range', List.map_cons, List.map_nil,
    List.cons_append, List.nil_append, h77, h78, h79, Nat.reduceAdd]

/-- An image with clear reserved bits is the image of its fields: no bit of it is dropped (R112). -/
theorem image_ofBytes {bs : List Byte} (hl : bs.length = 80) (hr : reservedClear bs = true) :
    (Desc.ofBytes bs).inputBytes ++ writeBackBytes (byteAt bs 68) (byteAt bs 69) (byteAt bs 70) (byteAt bs 71)
      (wordAt bs 72) ((byteAt bs 76).getLsbD 0) = bs := by
  rw [inputBytes_ofBytes hr, writeBackBytes_of hr, ← List.map_append, List.range_eq_range', List.range'_append_1,
    ← List.range_eq_range', map_byteAt hl]

/-- The reserved bits of an image made from fields are clear (R111). -/
theorem reservedClear_image (d : Desc) (st r es er : Byte) (a : Word) (u : Bool) :
    reservedClear (d.inputBytes ++ writeBackBytes st r es er a u) = true := by
  have hhigh : ∀ b : Bool, (0#7 ++ BitVec.ofBool b : Byte) >>> 1 = 0#8 := by decide
  have h3 := hhigh d.flags.tfres
  have h76 := hhigh u
  simp only [reservedClear, Bool.and_eq_true, beq_iff_eq]
  have hzero : (0#8 ++ 0#8 : Half) = 0#16 := by decide
  exact ⟨⟨⟨⟨⟨⟨⟨h3, rfl⟩, hzero⟩, rfl⟩, hzero⟩, h76⟩, rfl⟩, hzero⟩

/-! ## A descriptor and its row -/

theorem asOp_self {op : Byte} {d : Desc} (h : d.opcode = op) : d.asOp op = d := by
  subst h; rfl

theorem asReset08_self {op : Byte} {d : Desc} (h : d.opcode = op) (hc : d.isReset08 = true) : d.asReset08 op = d := by
  have hcmd : Config.cmdDeviceReset = d.tf.cmd := (beq_iff_eq.mp hc).symm
  subst h
  simp only [Desc.asReset08, hcmd]

theorem asRegacc_self {wr : Bool} {d : Desc} (h : d.opcode = 0x03#8) (hw : d.flags.wr = wr) : d.asRegacc wr = d := by
  subst hw
  simp only [Desc.asRegacc, ← h]

theorem asBusreset_self {atapi : Bool} {d : Desc} (h : d.opcode = 0x05#8) (ha : d.flags.atapi = atapi) :
    d.asBusreset atapi = d := by
  subst ha
  simp only [Desc.asBusreset, ← h]

/-- The flags of a mode are those the mode was read from (R141). -/
theorem withMode_self {f : Flags} {m : Mode} (h : f.mode = some m) : f.withMode m = f := by
  obtain ⟨imm, dma, rd, wr, atapi, noirq, lba48, tfa, tfres⟩ := f
  revert h
  cases dma <;> cases rd <;> cases wr <;> simp only [Flags.mode, Option.some.injEq, reduceCtorEq, false_implies] <;>
    rintro rfl <;> rfl

theorem inExecRow_iff {op : Byte} {atapi : Bool} {m : Mode} {d : Desc} : d.inExecRow op atapi m = true ↔
    d.opcode = op ∧ d.isReset08 = false ∧ d.flags.atapi = atapi ∧ d.flags.mode = some m := by
  simp only [Desc.inExecRow, Bool.and_eq_true, beq_iff_eq, Bool.not_eq_true', and_assoc]

theorem asExec_self {op : Byte} {atapi : Bool} {m : Mode} {d : Desc} (h : d.inExecRow op atapi m = true) :
    d.asExec op atapi m = d := by
  obtain ⟨rfl, -, rfl, hm⟩ := inExecRow_iff.mp h
  simp only [Desc.asExec, withMode_self hm]

/-- The opcodes of the rows OP<hh>: none of the five with a handler (R144). -/
theorem opUnknown_wellFormed_iff {d : Desc} : (Instr.opUnknown d).wellFormed = true ↔
    d.opcode ≠ 0x01#8 ∧ d.opcode ≠ 0x02#8 ∧ d.opcode ≠ 0x03#8 ∧ d.opcode ≠ 0x04#8 ∧ d.opcode ≠ 0x05#8 := by
  simp only [Instr.wellFormed, Bool.or_eq_true, beq_iff_eq, decide_eq_true_eq]
  bv_omega

/-- A descriptor of an ExecIO variant is in its row (R141). -/
theorem row_inExecRow {op : Byte} {atapi : Bool} {m : Mode} {d : Desc} (ho : op = 0x01#8 ∨ op = 0x02#8)
    (h : d.inExecRow op atapi m = true) : (d.asExec op atapi m).row = execRow op m d := by
  rw [asExec_self h]
  obtain ⟨hop, hr, -, hm⟩ := inExecRow_iff.mp h
  rcases ho with rfl | rfl <;> simp [Desc.row, hop, hr, hm]

/-- A well-formed instruction is the row of its descriptor: no narrower row takes it (entry 9). -/
theorem row_of_wellFormed {i : Instr} {d : Desc} (hw : i.wellFormed = true) (hd : i.desc = some d) : d.row = i := by
  cases i <;> simp only [Instr.desc, Option.some.injEq, reduceCtorEq] at hd <;> subst hd
  case execio d | busreset d | regacc d | qflush d =>
    simp only [Instr.wellFormed, Bool.and_eq_true, beq_iff_eq, Bool.not_eq_true', and_assoc] at hw
    simp [Desc.row, asOp_self, hw]
  case atapiExecio d =>
    simp only [Instr.wellFormed, Bool.and_eq_true, beq_iff_eq, Bool.not_eq_true', Bool.or_eq_true, and_assoc] at hw
    obtain ⟨ho, hr, hm⟩ := hw
    rw [asOp_self ho]
    rcases hm with hm | ha
    · simp [Desc.row, ho, hr, hm]
    · cases hm : d.flags.mode <;> simp [Desc.row, ho, hr, hm, execRow, ha]
  case execioReset08 d | atapiExecioReset08 d =>
    simp only [Instr.wellFormed, Bool.and_eq_true, beq_iff_eq] at hw
    obtain ⟨ho, hr⟩ := hw
    simp [Desc.row, asReset08_self ho hr, ho, hr]
  case opUnknown d =>
    obtain ⟨h1, h2, h3, h4, h5⟩ := opUnknown_wellFormed_iff.mp hw
    simp [Desc.row, h1, h2, h3, h4, h5]
  case regaccRd d | regaccWr d =>
    simp only [Instr.wellFormed, Bool.and_eq_true, beq_iff_eq, Bool.not_eq_true', bne_iff_ne, and_assoc] at hw
    obtain ⟨ho, hm, hwr⟩ := hw
    obtain ⟨m, hm⟩ := Option.ne_none_iff_exists'.mp hm
    simp [Desc.row, asRegacc_self ho hwr, ho, hm, hwr]
  case busresetAta d | busresetAtapi d =>
    simp only [Instr.wellFormed, Bool.and_eq_true, beq_iff_eq, Bool.not_eq_true', bne_iff_ne, and_assoc] at hw
    obtain ⟨ho, hm, ha⟩ := hw
    obtain ⟨m, hm⟩ := Option.ne_none_iff_exists'.mp hm
    simp [Desc.row, asBusreset_self ho ha, ho, hm, ha]
  case execioAtaNd | execioAtaPioRd | execioAtaPioWr | execioAtaDmaRd | execioAtaDmaWr | execioAtapiNd
      | execioAtapiPioRd | execioAtapiPioWr | execioAtapiDmaRd | execioAtapiDmaWr =>
    have ha := (inExecRow_iff.mp hw).2.2.1
    simp [row_inExecRow (.inl rfl) hw, execRow, ha]
  case atapiExecioNd | atapiExecioPioRd | atapiExecioPioWr | atapiExecioDmaRd | atapiExecioDmaWr =>
    have ha := (inExecRow_iff.mp hw).2.2.1
    simp [row_inExecRow (.inr rfl) hw, execRow, ha]

/-- The variant row of an ExecIO descriptor with a legal mode. -/
theorem execRow_wellFormed {op : Byte} {m : Mode} {d : Desc} (ho : op = 0x01#8 ∨ op = 0x02#8) (hop : d.opcode = op)
    (hr : d.isReset08 = false) (hm : d.flags.mode = some m) :
    (execRow op m d).wellFormed = true ∧ (execRow op m d).desc = some d := by
  have hrow : ∀ atapi, d.flags.atapi = atapi → d.inExecRow op atapi m = true ∧ some (d.asExec op atapi m) = some d :=
    fun atapi ha => 
      have h := inExecRow_iff.mpr ⟨hop, hr, ha, hm⟩
      ⟨h, congrArg some (asExec_self h)⟩
  cases ha : d.flags.atapi with
  | true =>
    rcases ho with rfl | rfl <;> cases m <;> simp [execRow, ha, Instr.wellFormed, Instr.desc, hrow] 
  | false =>
    rcases ho with rfl | rfl
    · cases m <;> simp [execRow, ha, Instr.wellFormed, Instr.desc, hrow] 
    · simp [execRow, ha, Instr.wellFormed, Instr.desc, hop, hr, asOp_self] 

/-- The row of a descriptor is well-formed, and stands for the descriptor. -/
theorem row_wellFormed (d : Desc) : d.row.wellFormed = true ∧ d.row.desc = some d := by
  unfold Desc.row
  simp only [beq_iff_eq]
  split
  case isTrue h1 =>
    split
    case isTrue hr => simp [Instr.wellFormed, Instr.desc, h1, hr, asReset08_self]
    case isFalse hr =>
      split
      case h_1 m hm => exact execRow_wellFormed (.inl rfl) h1 (by simpa using hr) hm
      case h_2 hm => simp [Instr.wellFormed, Instr.desc, h1, hr, hm, asOp_self]
  split
  case isTrue h2 =>
    split
    case isTrue hr => simp [Instr.wellFormed, Instr.desc, h2, hr, asReset08_self]
    case isFalse hr =>
      split
      case h_1 m hm => exact execRow_wellFormed (.inr rfl) h2 (by simpa using hr) hm
      case h_2 hm => simp [Instr.wellFormed, Instr.desc, h2, hr, hm, asOp_self]
  split
  case isTrue h3 =>
    split
    case h_1 m hm =>
      split
      case isTrue hw => simp [Instr.wellFormed, Instr.desc, h3, hm, hw, asRegacc_self]
      case isFalse hw => simp [Instr.wellFormed, Instr.desc, h3, hm, hw, asRegacc_self]
    case h_2 hm => simp [Instr.wellFormed, Instr.desc, h3, hm, asOp_self]
  split
  case isTrue h4 => simp [Instr.wellFormed, Instr.desc, h4, asOp_self]
  split
  case isTrue h5 =>
    split
    case h_1 m hm =>
      split
      case isTrue ha => simp [Instr.wellFormed, Instr.desc, h5, hm, ha, asBusreset_self]
      case isFalse ha => simp [Instr.wellFormed, Instr.desc, h5, hm, ha, asBusreset_self]
    case h_2 hm => simp [Instr.wellFormed, Instr.desc, h5, hm, asOp_self]
  next h1 h2 h3 h4 h5 => exact ⟨opUnknown_wellFormed_iff.mpr ⟨h1, h2, h3, h4, h5⟩, rfl⟩

/-! ## Decoding an encoding, encoding what was decoded -/

/-- A descriptor image with clear reserved bits decodes to the row of its fields. -/
theorem decode_descriptor {bs : List Byte} (hl : bs.length = 80) (hr : reservedClear bs = true) :
    decode .descriptor bs = .ok (Desc.ofBytes bs).row := by
  show decodeDescriptor bs = _
  unfold decodeDescriptor
  rw [if_neg (not_not.mpr hl), if_pos hr]

/-- A descriptor image that decodes has 80 bytes, clear reserved bits, and the row of its fields. -/
theorem decode_descriptor_ok {bs : List Byte} {i : Instr} (h : decode .descriptor bs = .ok i) :
    bs.length = 80 ∧ reservedClear bs = true ∧ i = (Desc.ofBytes bs).row := by
  change decodeDescriptor bs = _ at h
  unfold decodeDescriptor at h
  split at h
  · cases h
  next hl =>
  split at h
  · next hr => cases h; exact ⟨not_not.mp hl, hr, rfl⟩
  · cases h

theorem encode_row {i : Instr} {d : Desc} (h : i.desc = some d) : encode i = d.toBytes ∧ i.format = .descriptor := by
  unfold encode Instr.format
  rw [h]
  exact ⟨rfl, rfl⟩

/-- A gate action is read back from its image (entry 18). -/
theorem decode_encode_event {i : Instr} (hd : i.desc = none) :
    decode i.format (encode i) = .ok i := by
  cases i <;> simp only [Instr.desc, reduceCtorEq] at hd
  case submit cmd target =>
    cases cmd with
    | none =>
      show decodeEvent [1#8, 0#6 ++ BitVec.ofBool target ++ 0#1, 0#8, 0#8, 0#8, 0#8] = _
      cases target <;> simp [decodeEvent]
    | some r =>
      show decodeEvent ([1#8, 0#6 ++ BitVec.ofBool target ++ 1#1] ++ bytes32 r) = _
      cases target <;> simp [decodeEvent, bytes32, word_bytes r]
  case config u m =>
    cases m with
    | irqFirst =>
      show decodeEvent [5#8, u, 0#8] = _
      simp [decodeEvent]
    | drqImmediate =>
      show decodeEvent [5#8, u, 1#8] = _
      simp [decodeEvent]
  all_goals rfl

/-- A word of the table with clear reserved bits decodes to the row of its image's fields. -/
theorem decodeTableWord_row {n w : Nat} (hr : reservedClear (tableImage n w) = true) :
    decodeTableWord n w = some (Desc.ofBytes (tableImage n w)).row := by
  unfold decodeTableWord
  rw [decode_descriptor rfl hr]

/-- A word of the table decodes to the row in which its fields are well-formed. -/
theorem decodeTableWord_eq {n w : Nat} {i : Instr} (hr : reservedClear (tableImage n w) = true)
    (hw : i.wellFormed = true) (hd : i.desc = some (Desc.ofBytes (tableImage n w))) : decodeTableWord n w = some i := by
  rw [decodeTableWord_row hr, row_of_wellFormed hw hd]

/-- The row of an image whose opcode has no handler (R144). -/
theorem decode_unknown {bs : List Byte} (hl : bs.length = 80) (hr : reservedClear bs = true)
    (ho : ∀ op ∈ [0x01#8, 0x02#8, 0x03#8, 0x04#8, 0x05#8], byteAt bs 0 ≠ op) :
    decode .descriptor bs = .ok (.opUnknown (Desc.ofBytes bs)) := by
  simp only [List.mem_cons, List.not_mem_nil, or_false, forall_eq_or_imp, forall_eq] at ho
  rw [decode_descriptor hl hr,
    row_of_wellFormed (i := .opUnknown (Desc.ofBytes bs)) (opUnknown_wellFormed_iff.mpr ho) rfl]

end Sys2Proof

namespace Sys2Proof.Machine

/-- A descriptor row refuses an ill-formed command (R150, U3). -/
theorem submitRow_illFormed {d : Desc} {s : State} (hb : hostBreach s = none) (ha : s.accepts d = false) :
    submitRow d s = .refused .illFormedCommand := by
  simp [submitRow, guarded, hb, ha]

/-- A command with a reserved bit of the register mask set is not accepted (W7). -/
theorem not_accepts_of_regMask {d : Desc} (h : d.regMask >>> 9 ≠ 0#16) (s : State) : s.accepts d = false := by
  simp [State.accepts, Desc.legal, Desc.w7, h]

end Sys2Proof.Machine

namespace Sys2Proof.Proofs

open Sys2Proof.Machine

/-- Settles O3: a descriptor is read back from its image (`ofBytes_inputBytes`), and a well-formed row is the row of its
descriptor (`row_of_wellFormed`). -/
theorem decodeEncode : Obligations.DecodeEncode := by
  intro i hw
  cases hd : i.desc with
  | none => exact decode_encode_event hd
  | some d =>
    obtain ⟨he, hf⟩ := encode_row hd
    rw [he, hf, decode_descriptor (Laws.RowAgrees.length_toBytes d) (reservedClear_image d _ _ _ _ _ _), Desc.toBytes,
      ofBytes_inputBytes, row_of_wellFormed hw hd]

/-- Settles O4: an image with clear reserved bits is the image of its fields (`image_ofBytes`), and a descriptor is the
descriptor of its row (`row_wellFormed`). -/
theorem encodeDecode : Obligations.EncodeDecode := by
  refine ⟨fun bs i h hwb => ?_, fun c => ?_, fun bs c h => ?_, fun c => ?_⟩
  · obtain ⟨hl, hr, rfl⟩ := decode_descriptor_ok h
    obtain ⟨hw, hd⟩ := row_wellFormed (Desc.ofBytes bs)
    obtain ⟨he, hf⟩ := encode_row hd
    simp only [writeBackInitialised, Bool.and_eq_true, beq_iff_eq, Bool.not_eq_true'] at hwb
    obtain ⟨⟨h69, h72⟩, h76⟩ := hwb
    refine ⟨?_, hf, hw⟩
    have himage := image_ofBytes hl hr
    rw [h69, h72, h76] at himage
    exact he.trans himage
  · have hr : reservedClear c.toBytes = true := reservedClear_image c.toDesc _ _ _ _ _ _
    have hd : Desc.ofBytes c.toBytes = c.toDesc := ofBytes_inputBytes c.toDesc _ _ _
    have h69 : byteAt c.toBytes 69 = c.result.code := rfl
    have h72 : wordAt c.toBytes 72 = c.actual := word_bytes c.actual
    have h76 : (byteAt c.toBytes 76).getLsbD 0 = c.inUse := by
      have hbit : ∀ b : Bool, (0#7 ++ BitVec.ofBool b : Byte).getLsbD 0 = b := by decide
      exact hbit c.inUse
    unfold Command.ofBytes
    rw [length_recordBytes, hr, if_pos (by decide), hd, h69, h72, h76, ofCode_code]
    rfl
  · unfold Command.ofBytes at h
    split at h
    next hb =>
      obtain ⟨r, hr, rfl⟩ := Option.map_eq_some_iff.mp h
      simp only [Bool.and_eq_true, decide_eq_true_eq] at hb
      have himage := image_ofBytes hb.1 hb.2
      rw [← code_ofCode hr] at himage
      exact himage
    · cases h
  · refine ⟨rfl, word_bytes c.actual, ?_⟩
    have hbit : ∀ b : Bool, (0#8 ++ 0#8 ++ 0#8 ++ (0#7 ++ BitVec.ofBool b) : Word) = if b then 1#32 else 0#32 := by
      decide
    exact hbit c.inUse

/-- Settles O2: each word has its reserved bits clear, and its fields are those of its row. -/
theorem wordsDecode : Obligations.WordsDecode := by
  refine ⟨⟨Desc.ofBytes (tableImage 640 (0xE7A000 * 2 ^ 288 + 1 * 2 ^ 224 + 0x3E8 * 2 ^ 64 + 0x1)),
      decodeTableWord_eq ?_ ?_ ?_, ?_⟩,
    ⟨Desc.ofBytes (tableImage 32 0x00240001), decodeTableWord_eq ?_ ?_ ?_, ?_⟩,
    ⟨Desc.ofBytes (tableImage 64 0x000C000000140002), decodeTableWord_eq ?_ ?_ ?_, ?_⟩,
    ⟨Desc.ofBytes (tableImage 32 0x00010004), decodeTableWord_eq ?_ ?_ ?_, ?_⟩⟩
  all_goals decide +kernel

/-- Settles O5: the rows of the fields of the image. -/
theorem specialRows : Obligations.SpecialRows := by
  intro bs hl hr
  have hreset : ∀ i : Instr, i.wellFormed = true → i.desc = some ((Desc.ofBytes bs)) →
      decode .descriptor bs = .ok i := fun i hw hd => by rw [decode_descriptor hl hr, row_of_wellFormed hw hd]
  refine ⟨decode_unknown hl hr, fun ho hc => ?_, fun ho hc => ?_⟩
  all_goals
    have ho' : (Desc.ofBytes bs).opcode = _ := ho
    have hc' : (Desc.ofBytes bs).isReset08 = true := beq_iff_eq.mpr hc
    apply hreset
    · simp [Instr.wellFormed, ho', hc']
    · exact congrArg some (asReset08_self ho' hc')

/-- Settles O7: the decoder refuses a reserved bit that `Desc` does not hold; one of the register mask makes the command
ill-formed (W7). -/
theorem reservedBitsRefused : Obligations.ReservedBitsRefused := by
  intro s a rest hin hf hl
  have hdecoder : reservedClear a.bytes = false → step s = .refused .illFormedCommand := fun hr => by
    have hd : decode a.format a.bytes = .error .reservedBits := by
      rw [hf]
      show decodeDescriptor a.bytes = _
      simp [decodeDescriptor, hl, hr]
    simp only [step, hin, hd]
  refine ⟨hdecoder, fun hm ha hb => ?_⟩
  by_cases hr : reservedClear a.bytes = true
  · have hd : decode a.format a.bytes = .ok (Desc.ofBytes a.bytes).row := by rw [hf, decode_descriptor hl hr]
    have hexec : exec (Desc.ofBytes a.bytes).row (s.admitting a rest) = .refused .illFormedCommand := by
      have hmask : (Desc.ofBytes a.bytes).regMask >>> 9 ≠ 0#16 := hm
      have hbreach : hostBreach (s.admitting a rest) = none := hb
      rw [exec_commandRow (row_wellFormed _).2, submitRow_illFormed hbreach (not_accepts_of_regMask hmask _)]
    simp only [step, hin, hd, ha, Machine.outsideActs, hexec, ite_self]
  · exact hdecoder (by simpa using hr)

end Sys2Proof.Proofs
end

section
/-! Work for the current command as one equation: the events it adds, the record it leaves, the draws. The register read
(R276) and the status phase (R270) in its words. -/

namespace Sys2Proof.Machine

/-! ## Work for the current command -/

/-- `s` after work for command `id` that took the events `es`, left the record `c` and the draws `e`. -/
def State.worked (id : Nat) (es : List Event) (c : Command) (e : Env) (s : State) : State :=
  { s.logs es with env := e, cmds := s.cmds.set id c }

/-- From `s` to `t` there was work for command `id` that took the events `es` and left the record `c`; but for the draws
nothing else changed. -/
def Works (id : Nat) (es : List Event) (c : Command) (s t : State) : Prop := ∃ e, t = s.worked id es c e

/-- Command `id` of the store is current, and `c` is its record. -/
structure State.Serving (id : Nat) (c : Command) (s : State) : Prop where
  current : s.current = some id
  stored  : id < s.cmds.length
  cmd     : s.cmd id = c

variable {id : Nat} {c c' : Command} {es es' : List Event} {s t u : State}

theorem State.Serving.cur (h : s.Serving id c) : s.cur = c := (cur_some id s h.current).trans h.cmd

theorem worked_cmd (h : id < s.cmds.length) (e : Env) : (s.worked id es c e).cmd id = c := by
  simp [State.cmd, State.worked, h]

theorem worked_cmd_other {k : Nat} (h : k ≠ id) (e : Env) : (s.worked id es c e).cmd k = s.cmd k := by
  simp [State.cmd, State.worked, State.logs, List.getD, Ne.symm h]

theorem worked_worked (e e' : Env) : (s.worked id es c e).worked id es' c' e' = s.worked id (es ++ es') c' e' := by
  simp [State.worked, State.logs, withBars_append]

theorem State.Serving.modify (h : s.Serving id c) (f : Command → Command) :
    s.cmds.modify id f = s.cmds.set id (f c) := by
  rw [← h.cmd, State.cmd, List.getD_eq_getElem _ _ h.stored]
  simp [List.modify_eq_set_getElem?, h.stored]

theorem State.Serving.set_self (h : s.Serving id c) : s.cmds.set id c = s.cmds := by
  rw [← h.cmd, State.cmd, List.getD_eq_getElem _ _ h.stored, List.set_getElem_self]

theorem worked_did (s : State) (e : Env) : s.Did (s.worked id es c e) es := (did_iff _ _ _).mpr rfl

theorem Works.serving (w : Works id es c' s t) (h : s.Serving id c) : t.Serving id c' := by
  obtain ⟨e, rfl⟩ := w
  exact ⟨h.current, by simpa [State.worked] using h.stored, worked_cmd h.stored e⟩

theorem Works.congr (w : Works id es c s t) (he : es = es') (hc : c = c') : Works id es' c' s t := he ▸ hc ▸ w

/-- Events and draws alone. -/
theorem State.Serving.works_logs (h : s.Serving id c) (es : List Event) (e : Env) :
    Works id es c s { s.logs es with env := e } := ⟨e, by simp [State.worked, State.logs, h.set_self]⟩

theorem Works.refl (h : s.Serving id c) : Works id [] c s s := h.works_logs [] s.env

theorem Works.trans (w : Works id es c s t) (w' : Works id es' c' t u) : Works id (es ++ es') c' s u := by
  obtain ⟨e, rfl⟩ := w
  obtain ⟨e', rfl⟩ := w'
  exact ⟨e', worked_worked e e'⟩

/-- A change of the record after other work. -/
theorem Works.modCur (w : Works id es c s t) (h : s.Serving id c') (f : Command → Command) :
    Works id es (f c) s (t.modCur f) := by
  have ht := w.serving h
  obtain ⟨e, rfl⟩ := w
  refine ⟨e, ?_⟩
  rw [modCur_some id f _ ht.current, State.modCmd, ht.modify]
  simp [State.worked]

/-- Work that brings a value, after other work. -/
theorem Works.bring {α : Type} {f : α → Command} {g : α → List Event} (w : Works id es c s t) (h : s.Serving id c')
    (k : t.Serving id c → ∃ v, Works id (g v) (f v) t u) : ∃ v, Works id (es ++ g v) (f v) s u := by
  obtain ⟨v, hv⟩ := k (w.serving h)
  exact ⟨v, w.trans hv⟩

/-! ## The register read -/

theorem readInto_works (h : s.Serving id c) (r : Reg) (put : Byte → Command → Command) :
    ∃ v, Works id [.r8 r v] (put v c) s (readInto r put s) :=
  ⟨_, (h.works_logs [.r8 r (s.env.byteAnswer r)] (s.env.byteRead r)).modCur h (put (s.env.byteAnswer r))⟩

theorem readDataInto_works (h : s.Serving id c) :
    ∃ v, Works id [.r16 v] { c with tf := { c.tf with data := v } } s (readDataInto s) :=
  ⟨_, (h.works_logs [.r16 (rd16 s).1] (rd16 s).2.env).modCur h
    (fun c => { c with tf := { c.tf with data := (rd16 s).1 } })⟩

/-- A read of a masked register, or nothing. -/
theorem whenMasked_works {α : Type} [Inhabited α] {g : α → Event} {get : Command → α} {put : α → Command → Command}
    {f : State → State} (m : Command) (r : Reg) (h : s.Serving id c) (hput : put (get c) c = c)
    (hf : ∃ v, Works id [g v] (put v c) s (f s)) :
    ∃ v, Works id (ifMasked m.toDesc r.index [g v]) (put (pickMasked m.toDesc r.index v (get c)) c) s
      (whenMasked m r f s) := by
  unfold whenMasked masked ifMasked pickMasked
  by_cases hm : m.regMask.getLsbD r.index = true
  · simp only [if_pos hm]; exact hf
  · simp only [if_neg hm, hput]; exact ⟨default, .refl h⟩

/-- The masked two-byte registers are read one after the other, each only if masked (R276). -/
theorem readTwoBytes_masked (m : Command) (put : TwoByte → Byte → Command → Command) (ts : List TwoByte) (s : State) :
    readTwoBytes put (ts.filter (fun t => masked m t.reg)) s
      = ts.foldl (fun s t => whenMasked m t.reg (readInto t.reg (put t)) s) s := by
  induction ts generalizing s with
  | nil => rfl
  | cons t ts ih =>
    rw [List.foldl_cons, ← ih]
    by_cases ht : masked m t.reg = true
    · rw [List.filter_cons_of_pos (by exact ht), whenMasked, if_pos ht]; rfl
    · rw [List.filter_cons_of_neg (by exact ht), whenMasked, if_neg ht]

/-- A read of a masked 8-bit register into the field that `get` reads. -/
theorem readMasked_works {put : Byte → Command → Command} {get : Command → Byte} (m : Command) (r : Reg)
    (h : s.Serving id c) (hput : put (get c) c = c) :
    ∃ v, Works id (ifMasked m.toDesc r.index [.r8 r v]) (put (pickMasked m.toDesc r.index v (get c)) c) s
      (whenMasked m r (readInto r put) s) :=
  whenMasked_works (g := .r8 r) (get := get) m r h hput (readInto_works h r put)

/-- A read of a masked two-byte register into its low-order byte. -/
theorem readLo_works (m : Command) (t : TwoByte) (h : s.Serving id c) :
    ∃ v, Works id (ifMasked m.toDesc t.reg.index [.r8 t.reg v])
      (t.setLo (pickMasked m.toDesc t.reg.index v (t.lo c)) c) s (whenMasked m t.reg (readInto t.reg t.setLo) s) :=
  readMasked_works (put := t.setLo) (get := t.lo) m t.reg h (by cases t <;> rfl)

/-- A read of a masked two-byte register into its high-order byte. -/
theorem readHi_works (m : Command) (t : TwoByte) (h : s.Serving id c) :
    ∃ v, Works id (ifMasked m.toDesc t.reg.index [.r8 t.reg v])
      (t.setHi (pickMasked m.toDesc t.reg.index v (t.hi c)) c) s (whenMasked m t.reg (readInto t.reg t.setHi) s) :=
  readMasked_works (put := t.setHi) (get := t.hi) m t.reg h (by cases t <;> rfl)

/-- The five low-order bytes (R276). -/
theorem readLow_works (m : Command) (h : s.Serving id c) : ∃ v : Taskfile,
    Works id (ifMasked m.toDesc 1 [.r8 .errfeat v.feat] ++ ifMasked m.toDesc 2 [.r8 .scnt v.scnt]
        ++ ifMasked m.toDesc 3 [.r8 .snum v.snum] ++ ifMasked m.toDesc 4 [.r8 .cyllo v.cylLo]
        ++ ifMasked m.toDesc 5 [.r8 .cylhi v.cylHi])
      { c with tf := { c.tf with
          feat := pickMasked m.toDesc 1 v.feat c.tf.feat, scnt := pickMasked m.toDesc 2 v.scnt c.tf.scnt
          snum := pickMasked m.toDesc 3 v.snum c.tf.snum, cylLo := pickMasked m.toDesc 4 v.cylLo c.tf.cylLo
          cylHi := pickMasked m.toDesc 5 v.cylHi c.tf.cylHi } }
      s (readTwoBytes TwoByte.setLo (maskedTwoBytes m) s) := by
  rw [maskedTwoBytes, readTwoBytes_masked]
  obtain ⟨v1, w⟩ := readLo_works m .feat h
  dsimp only [TwoByte.setLo, TwoByte.lo, TwoByte.reg, Reg.index] at w
  obtain ⟨v2, w⟩ := w.bring h (readLo_works m .scnt)
  dsimp only [TwoByte.setLo, TwoByte.lo, TwoByte.reg, Reg.index] at w
  obtain ⟨v3, w⟩ := w.bring h (readLo_works m .snum)
  dsimp only [TwoByte.setLo, TwoByte.lo, TwoByte.reg, Reg.index] at w
  obtain ⟨v4, w⟩ := w.bring h (readLo_works m .cylLo)
  dsimp only [TwoByte.setLo, TwoByte.lo, TwoByte.reg, Reg.index] at w
  obtain ⟨v5, w⟩ := w.bring h (readLo_works m .cylHi)
  dsimp only [TwoByte.setLo, TwoByte.lo, TwoByte.reg, Reg.index] at w
  exact ⟨{ c.tf with feat := v1, scnt := v2, snum := v3, cylLo := v4, cylHi := v5 }, w⟩

/-- The five high-order bytes (R276). -/
theorem readHigh_works (m : Command) (h : s.Serving id c) : ∃ v : ExtLba,
    Works id (ifMasked m.toDesc 1 [.r8 .errfeat v.featHi] ++ ifMasked m.toDesc 2 [.r8 .scnt v.scntHi]
        ++ ifMasked m.toDesc 3 [.r8 .snum v.snumHi] ++ ifMasked m.toDesc 4 [.r8 .cyllo v.cylLoHi]
        ++ ifMasked m.toDesc 5 [.r8 .cylhi v.cylHiHi])
      { c with ext :=
          { featHi := pickMasked m.toDesc 1 v.featHi c.ext.featHi, scntHi := pickMasked m.toDesc 2 v.scntHi c.ext.scntHi
            snumHi := pickMasked m.toDesc 3 v.snumHi c.ext.snumHi
            cylLoHi := pickMasked m.toDesc 4 v.cylLoHi c.ext.cylLoHi
            cylHiHi := pickMasked m.toDesc 5 v.cylHiHi c.ext.cylHiHi } }
      s (readTwoBytes TwoByte.setHi (maskedTwoBytes m) s) := by
  rw [maskedTwoBytes, readTwoBytes_masked]
  obtain ⟨v1, w⟩ := readHi_works m .feat h
  dsimp only [TwoByte.setHi, TwoByte.hi, TwoByte.reg, Reg.index] at w
  obtain ⟨v2, w⟩ := w.bring h (readHi_works m .scnt)
  dsimp only [TwoByte.setHi, TwoByte.hi, TwoByte.reg, Reg.index] at w
  obtain ⟨v3, w⟩ := w.bring h (readHi_works m .snum)
  dsimp only [TwoByte.setHi, TwoByte.hi, TwoByte.reg, Reg.index] at w
  obtain ⟨v4, w⟩ := w.bring h (readHi_works m .cylLo)
  dsimp only [TwoByte.setHi, TwoByte.hi, TwoByte.reg, Reg.index] at w
  obtain ⟨v5, w⟩ := w.bring h (readHi_works m .cylHi)
  dsimp only [TwoByte.setHi, TwoByte.hi, TwoByte.reg, Reg.index] at w
  exact ⟨⟨v1, v2, v3, v4, v5⟩, w⟩

/-- The HOB sequence of a 48-bit read (R276). -/
theorem readHighBytes_works (n : Byte) (m : Command) (h : s.Serving id c) : ∃ v : ExtLba,
    Works id ([.w8 .altctl (0x80#8 ||| n)] ++ ifMasked m.toDesc 1 [.r8 .errfeat v.featHi]
        ++ ifMasked m.toDesc 2 [.r8 .scnt v.scntHi] ++ ifMasked m.toDesc 3 [.r8 .snum v.snumHi]
        ++ ifMasked m.toDesc 4 [.r8 .cyllo v.cylLoHi] ++ ifMasked m.toDesc 5 [.r8 .cylhi v.cylHiHi] ++ [.w8 .altctl n])
      { c with ext :=
          { featHi := pickMasked m.toDesc 1 v.featHi c.ext.featHi, scntHi := pickMasked m.toDesc 2 v.scntHi c.ext.scntHi
            snumHi := pickMasked m.toDesc 3 v.snumHi c.ext.snumHi
            cylLoHi := pickMasked m.toDesc 4 v.cylLoHi c.ext.cylLoHi
            cylHiHi := pickMasked m.toDesc 5 v.cylHiHi c.ext.cylHiHi } }
      s (readHighBytes m n s) := by
  have hhob : Works id [.w8 .altctl (0x80#8 ||| n)] c s (wr8 .altctl (ctlHob ||| n) s) := h.works_logs _ s.env
  obtain ⟨v, w⟩ := hhob.bring h (readHigh_works m)
  refine ⟨v, ?_⟩
  have hend := w.trans ((w.serving h).works_logs [.w8 .altctl n]
    (readTwoBytes TwoByte.setHi (maskedTwoBytes m) (wr8 .altctl (ctlHob ||| n) s)).env)
  simp only [← List.append_assoc] at hend ⊢
  exact hend

/-- The mask bits 1 to 5 are those of the two-byte registers (Table RG). -/
theorem twoByteMask_clear (m : Half) : m &&& 0x003E#16 = 0#16 ↔ m.getLsbD 1 = false ∧ m.getLsbD 2 = false
    ∧ m.getLsbD 3 = false ∧ m.getLsbD 4 = false ∧ m.getLsbD 5 = false := by
  constructor
  · intro hz
    have hbit : ∀ j, (m &&& 0x003E#16).getLsbD j = false := fun j => by rw [hz]; simp
    exact ⟨by simpa using hbit 1, by simpa using hbit 2, by simpa using hbit 3, by simpa using hbit 4,
      by simpa using hbit 5⟩
  · intro hclear
    ext j hj
    interval_cases j <;> simp_all

/-- Some two-byte register is masked exactly if one of the mask bits 1 to 5 is set. -/
theorem maskedTwoBytes_nonempty (c : Command) :
    (!(maskedTwoBytes c).isEmpty) = ((c.regMask &&& 0x003E#16) != 0#16) := by
  rw [Bool.eq_iff_iff, bne_iff_ne, ne_eq, twoByteMask_clear]
  simp [maskedTwoBytes, TwoByte.all, masked, TwoByte.reg, Reg.index]

/-- Where no high-order byte is read, they are the old ones (R276). -/
theorem extAfterRead_unread {d : Desc} (h : readsHighBytes d = false) (v : ReadValues) : extAfterRead d v = d.ext := by
  unfold extAfterRead
  split
  · next hl =>
    have hz : d.regMask &&& 0x003E#16 = 0#16 := by simpa [readsHighBytes, hl] using h
    obtain ⟨h1, h2, h3, h4, h5⟩ := (twoByteMask_clear d.regMask).mp hz
    simp only [pickMasked, h1, h2, h3, h4, h5, Bool.false_eq_true, if_false]
  · rfl

/-- `registerAccess(false)` (R276): what is read, and where it goes. -/
theorem registerRead_works (h : s.Serving id c) : ∃ v : ReadValues,
    Works id (registerReadEvents c.toDesc (nIenNow s) v)
      { c with tf := tfAfterRead c.toDesc v, ext := extAfterRead c.toDesc v } s (registerRead s) := by
  unfold registerRead
  rw [h.cur]
  obtain ⟨vl, w⟩ := readLow_works c h
  obtain ⟨v6, w⟩ := w.bring h fun k => readMasked_works (get := fun c => c.tf.dh)
    (put := fun v c => { c with tf := { c.tf with dh := v } }) c .devhead k rfl
  obtain ⟨v8, w⟩ := w.bring h fun k => readMasked_works (get := fun c => c.tf.ctl)
    (put := fun v c => { c with tf := { c.tf with ctl := v } }) c .altctl k rfl
  obtain ⟨v0, w⟩ := w.bring h fun k => whenMasked_works (g := .r16) (get := fun c => c.tf.data)
    (put := fun v c => { c with tf := { c.tf with data := v } }) c .data k rfl (readDataInto_works k)
  obtain ⟨v7, w⟩ := w.bring h fun k => readMasked_works (get := fun c => c.tf.cmd)
    (put := fun v c => { c with tf := { c.tf with cmd := v } }) c .statcmd k rfl
  dsimp only [Reg.index] at w ⊢
  have hirq : ∀ {es c' t}, Works id es c' s t → nIenNow t = nIenNow s := by
    rintro es c' t ⟨e, rfl⟩; rfl
  have hguard : (c.flags.lba48 && !(maskedTwoBytes c).isEmpty) = readsHighBytes c.toDesc := by
    rw [maskedTwoBytes_nonempty]; rfl
  rw [hguard]
  by_cases hr : readsHighBytes c.toDesc = true
  · rw [if_pos hr, hirq w]
    obtain ⟨vh, w⟩ := w.bring h (readHighBytes_works (nIenNow s) c)
    refine ⟨⟨{ vl with dh := v6, ctl := v8, data := v0, cmd := v7 }, vh⟩, ?_⟩
    have hl : c.flags.lba48 = true := by
      unfold readsHighBytes at hr
      exact (Bool.and_eq_true_iff.mp hr).1
    simp only [registerReadEvents, if_pos hr, extAfterRead, if_pos hl, tfAfterRead]
    exact w
  · rw [if_neg hr]
    refine ⟨⟨{ vl with dh := v6, ctl := v8, data := v0, cmd := v7 }, c.ext⟩, ?_⟩
    rw [extAfterRead_unread (by simpa using hr)]
    simp only [registerReadEvents, if_neg hr, tfAfterRead, List.append_nil]
    exact w

/-! ## The status phase -/

/-- Result capture (R271). -/
theorem captureResult_works (h : s.Serving id c) : ∃ v : ReadValues,
    Works id (captureEvents c.toDesc (nIenNow s) v)
      { c with
          tf := if c.flags.tfres then tfAfterRead c.toDesc v else c.tf
          ext := if c.flags.tfres then extAfterRead c.toDesc v else c.ext } s (captureResult s) := by
  unfold captureResult captureEvents
  rw [h.cur]
  by_cases hf : c.flags.tfres = true
  · simp only [if_pos hf]; exact registerRead_works h
  · simp only [if_neg hf]; exact ⟨⟨c.tf, c.ext⟩, .refl h⟩

/-- What a capture reads depends on the flags and the mask alone. -/
theorem captureEvents_congr {d d' : Desc} (hf : d'.flags = d.flags) (hm : d'.regMask = d.regMask) (n : Byte)
    (v : ReadValues) : captureEvents d' n v = captureEvents d n v := by
  unfold captureEvents registerReadEvents ifMasked readsHighBytes
  rw [hf, hm]

/-- `statusPhase` (P270): Status and Error are read, the registers captured if asked for, and the phase is Complete; the
code is the one given, or that of the ERR bit. -/
theorem statusPhase_works (x : Result) (h : s.Serving id c) : ∃ (er : Byte) (v : ReadValues),
    Works id ([.r8 .statcmd (s.env.byteAnswer .statcmd), .r8 .errfeat er] ++ captureEvents c.toDesc (nIenNow s) v)
      { withStatus c (s.env.byteAnswer .statcmd) er v with state := phComplete } s (statusPhase x s).2
    ∧ (statusPhase x s).1 = if x ≠ .noError then x
        else if err (s.env.byteAnswer .statcmd) then .deviceError else .noError := by
  have hst : Works id [.r8 .statcmd (s.env.byteAnswer .statcmd)] c s (rd8 .statcmd s).2 :=
    h.works_logs _ (s.env.byteRead .statcmd)
  have her : Works id [.r8 .errfeat (rd8 .errfeat (rd8 .statcmd s).2).1] c (rd8 .statcmd s).2
      (rd8 .errfeat (rd8 .statcmd s).2).2 :=
    (hst.serving h).works_logs _ ((s.env.byteRead .statcmd).byteRead .errfeat)
  obtain ⟨v, w⟩ := ((hst.trans her).modCur h (fun c =>
    { c with endStatus := (rd8 .statcmd s).1, endError := (rd8 .errfeat (rd8 .statcmd s).2).1 })).bring h
    captureResult_works
  refine ⟨(rd8 .errfeat (rd8 .statcmd s).2).1, v,
    (w.modCur h (fun c => { c with state := phComplete })).congr ?_ rfl, rfl⟩
  refine congrArg
    (fun l => [Event.r8 .statcmd (rd8 .statcmd s).1, .r8 .errfeat (rd8 .errfeat (rd8 .statcmd s).2).1] ++ l) ?_
  have hirq : ∀ f : Command → Command, nIenNow ((rd8 .errfeat (rd8 .statcmd s).2).2.modCur f) = nIenNow s :=
    fun f => by simp [nIenNow]
  rw [hirq]
  exact captureEvents_congr rfl rfl _ _

end Sys2Proof.Machine
end

section
/-! A command delivered by the action that submits it to an idle engine with a silent host: register reads (O27),
unknown opcodes (O35). -/

namespace Sys2Proof.Machine

/-! ## Submission and delivery in one action -/

/-- `t` is the idle engine `s` when the handler of the new command has done the work `es` and left the record `c`,
before the delivery. -/
structure State.Prepared (c : Command) (es : List Event) (s t : State) : Prop where
  current  : t.current = some s.cmds.length
  cmds     : t.cmds = s.cmds ++ [c]
  unset    : c.result = .unset
  did      : s.Did t es
  queue    : t.queue = s.queue
  qstate   : t.qstate = s.qstate
  igate    : t.igate = s.igate
  snap     : t.snap = s.snap
  devInfo0 : t.devInfo0 = s.devInfo0
  devInfo1 : t.devInfo1 = s.devInfo1
  params   : t.params = s.params
  bufs     : t.bufs = s.bufs
  host     : t.host = s.host
  breach   : t.breach = s.breach
  inbox    : t.inbox = s.inbox

/-- The state after the delivery of a new command, as the row answers it. -/
def submitted (res : Result) (s t : State) : State :=
  { completed s.cmds.length res t with ret := .status .noError }

/-- A row whose handler comes to the completion of `t` answers the delivery (R160, R170, R180). -/
theorem exec_submitted {i : Instr} {e : Desc} {s t : State} {c : Command} {es : List Event} {res : Result}
    (he : i.desc = some e) (hidle : s.Idle) (hacc : s.accepts e = true) (hp : s.Prepared c es t)
    (hrun : runHandler (dispatchN 0) (launched e s) = completeIO (dispatchN 0) res t) :
    exec i s = .next (submitted res s t) := by
  have hstored : s.cmds.length < t.cmds.length := by simp [hp.cmds]
  rw [exec_commandRow he, submitRow_idle hidle hacc, hrun,
    completeIO_silent _ _ hp.current hstored (hp.host.trans hidle.host), dispatchN_zero]
  rfl

/-- What the delivery of a new command leaves: the engine idle again, the record delivered, the events of the completion
after those of the work (R180). -/
theorem submitted_spec {s t : State} {c : Command} {es : List Event} (res : Result) (hidle : s.Idle)
    (hp : s.Prepared c es t) : ∃ r, (submitted res s t).Finished ∧ s.SameBut s.cmds.length (submitted res s t)
      ∧ s.Did (submitted res s t) (es ++ completionEvents s.cmds.length r res)
      ∧ (submitted res s t).cmd s.cmds.length = delivered res c := by
  have hcmd : t.cmd s.cmds.length = c := by simp [State.cmd, hp.cmds]
  have hcmds : (submitted res s t).cmds = s.cmds ++ [delivered res c] := by
    have h := completed_append_cmds (res := res) hp.cmds
    rw [deliveredAs, if_pos hp.unset] at h
    exact h
  obtain ⟨hsame, -, hlast⟩ := sameBut_of_append (t := submitted res s t) hp.qstate hp.igate hp.snap hp.devInfo0
    hp.devInfo1 hp.params hp.bufs hp.host hp.breach hp.inbox hcmds
  have hdone : t.Did (submitted res s t) _ := completed_did (id := s.cmds.length) (res := res)
    (by rw [hcmd]; exact hp.unset)
  exact ⟨_, ⟨rfl, rfl, hp.queue.trans hidle.queue, rfl⟩, hsame, Did.trans hp.did hdone, hlast⟩

/-- The record of the new command, replaced. -/
theorem set_append_last {α : Type} (l : List α) (a b : α) : (l ++ [a]).set l.length b = l ++ [b] := by simp

/-- The record of a new command once dispatched, in phase `ph` (R170). -/
def inService (d : Desc) (ph : Byte) : Command := { Command.fresh d with state := ph, inUse := true }

/-- A launched command that is not reclassified is served (R170). -/
theorem launched_serving {d : Desc} (s : State) (h : (isExecOp d.opcode && d.isReset08) = false) :
    (launched d s).Serving s.cmds.length (inService d phStarted) :=
  ⟨rfl, by simp, by simp [launched_plain s h, State.cmd, inService]⟩

/-! ## Unknown opcodes -/

/-- The handler of a launched command with an unknown opcode is `handleUnknown` (R144). -/
theorem runHandler_unknown {dn : State → State} {d : Desc} {s : State} (hw : (Instr.opUnknown d).wellFormed = true)
    (h : s.cur.opcode = d.opcode) : runHandler dn s = handleUnknown dn s := by
  obtain ⟨h1, h2, h3, h4, h5⟩ := opUnknown_wellFormed_iff.mp hw
  simp [runHandler, isExecOp, opExecIO, opAtapiExecIO, opRegisterAccess, opBusReset, opQueueFlush, h, h1, h2, h3, h4,
    h5]

theorem unknown_plain {d : Desc} (hw : (Instr.opUnknown d).wellFormed = true) :
    (isExecOp d.opcode && d.isReset08) = false := by
  obtain ⟨h1, h2, -⟩ := opUnknown_wellFormed_iff.mp hw
  simp [isExecOp, opExecIO, opAtapiExecIO, h1, h2]

/-- The state of a launched command in Complete, nothing else done. -/
theorem launched_complete {d : Desc} (s : State) (h : (isExecOp d.opcode && d.isReset08) = false) :
    setPhase phComplete (launched d s) = { launched d s with
      cmds := s.cmds ++ [inService d phComplete] } := by
  simp only [setPhase, State.modCur, launched_plain s h, State.modCmd, modify_append_last, inService]

/-! ## Register reads -/

/-- The state of a launched command, not reclassified, whose device was ready at once, after its selection (R201 to
R205). -/
def selectedReady (u : UnitId) (d : Desc) (s : State) : State :=
  { (launched d s).logs (selectEvents u s) with
    env := s.env.reads .altctl (selectSamples u s), selected := some u, irqEn := true }

theorem selectedReady_serving (u : UnitId) {d : Desc} (s : State) (h : (isExecOp d.opcode && d.isReset08) = false) :
    (selectedReady u d s).Serving s.cmds.length (inService d phStarted) :=
  have hl := launched_serving s h
  ⟨hl.current, hl.stored, hl.cmd⟩

/-- Work after the selection of a ready device prepares the delivery of its record. -/
theorem Works.prepared {u : UnitId} {d : Desc} {c : Command} {es : List Event} {s t : State}
    (w : Works s.cmds.length es c (selectedReady u d s) t) (hu : c.result = .unset) :
    s.Prepared c (selectEvents u s ++ es) t := by
  obtain ⟨e, rfl⟩ := w
  refine ⟨rfl, ?_, hu, ?_, rfl, rfl, rfl, rfl, rfl, rfl, rfl, rfl, rfl, rfl, rfl⟩
  · exact set_append_last _ _ c
  · exact Did.trans (b := selectedReady u d s) (did_logs _ (launched d s)) (worked_did _ e)

/-- `handleRegAccess` of a read on a ready device comes to the completion (P274, R276). -/
theorem handleRegAccess_read {dn : State → State} {u : UnitId} {d : Desc} {s : State}
    (ho : d.opcode = opRegisterAccess) (hw : d.flags.wr = false) (hu : UnitId.ofByte d.unit = some u)
    (hr : DeviceReady u d s) : ∃ (t : State) (v : ReadValues),
      Works s.cmds.length (registerReadEvents d 0x00#8 v)
        { inService d phComplete with tf := tfAfterRead d v, ext := extAfterRead d v } (selectedReady u d s) t
      ∧ handleRegAccess dn (launched d s) = completeIO dn .noError t := by
  have hp : (isExecOp d.opcode && d.isReset08) = false := by rw [ho]; rfl
  have hserve := selectedReady_serving u s hp
  obtain ⟨v, w⟩ := registerRead_works hserve
  refine ⟨_, v, w.modCur hserve (fun c => { c with state := phComplete }), ?_⟩
  unfold handleRegAccess
  rw [selectDevice_launched hp hu hr, launched_cur_plain s hp]
  dsimp only
  rw [if_pos rfl, if_neg (by simp [Command.fresh, hw])]
  rfl

end Sys2Proof.Machine

namespace Sys2Proof.Proofs

open Sys2Proof.Machine

/-- Settles O35: the handler of an unknown opcode comes to the completion at once. -/
theorem unknownOpcodeCompletes : Obligations.UnknownOpcodeCompletes := by
  intro e s hw hidle hacc
  have hp := unknown_plain hw
  have hprep : s.Prepared (inService e phComplete) []
      { launched e s with cmds := s.cmds ++ [(inService e phComplete)] } :=
    ⟨rfl, rfl, rfl, did_logs [] s, rfl, rfl, rfl, rfl, rfl, rfl, rfl, rfl, rfl, rfl, rfl⟩
  have hrun : runHandler (dispatchN 0) (launched e s) = completeIO (dispatchN 0) .invalidArgument _ :=
    (runHandler_unknown hw (by rw [launched_cur_plain s hp]; rfl)).trans
      (congrArg (completeIO (dispatchN 0) .invalidArgument) (launched_complete s hp))
  obtain ⟨r, hfin, hsame, hdid, hcmd⟩ := submitted_spec .invalidArgument hidle hprep
  exact ⟨_, r, exec_submitted rfl hidle hacc hprep hrun, hfin, hsame, hdid, hcmd, rfl, rfl, rfl, fun _ => rfl, rfl, rfl⟩

/-- Settles O27: the register read on a ready device (`registerRead_works`), then the delivery. -/
theorem registerReadCompletes : Obligations.RegisterReadCompletes := by
  intro d e i u s hi he hw hidle hacc hu hr
  have ho : e.opcode = opRegisterAccess :=
    regaccRow_opcode (d := d) (by simp only [List.mem_cons, List.not_mem_nil, or_false] at hi ⊢; tauto) he
  have hp : (isExecOp e.opcode && e.isReset08) = false := by rw [ho]; rfl
  obtain ⟨t, v, w, hhandle⟩ := handleRegAccess_read (dn := dispatchN 0) ho hw hu hr
  have hprep := w.prepared rfl
  have hrun : runHandler (dispatchN 0) (launched e s) = completeIO (dispatchN 0) .noError t := by
    rw [runHandler_regaccess (by rw [launched_cur_plain s hp]; exact ho), hhandle]
  obtain ⟨r, hfin, hsame, hdid, hcmd⟩ := submitted_spec .noError hidle hprep
  have hexec := exec_submitted he hidle hacc hprep hrun
  obtain ⟨env, rfl⟩ := w
  exact ⟨_, v, r, hexec, hfin, hsame, hdid, hcmd, rfl, rfl, rfl, fun _ => rfl, rfl, rfl⟩

end Sys2Proof.Proofs
end

section
/-! Resets of the bus and of a unit whose device answers at once (O30, O32). -/

namespace Sys2Proof.Machine

/-! ## Resets -/

/-- The event callout of a host that submits nothing calls the handlers and changes nothing else (P185). -/
theorem notifyEvent_silent (dn : State → State) (ev : EvKind) (u : Option UnitId) {t : State} (h : t.host = []) :
    notifyEvent dn ev u t = t.logs (notifyEvents t.params ev.code (unitArgument u)) := by
  have hcall : ∀ (a : Bool) (k : UnitId) (s : State), s.host = [] →
      notifyIf a dn k ev u s = s.logs (if a then [.notify k ev.code (unitArgument u)] else []) := by
    intro a k s hs
    cases a
    · rfl
    · simp [notifyIf, notify, hostCall, hs, State.logs, State.emit, withBars, Event.isAccess]
  unfold notifyEvent
  rw [hcall _ .u0 (enterCallout t) (by simpa using h), hcall _ .u1 _ (by simpa [State.logs] using h), logs_logs]
  rfl

/-- The rows of a reset dispatch a BusReset: the others are reclassified (R142, R145). -/
def dispatchesReset (d : Desc) : Prop := d.opcode = opBusReset ∨ (isExecOp d.opcode && d.isReset08) = true

theorem resetRow_dispatches {d e : Desc} {i : Instr}
    (hi : i ∈ [Instr.busreset d, .busresetAta d, .busresetAtapi d, .execioReset08 d, .atapiExecioReset08 d])
    (he : i.desc = some e) : dispatchesReset e := by
  simp only [List.mem_cons, List.not_mem_nil, or_false] at hi
  rcases hi with rfl | rfl | rfl | rfl | rfl <;> cases he
  case inl | inr.inl | inr.inr.inl => exact .inl rfl
  all_goals exact .inr (by simp [Desc.asReset08, Desc.isReset08, isExecOp, opExecIO, opAtapiExecIO])

/-- The record of a launched reset (R145, R172). -/
def resetRecord (d : Desc) (ph : Byte) : Command :=
  { Command.fresh d with state := ph, inUse := true, opcode := opBusReset }

theorem launched_dispatchesReset {d : Desc} (s : State) (h : dispatchesReset d) :
    launched d s = { s with
      cmds := s.cmds ++ [resetRecord d phStarted], bus := .busy, current := some s.cmds.length } := by
  unfold launched
  rcases h with h | h
  · rw [onDispatch_plain (by simp [Command.fresh, h, isExecOp, opExecIO, opAtapiExecIO, opBusReset])]
    simp [resetRecord, Command.fresh, ← h]
  · rw [onDispatch_reset (by exact h)]
    rfl

/-- The handler of a launched reset is `handleBusReset` (R140, R145). -/
theorem runHandler_reset {dn : State → State} {s : State} (h : s.cur.opcode = opBusReset) :
    runHandler dn s = handleBusReset dn s := by
  unfold runHandler
  rw [if_neg (by rw [h]; decide), if_neg (by rw [h]; decide), if_pos h]

/-- A scripted answer is the head of its script, whatever else was drawn. -/
theorem byteAnswer_head {e : Env} {r : Reg} {v : Byte} (h : (e.bytes r).head? = some v) : e.byteAnswer r = v := by
  obtain ⟨rest, hl⟩ := List.head?_eq_some_iff.mp h
  simp [Env.byteAnswer, hl, scriptHead]

/-- The state after the reset of a bus whose first sample is `v`, and that sample is good (P210). -/
def resetDone (a : Bool) (v : Byte) (s : State) : State :=
  { (sleep s.params.tSettle (resetPulse a s)).logs [.r8 .altctl v] with
    env := (sleep s.params.tSettle (resetPulse a s)).env.byteRead .altctl }

/-- `softResetBus` of a bus that answers at once (P210). -/
theorem softResetBus_ready {a : Bool} {s : State} {v : Byte} (hv : s.env.altctl.head? = some v)
    (hr : okReady (!a && s.devInfo0.type == .ata) v = true) : softResetBus a s = (.noError, resetDone a v s) := by
  have hans : (sleep s.params.tSettle (resetPulse a s)).env.byteAnswer .altctl = v := by
    apply byteAnswer_head
    rw [← hv]
    cases a <;> rfl
  unfold softResetBus
  dsimp only
  rw [pollStatus_first _ _ _ _ (by rw [hans]; exact hr), hans]
  rfl

theorem resetDone_handled (a : Bool) (v : Byte) (s : State) : Handled s (resetDone a v s) :=
  ((resetPulse_handled a s).trans (sleep_handled _ _)).trans
    (.of_port [.bar, .r8 .altctl v] rfl rfl rfl rfl rfl rfl rfl rfl rfl rfl rfl rfl rfl rfl rfl (Nat.le_refl _) rfl rfl
      rfl (by simp [Event.isHostCall]))

/-- The events of a reset, up to its poll (R211 to R213). -/
theorem resetDone_did (a : Bool) (v : Byte) (s : State) : s.Did (resetDone a v s)
    ((if a then [.w8 .statcmd 0x08#8] else [.w8 .altctl 0x04#8, .sleep s.params.tSrstHold, .w8 .altctl 0x00#8])
      ++ [.sleep s.params.tSettle, .r8 .altctl v]) := by
  have hpulse : s.Did (resetPulse a s)
      (if a then [.w8 .statcmd 0x08#8] else [.w8 .altctl 0x04#8, .sleep s.params.tSrstHold, .w8 .altctl 0x00#8]) := by
    rw [did_iff]
    cases a <;> rfl
  have hsettle : (resetPulse a s).Did (sleep s.params.tSettle (resetPulse a s)) [.sleep s.params.tSettle] :=
    (did_iff _ _ _).mpr (sleep_traceRev _ _)
  have hread : ∀ t : State, t.Did { t.logs [.r8 .altctl v] with env := t.env.byteRead .altctl } [.r8 .altctl v] :=
    fun t => (did_iff _ _ _).mpr rfl
  exact Did.trans hpulse (Did.trans hsettle (hread _))

/-- A whole-bus reset re-enables interrupts and clears the cache; one of a unit does neither (R211, R212). -/
theorem resetDone_fields (a : Bool) (v : Byte) (s : State) :
    (resetDone a v s).irqEn = (if a then s.irqEn else true)
      ∧ (resetDone a v s).selected = (if a then s.selected else none)
      ∧ (resetDone a v s).cmds = s.cmds ∧ (resetDone a v s).mem = s.mem ∧ (resetDone a v s).dbuf = s.dbuf := by
  cases a <;> simp [resetDone, resetPulse, State.logs, irqEnOf, ctlClear]

theorem resetDone_now (v : Byte) (s : State) :
    s.now + s.params.tSrstHold + s.params.tSettle ≤ (resetDone false v s).now := by
  have h1 := sleep_now s.params.tSrstHold (wr8 .altctl ctlSrst s)
  have h2 := sleep_now s.params.tSettle (resetPulse false s)
  have e1 : (resetPulse false s).now = (sleep s.params.tSrstHold (wr8 .altctl ctlSrst s)).now := rfl
  have e2 : (resetDone false v s).now = (sleep s.params.tSettle (resetPulse false s)).now := rfl
  rw [e2, h2, e1, h1, wr8_now]
  omega

/-- Work for a launched command that leaves its record alone prepares its delivery. -/
theorem Handled.prepared {d : Desc} {c : Command} {es : List Event} {s t : State} (h : Handled (launched d s) t)
    (hl : (launched d s).cmds = s.cmds ++ [c]) (hu : c.result = .unset) (hc : t.cmds = (launched d s).cmds)
    (hd : s.Did t es) : s.Prepared c es t :=
  ⟨h.current, hc.trans hl, hu, hd, h.queue, h.qstate, h.igate, h.snap, h.devInfo0, h.devInfo1, h.params, h.bufs, h.host,
    h.breach, h.inbox⟩

/-- The callout and the end of a reset, on the way to its delivery (R284, R285). -/
theorem State.Prepared.finishReset {dn : State → State} {c : Command} {es : List Event} {s t : State} (ev : EvKind)
    (u : Option UnitId) (x : Result) (hp : s.Prepared c es t) (hidle : s.Idle) :
    s.Prepared { c with state := phComplete } (es ++ notifyEvents s.params ev.code (unitArgument u))
      (setPhase phComplete (t.logs (notifyEvents s.params ev.code (unitArgument u))))
    ∧ Machine.finishReset dn ev u (x, t) = completeIO dn x
        (setPhase phComplete (t.logs (notifyEvents s.params ev.code (unitArgument u)))) := by
  constructor
  · have hcur : (t.logs (notifyEvents s.params ev.code (unitArgument u))).current = some s.cmds.length := hp.current
    rw [setPhase, modCur_some _ _ _ hcur]
    refine ⟨hp.current, ?_, hp.unset, Did.trans hp.did (did_logs _ t), hp.queue, hp.qstate, hp.igate, hp.snap,
      hp.devInfo0, hp.devInfo1, hp.params, hp.bufs, hp.host, hp.breach, hp.inbox⟩
    show t.cmds.modify _ _ = _
    rw [hp.cmds, modify_append_last]
  · unfold Machine.finishReset
    dsimp only
    rw [notifyEvent_silent dn ev u (hp.host.trans hidle.host), hp.params]

theorem setPhase_logs_fields (ph : Byte) (es : List Event) (t : State) :
    (setPhase ph (t.logs es)).selected = t.selected ∧ (setPhase ph (t.logs es)).irqEn = t.irqEn
      ∧ (setPhase ph (t.logs es)).now = t.now ∧ (setPhase ph (t.logs es)).mem = t.mem
      ∧ (setPhase ph (t.logs es)).dbuf = t.dbuf :=
  ⟨by simp [State.logs], by simp [State.logs], by simp [State.logs], by simp [State.logs], by simp [State.logs]⟩

/-- A reset that comes to its end with code `x` in the state `t` is answered in one action: the callout, the delivery,
and the rest as in `t` (R145, R284, R285, R180). -/
theorem exec_reset {i : Instr} {d e : Desc} {s t : State} {ev : EvKind} {u : Option UnitId} {x : Result}
    {es : List Event}
    (hi : i ∈ [Instr.busreset d, .busresetAta d, .busresetAtapi d, .execioReset08 d, .atapiExecioReset08 d])
    (he : i.desc = some e) (hidle : s.Idle) (hacc : s.accepts e = true) (hh : Handled (launched e s) t)
    (hc : t.cmds = (launched e s).cmds) (hd : s.Did t es)
    (hrun : ∀ dn, handleBusReset dn (launched e s) = Machine.finishReset dn ev u (x, t)) :
    ∃ (t' : State) (r : Result), exec i s = .next t' ∧ t'.Finished ∧ s.SameBut s.cmds.length t'
      ∧ s.Did t' (es ++ notifyEvents s.params ev.code (unitArgument u) ++ completionEvents s.cmds.length r x)
      ∧ t'.cmd s.cmds.length = { delivered x (Command.fresh e) with opcode := 0x05#8 }
      ∧ t'.selected = t.selected ∧ t'.irqEn = t.irqEn ∧ t'.now = t.now ∧ t'.mem = t.mem ∧ t'.dbuf = t.dbuf
      ∧ t'.ret = .status .noError := by
  have hrow := resetRow_dispatches hi he
  have hl := launched_dispatchesReset s hrow
  have hcur : (launched e s).cur = resetRecord e phStarted := by simp [hl, State.cur, State.cmd]
  have hprep := hh.prepared (c := resetRecord e phStarted) (by rw [hl]) rfl hc hd
  obtain ⟨hprep, hfinish⟩ := hprep.finishReset (dn := dispatchN 0) ev u x hidle
  have hhandler := (runHandler_reset (dn := dispatchN 0) (by rw [hcur]; rfl)).trans ((hrun _).trans hfinish)
  obtain ⟨r, hfin, hsame, hdid, hcmd⟩ := submitted_spec x hidle hprep
  obtain ⟨hsel, hirq, hnow, hmem, hdbuf⟩ := setPhase_logs_fields phComplete
    (notifyEvents s.params ev.code (unitArgument u)) t
  exact ⟨_, r, exec_submitted he hidle hacc hprep hhandler, hfin, hsame, hdid, hcmd, hsel, hirq, hnow, hmem, hdbuf, rfl⟩

/-- The handler of a reset without `atapi` resets the bus (P280). -/
theorem handleBusReset_bus {dn : State → State} {d : Desc} {s : State} {v : Byte} (hrow : dispatchesReset d)
    (hatapi : d.flags.atapi = false) (hv : s.env.altctl.head? = some v)
    (hr : okReady (s.devInfo0.type == .ata) v = true) :
    handleBusReset dn (launched d s) = Machine.finishReset dn .ataReset none
      (.noError, resetDone false v (launched d s)) := by
  have hcur : (launched d s).cur = resetRecord d phStarted := by
    simp [launched_dispatchesReset s hrow, State.cur, State.cmd]
  have hflags : (launched d s).cur.flags.atapi = false := by rw [hcur]; exact hatapi
  have hreset : softResetBus false (launched d s) = (.noError, resetDone false v (launched d s)) :=
    softResetBus_ready hv hr
  unfold handleBusReset
  rw [hflags, if_neg Bool.false_ne_true, hreset]

/-- The state of a launched reset when its unit is selected for DEVICE RESET (R211). -/
def resetTarget (u : UnitId) (d : Desc) (s : State) : State :=
  wr8 .devhead u.selectValue { launched d s with selected := none }

theorem resetTarget_handled (u : UnitId) (d : Desc) (s : State) : Handled (launched d s) (resetTarget u d s) :=
  .of_port [.bar, .w8 .devhead u.selectValue] rfl rfl rfl rfl rfl rfl rfl rfl rfl rfl rfl rfl rfl rfl rfl
    (Nat.le_refl _) rfl rfl rfl (by simp [Event.isHostCall])

/-- The handler of a reset with `atapi` resets its unit, if that is of ATAPI type (P280, R282). -/
theorem handleBusReset_unit {dn : State → State} {d : Desc} {s : State} {v : Byte} {u : UnitId}
    (hrow : dispatchesReset d) (hatapi : d.flags.atapi = true) (hu : UnitId.ofByte d.unit = some u)
    (hty : (s.devInfo u).type = .atapi) (hv : s.env.altctl.head? = some v) (hr : bsy v = false) :
    handleBusReset dn (launched d s) = Machine.finishReset dn .atapiReset (some u)
      (.noError, resetDone true v (resetTarget u d s)) := by
  have hcur : (launched d s).cur = resetRecord d phStarted := by
    simp [launched_dispatchesReset s hrow, State.cur, State.cmd]
  have hunit : UnitId.ofByte (launched d s).cur.unit = some u := by rw [hcur]; exact hu
  have hreset : atapiReset u (launched d s) = (.noError, resetDone true v (resetTarget u d s)) := by
    unfold atapiReset
    rw [if_pos (by rw [launched_devInfo]; exact hty)]
    exact softResetBus_ready (s := resetTarget u d s) hv (by simp [okReady, hr])
  unfold handleBusReset
  rw [if_pos (by rw [hcur]; exact hatapi), hunit]
  dsimp only
  rw [hreset]

end Sys2Proof.Machine

namespace Sys2Proof.Proofs

open Sys2Proof.Machine

/-- Settles O30: the reset of a bus that is ready at once (`softResetBus_ready`), the callout, the delivery. -/
theorem wholeBusReset : Obligations.WholeBusReset := by
  intro d e i s v hi he hatapi hidle hacc hv hr
  have hi' : i ∈ [Instr.busreset d, .busresetAta d, .busresetAtapi d, .execioReset08 d, .atapiExecioReset08 d] := by
    simp only [List.mem_cons, List.not_mem_nil, or_false] at hi ⊢; tauto
  obtain ⟨hirq', hsel', hcmds, hmem', hdbuf'⟩ := resetDone_fields false v (launched e s)
  obtain ⟨t, r, hexec, hfin, hsame, hdid, hcmd, hsel, hirq, hnow, hmem, hdbuf, hret⟩ := exec_reset hi' he hidle hacc
    (resetDone_handled false v (launched e s)) hcmds (resetDone_did false v (launched e s))
    (fun dn => handleBusReset_bus (resetRow_dispatches hi' he) hatapi hv hr)
  exact ⟨t, r, hexec, hfin, hsame, hdid, hcmd, hsel.trans hsel', hirq.trans hirq',
    (resetDone_now v (launched e s)).trans hnow.ge, fun a => congrArg (Memory.get · a) (hmem.trans hmem'),
    hdbuf.trans hdbuf', hret⟩

/-- Settles O32: the reset of an ATAPI unit that is not busy (`softResetBus_ready`), the callout, the delivery. -/
theorem unitReset : Obligations.UnitReset := by
  intro d e i u s v hi he hatapi hidle hacc hu hty hv hr
  have hi' : i ∈ [Instr.busreset d, .busresetAta d, .busresetAtapi d, .execioReset08 d, .atapiExecioReset08 d] := by
    simp only [List.mem_cons, List.not_mem_nil, or_false] at hi ⊢; tauto
  obtain ⟨hirq', hsel', hcmds, hmem', hdbuf'⟩ := resetDone_fields true v (resetTarget u e s)
  have hselect : s.Did (resetTarget u e s) [.w8 .devhead u.selectValue] := (did_iff _ _ _).mpr rfl
  obtain ⟨t, r, hexec, hfin, hsame, hdid, hcmd, hsel, hirq, -, hmem, hdbuf, hret⟩ := exec_reset hi' he hidle hacc
    ((resetTarget_handled u e s).trans (resetDone_handled true v _)) hcmds
    (Did.trans hselect (resetDone_did true v (resetTarget u e s)))
    (fun dn => handleBusReset_unit (resetRow_dispatches hi' he) hatapi hu hty hv hr)
  exact ⟨t, r, hexec, hfin, hsame, hdid, hcmd, hsel.trans hsel', hirq.trans hirq',
    fun a => congrArg (Memory.get · a) (hmem.trans hmem'), hdbuf.trans hdbuf', hret⟩

end Sys2Proof.Proofs
end

section
/-! The passes of a PIO transfer as one equation each (P300 to P314), and the IRQ actions that make one: O41, O42. -/

namespace Sys2Proof.Machine.Memory

/-- Offsets into a buffer are offsets of addresses (R97). -/
theorem addr_add (h : Word) (off k : Nat) : addr h (off + k) = addr h off + k := by unfold addr; omega

/-- Two stretches written one after the other are one. -/
theorem setBytes_append (m : List Host.Cell) (a : Nat) (xs ys : List Byte) :
    setBytes m a (xs ++ ys) = setBytes (setBytes m a xs) (a + xs.length) ys := by
  induction xs generalizing m a with
  | nil => rfl
  | cons x xs ih =>
    rw [List.cons_append, setBytes, ih, setBytes, List.length_cons, Nat.add_assoc, Nat.add_comm 1]

end Sys2Proof.Machine.Memory

namespace Sys2Proof.Machine

/-! ## Work that also moves data -/

/-- Work for command `id` that may also fill the Double Buffer, and leaves the host's memory `m`. -/
def Moves (id : Nat) (es : List Event) (c : Command) (m : List Host.Cell) (s t : State) : Prop :=
  ∃ e db, t = { s.worked id es c e with dbuf := db, mem := m }

variable {id : Nat} {c c' : Command} {es es' : List Event} {m m' : List Host.Cell} {s t u : State}

theorem Works.moves (w : Works id es c s t) : Moves id es c s.mem s t := by
  obtain ⟨e, rfl⟩ := w
  exact ⟨e, s.dbuf, rfl⟩

theorem Moves.mem_eq (w : Moves id es c m s t) : t.mem = m := by
  obtain ⟨e, db, rfl⟩ := w; rfl

theorem Moves.serving (w : Moves id es c' m s t) (h : s.Serving id c) : t.Serving id c' := by
  obtain ⟨e, db, rfl⟩ := w
  exact ⟨h.current, by simpa [State.worked] using h.stored, worked_cmd (es := es) h.stored e⟩

theorem Moves.trans (w : Moves id es c m s t) (w' : Moves id es' c' m' t u) : Moves id (es ++ es') c' m' s u := by
  obtain ⟨e, db, rfl⟩ := w
  obtain ⟨e', db', rfl⟩ := w'
  exact ⟨e', db', by simp [State.worked, State.logs, withBars_append]⟩

/-- A change of the record after other work. -/
theorem Moves.modCur (w : Moves id es c m s t) (h : s.Serving id c') (f : Command → Command) :
    Moves id es (f c) m s (t.modCur f) := by
  have ht := w.serving h
  obtain ⟨e, db, rfl⟩ := w
  refine ⟨e, db, ?_⟩
  rw [modCur_some id f _ ht.current, State.modCmd, ht.modify]
  simp [State.worked]

/-- Events, draws and moved bytes alone. -/
theorem State.Serving.moves_logs (h : s.Serving id c) (es : List Event) (e : Env) (db : List Byte)
    (m : List Host.Cell) : Moves id es c m s { s.logs es with env := e, dbuf := db, mem := m } :=
  ⟨e, db, by simp [State.worked, State.logs, h.set_self]⟩

theorem Moves.congr (w : Moves id es c m s t) (he : es = es') (hc : c = c') : Moves id es' c' m s t := he ▸ hc ▸ w

/-- Work after a move leaves the memory of the move. -/
theorem Moves.work (w : Moves id es c m s t) (w' : Works id es' c' t u) : Moves id (es ++ es') c' m s u := by
  have h := w.trans w'.moves
  rwa [w.mem_eq] at h

/-! ## Slices -/

/-- The record after a slice of `n` bytes (R308). -/
def Command.advanced (n : Nat) (c : Command) : Command :=
  { c with actual := c.actual + BitVec.ofNat 32 n, position := c.position + BitVec.ofNat 32 n }

theorem advanced_zero (c : Command) : c.advanced 0 = c := by simp [Command.advanced]

theorem advanced_advanced (a b : Nat) (c : Command) : (c.advanced a).advanced b = c.advanced (a + b) := by
  simp [Command.advanced, BitVec.add_assoc, BitVec.ofNat_add]

/-- The position after a slice that fits what remains does not wrap. -/
theorem advanced_position {n : Nat} (hn : n ≤ remaining c) (h : countsWf c) :
    (c.advanced n).position.toNat = c.position.toNat + n := by
  obtain ⟨-, hpos⟩ := h
  simp only [Command.advanced, BitVec.toNat_add, BitVec.toNat_ofNat]
  rw [Nat.mod_eq_of_lt (a := n) (by omega), Nat.mod_eq_of_lt (by omega)]

/-- A slice to the device (R308, R310). -/
theorem moveSlice_write (h : s.Serving id c) (hrd : c.flags.rd = false) (n : Nat) :
    Moves id (.memRd c.buf c.position.toNat n
        :: dataWrites (Memory.getBytes s.mem (Memory.addr c.buf c.position.toNat) n)) (c.advanced n) s.mem s
      (moveSlice n s) := by
  have w := (h.moves_logs (.memRd c.buf c.position.toNat n
    :: dataWrites (Memory.getBytes s.mem (Memory.addr c.buf c.position.toNat) n)) s.env
      (Memory.getBytes s.mem (Memory.addr c.buf c.position.toNat) n ++ s.dbuf.drop n) s.mem).modCur h
        (Command.advanced n)
  unfold moveSlice
  rw [h.cur, hrd, if_neg Bool.false_ne_true, writeSlice_eq, h.cur]
  exact w

/-- A slice from the device (R308, R309). -/
theorem moveSlice_read (h : s.Serving id c) (hrd : c.flags.rd = true) (n : Nat) :
    ∃ bs : List Byte, bs.length = n ∧
      Moves id (dataReads bs ++ [.memWr c.buf c.position.toNat n bs]) (c.advanced n)
        (Memory.setBytes s.mem (Memory.addr c.buf c.position.toNat) bs) s (moveSlice n s) := by
  have w := (h.moves_logs (dataReads (readData n s).1 ++ [.memWr c.buf c.position.toNat n (readData n s).1])
    (readData n s).2.env ((readData n s).1 ++ s.dbuf.drop n)
    (Memory.setBytes s.mem (Memory.addr c.buf c.position.toNat) (readData n s).1)).modCur h (Command.advanced n)
  refine ⟨(readData n s).1, readData_length n s, ?_⟩
  unfold moveSlice
  rw [h.cur, if_pos hrd, readSlice_eq, h.cur]
  exact w

/-- The slices of a pass to the device (R308, R310). -/
theorem moveSlices_write (fuel n : Nat) (h : s.Serving id c) (hrd : c.flags.rd = false) (hw : countsWf c)
    (hn : n ≤ remaining c) (hf : n ≤ fuel * Config.dbufBytes) :
    Moves id (writeSliceEvents s.mem c.buf c.position.toNat (sliceSizes n)) (c.advanced n) s.mem s
      (moveSlices fuel n s) := by
  induction fuel generalizing n c s with
  | zero =>
    obtain rfl : n = 0 := by omega
    rw [advanced_zero]
    exact (Works.refl h).moves
  | succ fuel ih =>
    unfold moveSlices
    split
    · next hz =>
      subst hz
      rw [advanced_zero]
      exact (Works.refl h).moves
    · next hz =>
      have hk : min n Config.dbufBytes ≤ remaining c := by omega
      have w := moveSlice_write h hrd (min n Config.dbufBytes)
      have w' := ih (n - min n Config.dbufBytes) (w.serving h) hrd (countsWf_slice c _ hk hw)
        (by have := countsWf_remaining_slice c _ hk; simp only [Command.advanced]; omega)
        (by rw [Nat.add_mul] at hf; omega)
      rw [w.mem_eq, advanced_position hk hw] at w'
      refine (w.trans w').congr ?_ ?_
      · rw [sliceSizes_cons n hz]; rfl
      · rw [advanced_advanced, Nat.add_sub_cancel' (Nat.min_le_left _ _)]

/-- The slices of a pass from the device (R308, R309). -/
theorem moveSlices_read (fuel n : Nat) (h : s.Serving id c) (hrd : c.flags.rd = true) (hw : countsWf c)
    (hn : n ≤ remaining c) (hf : n ≤ fuel * Config.dbufBytes) :
    ∃ bs : List Byte, bs.length = n ∧
      Moves id (readSliceEvents c.buf c.position.toNat (sliceSizes n) bs) (c.advanced n)
        (Memory.setBytes s.mem (Memory.addr c.buf c.position.toNat) bs) s (moveSlices fuel n s) := by
  induction fuel generalizing n c s with
  | zero =>
    obtain rfl : n = 0 := by omega
    rw [advanced_zero]
    exact ⟨[], rfl, (Works.refl h).moves⟩
  | succ fuel ih =>
    unfold moveSlices
    split
    · next hz =>
      subst hz
      rw [advanced_zero]
      exact ⟨[], rfl, (Works.refl h).moves⟩
    · next hz =>
      have hsizes := sliceSizes_cons n hz
      have hmin : min n Config.dbufBytes ≤ n := Nat.min_le_left _ _
      have hstep : n - min n Config.dbufBytes ≤ fuel * Config.dbufBytes := by rw [Nat.add_mul] at hf; omega
      generalize min n Config.dbufBytes = k at hsizes hmin hstep ⊢
      obtain ⟨b, rfl, w⟩ := moveSlice_read h hrd k
      have hk : b.length ≤ remaining c := by omega
      obtain ⟨bs, hbs, w'⟩ := ih (n - b.length) (w.serving h) hrd (countsWf_slice c _ hk hw)
        (by have := countsWf_remaining_slice c _ hk; simp only [Command.advanced]; omega) hstep
      refine ⟨b ++ bs, by rw [List.length_append]; omega, ?_⟩
      rw [w.mem_eq, advanced_position hk hw, Memory.addr_add, show (c.advanced b.length).buf = c.buf from rfl,
        ← Memory.setBytes_append] at w'
      refine (w.trans w').congr ?_ ?_
      · rw [hsizes, readSliceEvents, List.take_left, List.drop_left, List.append_assoc]; rfl
      · rw [advanced_advanced, Nat.add_sub_cancel' hmin]

/-! ## The parts of a pass -/

/-- Padding the overrun of a write (R312). -/
theorem settleOverrun_write (h : s.Serving id c) (hrd : c.flags.rd = false) (m : Nat) :
    Works id (dataWrites (List.replicate m 0#8)) c s (settleOverrun m s) := by
  unfold settleOverrun
  split
  · next hz => subst hz; exact .refl h
  · rw [h.cur, hrd, if_neg Bool.false_ne_true, pad_logs]
    exact h.works_logs _ s.env

/-- Draining the overrun of a read (R312). -/
theorem settleOverrun_read (h : s.Serving id c) (hrd : c.flags.rd = true) (m : Nat) :
    ∃ bs : List Byte, bs.length = m ∧ Works id (dataReads bs) c s (settleOverrun m s) := by
  unfold settleOverrun
  split
  · next hz => exact ⟨[], hz.symm, .refl h⟩
  · rw [h.cur, if_pos hrd, drain, readData_logs]
    exact ⟨_, readData_length m s, h.works_logs _ _⟩

/-- State Status when no byte remains (R314). -/
theorem endPass_works (h : s.Serving id c) :
    Works id [] { c with state := if remaining c = 0 then phStatus else c.state } s (endPass s) := by
  unfold endPass
  rw [h.cur]
  split
  · exact (Works.refl h).modCur h (fun c => { c with state := phStatus })
  · exact .refl h

/-- The counts of an ATAPI pass are read from the device (R306). -/
theorem passCount_atapi {lo hi : Byte} (h : s.Serving id c) (hat : c.flags.atapi = true)
    (hlo : s.env.cyllo.head? = some lo) (hhi : s.env.cylhi.head? = some hi) :
    (passCount s).1 = (min (devCount lo hi) (remaining c), devCount lo hi - min (devCount lo hi) (remaining c))
      ∧ Works id [.r8 .cyllo lo, .r8 .cylhi hi] c s (passCount s).2 := by
  have hl : s.env.byteAnswer .cyllo = lo := byteAnswer_head hlo
  have hh : (s.env.byteRead .cyllo).byteAnswer .cylhi = hi := byteAnswer_head hhi
  unfold passCount
  rw [h.cur, isATAPI, if_pos hat]
  dsimp only
  rw [rd8_fst, rd8_fst, hl, show (rd8 .cyllo s).2.env = s.env.byteRead .cyllo from rfl, hh]
  refine ⟨rfl, (s.env.byteRead .cyllo).byteRead .cylhi, ?_⟩
  rw [State.worked, h.set_self, rd8_logs, rd8_logs]
  simp [State.logs, hl, hh, withBars, Event.isAccess]

/-- The fuel of a pass covers its slices (entry 16). -/
theorem passFuel (n : Nat) : n ≤ (n / Config.dbufBytes + 1) * Config.dbufBytes := by
  have hd : Config.dbufBytes = 4096 := rfl
  rw [hd]; omega

/-- The record after a pass of `n` bytes (R308, R314). -/
def passed (n : Nat) (c : Command) : Command :=
  { c.advanced n with state := if remaining c = n then phStatus else c.state }

/-- The end of a pass of `n` bytes. -/
theorem endPass_advanced {n : Nat} (h : s.Serving id (c.advanced n)) (hn : n ≤ remaining c) :
    Works id [] (passed n c) s (endPass s) := by
  refine (endPass_works h).congr rfl ?_
  have hr : remaining (c.advanced n) = remaining c - n := countsWf_remaining_slice c n hn
  unfold passed
  rw [hr]
  by_cases hz : remaining c = n
  · rw [if_pos hz, if_pos (by omega)]
  · rw [if_neg hz, if_neg (by omega)]; rfl

/-- The data of a write pass to an ATA device (P300). -/
theorem passData_ataWrite (h : s.Serving id c) (hat : c.flags.atapi = false) (hrd : c.flags.rd = false)
    (hw : countsWf c) :
    Moves id (writeSliceEvents s.mem c.buf c.position.toNat (sliceSizes (min (remaining c) c.chunk.toNat)))
      (passed (min (remaining c) c.chunk.toNat) c) s.mem s (passData s) := by
  have hcount : passCount s = ((min (remaining c) c.chunk.toNat, 0), s) := by
    unfold passCount
    rw [h.cur, isATAPI, hat, if_neg Bool.false_ne_true]
  have hn := Nat.min_le_left (remaining c) c.chunk.toNat
  unfold passData
  rw [hcount]
  dsimp only
  have w := moveSlices_write _ _ h hrd hw hn (passFuel _)
  exact (w.work (endPass_advanced (w.serving h) hn)).congr (by simp) rfl

/-- The data of a write pass to an ATAPI device: what it asks for, then zeros (P300, R311, R312). -/
theorem passData_atapiWrite {lo hi : Byte} (h : s.Serving id c) (hat : c.flags.atapi = true)
    (hrd : c.flags.rd = false) (hw : countsWf c) (hlo : s.env.cyllo.head? = some lo)
    (hhi : s.env.cylhi.head? = some hi) :
    Moves id ([.r8 .cyllo lo, .r8 .cylhi hi]
        ++ writeSliceEvents s.mem c.buf c.position.toNat (sliceSizes (min (devCount lo hi) (remaining c)))
        ++ dataWrites (List.replicate (devCount lo hi - min (devCount lo hi) (remaining c)) 0#8))
      (passed (min (devCount lo hi) (remaining c)) c) s.mem s (passData s) := by
  obtain ⟨hcount, wc⟩ := passCount_atapi h hat hlo hhi
  have hn := Nat.min_le_right (devCount lo hi) (remaining c)
  unfold passData
  dsimp only
  rw [hcount]
  dsimp only
  have w := moveSlices_write _ _ (wc.serving h) hrd hw hn (passFuel _)
  rw [wc.moves.mem_eq] at w
  have w := wc.moves.trans w
  have w := w.work (settleOverrun_write (w.serving h) hrd (devCount lo hi - min (devCount lo hi) (remaining c)))
  exact (w.work (endPass_advanced (w.serving h) hn)).congr (by simp) rfl

/-- The data of a read pass from an ATAPI device: what is expected goes to the buffer, the rest is drained (P300,
R312). -/
theorem passData_atapiRead {lo hi : Byte} (h : s.Serving id c) (hat : c.flags.atapi = true)
    (hrd : c.flags.rd = true) (hw : countsWf c) (hlo : s.env.cyllo.head? = some lo)
    (hhi : s.env.cylhi.head? = some hi) :
    ∃ bs drained : List Byte, bs.length = min (devCount lo hi) (remaining c)
      ∧ bs.length + drained.length = devCount lo hi
      ∧ Moves id ([.r8 .cyllo lo, .r8 .cylhi hi]
          ++ readSliceEvents c.buf c.position.toNat (sliceSizes bs.length) bs ++ dataReads drained)
        (passed bs.length c) (Memory.setBytes s.mem (Memory.addr c.buf c.position.toNat) bs) s (passData s) := by
  obtain ⟨hcount, wc⟩ := passCount_atapi h hat hlo hhi
  have hn := Nat.min_le_right (devCount lo hi) (remaining c)
  unfold passData
  dsimp only
  rw [hcount]
  dsimp only
  obtain ⟨bs, hbs, w⟩ := moveSlices_read _ _ (wc.serving h) hrd hw hn (passFuel _)
  rw [wc.moves.mem_eq] at w
  have w := wc.moves.trans w
  obtain ⟨dr, hdr, wd⟩ := settleOverrun_read (w.serving h) hrd (devCount lo hi - min (devCount lo hi) (remaining c))
  have w := w.work wd
  refine ⟨bs, dr, hbs, by omega, ?_⟩
  rw [hbs]
  exact (w.work (endPass_advanced (w.serving h) hn)).congr (by simp) rfl

/-! ## An IRQ that makes a pass -/

/-- The state of an IRQ once its Status is acknowledged and the first sample `a` of Alternate Status taken (R360,
R302). -/
def irqSampled (a : Byte) (s : State) : State :=
  { s.logs [.r8 .statcmd (s.env.byteAnswer .statcmd), .r8 .altctl a] with
    env := (s.env.byteRead .statcmd).byteRead .altctl }

theorem State.Running.serving (h : s.Running id) : s.Serving id (s.cmd id) := ⟨h.current, h.stored, rfl⟩

/-- The IRQ of a running command before its last phase takes `phaseStep`, and the command waits for the next one if it
is not complete after that (P246, P360). -/
theorem exec_irq_waits {x : Result} (hrun : s.Running id) (hen : s.irqEn = true) (harm : s.timer.armed = true)
    (hph : (s.cmd id).state ≠ phComplete) (hstep : phaseStep (rd8 .statcmd s).2 = (x, t))
    (hstay : t.cur.state ≠ phComplete) (hbr : t.breach = none) :
    exec .irq s = .next { t with ret := .nothing } := by
  have hruns : irqRuns s = true := by
    simp [irqRuns, hen, hrun.current, irqAdvances, hrun.async, hrun.exec, hph]
  obtain ⟨_, -, hentry⟩ := irqEntry_runs hruns
  have hbounded : unboundedPoll s = false := by simp [unboundedPoll, harm]
  have hasync : irqEntry s = t := by
    rw [hentry, asyncIO, hstep]
    exact if_neg hstay
  have hexec : exec .irq s = execIrq s := rfl
  rw [hexec, execIrq, if_pos hruns, hbounded, if_neg Bool.false_ne_true, hasync]
  exact guarded_next (t := { t with ret := .nothing }) (hostBreach_running hrun) hbr

/-- The DataTransfer step of a command that stays for the next interrupt, its DRQ shown at the first sample (P250,
P300). -/
theorem dataStep_first {a : Byte} (h : s.Serving id c) (hdir : (isATAPI c || c.flags.wr) = true)
    (hrem : 0 < remaining c) (ha : s.env.altctl.head? = some a) (hok : okData a = true) {n : Nat}
    (w : Moves id es (passed n c) m { s.logs [.r8 .altctl a] with env := s.env.byteRead .altctl } t)
    (ht : t = passData { s.logs [.r8 .altctl a] with env := s.env.byteRead .altctl }) :
    dataStep s = (.noError, t) := by
  have hans : s.env.byteAnswer .altctl = a := byteAnswer_head ha
  have hcur : t.cur = passed n c :=
    (w.serving (h.works_logs [.r8 .altctl a] (s.env.byteRead .altctl) |>.serving h)).cur
  have hpio : pioPass s = (.noError, t) := by
    unfold pioPass
    rw [h.cur, if_neg (by omega), pollStatus_first _ _ _ _ (by rw [hans]; exact hok), hans, ht]
    rfl
  have hdir' : (isATAPI (passed n c) || (passed n c).flags.wr) = true := hdir
  unfold dataStep
  rw [hpio]
  dsimp only
  rw [if_neg (by simp), hcur, hdir', if_pos rfl, ite_self]

/-- A running command waits on after a move of its data, and nothing else has changed. -/
theorem Moves.waits (w : Moves id es c m s t) (hrun : s.Running id) (hen : s.irqEn = true)
    (harm : s.timer.armed = true) (r : Return) : { t with ret := r }.Waiting id ∧ s.SameBut id { t with ret := r }
      ∧ s.Did { t with ret := r } es ∧ t.cmd id = c ∧ t.timer = s.timer ∧ t.selected = s.selected ∧ t.irqEn = true
      ∧ t.now = s.now ∧ t.breach = none := by
  obtain ⟨e, db, rfl⟩ := w
  exact ⟨⟨hrun.bus, hrun.current, hrun.queue, harm⟩,
    ⟨rfl, rfl, rfl, rfl, rfl, rfl, rfl, rfl, rfl, rfl, fun k hk _ => worked_cmd_other (es := es) hk e⟩,
    worked_did (id := id) (c := c) s e, worked_cmd (es := es) hrun.stored e, rfl, rfl, hen, rfl, hrun.breach⟩

/-- An IRQ that makes one pass, after which its command waits for the next one (P250, P300, P360). -/
theorem exec_irq_pass {a : Byte} {n : Nat} (hrun : s.Running id) (hen : s.irqEn = true) (harm : s.timer.armed = true)
    (hph : (s.cmd id).state = phDataTransfer) (hdir : (isATAPI (s.cmd id) || (s.cmd id).flags.wr) = true)
    (hrem : 0 < remaining (s.cmd id)) (ha : s.env.altctl.head? = some a) (hok : okData a = true)
    (w : Moves id es (passed n (s.cmd id)) m (irqSampled a s) (passData (irqSampled a s))) :
    ∃ t : State, exec .irq s = .next t ∧ t.Waiting id ∧ s.SameBut id t
      ∧ s.Did t ([.r8 .statcmd (s.env.answer .statcmd 0), .r8 .altctl a] ++ es) ∧ t.mem = m
      ∧ t.cmd id = passed n (s.cmd id) ∧ t.timer = s.timer ∧ t.selected = s.selected ∧ t.irqEn = true
      ∧ t.now = s.now := by
  have hserve := hrun.serving
  have hack : (rd8 .statcmd s).2.Serving id (s.cmd id) :=
    (hserve.works_logs [.r8 .statcmd (s.env.byteAnswer .statcmd)] (s.env.byteRead .statcmd)).serving hserve
  have hsampled : { (rd8 .statcmd s).2.logs [.r8 .altctl a] with env := (rd8 .statcmd s).2.env.byteRead .altctl }
      = irqSampled a s := by
    rw [rd8_logs]; simp [irqSampled, State.logs, withBars, Event.isAccess]
  have hstep : phaseStep (rd8 .statcmd s).2 = (.noError, passData (irqSampled a s)) := by
    have hdata := dataStep_first (s := (rd8 .statcmd s).2) (t := passData (irqSampled a s)) hack hdir hrem ha hok
      (by rw [hsampled]; exact w) (by rw [hsampled])
    unfold phaseStep
    rw [hack.cur, hph, if_neg (by decide), if_neg (by decide), if_pos rfl, hdata]
  have wall := (hserve.works_logs [.r8 .statcmd (s.env.byteAnswer .statcmd), .r8 .altctl a]
    ((s.env.byteRead .statcmd).byteRead .altctl)).moves.trans w
  have hstay : (passData (irqSampled a s)).cur.state ≠ phComplete := by
    rw [(wall.serving hserve).cur, passed, hph]
    dsimp only
    split <;> decide
  obtain ⟨hwait, hsame, hdid, hcmd, htimer, hsel, hirq, hnow, hbr⟩ := wall.waits hrun hen harm .nothing
  exact ⟨_, exec_irq_waits hrun hen harm (by rw [hph]; decide) hstep hstay hbr, hwait, hsame, hdid, wall.mem_eq, hcmd,
    htimer, hsel, hirq, hnow⟩

end Sys2Proof.Machine

namespace Sys2Proof.Proofs

open Sys2Proof.Machine

/-- Settles O41: the pass of an ATAPI read (`passData_atapiRead`). -/
theorem irqReadsDeviceBlock : Obligations.IrqReadsDeviceBlock := by
  intro s id a lo hi hrun hwf hen harm hph hat hrd hrem ha hok hlo hhi
  have hserve := hrun.serving
  have hsampled : (irqSampled a s).Serving id (s.cmd id) := (hserve.works_logs _ _).serving hserve
  obtain ⟨bs, drained, hbs, hall, w⟩ := passData_atapiRead hsampled hat hrd hrun.counts hlo hhi
  obtain ⟨t, hexec, hwait, hsame, hdid, hmem, hcmd, htimer, hsel, hirq, hnow⟩ :=
    exec_irq_pass hrun hen harm hph (by simp [isATAPI, hat]) hrem ha hok w
  refine ⟨t, bs, drained, hexec, hwait, hsame, hbs, hall, ?_, ?_, ?_, htimer, hsel, hirq, hnow⟩
  · simpa only [List.append_assoc, List.cons_append, List.nil_append] using hdid
  · intro k
    rw [hmem]
    exact Memory.get_setBytes hwf.1
  · rw [hcmd, passed, hph]
    simp only [eq_comm, Command.advanced]

/-- Settles O42: the pass of a write (`passData_ataWrite`, `passData_atapiWrite`). -/
theorem irqWritesBlock : Obligations.IrqWritesBlock := by
  intro s id a hrun hen harm hph hrd hrem ha hok
  have hserve := hrun.serving
  have hsampled : (irqSampled a s).Serving id (s.cmd id) := (hserve.works_logs _ _).serving hserve
  constructor
  · intro hat hwr
    obtain ⟨t, hexec, hwait, hsame, hdid, hmem, hcmd, htimer, hsel, hirq, hnow⟩ :=
      exec_irq_pass hrun hen harm hph (by simp [hwr]) hrem ha hok (passData_ataWrite hsampled hat hrd hrun.counts)
    refine ⟨t, hexec, hwait, hsame, hdid, fun k => congrArg (Memory.get · k) hmem, ?_, htimer, hsel, hirq, hnow⟩
    rw [hcmd, passed, hph]
    simp only [Command.advanced, left_eq_inf]
  · intro lo hi hat hlo hhi
    obtain ⟨t, hexec, hwait, hsame, hdid, hmem, hcmd, htimer, hsel, hirq, hnow⟩ :=
      exec_irq_pass hrun hen harm hph (by simp [isATAPI, hat]) hrem ha hok
        (passData_atapiWrite hsampled hat hrd hrun.counts hlo hhi)
    refine ⟨t, hexec, hwait, hsame, ?_, fun k => congrArg (Memory.get · k) hmem, ?_, htimer, hsel, hirq, hnow⟩
    · rw [← List.append_assoc, ← List.append_assoc] at hdid
      exact hdid
    · rw [hcmd, passed, hph]
      simp only [Command.advanced, right_eq_inf]
      rfl

end Sys2Proof.Proofs
end

section
/-! A packet sent in the action that dispatches its command (O21): the selection of a ready device, the taskfile, the
wait for DRQ, the packet words, the DMA start. -/

namespace Sys2Proof.Machine

/-! ## The draws after some samples of Alternate Status -/

theorem answer_reads (k j : Nat) (e : Env) : (e.reads .altctl k).answer .altctl j = e.answer .altctl (k + j) := by
  induction k generalizing e with
  | zero => rw [Nat.zero_add]; rfl
  | succ k ih => rw [Nat.add_right_comm]; exact ih _

theorem reads_startDma (k : Nat) (e : Env) : (e.reads .altctl k).startDma = e.startDma := by
  induction k generalizing e with
  | zero => rfl
  | succ k ih => exact ih _

theorem reads_altctl_ne_nil (k : Nat) {e : Env} (h : e.altctl ≠ []) : (e.reads .altctl k).altctl ≠ [] := by
  induction k generalizing e with
  | zero => exact h
  | succ k ih => exact ih (by simpa using scriptTail_ne_nil h)

/-! ## The wait for DRQ -/

variable {id : Nat} {c c' : Command} {es es' : List Event} {s t : State}

/-- At the deadline a wait for DRQ ends with its first sample, whatever its budget (R262, R333). -/
theorem pollData_expired (n : Nat) (h : checkTimeout s = true) :
    pollStatus okData abortData n s = pollStatus okData abortData 0 s := by
  cases n with
  | zero => rfl
  | succ n =>
    have habort : ∃ e, abortData (rd8 .altctl s).1 (rd8 .altctl s).2 = some e := by
      unfold abortData
      split
      · exact ⟨_, rfl⟩
      · exact ⟨.timeout, if_pos h⟩
    obtain ⟨e, he⟩ := habort
    unfold pollStatus
    simp only [he]

/-- A wait for DRQ with an armed timer sleeps at most until the deadline (R262, R333). -/
theorem pollData_deadline (m n : Nat) (harm : s.timer.armed = true) (hmn : m ≤ n) (hm : deadlineSleeps s ≤ m) :
    pollStatus okData abortData n s = pollStatus okData abortData m s := by
  have hpos := s.params.tPoll_pos
  induction m generalizing n s with
  | zero =>
    refine pollData_expired n ?_
    have hz : s.timer.deadline - s.now + (s.params.tPoll - 1) < s.params.tPoll :=
      (Nat.div_eq_zero_iff_lt hpos).mp (Nat.le_zero.mp hm)
    simp only [checkTimeout, harm, Bool.true_and, decide_eq_true_eq]
    omega
  | succ m ih =>
    obtain ⟨n, rfl⟩ : ∃ k, n = k + 1 := ⟨n - 1, by omega⟩
    have hlater : deadlineSleeps (sleep s.params.tPoll (rd8 .altctl s).2) ≤ m := by
      have hnow : s.now + s.params.tPoll ≤ (sleep s.params.tPoll (rd8 .altctl s).2).now := by
        rw [sleep_now, rd8_now]; omega
      have hdiv : (s.timer.deadline - s.now + (s.params.tPoll - 1)) / s.params.tPoll < m + 2 := by
        unfold deadlineSleeps at hm; omega
      rw [Nat.div_lt_iff_lt_mul hpos] at hdiv
      refine Nat.le_of_lt_succ ((Nat.div_lt_iff_lt_mul hpos).mpr ?_)
      show s.timer.deadline - _ + (s.params.tPoll - 1) < _ * s.params.tPoll
      rw [show m + 2 = (m + 1) + 1 from rfl, Nat.add_one_mul (m + 1)] at hdiv
      have hone : s.params.tPoll ≤ (m + 1) * s.params.tPoll := Nat.le_mul_of_pos_left _ (Nat.succ_pos m)
      rw [Nat.succ_eq_add_one]
      omega
    have hrest := ih (s := sleep s.params.tPoll (rd8 .altctl s).2) n harm (by omega) hlater hpos
    unfold pollStatus
    simp only [hrest]

/-- A wait for DRQ that fails: how often it sleeps, what it adds, and its code (R262, R303). -/
theorem pollData_fails (n : Nat) (harm : s.timer.armed = true) (hno : NoData 0 s) :
    ∃ m, m ≤ n ∧ m ≤ deadlineSleeps s ∧ s.now + m * s.params.tPoll ≤ (pollStatus okData abortData n s).state.now
      ∧ WaitEnds 0 m (m = n ∨ s.timer.deadline ≤ (pollStatus okData abortData n s).state.now)
          (pollStatus okData abortData n s).code s
      ∧ ∃ now env, (pollStatus okData abortData n s).state
          = { s.logs (pollEvents 0 m s) with now := now, env := env } := by
  have hbound : pollStatus okData abortData n s = pollStatus okData abortData (min n (deadlineSleeps s)) s := by
    rcases Nat.le_total n (deadlineSleeps s) with h | h
    · rw [Nat.min_eq_left h]
    · rw [Nat.min_eq_right h]; exact pollData_deadline _ _ harm h (Nat.le_refl _)
  obtain ⟨m, f⟩ := pollStatus_form okData abortData (min n (deadlineSleeps s)) s hno.1
  rw [← hbound] at f
  have hm := f.budget
  have hcheck : ∀ v, abortData v (pollStatus okData abortData n s).state
      = if dataError v then some .deviceError
        else if s.timer.deadline ≤ (pollStatus okData abortData n s).state.now then some .timeout else none := by
    obtain ⟨now, alt, late, drawn, hst⟩ := f.state
    intro v
    rw [hst]
    by_cases hd : s.timer.deadline ≤ now <;> simp [abortData, checkTimeout, State.logs, harm, hd]
  have hquiet : ∀ j < m, okData (s.env.answer .altctl (0 + j)) = false
      ∧ dataError (s.env.answer .altctl (0 + j)) = false := by
    intro j hj
    obtain ⟨hok, t, -, habort⟩ := f.quiet j hj
    rw [Nat.zero_add]
    refine ⟨hok, ?_⟩
    by_contra he
    rw [Bool.not_eq_false] at he
    rw [abortData, if_pos he] at habort
    cases habort
  have hlast : okData (s.env.answer .altctl (0 + m)) = false := by
    by_contra hok
    obtain ⟨j, hj, he⟩ := hno.2 m (by simpa using hok)
    rw [(hquiet j hj).2] at he
    cases he
  have hcode : dataError (s.env.answer .altctl (0 + m)) = true ∧ (pollStatus okData abortData n s).code = .deviceError
      ∨ dataError (s.env.answer .altctl (0 + m)) = false ∧ (pollStatus okData abortData n s).code = .timeout
        ∧ (m = n ∨ s.timer.deadline ≤ (pollStatus okData abortData n s).state.now) := by
    have hclock := f.clock
    rw [Nat.zero_add] at hlast ⊢
    rcases f.ending with ⟨hok, -⟩ | ⟨-, habort⟩ | ⟨-, habort, hcode, hmn⟩
    · rw [f.sample, hlast] at hok; cases hok
    · rw [f.sample, hcheck] at habort
      split at habort
      · next he => exact .inl ⟨he, (Option.some.inj habort).symm⟩
      · next he =>
        split at habort
        · next hd => exact .inr ⟨by simpa using he, (Option.some.inj habort).symm, .inr hd⟩
        · cases habort
    · rw [f.sample, hcheck] at habort
      split at habort
      · cases habort
      · next he =>
        split at habort
        · cases habort
        · next hd =>
          refine .inr ⟨by simpa using he, hcode, .inl ?_⟩
          by_contra hne
          have hdl : m = deadlineSleeps s := by omega
          have hpos := s.params.tPoll_pos
          have hlt := Nat.lt_div_mul_add (a := s.timer.deadline - s.now + (s.params.tPoll - 1)) hpos
          rw [show (s.timer.deadline - s.now + (s.params.tPoll - 1)) / s.params.tPoll = m from hdl.symm] at hlt
          omega
  obtain ⟨now, alt, late, drawn, hst⟩ := f.state
  exact ⟨m, by omega, by omega, f.clock, ⟨hquiet, hcode⟩, now, _, hst⟩

/-! ## The packet -/

/-- `startDma` with a scripted answer (R86). -/
theorem startDma_logs {x : Result} (h : s.env.startDma.head? = some x) :
    ∃ e, startDma s = (x, { s.logs [.startDma x] with env := e }) := by
  obtain ⟨rest, hl⟩ := List.head?_eq_some_iff.mp h
  refine ⟨(startDma s).2.env, ?_⟩
  unfold startDma
  rw [hl]
  rfl

/-- The packet words (R264). -/
theorem packetWords_works (h : s.Serving id c) :
    Works id (packetEvents c.toDesc) c s (writeWords (packetWords c) s) := by
  rw [writeWords_logs, packetWords_events]
  exact h.works_logs _ s.env

/-- The packet, and the DMA start of a DMA command that its hook accepts (R260, R264). -/
theorem sendPacket_sent (h : s.Serving id c) (hdma : c.flags.dma = true → s.env.startDma.head? = some .noError) :
    ∃ t, sendPacket s = (.noError, t)
      ∧ Works id (packetEvents c.toDesc ++ (if c.flags.dma then [.startDma .noError] else []))
          { c with state := if isPIOData c then phDataTransfer else phStatus } s t := by
  have w := packetWords_works h
  unfold sendPacket
  rw [h.cur]
  by_cases hd : c.flags.dma = true
  · obtain ⟨e, he⟩ := startDma_logs (s := writeWords (packetWords c) s)
      (by rw [writeWords_logs]; exact hdma hd)
    simp only [if_pos hd, he]
    exact ⟨_, rfl, (w.trans ((w.serving h).works_logs _ e)).modCur h
      (fun c' => { c' with state := if isPIOData c then phDataTransfer else phStatus })⟩
  · simp only [if_neg hd, List.append_nil]
    exact ⟨_, rfl, w.modCur h (fun c' => { c' with state := if isPIOData c then phDataTransfer else phStatus })⟩

/-- The packet of a DMA command whose DMA the hook refuses (R260). -/
theorem sendPacket_refused {x : Result} (h : s.Serving id c) (hd : c.flags.dma = true)
    (hx : s.env.startDma.head? = some x) (hne : x ≠ .noError) :
    ∃ t, sendPacket s = (x, t) ∧ Works id (packetEvents c.toDesc ++ [.startDma x]) c s t := by
  have w := packetWords_works h
  obtain ⟨e, he⟩ := startDma_logs (s := writeWords (packetWords c) s) (by rw [writeWords_logs]; exact hx)
  unfold sendPacket
  rw [h.cur]
  simp only [if_pos hd, he, if_neg hne]
  exact ⟨_, rfl, w.trans ((w.serving h).works_logs _ e)⟩

/-! ## From the submission to the wait for DRQ -/

/-- The state of a launched command, its device selected and its timer armed (R242, R331). -/
def armedReady (u : UnitId) (d : Desc) (s : State) : State :=
  { (selectedReady u d s).logs [.arm (d.timeoutMs.toNat * 1000)] with
    timer := ⟨true, s.now + d.timeoutMs.toNat * 1000⟩ }

/-- The state of a launched packet command when it waits for DRQ (R251, R252). -/
def packetWait (u : UnitId) (d : Desc) (s : State) : State :=
  (armedReady u d s).worked s.cmds.length (taskfileEvents d) (inService d phPacketIssue)
    (s.env.reads .altctl (selectSamples u s))

theorem packetWait_prepared (u : UnitId) (d : Desc) (s : State) :
    s.Prepared (inService d phPacketIssue)
      (selectEvents u s ++ [.arm (d.timeoutMs.toNat * 1000)] ++ taskfileEvents d) (packetWait u d s) := by
  refine ⟨rfl, set_append_last _ _ _, rfl, ?_, rfl, rfl, rfl, rfl, rfl, rfl, rfl, rfl, rfl, rfl, rfl⟩
  have hsel : s.Did (selectedReady u d s) (selectEvents u s) := did_logs _ (launched d s)
  have harm : (selectedReady u d s).Did (armedReady u d s) [.arm (d.timeoutMs.toNat * 1000)] := did_logs _ _
  exact Did.trans (Did.trans hsel harm) (worked_did _ _)

/-- The record of a prepared state is served. -/
theorem State.Prepared.serving (h : s.Prepared c es t) : t.Serving s.cmds.length c :=
  ⟨h.current, by simp [h.cmds], by simp [State.cmd, h.cmds]⟩

/-- More work before the delivery. -/
theorem State.Prepared.work {u : State} (h : s.Prepared c es t) (w : Works s.cmds.length es' c' t u)
    (hu : c'.result = .unset) : s.Prepared c' (es ++ es') u := by
  obtain ⟨e, rfl⟩ := w
  exact ⟨h.current, by simp [State.worked, h.cmds], hu, Did.trans h.did (worked_did t e), h.queue, h.qstate, h.igate,
    h.snap, h.devInfo0, h.devInfo1, h.params, h.bufs, h.host, h.breach, h.inbox⟩

/-- The Started step of a packet command in the DRQImmediate mode goes on to its packet (R251, R252). -/
theorem phaseStep_packet {u : UnitId} {d : Desc} {s : State} (hex : (isExecOp d.opcode && d.isReset08) = false)
    (hp : hasPacket (Command.fresh d) = true) (hu : UnitId.ofByte d.unit = some u)
    (hmode : (s.devInfo u).pmode = .drqImmediate) :
    phaseStep (armedReady u d s) = packetStep (packetWait u d s) := by
  have hserve : (armedReady u d s).Serving s.cmds.length (inService d phStarted) :=
    have h := selectedReady_serving u s hex
    ⟨h.current, h.stored, h.cmd⟩
  have hpacket : hasPacket (inService d phStarted) = true := hp
  have hstart : startedPhase (armedReady u d s) = (.noError, packetWait u d s) := by
    have hissue : setPhase phPacketIssue (issueTaskfile (armedReady u d s)) = packetWait u d s := by
      have hissued : ((armedReady u d s).logs (taskfileEvents d)).Serving s.cmds.length (inService d phStarted) :=
        ⟨hserve.current, hserve.stored, hserve.cmd⟩
      have hwords : taskfileEvents (inService d phStarted).toDesc = taskfileEvents d := rfl
      rw [issueTaskfile_logs, hserve.cur, hwords, setPhase,
        modCur_some _ _ _ hissued.current, State.modCmd, hissued.modify]
      rfl
    unfold startedPhase
    simp only [hserve.cur, hpacket, Bool.not_true, Bool.and_false, Bool.false_eq_true, if_false, if_true,
      phaseAfterStart, hissue]
  have hcur := (packetWait_prepared u d s).serving.cur
  have hdrq : drqImmediate d.unit (packetWait u d s) = true := by
    have hinfo : (packetWait u d s).devInfo u = s.devInfo u := by cases u <;> rfl
    simp [drqImmediate, hu, hinfo, hmode]
  unfold phaseStep
  rw [hserve.cur, if_pos (show (inService d phStarted).state = phStarted from rfl)]
  unfold startedStep
  rw [hstart]
  dsimp only
  rw [if_neg (by simp), hcur, if_pos]
  rw [show (inService d phPacketIssue).unit = d.unit from rfl, hdrq]
  rfl

/-- The handler of such a command takes the packet step, and delivers the command if that completes it (P242, P246). -/
theorem runHandler_packet {dn : State → State} {u : UnitId} {d : Desc} {s : State} (ho : isExecOp d.opcode = true)
    (h8 : d.isReset08 = false) (harm : s.timer.armed = false) (hasync : d.flags.noirq = false)
    (hp : hasPacket (Command.fresh d) = true) (hu : UnitId.ofByte d.unit = some u)
    (hmode : (s.devInfo u).pmode = .drqImmediate) (hr : DeviceReady u d s) :
    runHandler dn (launched d s)
      = if (packetStep (packetWait u d s)).2.cur.state = phComplete
        then completeIO dn (packetStep (packetWait u d s)).1 (packetStep (packetWait u d s)).2
        else (packetStep (packetWait u d s)).2 := by
  have hex : (isExecOp d.opcode && d.isReset08) = false := by rw [h8, Bool.and_false]
  have hcur := (launched_serving s hex).cur
  have hselected : selectDevice (launched d s).cur.unit (launched d s) = (.noError, selectedReady u d s) :=
    selectDevice_launched hex hu hr
  have hstarted : startTimer (timeoutUs (inService d phStarted)) (selectedReady u d s) = armedReady u d s :=
    startTimer_logs _ _ harm
  unfold runHandler handleExecIO
  rw [hselected, hcur, if_pos (show isExecOp (inService d phStarted).opcode = true from ho)]
  dsimp only
  rw [if_neg (by simp), if_neg (by simp [inService, Command.fresh, hasync]), hstarted, asyncIO,
    phaseStep_packet hex hp hu hmode]

/-! ## The ends of the action -/

/-- A row whose handler comes to a failed phase takes the status phase and is delivered in the same action (R250, R270,
R180). -/
theorem exec_statusPhase {i : Instr} {d : Desc} {ph : Byte} {x : Result} (he : i.desc = some d) (hidle : s.Idle)
    (hacc : s.accepts d = true) (hx : x ≠ .noError) (hp : s.Prepared (inService d ph) es t) (hirq : t.irqEn = true)
    (hmem : t.mem = s.mem) (hdbuf : t.dbuf = s.dbuf)
    (hrun : runHandler (dispatchN 0) (launched d s)
      = if (statusPhase x t).2.cur.state = phComplete
        then completeIO (dispatchN 0) (statusPhase x t).1 (statusPhase x t).2 else (statusPhase x t).2) :
    ∃ t' : State, exec i s = .next t' ∧ t'.selected = t.selected ∧ t'.now = t.now ∧ t'.ret = .status .noError
      ∧ s.EndedWith s.cmds.length (Command.fresh d) es x t' := by
  obtain ⟨er, v, w, hcode⟩ := statusPhase_works x hp.serving
  rw [if_pos hx] at hcode
  have hdone := hp.work w rfl
  rw [if_pos (by rw [hdone.serving.cur]), hcode] at hrun
  obtain ⟨r, hfin, hsame, hdid, hcmd⟩ := submitted_spec x hidle hdone
  have hien : nIenNow t = 0x00#8 := by simp [nIenNow, hirq, ctlClear]
  rw [hien, captureEvents_congr (d := (Command.fresh d).toDesc) (d' := (inService d ph).toDesc) rfl rfl] at hdid
  have hexec := exec_submitted he hidle hacc hdone hrun
  generalize statusPhase x t = q at w hexec hfin hsame hdid hcmd
  obtain ⟨x', t'⟩ := q
  obtain ⟨e, rfl⟩ := w
  refine ⟨_, hexec, rfl, rfl, rfl, hfin, hsame, hirq, fun a => congrArg (Memory.get · a) hmem, hdbuf,
    t.env.byteAnswer .statcmd, er, v, r, ?_, hcmd⟩
  simpa only [List.append_assoc] using hdid

/-- A row whose handler leaves its command waiting for an interrupt. -/
theorem exec_submitted_waits {i : Instr} {d : Desc} (he : i.desc = some d) (hidle : s.Idle) (hacc : s.accepts d = true)
    (hp : s.Prepared c es t) (hbus : t.bus = .busy) (harm : t.timer.armed = true)
    (hrun : runHandler (dispatchN 0) (launched d s) = t) :
    exec i s = .next { t with ret := .status .noError }
      ∧ { t with ret := .status .noError }.Waiting s.cmds.length
      ∧ s.SameBut s.cmds.length { t with ret := .status .noError } ∧ t.cmd s.cmds.length = c := by
  obtain ⟨hsame, -, hcmd⟩ := sameBut_of_append (t := { t with ret := .status .noError }) hp.qstate hp.igate hp.snap
    hp.devInfo0 hp.devInfo1 hp.params hp.bufs hp.host hp.breach hp.inbox hp.cmds
  refine ⟨?_, ⟨hbus, hp.current, hp.queue.trans hidle.queue, harm⟩, hsame, hcmd⟩
  rw [exec_commandRow he, submitRow_idle hidle hacc, hrun]

/-- What work for a command leaves alone. -/
theorem Works.fields (w : Works id es c s t) : t.selected = s.selected ∧ t.irqEn = s.irqEn ∧ t.now = s.now
    ∧ t.mem = s.mem ∧ t.dbuf = s.dbuf ∧ t.timer = s.timer ∧ t.bus = s.bus := by
  obtain ⟨e, rfl⟩ := w
  exact ⟨rfl, rfl, rfl, rfl, rfl, rfl, rfl⟩

/-- The packet step whose wait for DRQ passes at its first sample sends the packet (R262, R264). -/
theorem packetPhase_first (h : okData (s.env.byteAnswer .altctl) = true) :
    packetPhase s
      = sendPacket { s.logs [.r8 .altctl (s.env.byteAnswer .altctl)] with env := s.env.byteRead .altctl } := by
  unfold packetPhase
  rw [pollStatus_first _ _ _ _ h]
  exact if_pos rfl

/-- A packet phase that fails goes on to the status phase (R253). -/
theorem packetStep_fails {x : Result} (h : packetPhase s = (x, t)) (hx : x ≠ .noError) :
    packetStep s = statusPhase x t := by
  unfold packetStep
  rw [h]
  exact if_neg hx

/-- The answers that a wait for DRQ sees are those after the samples of the selection. -/
theorem packetWait_answer (u : UnitId) (d : Desc) (s : State) (j : Nat) :
    (packetWait u d s).env.answer .altctl j = s.env.answer .altctl (selectSamples u s + j) := answer_reads _ _ _

/-- A wait for DRQ that fails has an error code. -/
theorem WaitEnds.code_ne {k n : Nat} {p : Prop} {x : Result} (h : WaitEnds k n p x s) : x ≠ .noError := by
  rcases h.2 with ⟨-, rfl⟩ | ⟨-, rfl, -⟩ <;> simp

theorem packetWait_noData {u : UnitId} {d : Desc} (h : NoData (selectSamples u s) s) : NoData 0 (packetWait u d s) := by
  refine ⟨reads_altctl_ne_nil _ h.1, fun j hj => ?_⟩
  rw [packetWait_answer, Nat.zero_add] at hj
  obtain ⟨k, hk, he⟩ := h.2 j hj
  exact ⟨k, hk, by rw [packetWait_answer, Nat.zero_add]; exact he⟩

/-- How such a wait ends, in terms of the state before the action. -/
theorem packetWait_ends {u : UnitId} {d : Desc} {n : Nat} {p : Prop} {x : Result}
    (h : WaitEnds 0 n p x (packetWait u d s)) : WaitEnds (selectSamples u s) n p x s := by
  simpa only [WaitEnds, packetWait_answer, Nat.zero_add] using h

end Sys2Proof.Machine

namespace Sys2Proof.Proofs

open Sys2Proof.Machine

/-- Settles O21: the command comes to its wait for DRQ (`runHandler_packet`); then either the packet is sent, or the
wait fails (`pollData_fails`), or the DMA hook refuses (`sendPacket_refused`). -/
theorem packetSent : Obligations.PacketSent := by
  intro d e i u s hi he h8 hidle hacc hasync hp hu hmode hr
  have hrun := runHandler_packet (dn := dispatchN 0) (execRows_opcode hi he) h8 hidle.armed hasync hp hu hmode hr
  have hprep := packetWait_prepared u e s
  have hans : (packetWait u e s).env.byteAnswer .altctl = s.env.answer .altctl (selectSamples u s) :=
    packetWait_answer u e s 0
  have hdma : (packetWait u e s).env.startDma = s.env.startDma := reads_startDma _ _
  have hsample := hprep.serving.works_logs [.r8 .altctl (s.env.answer .altctl (selectSamples u s))]
    ((packetWait u e s).env.byteRead .altctl)
  refine ⟨fun hok hstart => ?_, fun hno => ?_, fun x hok hd hx hne => ?_⟩
  · obtain ⟨t, hsend, w⟩ := sendPacket_sent (hsample.serving hprep.serving) (by
      intro hd; rw [← hdma] at hstart; exact hstart hd)
    have hstep : packetStep (packetWait u e s) = (.noError, t) := by
      unfold packetStep
      rw [packetPhase_first (by rw [hans]; exact hok), hans, hsend]
      exact if_pos rfl
    have hdone := (hprep.work hsample rfl).work w rfl
    rw [hstep, hdone.serving.cur, if_neg (by dsimp only; split <;> decide)] at hrun
    obtain ⟨hsel, hirq, hnow, hmem, hdbuf, htimer, hbus⟩ := (hsample.trans w).fields
    obtain ⟨hexec, hwait, hsame, hcmd⟩ := exec_submitted_waits he hidle hacc hdone hbus (by rw [htimer]; rfl) hrun
    refine ⟨_, hexec, hwait, hsame, hcmd, ?_, hsel, hirq, hnow, fun a => congrArg (Memory.get · a) hmem, hdbuf, rfl⟩
    have hdid := hdone.did
    simp only [List.append_assoc] at hdid ⊢
    exact hdid
  · obtain ⟨m, hm, hdl, hclock, hends, now, env, hst⟩ := pollData_fails s.params.nPkt (s := packetWait u e s) rfl
      (packetWait_noData hno)
    have hfail : packetPhase (packetWait u e s) = ((pollStatus okData abortData s.params.nPkt (packetWait u e s)).code,
        (pollStatus okData abortData s.params.nPkt (packetWait u e s)).state) := if_neg hends.code_ne
    have hstep := packetStep_fails hfail hends.code_ne
    generalize pollStatus okData abortData s.params.nPkt (packetWait u e s) = p at hfail hstep hst hclock hends
    rw [hstep] at hrun
    have hpoll : s.Prepared (inService e phPacketIssue) (selectEvents u s ++ [.arm (e.timeoutMs.toNat * 1000)]
        ++ taskfileEvents e ++ pollEvents (selectSamples u s) m s) p.state := by
      have hevents := pollEvents_shift (t := packetWait u e s) (s := s) 0 m rfl (packetWait_answer u e s)
      rw [Nat.add_zero] at hevents
      rw [hst, hevents]
      exact ⟨hprep.current, hprep.cmds, rfl, Did.trans hprep.did (did_logs _ _), rfl, rfl, rfl, rfl, rfl, rfl, rfl, rfl,
        rfl, rfl, rfl⟩
    obtain ⟨t', hexec, hsel, hnow, hret, hended⟩ := exec_statusPhase he hidle hacc hends.code_ne hpoll
      (by rw [hst]; rfl) (by rw [hst]; rfl) (by rw [hst]; rfl) hrun
    refine ⟨t', m, p.code, hexec, hsel.trans (by rw [hst]; rfl), hret, hm, ?_, ?_, ?_, hended⟩
    · have hsleeps : m ≤ (s.now + e.timeoutMs.toNat * 1000 - s.now + (s.params.tPoll - 1)) / s.params.tPoll := hdl
      rwa [Nat.add_sub_cancel_left] at hsleeps
    · rw [hnow]; exact hclock
    · rw [hnow]; exact packetWait_ends hends
  · obtain ⟨t, hsend, w⟩ := sendPacket_refused (hsample.serving hprep.serving) hd (by rw [← hx, ← hdma]; rfl) hne
    have hstep := packetStep_fails ((packetPhase_first (by rw [hans]; exact hok)).trans (by rw [hans]; exact hsend)) hne
    rw [hstep] at hrun
    have hdone := (hprep.work hsample rfl).work w rfl
    obtain ⟨hsel, hirq, hnow, hmem, hdbuf, -, -⟩ := (hsample.trans w).fields
    obtain ⟨t', hexec, hsel', hnow', hret, hended⟩ := exec_statusPhase he hidle hacc hne hdone hirq hmem hdbuf hrun
    refine ⟨t', hexec, hsel'.trans hsel, hnow'.trans hnow, hret, ?_⟩
    simp only [List.append_assoc, pollEvents_zero] at hended ⊢
    exact hended

end Sys2Proof.Proofs
end

section
/-! What the host submits inside an action: its calls come off the script from the front, and where the action comes to
no refusal each command in them is well-formed (R150, R160, U3, U11). From it O10. -/

namespace Sys2Proof.Machine

/-- From `s` to `t` the host was heard: its calls came off the front of the script, a refusal stays, and without one
every command submitted in them is accepted. -/
structure Heard (s t : State) : Prop where
  bufs  : t.bufs = s.bufs
  stays : ∀ r, s.breach = some r → t.breach = some r
  calls : ∃ taken, s.host = taken ++ t.host
    ∧ (t.breach = none → ∀ hs ∈ taken, ∀ h ∈ hs, s.accepts h.desc = true)

theorem Heard.clean {s t : State} (h : Heard s t) (hn : t.breach = none) : s.breach = none := by
  cases hs : s.breach with
  | none => rfl
  | some r => rw [h.stays r hs] at hn; cases hn

/-- Whether a command is accepted depends on the host's buffers alone. -/
theorem accepts_congr {s t : State} (h : t.bufs = s.bufs) (d : Desc) : t.accepts d = s.accepts d := by
  simp [State.accepts, State.covers, State.bufferCovers, h]

/-- A change of neither the buffers nor the script nor the refusal. -/
theorem Heard.of_eq {s t : State} (hf : t.bufs = s.bufs) (hh : t.host = s.host) (hb : t.breach = s.breach) :
    Heard s t := ⟨hf, fun _ h => hb.trans h, [], by simp [hh], by simp⟩

theorem Heard.refl (s : State) : Heard s s := .of_eq rfl rfl rfl

theorem Heard.trans {a b c : State} (h : Heard a b) (k : Heard b c) : Heard a c := by
  obtain ⟨xs, hxs, hok⟩ := h.calls
  obtain ⟨ys, hys, kok⟩ := k.calls
  refine ⟨k.bufs.trans h.bufs, fun r hr => k.stays r (h.stays r hr), xs ++ ys, by rw [hxs, hys, List.append_assoc], ?_⟩
  intro hc hs hmem
  rcases List.mem_append.mp hmem with hm | hm
  · exact hok (k.clean hc) hs hm
  · exact fun x hx => accepts_congr h.bufs x.desc ▸ kok hc hs hm x hx

theorem Handled.heard {s t : State} (h : Handled s t) : Heard s t := .of_eq h.bufs h.host h.breach

/-! ## Host calls and deliveries -/

section Nested

variable {dn : State → State}

theorem submitRef_heard (hd : ∀ s, Heard s (dn s)) (id : Nat) (s : State) : Heard s (submitRef dn id s) := by
  rw [submitRef_eq]
  exact (Heard.of_eq (by simp [queuedUp]) (by simp [queuedUp]) (by simp [queuedUp])).trans (hd _)

/-- A nested submission is accepted, or leaves a refusal (R160, entry 11). -/
theorem submitOne_heard (hd : ∀ s, Heard s (dn s)) (h : HostSubmit) (s : State) :
    Heard s (submitOne dn h s) ∧ ((submitOne dn h s).breach = none → s.accepts h.desc = true) := by
  have hrefuse : ∀ r, (s.refuse r).breach ≠ none := fun r => by simp [State.refuse]
  unfold submitOne
  split
  · next r _ =>
    exact ⟨⟨rfl, fun r' hr => by simp [State.refuse, hr], [], rfl, by simp⟩, fun hn => absurd hn (hrefuse r)⟩
  · next hnone =>
    have haccepted : s.accepts h.desc = true := by
      unfold State.nestedBreach at hnone
      split at hnone
      · cases hnone
      split at hnone
      · cases hnone
      split at hnone
      · assumption
      · cases hnone
    refine ⟨?_, fun _ => haccepted⟩
    split
    · exact (Heard.of_eq rfl rfl rfl : Heard s (s.refill _ h.desc)).trans (submitRef_heard hd _ _)
    · exact (Heard.of_eq rfl rfl rfl : Heard s { s with cmds := s.cmds ++ [Command.fresh h.desc] }).trans
        (submitRef_heard hd _ _)

/-- A nested submission of an ill-formed command in a new record is the first refusal (R150, U3, entry 11). -/
theorem submitOne_illFormed {h : HostSubmit} {s : State} (hr : h.reuse = none) (ha : s.accepts h.desc = false)
    (hb : s.breach = none) : (submitOne dn h s).breach = some .hostScriptIllFormed := by
  have hnested : s.nestedBreach h = some .hostScriptIllFormed := by simp [State.nestedBreach, hr, ha]
  unfold submitOne
  rw [hnested]
  simp [State.refuse, hb]

theorem submitAll_heard (hd : ∀ s, Heard s (dn s)) (hs : List HostSubmit) (s : State) :
    Heard s (submitAll dn hs s) ∧ ((submitAll dn hs s).breach = none → ∀ h ∈ hs, s.accepts h.desc = true) := by
  induction hs generalizing s with
  | nil => exact ⟨.refl s, by simp⟩
  | cons h hs ih =>
    obtain ⟨hone, hfirst⟩ := submitOne_heard hd h s
    obtain ⟨hall, hrest⟩ := ih (submitOne dn h s)
    refine ⟨hone.trans hall, fun hn x hx => ?_⟩
    rcases List.mem_cons.mp hx with rfl | hx
    · exact hfirst (hall.clean hn)
    · exact accepts_congr hone.bufs x.desc ▸ hrest hn x hx

/-- One host call takes one list off the script (U11, entry 5). -/
theorem hostCall_cons {hs : List HostSubmit} {rest : List (List HostSubmit)} {s : State} (h : s.host = hs :: rest) :
    hostCall dn s = submitAll dn hs { s with host := rest } := by
  unfold hostCall
  rw [h]

theorem hostCall_heard (hd : ∀ s, Heard s (dn s)) (s : State) : Heard s (hostCall dn s) := by
  unfold hostCall
  split
  · exact .refl s
  · next hs rest hhost =>
    obtain ⟨hall, hok⟩ := submitAll_heard hd hs { s with host := rest }
    obtain ⟨taken, htaken, hmore⟩ := hall.calls
    refine ⟨hall.bufs, hall.stays, hs :: taken, ?_, fun hn x hx => ?_⟩
    · rw [hhost, List.cons_append, ← htaken]
    · rcases List.mem_cons.mp hx with rfl | hx
      · exact hok hn
      · exact hmore hn x hx

theorem callback_heard (hd : ∀ s, Heard s (dn s)) (id : Nat) (s : State) : Heard s (callback dn id s) :=
  (Heard.of_eq rfl rfl rfl : Heard s (s.emit _)).trans (hostCall_heard hd _)

theorem notifyIf_heard (hd : ∀ s, Heard s (dn s)) (a : Bool) (h : UnitId) (ev : EvKind) (u : Option UnitId)
    (s : State) : Heard s (notifyIf a dn h ev u s) := by
  unfold notifyIf
  split
  · exact (Heard.of_eq rfl rfl rfl : Heard s (s.emit _)).trans (hostCall_heard hd _)
  · exact .refl s

theorem completeIO_heard (hd : ∀ s, Heard s (dn s)) (res : Result) (s : State) : Heard s (completeIO dn res s) := by
  unfold completeIO
  split
  · exact .refl s
  · next id _ =>
    exact ((Heard.of_eq rfl rfl rfl : Heard s (finish id res s)).trans (callback_heard hd id _)).trans (hd _)

theorem notifyEvent_heard (hd : ∀ s, Heard s (dn s)) (ev : EvKind) (u : Option UnitId) (s : State) :
    Heard s (notifyEvent dn ev u s) := by
  have henter : Heard s (enterCallout s) := .of_eq rfl rfl rfl
  have hleave : ∀ s, Heard s (leaveCallout s) := fun s => .of_eq (by simp) (by simp) (by simp)
  exact ((henter.trans (notifyIf_heard hd _ _ _ _ _)).trans (notifyIf_heard hd _ _ _ _ _)).trans (hleave _)

theorem cancelAll_heard (hd : ∀ s, Heard s (dn s)) (vs : List Nat) (s : State) : Heard s (cancelAll dn vs s) := by
  induction vs generalizing s with
  | nil => exact .refl s
  | cons v vs ih =>
    exact ((Heard.of_eq rfl rfl rfl : Heard s (s.modCmd v _)).trans (callback_heard hd v _)).trans (ih _)

/-! ## The handlers -/

/-- A handler's work, then the delivery. -/
theorem Handled.heard_completeIO {s t : State} (h : Handled s t) (hd : ∀ s, Heard s (dn s)) (res : Result) :
    Heard s (completeIO dn res t) := h.heard.trans (completeIO_heard hd res t)

theorem asyncIO_heard (hd : ∀ s, Heard s (dn s)) (s : State) : Heard s (asyncIO dn s) := by
  unfold asyncIO
  dsimp only
  split
  · exact (phaseStep_handled s).heard_completeIO hd _
  · exact (phaseStep_handled s).heard

theorem handleExecIO_heard (hd : ∀ s, Heard s (dn s)) (s : State) : Heard s (handleExecIO dn s) := by
  have h := selectDevice_handled s.cur.unit s
  unfold handleExecIO selectionFailed synchronousIO
  dsimp only
  split
  · split
    · exact (h.trans (setPhase_handled _ _)).heard_completeIO hd _
    · exact ((h.trans (setPhase_handled _ _)).trans (startTimer_handled _ _)).heard
  · have hstart := h.trans (startTimer_handled (timeoutUs s.cur) _)
    split
    · exact ((hstart.trans (writeControl_handled _ _)).trans (syncLoop_handled _ _)).heard_completeIO hd _
    · exact hstart.heard.trans (asyncIO_heard hd _)

theorem handleRegAccess_heard (hd : ∀ s, Heard s (dn s)) (s : State) : Heard s (handleRegAccess dn s) := by
  have h := selectDevice_handled s.cur.unit s
  unfold handleRegAccess
  dsimp only
  refine Handled.heard_completeIO (Handled.trans ?_ (setPhase_handled _ _)) hd _
  split
  · split
    · exact h.trans (registerWrite_handled _)
    · exact h.trans (registerRead_handled _)
  · exact h

theorem finishReset_heard (hd : ∀ s, Heard s (dn s)) (ev : EvKind) (u : Option UnitId) (r : Result × State) :
    Heard r.2 (finishReset dn ev u r) :=
  (notifyEvent_heard hd ev u r.2).trans ((setPhase_handled _ _).heard_completeIO hd _)

theorem handleBusReset_heard (hd : ∀ s, Heard s (dn s)) (s : State) : Heard s (handleBusReset dn s) := by
  unfold handleBusReset
  split
  · split
    · exact (setPhase_handled _ _).heard_completeIO hd _
    · exact (atapiReset_handled _ s).heard.trans (finishReset_heard hd _ _ _)
  · exact (softResetBus_handled _ s).heard.trans (finishReset_heard hd _ _ _)

theorem runHandler_heard (hd : ∀ s, Heard s (dn s)) (s : State) : Heard s (runHandler dn s) := by
  unfold runHandler handleQueueFlush handleUnknown
  split
  · exact handleExecIO_heard hd s
  split
  · exact handleRegAccess_heard hd s
  split
  · exact handleBusReset_heard hd s
  split
  · exact ((Heard.of_eq rfl rfl rfl : Heard s { s with queue := [] }).trans (cancelAll_heard hd _ _)).trans
      ((setPhase_handled _ _).heard_completeIO hd _)
  · exact (setPhase_handled _ _).heard_completeIO hd _

end Nested

/-! ## Dispatch, and the actions -/

theorem dispatchN_heard (n : Nat) (s : State) : Heard s (dispatchN n s) := by
  induction n generalizing s with
  | zero => exact .refl s
  | succ n ih =>
    have h : Heard s (dequeueFirst { s with bus := .busy }).2 := .of_eq (by simp) (by simp) (by simp)
    show Heard s (dispatchStep (dispatchN n) s)
    unfold dispatchStep
    split
    · dsimp only
      split
      · exact h.trans (.of_eq rfl rfl rfl)
      · next id _ =>
        have hcur : ∀ t, Heard t (becomeCurrent id t) := fun t => .of_eq rfl rfl rfl
        exact (h.trans (hcur _)).trans (runHandler_heard ih _)
    · exact .refl s

theorem dispatchNext_heard (s : State) : Heard s (dispatchNext s) := dispatchN_heard _ s

theorem irqEntry_heard (s : State) : Heard s (irqEntry s) := by
  have h := (rd8_handled .statcmd s).heard
  by_cases hr : irqRuns s = true
  · obtain ⟨_, -, he⟩ := irqEntry_runs hr
    rw [he]
    exact h.trans (asyncIO_heard dispatchNext_heard _)
  · rcases irqEntry_idle (Bool.not_eq_true _ ▸ hr) with he | he <;> rw [he]
    · exact .refl s
    · exact h

theorem expireEntry_heard (s : State) : Heard s (expireEntry s) := by
  have hoff : Heard s { s with timer := { s.timer with armed := false } } := .of_eq rfl rfl rfl
  unfold expireEntry handleTimeout
  refine hoff.trans ?_
  split
  · exact dispatchNext_heard _
  · next id _ =>
    refine Heard.trans ?_ ((statusPhase_handled _ _).heard_completeIO dispatchNext_heard _)
    refine Heard.trans ?_ (.of_eq (modCmd_bufs _ _ _) (modCmd_host _ _ _) (modCmd_breach _ _ _))
    split
    · exact (stopDma_handled _).heard
    · exact .refl _

/-- The value returned to the caller is no part of what `Heard` speaks of. -/
theorem Heard.ret {s t : State} (h : Heard s t) (r : Return) : Heard s { t with ret := r } :=
  h.trans (.of_eq rfl rfl rfl)

/-- Whatever an action answers, it took no call off the script, or heard the host and came to no refusal. -/
theorem answers_heard {i : Instr} {s t : State} (h : Answers i s t) :
    t.host = s.host ∨ Heard s t ∧ t.breach = none := by
  cases h with
  | @row i d s hi hb ha ht =>
    have hnew : Heard s { s with cmds := s.cmds ++ [Command.fresh d] } := .of_eq rfl rfl rfl
    exact .inr ⟨(hnew.trans (submitRef_heard dispatchNext_heard _ _)).ret _, ht⟩
  | submitNull => exact .inl rfl
  | submitStored hb hl hu hn ha ht => exact .inr ⟨(submitRef_heard dispatchNext_heard _ s).ret _, ht⟩
  | irqRuns hr hb hp ht => exact .inr ⟨(irqEntry_heard s).ret _, ht⟩
  | irqIdle hr =>
    rcases irqEntry_idle hr with he | he <;> rw [he] <;> exact .inl rfl
  | expire he hb ht => exact .inr ⟨(expireEntry_heard s).ret _, ht⟩
  | scan => exact .inl (scanForDrives_surveyed s).host
  | config => exact .inl (setDevInfo_surveyed _ _ s).host

/-- The calls of an action are those that came off the script. -/
theorem hostCalls_append {s t : State} {taken : List (List HostSubmit)} (h : s.host = taken ++ t.host) :
    s.hostCalls t = taken := by
  simp [State.hostCalls, h]

/-! ## An unknown opcode whose callback submits -/

/-- On a free bus with nothing queued a submission is dispatched at once, whatever the host's script (P160, P170). -/
theorem submitRef_free {id : Nat} {s : State} (hb : s.bus = .free) (hq : s.qstate = .opened) (hqu : s.queue = []) :
    submitRef dispatchNext id s = runHandler (dispatchN (s.host.map List.length).sum) (launchedRef id s) := by
  have hqueue : (queuedUp id s).queue = [id] := by
    unfold queuedUp enqueue
    split <;> simp [hqu]
  have hcan : canDispatch (queuedUp id s) = true := by simp [canDispatch, queuedUp, hb, hq]
  have hwork : pendingWork s = (s.host.map List.length).sum := by simp [pendingWork, hqu]
  have hlaunch : becomeCurrent id (dequeueFirst { queuedUp id s with bus := .busy }).2 = launchedRef id s := by
    unfold queuedUp enqueue becomeCurrent launchedRef
    split <;> simp [dequeueFirst, hqu, hq, State.modCmd, List.modify_modify_eq] <;> rfl
  rw [submitRef_eq, dispatchNext, pendingWork_queuedUp, hwork, dispatchN, dispatchStep, if_pos hcan]
  have hfirst : (dequeueFirst { queuedUp id s with bus := .busy }).1 = some id := by simp [dequeueFirst, hqueue]
  dsimp only
  rw [hfirst]
  exact congrArg (runHandler (dispatchN _)) hlaunch

/-- The state of a launched unknown opcode before its callback (R144, R180). -/
def unknownFinished (d : Desc) (s : State) : State :=
  finish s.cmds.length .invalidArgument (setPhase phComplete (launched d s))

/-- The state in its callback, with the call taken off the script. -/
def unknownCalled (d : Desc) (rest : List (List HostSubmit)) (s : State) : State :=
  { (unknownFinished d s).emit (.callback s.cmds.length ((unknownFinished d s).cmd s.cmds.length).result) with
    host := rest }

/-- In the callback the engine is as idle as before, but for the script (R180). -/
theorem unknownCalled_fields (d : Desc) (rest : List (List HostSubmit)) (s : State) :
    (unknownCalled d rest s).breach = s.breach ∧ (unknownCalled d rest s).bufs = s.bufs
      ∧ (unknownCalled d rest s).bus = .free ∧ (unknownCalled d rest s).qstate = s.qstate
      ∧ (unknownCalled d rest s).current = none ∧ (unknownCalled d rest s).queue = s.queue
      ∧ (unknownCalled d rest s).timer.armed = false :=
  ⟨rfl, rfl, rfl, rfl, rfl, rfl, rfl⟩

/-- An unknown opcode on a free bus: its callback submits what the script gives for it, then the next dispatch runs
(R144, R180). -/
theorem submitNew_unknown {d : Desc} {s : State} {hs : List HostSubmit} {rest : List (List HostSubmit)}
    (hw : (Instr.opUnknown d).wellFormed = true) (hb : s.bus = .free) (hq : s.qstate = .opened) (hqu : s.queue = [])
    (hh : s.host = hs :: rest) : ∃ n, submitNew dispatchNext d s
      = dispatchN n (submitAll (dispatchN n) hs (unknownCalled d rest s)) := by
  have hlaunch : launchedRef s.cmds.length { s with cmds := s.cmds ++ [Command.fresh d] } = launched d s := by
    unfold launchedRef launched
    simp only [modify_append_last]
  have hcur : (launched d s).cur.opcode = d.opcode := by rw [launched_cur_plain s (unknown_plain hw)]; rfl
  have hcurrent : (setPhase phComplete (launched d s)).current = some s.cmds.length := rfl
  have hhost : ((unknownFinished d s).emit (.callback s.cmds.length
      ((unknownFinished d s).cmd s.cmds.length).result)).host = hs :: rest := hh
  refine ⟨(s.host.map List.length).sum, ?_⟩
  unfold submitNew
  rw [submitRef_free (by exact hb) (by exact hq) (by exact hqu), hlaunch]
  generalize (s.host.map List.length).sum = n
  rw [runHandler_unknown hw hcur, handleUnknown, completeIO, hcurrent]
  refine congrArg (dispatchN n) ?_
  show hostCall _ ((unknownFinished d s).emit _) = _
  exact hostCall_cons hhost

/-- With nothing queued a dispatch on a free bus does nothing (R170). -/
theorem dispatchN_quiet {s : State} (hb : s.bus = .free) (hq : s.qstate = .opened) (hqu : s.queue = []) (n : Nat) :
    dispatchN n s = s := by
  cases n with
  | zero => rfl
  | succ n => exact dispatchStep_nil (by simp [canDispatch, hb, hq]) hqu

/-- The row of an unknown opcode answers the state it comes to, or the refusal (R160, entry 11). -/
theorem exec_unknown {d : Desc} {s : State} (hb : s.breach = none) (hc : s.current = none) (hqu : s.queue = [])
    (ha : s.accepts d = true) :
    ((submitNew dispatchNext d s).breach = none →
        exec (.opUnknown d) s = .next { submitNew dispatchNext d s with ret := .status .noError })
      ∧ ∀ r, (submitNew dispatchNext d s).breach = some r → exec (.opUnknown d) s = .refused r := by
  have hguard : exec (.opUnknown d) s
      = guarded s (.next { submitNew dispatchNext d s with ret := .status .noError }) := by
    rw [exec_commandRow rfl, submitRow, if_pos ha]
  have hquiet := hostBreach_quiet hb hc hqu
  rw [hguard]
  exact ⟨fun hn => guarded_next (t := { submitNew dispatchNext d s with ret := _ }) hquiet hn,
    fun r hr => by simp [guarded, hquiet, hr]⟩

end Sys2Proof.Machine

namespace Sys2Proof.Proofs

open Sys2Proof.Machine

/-- Settles O10: the row's own check (`submitRow_illFormed`); what an action hears (`answers_heard`); the callback of an
unknown opcode (`submitNew_unknown`). -/
theorem illFormedRefused : Obligations.IllFormedRefused := by
  refine ⟨fun d e i s _ he hb ha => (exec_commandRow he s).trans (submitRow_illFormed hb ha), fun i s t h => ?_, ?_⟩
  · rcases answers_heard (exec_answers h) with hsame | ⟨hheard, hn⟩
    · simp [State.hostCalls, hsame]
    · obtain ⟨taken, htaken, hok⟩ := hheard.calls
      rw [hostCalls_append htaken]
      exact hok hn
  · intro e s hs rest hw hb hq hc hqu hbr ha hh
    obtain ⟨n, hnew⟩ := submitNew_unknown hw hb hq hqu hh
    obtain ⟨kbr, kbufs, kbus, kq, kc, kqu, karm⟩ := unknownCalled_fields e rest s
    obtain ⟨hnext, hrefused⟩ := exec_unknown hbr hc hqu ha
    have hlast := dispatchN_heard n (submitAll (dispatchN n) hs (unknownCalled e rest s))
    rw [← hnew] at hlast
    refine ⟨fun h hmem hill => ?_, fun h hs' hcons hreuse hill => ?_, fun hnil => ?_⟩
    · obtain ⟨-, hok⟩ := submitAll_heard (dispatchN_heard n) hs (unknownCalled e rest s)
      cases hbreach : (submitNew dispatchNext e s).breach with
      | some r => exact ⟨r, hrefused r hbreach⟩
      | none =>
        have haccepted := hok (hlast.clean hbreach) h hmem
        rw [accepts_congr kbufs, hill] at haccepted
        cases haccepted
    · subst hcons
      obtain ⟨hrest, -⟩ := submitAll_heard (dispatchN_heard n) hs' (submitOne (dispatchN n) h (unknownCalled e rest s))
      have hfirst : (submitOne (dispatchN n) h (unknownCalled e rest s)).breach = some .hostScriptIllFormed :=
        submitOne_illFormed hreuse (by rw [accepts_congr kbufs]; exact hill) (kbr.trans hbr)
      exact hrefused _ (hlast.stays _ (hrest.stays _ hfirst))
    · subst hnil
      have hquiet : submitNew dispatchNext e s = unknownCalled e rest s :=
        hnew.trans (dispatchN_quiet kbus (kq.trans hq) (kqu.trans hqu) n)
      rw [hquiet] at hnext
      exact ⟨_, hnext (kbr.trans hbr), ⟨kbus, kc, kqu.trans hqu, karm⟩, rfl⟩

end Sys2Proof.Proofs
end

section
/-! The queue and the dispatch test (O16, O17), SUBMIT against the descriptor rows (O9, O11, O12), and the delivery to
a silent host (O49). -/

namespace Sys2Proof.Machine

/-! ## The queue -/

/-- Where those that pass a test stand before the others, the leading ones are all that pass it. -/
theorem takeWhile_dropWhile_of_sorted {α : Type} {p : α → Bool} {l : List α}
    (h : l.Pairwise (fun a b => p b = true → p a = true)) :
    l.takeWhile p = l.filter p ∧ l.dropWhile p = l.filter (fun a => !p a) := by
  induction l with
  | nil => exact ⟨rfl, rfl⟩
  | cons a l ih =>
    obtain ⟨ha, hl⟩ := List.pairwise_cons.mp h
    by_cases hp : p a = true
    · obtain ⟨h1, h2⟩ := ih hl
      simp [hp, h1, h2]
    · have hnone : ∀ b ∈ l, p b = false := fun b hb => by simpa using mt (ha b hb) hp
      simp only [Bool.not_eq_true] at hp
      simp only [List.takeWhile_cons, List.dropWhile_cons, List.filter_cons, hp, Bool.false_eq_true, if_false,
        Bool.not_false, if_true]
      exact ⟨(List.filter_eq_nil_iff.mpr (by simpa using hnone)).symm,
        by rw [List.filter_eq_self.mpr (by simpa using hnone)]⟩

/-- Where `enqueue` puts a command in a queue whose Immediate commands come first (R164). -/
theorem enqueue_queue_of_order {id : Nat} {s : State} (h : s.ImmediateFirst) :
    (enqueue id s).queue = if (s.cmd id).flags.imm then
        s.queue.filter (fun k => (s.cmd k).flags.imm) ++ id :: s.queue.filter (fun k => !(s.cmd k).flags.imm)
      else s.queue ++ [id] := by
  obtain ⟨htake, hdrop⟩ := takeWhile_dropWhile_of_sorted h
  unfold enqueue
  split
  · dsimp only
    rw [htake, hdrop]
  · rfl

theorem dequeueFirst_nil {s : State} (h : s.queue = []) : dequeueFirst s = (none, s) := by
  simp [dequeueFirst, h]

theorem dequeueFirst_cons {c : Nat} {rest : List Nat} {s : State} (h : s.queue = c :: rest) :
    dequeueFirst s = (some c, { s with queue := rest }) := by
  simp [dequeueFirst, h]

/-- The head of the queue is an Immediate command (R168). -/
theorem headImmediate_iff (s : State) :
    headImmediate s = true ↔ ∃ c rest, s.queue = c :: rest ∧ (s.cmd c).flags.imm = true := by
  unfold headImmediate
  cases s.queue <;> simp

/-- The dispatch test of R168. -/
theorem canDispatch_iff (s : State) :
    canDispatch s = true ↔ s.bus = .free ∧ (s.qstate = .opened ∨ (s.qstate = .locked ∧ s.igate = .opened
      ∧ ∃ c rest, s.queue = c :: rest ∧ (s.cmd c).flags.imm = true)) := by
  simp [canDispatch, headImmediate_iff, and_assoc]

/-! ## Submissions -/

/-- A host that makes a record leaves those of the store alone. -/
theorem cmd_append {k : Nat} {s : State} (c : Command) (h : k < s.cmds.length) :
    State.cmd { s with cmds := s.cmds ++ [c] } k = s.cmd k := List.getD_append _ _ _ _ h

/-- A new record does not change what the host's contract says of the commands in flight. -/
theorem hostBreach_append {s : State} (c : Command) (h : ∀ id ∈ s.inFlight, id < s.cmds.length) :
    hostBreach { s with cmds := s.cmds ++ [c] } = hostBreach s := by
  have hall : inFlightCovered { s with cmds := s.cmds ++ [c] } = inFlightCovered s := by
    unfold inFlightCovered
    rw [Bool.eq_iff_iff, List.all_eq_true, List.all_eq_true]
    refine forall₂_congr fun id hid => ?_
    rw [cmd_append c (h id hid)]
    rfl
  unfold hostBreach
  rw [hall]

/-- SUBMIT of the record that the host has just made is the submission of a new record (R160, R407). -/
theorem submitRecord_fresh {e : Desc} {s : State} (h : ∀ id ∈ s.inFlight, id < s.cmds.length) :
    submitRecord s.cmds.length { s with cmds := s.cmds ++ [Command.fresh e] } = submitRow e s := by
  have hcmd : State.cmd { s with cmds := s.cmds ++ [Command.fresh e] } s.cmds.length = Command.fresh e := by
    simp [State.cmd]
  have hinit : initialised (Command.fresh e) = true := rfl
  unfold submitRecord submitRow guarded
  rw [hostBreach_append _ h, hcmd, if_neg (by simp), if_neg (by simp [Command.fresh]), hinit, Bool.true_and]
  simp only [Command.fresh]
  rfl

/-- A test that agrees on the members of a list splits it at the same place. -/
theorem takeWhile_dropWhile_congr {α : Type} {p q : α → Bool} {l : List α} (h : ∀ a ∈ l, p a = q a) :
    l.takeWhile p = l.takeWhile q ∧ l.dropWhile p = l.dropWhile q := by
  induction l with
  | nil => exact ⟨rfl, rfl⟩
  | cons a l ih =>
    obtain ⟨h1, h2⟩ := ih fun b hb => h b (List.mem_cons_of_mem _ hb)
    simp only [List.takeWhile_cons, List.dropWhile_cons, h a List.mem_cons_self, h1, h2, and_self]

/-- Where nothing may be dispatched `dispatchNext` changes nothing (R170). -/
theorem dispatchNext_blocked {s : State} (h : canDispatch s = false) : dispatchNext s = s := by
  unfold dispatchNext
  cases pendingWork s with
  | zero => rfl
  | succ n => exact dispatchStep_blocked (by simp [h])

/-- A new record in use, Initial, and queued (P160, R162, R164). -/
theorem queuedUp_new {d : Desc} {s : State} (h : ∀ id ∈ s.queue, id < s.cmds.length) :
    queuedUp s.cmds.length { s with cmds := s.cmds ++ [Command.fresh d] } = { s with
      cmds := s.cmds ++ [{ Command.fresh d with inUse := true, state := phInitial }]
      queue :=
        if d.flags.imm then
          s.queue.takeWhile (fun k => (s.cmd k).flags.imm) ++ s.cmds.length ::
            s.queue.dropWhile (fun k => (s.cmd k).flags.imm)
        else s.queue ++ [s.cmds.length] } := by
  have hlast : State.cmd { s with
      cmds := s.cmds ++ [{ Command.fresh d with inUse := true, state := phInitial }] } s.cmds.length
        = { Command.fresh d with inUse := true, state := phInitial } := by simp [State.cmd]
  obtain ⟨htake, hdrop⟩ := takeWhile_dropWhile_congr (l := s.queue)
    (p := fun k => (State.cmd { s with
      cmds := s.cmds ++ [{ Command.fresh d with inUse := true, state := phInitial }] } k).flags.imm)
    (q := fun k => (s.cmd k).flags.imm) fun k hk => by rw [cmd_append _ (h k hk)]
  unfold queuedUp enqueue State.modCmd
  simp only [modify_append_last]
  rw [hlast, htake, hdrop]
  by_cases hi : d.flags.imm = true
  · rw [if_pos hi, if_pos (by exact hi)]
  · rw [if_neg hi, if_neg (by exact hi)]

/-- On a Busy bus a new submission only queues its command (R162, R168). -/
theorem submitNew_busy {d : Desc} {s : State} (hb : s.bus = .busy) :
    submitNew dispatchNext d s = queuedUp s.cmds.length { s with cmds := s.cmds ++ [Command.fresh d] } := by
  unfold submitNew
  rw [submitRef_eq]
  exact dispatchNext_blocked (by simp [canDispatch, queuedUp, hb])

/-- A start without a breach of the host's contract has none to report. -/
theorem breach_of_hostBreach {s : State} (h : hostBreach s = none) : s.breach = none := by
  unfold hostBreach at h
  cases hb : s.breach with
  | none => rfl
  | some r => rw [hb] at h; cases h

/-! ## Delivery -/

/-- The record of a delivery, replaced (R180). -/
theorem modify_deliveredAs {id : Nat} {res : Result} {s : State} (h : id < s.cmds.length) :
    s.cmds.modify id (deliveredAs res) = s.cmds.set id
      (delivered (if (s.cmd id).result = .unset then res else (s.cmd id).result) (s.cmd id)) := by
  simp [List.modify_eq_set_getElem?, State.cmd, h, deliveredAs]

end Sys2Proof.Machine

namespace Sys2Proof.Proofs

open Sys2Proof.Machine

/-- Settles O9: with no command or no target there is nothing to submit (R160). -/
theorem submitNull : Obligations.SubmitNull := fun _ _ _ => ⟨rfl, rfl⟩

/-- Settles O16. -/
theorem dequeueAndDispatchTest : Obligations.DequeueAndDispatchTest := fun s =>
  ⟨dequeueFirst_nil, fun _ _ => dequeueFirst_cons, canDispatch_iff s⟩

/-- Settles O17. -/
theorem enqueueKeepsOrder : Obligations.EnqueueKeepsOrder := fun _ _ h =>
  ⟨enqueue_order h, enqueue_queue_of_order h⟩

/-- Settles O11: both are the submission of the record placed last in the store (`submitRecord_fresh`). -/
theorem submitIsRow : Obligations.SubmitIsRow := by
  intro d e i s r _ he hfl hr
  have hsubmit : ∀ t, exec (.submit (some r) true) t = submitRecord r.toNat t := fun _ => rfl
  rw [hsubmit, hr, submitRecord_fresh hfl, exec_commandRow he]

/-- Settles O12: on a Busy bus the dispatch after the queueing does nothing (`submitNew_busy`). -/
theorem busySubmissionQueues : Obligations.BusySubmissionQueues := by
  intro d e i s _ he hbreach hacc hbus hqueue
  have hnone := breach_of_hostBreach hbreach
  have hnew := (submitNew_busy hbus).trans (queuedUp_new (d := e) hqueue)
  rw [exec_commandRow he, submitRow, if_pos hacc, hnew]
  exact guarded_next hbreach (by exact hnone)

/-- Settles O49: the delivery to a silent host (`completeIO_silent`), with nothing to dispatch after it. -/
theorem completionDelivers : Obligations.CompletionDelivers := by
  refine ⟨fun res s hc => by simp [completeIO, hc], fun res s id hc hl hq hh => ?_⟩
  rw [completeIO_silent dispatchNext res hc hl hh,
    dispatchNext_quiet (s := completed id res s) (by exact hq) (by exact hh)]
  refine ⟨scriptHead (Result.byNumber (Config.freeResult s.env.drawn)) s.env.stopDma, (stopDma s).env, ?_⟩
  unfold completed
  rw [modify_deliveredAs hl]
  rfl

end Sys2Proof.Proofs
end

section
/-! What every handler comes to, said once: it waits, delivers its command, resets or flushes. From it, in every
state: what no host code or dispatch changes, and that the bound on nested dispatches is never met (O18, O50). -/

namespace Sys2Proof.Machine

/-! ## How a handler ends -/

/-- What a handler comes to after its work for the current command, before any host code or nested dispatch. -/
inductive Ending where
  /-- the command waits for an interrupt or its deadline in `u` (R246, R244) -/
  | waits (u : State)
  /-- the command is delivered with `res` from `u` (R180) -/
  | delivers (res : Result) (u : State)
  /-- a reset with result `res` led to `u`: the callout is next (R284, R285) -/
  | resets (ev : EvKind) (about : Option UnitId) (res : Result) (u : State)
  /-- the queue of `u` is flushed (R288) -/
  | flushes (u : State)

/-- The state in which the ending begins. -/
def Ending.start : Ending → State
  | .waits u => u
  | .delivers _ u => u
  | .resets _ _ _ u => u
  | .flushes u => u

/-- What follows, with the nested dispatch `dn`. -/
def Ending.run (dn : State → State) : Ending → State
  | .waits u => u
  | .delivers res u => completeIO dn res u
  | .resets ev about res u => finishReset dn ev about (res, u)
  | .flushes u => handleQueueFlush dn u

/-- The ending is that of a reset. -/
def Ending.isReset : Ending → Bool
  | .resets _ _ _ _ => true
  | _ => false

/-- From `s` the operation `f`, whatever dispatch it nests, only works for the current command and comes to an ending;
only with `reset` to that of a reset, and then the timer is as before. -/
def EndsFrom (reset : Bool) (f : (State → State) → State → State) (s : State) : Prop :=
  ∃ e : Ending, Handled s e.start ∧ (e.isReset = true → reset = true ∧ e.start.timer = s.timer)
    ∧ ∀ dn, f dn s = e.run dn

/-- An operation that ends otherwise than a reset, after some work. -/
theorem EndsFrom.after {f g : (State → State) → State → State} {s u : State} (h : Handled s u) (k : EndsFrom false g u)
    (hf : ∀ dn, f dn s = g dn u) : EndsFrom false f s := by
  obtain ⟨e, hu, hr, hg⟩ := k
  exact ⟨e, h.trans hu, fun he => absurd (hr he).1 Bool.false_ne_true, fun dn => (hf dn).trans (hg dn)⟩

theorem EndsFrom.mono {f : (State → State) → State → State} {s : State} (h : EndsFrom false f s) (reset : Bool) :
    EndsFrom reset f s := by
  obtain ⟨e, hs, hr, hf⟩ := h
  exact ⟨e, hs, fun he => absurd (hr he).1 Bool.false_ne_true, hf⟩

theorem EndsFrom.of_waits {f : (State → State) → State → State} {s u : State} (h : Handled s u)
    (hf : ∀ dn, f dn s = u) : EndsFrom false f s := ⟨.waits u, h, nofun, hf⟩

theorem EndsFrom.of_delivers {f : (State → State) → State → State} {s u : State} (res : Result) (h : Handled s u)
    (hf : ∀ dn, f dn s = completeIO dn res u) : EndsFrom false f s := ⟨.delivers res u, h, nofun, hf⟩

theorem EndsFrom.of_resets {f : (State → State) → State → State} {s : State} (ev : EvKind) (about : Option UnitId)
    (r : Result × State) (h : Handled s r.2) (ht : r.2.timer = s.timer)
    (hf : ∀ dn, f dn s = finishReset dn ev about r) : EndsFrom true f s :=
  ⟨.resets ev about r.1 r.2, h, fun _ => ⟨rfl, ht⟩, hf⟩

theorem asyncIO_ends (s : State) : EndsFrom false asyncIO s := by
  have h := phaseStep_handled s
  by_cases hc : (phaseStep s).2.cur.state = phComplete
  · exact .of_delivers (phaseStep s).1 h fun _ => if_pos hc
  · exact .of_waits h fun _ => if_neg hc

theorem synchronousIO_ends (s : State) : EndsFrom false synchronousIO s :=
  .of_delivers _ ((writeControl_handled ctlNIen s).trans
    (syncLoop_handled (deadlineSleeps (writeControl ctlNIen s)) (writeControl ctlNIen s))) fun _ => rfl

theorem selectionFailed_ends (s : State) : EndsFrom false selectionFailed s := by
  have h := setPhase_handled phComplete s
  by_cases hn : s.cur.flags.noirq = true
  · exact .of_delivers .offline h fun _ => if_pos hn
  · exact .of_waits (h.trans (startTimer_handled s.params.tSelFail _)) fun _ => if_neg hn

theorem handleExecIO_ends (s : State) : EndsFrom false handleExecIO s := by
  have hsel := selectDevice_handled s.cur.unit s
  have hstart := hsel.trans (startTimer_handled (timeoutUs s.cur) _)
  by_cases hr : (selectDevice s.cur.unit s).1 ≠ .noError
  · exact .after hsel (selectionFailed_ends _) fun _ => if_pos hr
  by_cases hn : s.cur.flags.noirq = true
  · exact .after hstart (synchronousIO_ends _) fun _ => (if_neg hr).trans (if_pos hn)
  · exact .after hstart (asyncIO_ends _) fun _ => (if_neg hr).trans (if_neg hn)

theorem handleRegAccess_ends (s : State) : EndsFrom false handleRegAccess s := by
  refine .of_delivers _ (Handled.trans ?_ (setPhase_handled phComplete _)) fun _ => rfl
  have hsel := selectDevice_handled s.cur.unit s
  split
  · split
    · exact hsel.trans (registerWrite_handled _)
    · exact hsel.trans (registerRead_handled _)
  · exact hsel

theorem handleBusReset_ends (s : State) : EndsFrom true handleBusReset s := by
  by_cases ha : s.cur.flags.atapi = true
  · cases hu : UnitId.ofByte s.cur.unit with
    | none =>
      exact .mono (.of_delivers .invalidArgument (setPhase_handled phComplete s)
        fun _ => by rw [handleBusReset, if_pos ha, hu]) true
    | some u =>
      exact .of_resets .atapiReset (some u) (atapiReset u s) (atapiReset_handled u s) (atapiReset_timer u s)
        fun _ => by rw [handleBusReset, if_pos ha, hu]
  · exact .of_resets .ataReset none (softResetBus false s) (softResetBus_handled false s) (softResetBus_timer false s)
      fun _ => if_neg ha

/-- Every handler works for its command and comes to one of the four endings (R140). -/
theorem runHandler_ends (s : State) : EndsFrom true runHandler s := by
  unfold EndsFrom runHandler
  split
  · exact (handleExecIO_ends s).mono true
  split
  · exact (handleRegAccess_ends s).mono true
  split
  · exact handleBusReset_ends s
  split
  · exact ⟨.flushes s, .refl s, nofun, fun _ => rfl⟩
  · exact (EndsFrom.of_delivers .invalidArgument (setPhase_handled phComplete s) fun _ => rfl).mono true

/-! ## What host code and dispatches never change -/

/-- The submissions that the host's script still holds. -/
def State.scripted (s : State) : Nat := (s.host.map List.length).sum

/-- From `s` to `t` the snapshots, the configuration and the inbox are as before, and what may still be dispatched, or
recorded, came from the script or is one of `k` submissions. -/
structure Spends (k : Nat) (s t : State) : Prop where
  snap    : t.snap = s.snap
  params  : t.params = s.params
  inbox   : t.inbox = s.inbox
  work    : pendingWork t ≤ pendingWork s + k
  records : t.cmds.length + t.scripted ≤ s.cmds.length + s.scripted + k

theorem Spends.refl (s : State) : Spends 0 s s := ⟨rfl, rfl, rfl, le_rfl, le_rfl⟩

theorem Spends.trans {j k : Nat} {a b c : State} (h : Spends j a b) (l : Spends k b c) : Spends (j + k) a c :=
  ⟨l.snap.trans h.snap, l.params.trans h.params, l.inbox.trans h.inbox, by have := h.work; have := l.work; omega,
    by have := h.records; have := l.records; omega⟩

/-- Nothing is submitted, or taken off the script. -/
theorem Spends.of_eq {s t : State} (hs : t.snap = s.snap) (hp : t.params = s.params) (hi : t.inbox = s.inbox)
    (hq : t.queue.length ≤ s.queue.length) (hh : t.host = s.host) (hc : t.cmds.length = s.cmds.length) :
    Spends 0 s t :=
  ⟨hs, hp, hi, by unfold pendingWork; rw [hh]; omega, by unfold State.scripted; rw [hh]; omega⟩

theorem Handled.spends {s t : State} (h : Handled s t) : Spends 0 s t :=
  .of_eq h.snap h.params h.inbox (by rw [h.queue]) h.host h.length

/-- A command is put in the queue (R162). -/
theorem queuedUp_spends (id : Nat) (s : State) : Spends 1 s (queuedUp id s) :=
  ⟨enqueue_snap _ _, enqueue_params _ _, enqueue_inbox _ _, (pendingWork_queuedUp id s).le,
    by simp [queuedUp, State.scripted]⟩

/-- A new record is queued. -/
theorem queuedUp_new_spends (d : Desc) (s : State) :
    Spends 1 s (queuedUp s.cmds.length { s with cmds := s.cmds ++ [Command.fresh d] }) :=
  have h := queuedUp_spends s.cmds.length { s with cmds := s.cmds ++ [Command.fresh d] }
  ⟨h.snap, h.params, h.inbox, h.work, by simp [queuedUp, State.scripted]; omega⟩

/-- `f` and `g` do the same from every state in which at most `n` commands can still be dispatched, and submit nothing
that was not scripted. -/
def Agree (n : Nat) (f g : State → State) : Prop :=
  ∀ s, pendingWork s ≤ n → f s = g s ∧ Spends 0 s (f s)

theorem Agree.of_spends {n : Nat} {f : State → State} (h : ∀ s, Spends 0 s (f s)) : Agree n f f :=
  fun s _ => ⟨rfl, h s⟩

theorem Agree.comp {n : Nat} {f f' g g' : State → State} (h : Agree n f f') (k : Agree n g g') :
    Agree n (fun s => g (f s)) (fun s => g' (f' s)) := fun s hw => by
  obtain ⟨he, hs⟩ := h s hw
  obtain ⟨ke, ks⟩ := k (f s) (hs.work.trans hw)
  exact ⟨ke.trans (congrArg g' he), hs.trans ks⟩

/-- An agreement at the states that a choice can meet. -/
theorem Agree.at {n : Nat} {f g : State → State} {s t : State} (h : Agree n f g) (hw : pendingWork s ≤ n)
    (ht : Spends 0 s t) : f t = g t ∧ Spends 0 s (f t) := by
  obtain ⟨he, hs⟩ := h t (ht.work.trans hw)
  exact ⟨he, ht.trans hs⟩

section Nested

variable {n : Nat} {dn dn' : State → State}

theorem submitRef_agree (h : Agree n dn dn') {id : Nat} {s t : State} (ht : Spends 1 s (queuedUp id t))
    (hw : pendingWork s + 1 ≤ n) : submitRef dn id t = submitRef dn' id t ∧ Spends 1 s (submitRef dn id t) := by
  rw [submitRef_eq, submitRef_eq]
  obtain ⟨he, hs⟩ := h _ (ht.work.trans hw)
  exact ⟨he, ht.trans hs⟩

theorem submitOne_agree (h : Agree n dn dn') (hs : HostSubmit) {s : State} (hw : pendingWork s + 1 ≤ n) :
    submitOne dn hs s = submitOne dn' hs s ∧ Spends 1 s (submitOne dn hs s) := by
  unfold submitOne
  split
  · exact ⟨rfl, rfl, rfl, rfl, Nat.le_succ _, Nat.le_succ _⟩
  split
  · next id _ =>
    have hfill : Spends 0 s (s.refill id hs.desc) := .of_eq rfl rfl rfl le_rfl rfl (modCmd_length _ _ _)
    exact submitRef_agree h (hfill.trans (queuedUp_spends _ _)) hw
  · exact submitRef_agree h (queuedUp_new_spends hs.desc s) hw

theorem submitAll_agree (h : Agree n dn dn') (hs : List HostSubmit) {s : State} (hw : pendingWork s + hs.length ≤ n) :
    submitAll dn hs s = submitAll dn' hs s ∧ Spends hs.length s (submitAll dn hs s) := by
  induction hs generalizing s with
  | nil => exact ⟨rfl, .refl s⟩
  | cons x xs ih =>
    rw [List.length_cons] at hw ⊢
    obtain ⟨he, h1⟩ := submitOne_agree h x (s := s) (by omega)
    obtain ⟨he', h2⟩ := ih (s := submitOne dn x s) (by have := h1.work; omega)
    rw [submitAll, submitAll, ← he]
    exact ⟨he', Nat.add_comm 1 _ ▸ h1.trans h2⟩

/-- A host call takes what it submits off the script. -/
theorem hostCall_agree (h : Agree n dn dn') : Agree n (hostCall dn) (hostCall dn') := fun s hw => by
  unfold hostCall
  split
  · exact ⟨rfl, .refl s⟩
  next hs rest hhost =>
  have hwork : pendingWork { s with host := rest } + hs.length = pendingWork s := by
    simp only [pendingWork, hhost, List.map_cons, List.sum_cons]
    omega
  have hscript : State.scripted { s with host := rest } + hs.length = s.scripted := by
    simp only [State.scripted, hhost, List.map_cons, List.sum_cons]
    omega
  obtain ⟨he, hsp⟩ := submitAll_agree h hs (s := { s with host := rest }) (by omega)
  refine ⟨he, hsp.snap, hsp.params, hsp.inbox, by have := hsp.work; omega, ?_⟩
  have hrec := hsp.records
  dsimp only at hrec
  omega

theorem emit_spends (e : Event) (s : State) : Spends 0 s (s.emit e) := .of_eq rfl rfl rfl le_rfl rfl rfl

theorem modCmd_spends (id : Nat) (f : Command → Command) (s : State) : Spends 0 s (s.modCmd id f) :=
  .of_eq rfl rfl rfl le_rfl rfl (modCmd_length _ _ _)

theorem callback_agree (h : Agree n dn dn') (id : Nat) : Agree n (callback dn id) (callback dn' id) :=
  fun s hw => (hostCall_agree h).at hw (emit_spends (.callback id (s.cmd id).result) s)

theorem notifyIf_agree (h : Agree n dn dn') (a : Bool) (u : UnitId) (ev : EvKind) (about : Option UnitId) :
    Agree n (notifyIf a dn u ev about) (notifyIf a dn' u ev about) := by
  cases a with
  | false => exact .of_spends .refl
  | true => exact fun s hw => (hostCall_agree h).at hw (emit_spends (.notify u ev.code (unitArgument about)) s)

theorem completeIO_agree (h : Agree n dn dn') (res : Result) : Agree n (completeIO dn res) (completeIO dn' res) :=
  fun s hw => by
    unfold completeIO
    split
    · exact ⟨rfl, .refl s⟩
    next id _ =>
    have hfin : Spends 0 s (finish id res s) := .of_eq rfl rfl rfl le_rfl rfl (finish_length id res s)
    exact ((callback_agree h id).comp h).at hw hfin

/-- Inside the callout the snapshot is on top of the others, so leaving it restores them (P185, R385). -/
theorem notifyEvent_agree (h : Agree n dn dn') (ev : EvKind) (about : Option UnitId) :
    Agree n (notifyEvent dn ev about) (notifyEvent dn' ev about) := fun s hw => by
  obtain ⟨he, hs⟩ := ((notifyIf_agree h s.params.attached0 .u0 ev about).comp
    (notifyIf_agree h s.params.attached1 .u1 ev about)) (enterCallout s) hw
  refine ⟨congrArg leaveCallout he, ?_⟩
  unfold notifyEvent
  rw [leaveCallout_of_snap (hs.snap.trans (enterCallout_snap s))]
  exact ⟨rfl, hs.params, hs.inbox, hs.work, hs.records⟩

theorem cancelAll_agree (h : Agree n dn dn') (vs : List Nat) : Agree n (cancelAll dn vs) (cancelAll dn' vs) := by
  induction vs with
  | nil => exact .of_spends .refl
  | cons v vs ih => exact ((Agree.of_spends (modCmd_spends v cancelled)).comp (callback_agree h v)).comp ih

theorem complete_agree (h : Agree n dn dn') (res : Result) :
    Agree n (fun s => completeIO dn res (setPhase phComplete s))
      (fun s => completeIO dn' res (setPhase phComplete s)) :=
  fun s hw => (completeIO_agree h res).at hw (setPhase_handled phComplete s).spends

/-- Whatever a handler comes to agrees if the nested dispatches do. -/
theorem ending_agree (h : Agree n dn dn') (e : Ending) (hw : pendingWork e.start ≤ n) :
    e.run dn = e.run dn' ∧ Spends 0 e.start (e.run dn) := by
  cases e with
  | waits u => exact ⟨rfl, .refl u⟩
  | delivers res u => exact completeIO_agree h res u hw
  | resets ev about res u => exact ((notifyEvent_agree h ev about).comp (complete_agree h res)) u hw
  | flushes u =>
    have hempty : Spends 0 u { u with queue := [] } := .of_eq rfl rfl rfl (Nat.zero_le _) rfl rfl
    exact ((cancelAll_agree h u.queue).comp (complete_agree h .noError)).at hw hempty

theorem runHandler_agree (h : Agree n dn dn') : Agree n (runHandler dn) (runHandler dn') := fun s hw => by
  obtain ⟨e, hstart, -, hrun⟩ := runHandler_ends s
  rw [hrun dn, hrun dn']
  obtain ⟨he, hs⟩ := ending_agree h e (hstart.spends.work.trans hw)
  exact ⟨he, hstart.spends.trans hs⟩

/-- A dispatch takes its command off the queue, so it nests those of one command less (P170). -/
theorem dispatchStep_agree (h : Agree n dn dn') : Agree (n + 1) (dispatchStep dn) (dispatchStep dn') := fun s hw => by
  by_cases hcan : canDispatch s = true
  case neg =>
    rw [dispatchStep_blocked hcan, dispatchStep_blocked hcan]
    exact ⟨rfl, .refl s⟩
  cases hq : s.queue with
  | nil =>
    rw [dispatchStep_nil hcan hq, dispatchStep_nil hcan hq]
    exact ⟨rfl, .refl s⟩
  | cons id rest =>
    have hwork := pendingWork_headTaken hq
    have htaken : Spends 0 s (headTaken id rest s) :=
      .of_eq rfl rfl rfl (by rw [hq]; exact Nat.le_succ _) rfl (headTaken_length id rest s)
    rw [dispatchStep_cons hcan hq, dispatchStep_cons hcan hq]
    obtain ⟨he, hs⟩ := runHandler_agree h (headTaken id rest s) (by omega)
    exact ⟨he, htaken.trans hs⟩

end Nested

/-! ## The bound of the nested dispatches -/

/-- Every bound that the pending commands do not exceed gives the same dispatch (entry 16). -/
theorem dispatchN_agree {n m : Nat} (h : n ≤ m) : Agree n (dispatchN n) (dispatchN m) := by
  induction n generalizing m with
  | zero =>
    intro s hw
    have hq : s.queue = [] := List.length_eq_zero_iff.mp (by unfold pendingWork at hw; omega)
    refine ⟨?_, .refl s⟩
    cases m with
    | zero => rfl
    | succ m =>
      by_cases hcan : canDispatch s = true
      · exact (dispatchStep_nil hcan hq).symm
      · exact (dispatchStep_blocked hcan).symm
  | succ n ih =>
    obtain ⟨m, rfl⟩ : ∃ k, m = k + 1 := ⟨m - 1, by omega⟩
    exact dispatchStep_agree (ih (by omega))

/-- `dispatchNext` is the dispatch of every sufficient bound. -/
theorem dispatchNext_agree (n : Nat) : Agree n dispatchNext (dispatchN n) := fun s hw =>
  dispatchN_agree hw s le_rfl

theorem dispatchNext_spends (s : State) : Spends 0 s (dispatchNext s) := (dispatchNext_agree _ s le_rfl).2

/-- P170 as an equation (R170, R176). -/
theorem dispatchNext_eq (s : State) : dispatchNext s = dispatchStep dispatchNext s :=
  (dispatchN_agree (Nat.le_succ (pendingWork s)) s le_rfl).1.trans
    (dispatchStep_agree (dispatchNext_agree (pendingWork s)) s (Nat.le_succ _)).1.symm

/-! ## The callout -/

/-- What the callout comes to: the four saved fields are those before it, and so are the snapshots (R385). -/
theorem notifyEvent_restores (ev : EvKind) (about : Option UnitId) (s : State) :
    ∃ t : State, notifyEvent dispatchNext ev about s = { t with
      current := s.current, bus := s.bus, qstate := s.qstate, igate := s.igate, snap := s.snap } := by
  have h := dispatchNext_agree (pendingWork s)
  obtain ⟨-, hs⟩ := ((notifyIf_agree h s.params.attached0 .u0 ev about).comp
    (notifyIf_agree h s.params.attached1 .u1 ev about)) (enterCallout s) le_rfl
  exact ⟨_, leaveCallout_of_snap (hs.snap.trans (enterCallout_snap s))⟩

end Sys2Proof.Machine

namespace Sys2Proof.Proofs

open Sys2Proof.Machine

/-- Settles O18: a dispatch nests only dispatches of fewer commands (`dispatchStep_agree`). -/
theorem dispatchEquation : Obligations.DispatchEquation := dispatchNext_eq

/-- Settles O50: whatever the handlers submit, the snapshot is on top when the callout is left
(`notifyEvent_restores`). -/
theorem calloutRestores : Obligations.CalloutRestores := by
  intro ev u s
  obtain ⟨t, ht⟩ := notifyEvent_restores ev u s
  rw [ht]
  exact ⟨rfl, rfl, rfl, rfl, rfl⟩

end Sys2Proof.Proofs
end

section
/-! Submissions to a Free bus that nest others: a flush with its victims (O34), and a callback that submits again
(O15). -/

namespace Sys2Proof.Machine

/-! ## A submission dispatched at once -/

/-- A new command on a Free bus with an Open queue is dispatched at once where it comes to the head: nothing is
queued, or it is Immediate and no command queued is (R164, R170). -/
theorem submitNew_head {d : Desc} {s : State} (hb : s.bus = .free) (hq : s.qstate = .opened)
    (hhead : s.queue = [] ∨ d.flags.imm = true)
    (hqueue : ∀ k ∈ s.queue, k < s.cmds.length ∧ (s.cmd k).flags.imm = false) :
    submitNew dispatchNext d s = runHandler dispatchNext (launched d s) := by
  have hsplit : (if d.flags.imm then
        s.queue.takeWhile (fun k => (s.cmd k).flags.imm) ++ s.cmds.length ::
          s.queue.dropWhile (fun k => (s.cmd k).flags.imm)
      else s.queue ++ [s.cmds.length]) = s.cmds.length :: s.queue := by
    split
    · cases hlist : s.queue with
      | nil => rfl
      | cons a l =>
        have ha : (s.cmd a).flags.imm = false := (hqueue a (hlist ▸ List.mem_cons_self)).2
        simp [ha]
    · next hi => simp [hhead.resolve_right hi]
  have hup := queuedUp_new (d := d) (s := s) fun k hk => (hqueue k hk).1
  rw [hsplit] at hup
  unfold submitNew
  rw [submitRef_eq, hup, dispatchNext_eq, dispatchStep_cons (by simp [canDispatch, hb, hq]) rfl]
  refine congrArg (runHandler dispatchNext) ?_
  unfold headTaken becomeCurrent State.modCmd launched
  simp only [modify_append_last, hq]
  rfl

/-- A record of the store on a Free bus with an Open, empty queue is dispatched at once (P160, P170). -/
theorem submitRef_next {id : Nat} {s : State} (hb : s.bus = .free) (hq : s.qstate = .opened) (hqu : s.queue = []) :
    submitRef dispatchNext id s = runHandler dispatchNext (launchedRef id s) := by
  have hwork : pendingWork (launchedRef id s) ≤ (s.host.map List.length).sum := by
    simp [pendingWork, launchedRef, hqu]
  rw [submitRef_free hb hq hqu]
  exact ((runHandler_agree (dispatchNext_agree _)) _ hwork).1.symm

/-- The delivered record of a command that is served (R180). -/
theorem completed_cmd {id : Nat} {c : Command} {res : Result} {s : State} (h : s.Serving id c) :
    (completed id res s).cmd id = deliveredAs res c := by
  rw [← h.cmd]
  exact modCmd_cmd_same id (deliveredAs res) s h.stored

theorem completed_cmd_other {id k : Nat} {res : Result} {s : State} (h : k ≠ id) :
    (completed id res s).cmd k = s.cmd k := modCmd_cmd_other id k (deliveredAs res) s h

/-- A served command in Complete: its record, nothing else done. -/
theorem State.Serving.complete {id : Nat} {c : Command} {s : State} (h : s.Serving id c) :
    Works id [] { c with state := phComplete } s (setPhase phComplete s) :=
  (Works.refl h).modCur h (fun c => { c with state := phComplete })

theorem Works.cmd_other {id k : Nat} {es : List Event} {c : Command} {s t : State} (w : Works id es c s t)
    (h : k ≠ id) : t.cmd k = s.cmd k := by
  obtain ⟨e, rfl⟩ := w
  exact worked_cmd_other (es := es) h e

theorem Works.did {id : Nat} {es : List Event} {c : Command} {s t : State} (w : Works id es c s t) : s.Did t es := by
  obtain ⟨e, rfl⟩ := w
  exact worked_did (id := id) (c := c) s e

/-! ## Flushes -/

/-- A victim is cancelled as it would be delivered (P288). -/
theorem cancelled_unset {c : Command} (h : c.result = .unset) : cancelled c = delivered .cancelled c := by
  unfold cancelled delivered
  rw [if_pos h]

/-- The victims of a flush under a silent host: each is delivered as Cancelled and called back, in order (P288). -/
theorem cancelAll_silent (dn : State → State) (vs : List Nat) {s : State} (hh : s.host = []) (hnd : vs.Nodup)
    (hv : ∀ v ∈ vs, v < s.cmds.length ∧ (s.cmd v).result = .unset) :
    ∃ cs : List Command, cancelAll dn vs s = { s.logs (vs.map (Event.callback · .cancelled)) with cmds := cs }
      ∧ cs.length = s.cmds.length ∧ (∀ v ∈ vs, (cancelAll dn vs s).cmd v = delivered .cancelled (s.cmd v))
      ∧ ∀ k, k ∉ vs → (cancelAll dn vs s).cmd k = s.cmd k := by
  induction vs generalizing s with
  | nil => exact ⟨s.cmds, rfl, rfl, by simp, fun _ _ => rfl⟩
  | cons v vs ih =>
    obtain ⟨hvn, hnd⟩ := List.nodup_cons.mp hnd
    obtain ⟨hl, hu⟩ := hv v List.mem_cons_self
    have hsame : (s.modCmd v cancelled).cmd v = delivered .cancelled (s.cmd v) := by
      rw [modCmd_cmd_same _ _ _ hl, cancelled_unset hu]
    have hother : ∀ k, k ≠ v → (s.modCmd v cancelled).cmd k = s.cmd k := fun k hk => modCmd_cmd_other _ _ _ _ hk
    have hcall : callback dn v (s.modCmd v cancelled) = (s.modCmd v cancelled).logs [.callback v .cancelled] := by
      unfold callback hostCall
      rw [hsame, emit_host, modCmd_host, hh]
      rfl
    rw [cancelAll_cons, hcall]
    obtain ⟨cs, heq, hlen, hdone, hrest⟩ := ih (s := (s.modCmd v cancelled).logs [.callback v .cancelled]) hh hnd
      fun w hw => by
        have hwv : w ≠ v := fun e => hvn (e ▸ hw)
        obtain ⟨h1, h2⟩ := hv w (List.mem_cons_of_mem _ hw)
        exact ⟨(modCmd_length v cancelled s).symm ▸ h1, (congrArg (·.result) (hother w hwv)).trans h2⟩
    refine ⟨cs, ?_, hlen.trans (modCmd_length v cancelled s), fun w hw => ?_, fun k hk => ?_⟩
    · rw [heq, logs_logs]
      rfl
    · rcases List.mem_cons.mp hw with rfl | hw
      · exact (hrest w hvn).trans hsame
      · exact (hdone w hw).trans (congrArg (delivered .cancelled) (hother w fun e => hvn (e ▸ hw)))
    · rw [List.mem_cons, not_or] at hk
      exact (hrest k hk.2).trans (hother k hk.1)

/-- The handler of a served QueueFlush is `handleQueueFlush` (R140). -/
theorem runHandler_qflush {dn : State → State} {s : State} (h : s.cur.opcode = opQueueFlush) :
    runHandler dn s = handleQueueFlush dn s := by
  simp [runHandler, h, isExecOp, opExecIO, opAtapiExecIO, opRegisterAccess, opBusReset, opQueueFlush]

/-- A flush under a silent host: the victims are cancelled in order, then the flush itself is delivered (P288, P180).
-/
theorem handleQueueFlush_silent {id : Nat} {c : Command} {s : State} (h : s.Serving id c) (hh : s.host = [])
    (hid : id ∉ s.queue) (hnd : s.queue.Nodup)
    (hv : ∀ v ∈ s.queue, v < s.cmds.length ∧ (s.cmd v).result = .unset) (hc : c.result = .unset) :
    ∃ t : State, handleQueueFlush dispatchNext s = completed id .noError t
      ∧ (∃ cs e, t = { s.logs (s.queue.map (Event.callback · .cancelled)) with queue := [], cmds := cs, env := e })
      ∧ t.Serving id { c with state := phComplete }
      ∧ (∀ v ∈ s.queue, t.cmd v = delivered .cancelled (s.cmd v))
      ∧ (∀ k, k ≠ id → k ∉ s.queue → t.cmd k = s.cmd k)
      ∧ ∃ r, s.Did (completed id .noError t)
          (s.queue.map (Event.callback · .cancelled) ++ completionEvents id r .noError) := by
  obtain ⟨cs, heq, hlen, hdone, hrest⟩ :=
    cancelAll_silent dispatchNext s.queue (s := { s with queue := [] }) hh hnd hv
  have hserve : (cancelAll dispatchNext s.queue { s with queue := [] }).Serving id c := by
    refine ⟨by rw [heq]; exact h.current, by rw [heq]; exact hlen.symm ▸ h.stored, ?_⟩
    exact (hrest id hid).trans h.cmd
  have w := hserve.complete
  have ht := w.serving hserve
  have hcancel : State.Did s (cancelAll dispatchNext s.queue { s with queue := [] })
      (s.queue.map (Event.callback · .cancelled)) := (did_iff _ _ _).mpr (by rw [heq]; rfl)
  have hstep := Did.trans hcancel w.did
  rw [List.append_nil] at hstep
  have hdeliver := completed_did (id := id) (res := .noError) (by rw [ht.cmd]; exact hc)
  refine ⟨_, ?_, ?_, ht, fun v hm => ?_, fun k hk hkq => ?_, _,
    Did.trans hstep hdeliver⟩
  · have hhost : (setPhase phComplete (cancelAll dispatchNext s.queue { s with queue := [] })).host = [] := by
      rw [(setPhase_handled _ _).host, heq]
      exact hh
    have hqueue : (setPhase phComplete (cancelAll dispatchNext s.queue { s with queue := [] })).queue = [] := by
      rw [(setPhase_handled _ _).queue, heq]
      rfl
    unfold handleQueueFlush
    rw [completeIO_silent dispatchNext .noError ht.current ht.stored hhost]
    exact dispatchNext_quiet hqueue hhost
  · obtain ⟨e, he⟩ := w
    rw [he, heq]
    exact ⟨_, e, rfl⟩
  · exact (w.cmd_other (fun e => hid (e ▸ hm))).trans (hdone v hm)
  · exact (w.cmd_other hk).trans (hrest k hkq)

/-! ## A callback that submits again -/

/-- An unknown opcode on a Free bus: its callback submits what the script gives for it, then the next dispatch runs
(R144, R180, R181). -/
theorem submitNew_unknown_next {d : Desc} {s : State} {hs : List HostSubmit} {rest : List (List HostSubmit)}
    (hw : (Instr.opUnknown d).wellFormed = true) (hb : s.bus = .free) (hq : s.qstate = .opened) (hqu : s.queue = [])
    (hh : s.host = hs :: rest) :
    submitNew dispatchNext d s = dispatchNext (submitAll dispatchNext hs (unknownCalled d rest s)) := by
  have hcur : (launched d s).cur.opcode = d.opcode := by rw [launched_cur_plain s (unknown_plain hw)]; rfl
  have hcurrent : (setPhase phComplete (launched d s)).current = some s.cmds.length := rfl
  have hhost : ((unknownFinished d s).emit (.callback s.cmds.length
      ((unknownFinished d s).cmd s.cmds.length).result)).host = hs :: rest := hh
  rw [submitNew_head hb hq (.inl hqu) (by simp [hqu]), runHandler_unknown hw hcur, handleUnknown, completeIO, hcurrent]
  exact congrArg dispatchNext (hostCall_cons hhost)

/-- A command that its unknown opcode has delivered is not in use in its callback, and the older records are as before
(R180). -/
theorem unknownCalled_cmds {d : Desc} {rest : List (List HostSubmit)} {s : State}
    (hw : (Instr.opUnknown d).wellFormed = true) :
    (unknownCalled d rest s).cmds.length = s.cmds.length + 1
      ∧ (∀ k, k < s.cmds.length → (unknownCalled d rest s).cmd k = s.cmd k)
      ∧ ((unknownCalled d rest s).cmd s.cmds.length).inUse = false := by
  have hlen : (setPhase phComplete (launched d s)).cmds.length = s.cmds.length + 1 := by
    rw [(setPhase_handled _ _).length, launched_length]
  have hfinish : (unknownFinished d s).cmds.length = s.cmds.length + 1 := (finish_length _ _ _).trans hlen
  refine ⟨hfinish, fun k hk => ?_, ?_⟩
  · have hother : (unknownFinished d s).cmd k = (setPhase phComplete (launched d s)).cmd k :=
      finish_cmd_other (by omega)
    refine hother.trans ?_
    rw [launched_complete s (unknown_plain hw)]
    exact List.getD_append _ _ _ _ hk
  · have hlast : (unknownFinished d s).cmd s.cmds.length = _ := modCmd_cmd_same s.cmds.length _ _ (by
      show s.cmds.length < List.length (List.modify _ _ _)
      rw [List.length_modify, hlen]
      omega)
    exact congrArg (·.inUse) hlast

end Sys2Proof.Machine

namespace Sys2Proof.Proofs

open Sys2Proof.Machine

/-- Settles O34: the flush is dispatched at once (`submitNew_head`) and cancels what is queued behind it
(`handleQueueFlush_silent`). -/
theorem flushCancels : Obligations.FlushCancels := by
  intro d s hb hq _ hh _ hbreach hacc hhead hnd hqueue
  have hplain : (isExecOp (d.asOp 0x04#8).opcode && (d.asOp 0x04#8).isReset08) = false := rfl
  have hserve := launched_serving s hplain
  have hnone := breach_of_hostBreach hbreach
  have hlast : s.cmds.length ∉ s.queue := fun hm => absurd (hqueue _ hm).1 (Nat.lt_irrefl _)
  have hold : ∀ k, k < s.cmds.length → (launched (d.asOp 0x04#8) s).cmd k = s.cmd k := fun k hk =>
    List.getD_append _ _ _ _ hk
  obtain ⟨t, hflush, ⟨cs, e, hform⟩, hts, hvictims, hothers, r, hdid⟩ := handleQueueFlush_silent hserve hh hlast hnd
    (fun v hv => ⟨by have := (hqueue v hv).1; rw [launched_length]; omega,
      by rw [hold v (hqueue v hv).1]; exact (hqueue v hv).2.2⟩) rfl
  have hnew : submitNew dispatchNext (d.asOp 0x04#8) s = completed s.cmds.length .noError t := by
    rw [submitNew_head (d := d.asOp 0x04#8) hb hq hhead fun k hk => ⟨(hqueue k hk).1, (hqueue k hk).2.1⟩,
      runHandler_qflush (by rw [hserve.cur]; rfl), hflush]
  refine ⟨{ completed s.cmds.length .noError t with ret := .status .noError }, r, ?_, ?_, hdid, fun k hk => ?_,
    fun k hk hl => ?_, (completed_cmd hts).trans rfl, ?_⟩
  · rw [exec_commandRow rfl, submitRow, if_pos hacc, hnew]
    exact guarded_next hbreach (by rw [hform]; exact hnone)
  · exact ⟨rfl, rfl, by rw [hform]; rfl, rfl⟩
  · have hl := (hqueue k hk).1
    exact (completed_cmd_other (by omega)).trans ((hvictims k hk).trans (by rw [hold k hl]))
  · exact (completed_cmd_other (by omega)).trans ((hothers k (by omega) hk).trans (hold k hl))
  · subst hform
    exact ⟨rfl, rfl, rfl, rfl, rfl, fun _ => rfl, rfl, rfl⟩

end Sys2Proof.Proofs
end

section
/-! Submissions that are refused, of the host's own and of those nested in a callback; a record that its own callback
submits again (O15). -/

namespace Sys2Proof.Machine

/-- A nested submission that is wrong is the first refusal (R160, entry 11). -/
theorem submitOne_refused {dn : State → State} {h : HostSubmit} {r : Refusal} {s : State}
    (hn : s.nestedBreach h = some r) (hb : s.breach = none) : (submitOne dn h s).breach = some r := by
  unfold submitOne
  rw [hn]
  simp [State.refuse, hb]

/-- The row of an unknown opcode whose callback begins with a wrong submission is refused for it (R160, entry 11). -/
theorem exec_unknown_refused {e : Desc} {h : HostSubmit} {hs : List HostSubmit} {rest : List (List HostSubmit)}
    {r : Refusal} {s : State} (hw : (Instr.opUnknown e).wellFormed = true) (hb : s.bus = .free)
    (hq : s.qstate = .opened) (hc : s.current = none) (hqu : s.queue = []) (hbr : s.breach = none)
    (ha : s.accepts e = true) (hh : s.host = (h :: hs) :: rest)
    (hn : (unknownCalled e rest s).nestedBreach h = some r) : exec (.opUnknown e) s = .refused r := by
  refine (exec_unknown hbr hc hqu ha).2 r ?_
  rw [submitNew_unknown_next hw hb hq hqu hh]
  obtain ⟨hrest, -⟩ := submitAll_heard dispatchNext_heard hs (submitOne dispatchNext h (unknownCalled e rest s))
  have hfirst := submitOne_refused (dn := dispatchNext) hn ((unknownCalled_fields e rest s).1.trans hbr)
  exact (dispatchNext_heard _).stays _ (hrest.stays _ hfirst)

/-- SUBMIT of a record on a host that keeps its contract (P160). -/
theorem exec_submit_record {r : Word} {s : State} (h : hostBreach s = none) :
    (s.cmds.length ≤ r.toNat → exec (.submit (some r) true) s = .refused .noSuchCommand)
      ∧ (r.toNat < s.cmds.length → (s.cmd r.toNat).inUse = true →
          exec (.submit (some r) true) s = .refused .commandInUse)
      ∧ (r.toNat < s.cmds.length → (s.cmd r.toNat).inUse = false →
          (initialised (s.cmd r.toNat) && s.accepts (s.cmd r.toNat).toDesc) = false →
          exec (.submit (some r) true) s = .refused .illFormedCommand) := by
  have hexec : exec (.submit (some r) true) s = submitRecord r.toNat s := rfl
  rw [hexec, submitRecord]
  simp only [guarded, h]
  refine ⟨fun hl => ?_, fun hl hu => ?_, fun hl hu hill => ?_⟩
  · rw [if_pos hl]
  · rw [if_neg (Nat.not_le.mpr hl), if_pos hu]
  · rw [if_neg (Nat.not_le.mpr hl), hu, hill]
    rfl

/-- A stored command that is not reclassified is served once it is dispatched (R170). -/
theorem launchedRef_serving {id : Nat} {s : State} (hl : id < s.cmds.length)
    (hp : (isExecOp (s.cmd id).opcode && (s.cmd id).toDesc.isReset08) = false) :
    (launchedRef id s).Serving id { s.cmd id with state := phStarted, inUse := true } := by
  refine ⟨rfl, ?_, ?_⟩
  · show id < List.length (List.modify _ _ _)
    rwa [List.length_modify]
  · exact (modCmd_cmd_same id _ s hl).trans (onDispatch_plain hp)

/-- A record that is refilled as a flush and submitted again to a Free engine with nothing queued is delivered at once
(R89, P288). -/
theorem submitRef_refilled_flush {k : Nat} {d : Desc} {s : State} (hb : s.bus = .free) (hq : s.qstate = .opened)
    (hqu : s.queue = []) (hh : s.host = []) (hk : k < s.cmds.length) (hop : d.opcode = opQueueFlush) :
    ∃ (t : State) (r : Result), submitRef dispatchNext k (s.refill k d) = t ∧ t.bus = .free ∧ t.current = none
      ∧ t.queue = [] ∧ t.timer.armed = false ∧ t.host = [] ∧ t.breach = s.breach
      ∧ s.Did t (completionEvents k r .noError) ∧ t.cmd k = delivered .noError (Command.fresh d) := by
  have hfilled : (s.refill k d).cmd k = Command.fresh d := modCmd_cmd_same k _ s hk
  have hplain : (isExecOp ((s.refill k d).cmd k).opcode && ((s.refill k d).cmd k).toDesc.isReset08) = false := by
    rw [hfilled]
    show (isExecOp d.opcode && _) = false
    rw [hop]
    rfl
  have hserve := launchedRef_serving ((modCmd_length k _ s).symm ▸ hk) hplain
  rw [hfilled] at hserve
  have hqueue : (launchedRef k (s.refill k d)).queue = [] := hqu
  obtain ⟨t, hflush, ⟨cs, e, hform⟩, hts, -, -, r, hdid⟩ := handleQueueFlush_silent hserve hh (by simp [hqueue])
    (by simp [hqueue]) (by simp [hqueue]) rfl
  refine ⟨_, r, rfl, ?_⟩
  rw [submitRef_next (s := s.refill k d) hb hq hqu, runHandler_qflush (by rw [hserve.cur]; exact hop), hflush]
  have hdid : s.Did (completed k .noError t) (completionEvents k r .noError) := by rwa [hqueue] at hdid
  refine ⟨rfl, rfl, by rw [hform]; rfl, rfl, by rw [hform]; exact hh, by rw [hform]; rfl, hdid,
    (completed_cmd hts).trans rfl⟩

/-- A completion has one callback. -/
theorem callbacks_completion (id : Nat) (r res : Result) :
    callbacks (withBars (completionEvents id r res)) = [id] := rfl

theorem callbacks_append (es fs : List Event) : callbacks (es ++ fs) = callbacks es ++ callbacks fs :=
  List.filterMap_append

end Sys2Proof.Machine

namespace Sys2Proof.Proofs

open Sys2Proof.Machine

/-- Settles O15: SUBMIT itself (`exec_submit_record`); in the callback, the record called back has the number of the
new record, so a smaller reference names an old record and a larger one none (`exec_unknown_refused`). -/
theorem submitRefuses : Obligations.SubmitRefuses := by
  refine ⟨fun s r h => exec_submit_record h, ?_⟩
  intro e d s k hs rest hw hb hq hc hqu hbr ha hh
  obtain ⟨hlen, hold, hlast⟩ := unknownCalled_cmds (rest := rest) (s := s) hw
  obtain ⟨kbr, kbufs, kbus, kq, kc, kqu, karm⟩ := unknownCalled_fields e rest s
  refine ⟨fun hk hu => ?_, fun hk => ?_, fun hk hop hacc hs0 hrest => ?_⟩
  · refine exec_unknown_refused hw hb hq hc hqu hbr ha hh ?_
    simp [State.nestedBreach, hlen, hold k hk, hu, hk.le]
  · refine exec_unknown_refused hw hb hq hc hqu hbr ha hh ?_
    simp [State.nestedBreach, hlen, Nat.not_le.mpr hk]
  · subst hs0 hrest hk
    have hnested : (unknownCalled e [] s).nestedBreach ⟨some s.cmds.length, d⟩ = none := by
      simp [State.nestedBreach, hlen, hlast, accepts_congr kbufs, hacc]
    obtain ⟨t, r, hrun, tbus, tcur, tqu, tarm, thost, tbr, hdid, hrec⟩ :=
      submitRef_refilled_flush (k := s.cmds.length) (d := d) kbus (kq.trans hq) (kqu.trans hqu) rfl (by omega) hop
    have hone : submitOne dispatchNext ⟨some s.cmds.length, d⟩ (unknownCalled e [] s) = t := by
      unfold submitOne
      rw [hnested]
      exact hrun
    have hnew : submitNew dispatchNext e s = t := by
      rw [submitNew_unknown_next hw hb hq hqu hh, submitAll, hone, submitAll]
      exact dispatchNext_quiet tqu thost
    have hnext := (exec_unknown hbr hc hqu ha).1 (by rw [hnew, tbr, kbr, hbr])
    rw [hnew] at hnext
    have hfirst : ∃ r res, s.Did (unknownCalled e [] s) (completionEvents s.cmds.length r res) :=
      ⟨_, _, (did_iff _ _ _).mpr rfl⟩
    obtain ⟨r', res', hfirst⟩ := hfirst
    exact ⟨_, _, hnext, ⟨tbus, tcur, tqu, tarm⟩, Did.trans hfirst hdid, by
      rw [withBars_append, callbacks_append, callbacks_completion, callbacks_completion]; rfl, hrec⟩

end Sys2Proof.Proofs
end

section
/-! Where the commands of an action go: a relation from its start to its end that counts, for every record, the places
it is in flight and the callbacks it got (R183). It settles that no command is lost and none delivered twice (O58),
and what SUBMIT of a stored record comes to on an idle engine (O14). -/

namespace Sys2Proof.Machine

/-! ## The count -/

/-- The host's script uses no record again. -/
def State.Unreused (s : State) : Prop := ∀ hs ∈ s.host, ∀ h ∈ hs, h.reuse = none

/-- 1 for a record of the store, 0 for another number. -/
def State.made (k : Nat) (s : State) : Nat := if k < s.cmds.length then 1 else 0

/-- A record that was delivered and that nothing uses (R180). -/
def State.Retired (k : Nat) (t : State) : Prop :=
  k < t.cmds.length ∧ (t.cmd k).inUse = false ∧ (t.cmd k).state = phDone

/-- From `s`, where the records `owed` are to be delivered too, to `t`: every record in flight, owed or new is in
flight again or got its callback, as often as it was counted, and is retired in the second case; the rest is as
before. -/
structure Tally (owed : List Nat) (s t : State) : Prop where
  script : t.Unreused
  length : s.cmds.length ≤ t.cmds.length
  others : ∀ k, k < s.cmds.length → k ∉ s.inFlight → k ∉ owed → t.cmd k = s.cmd k
  events : ∃ es, t.traceRev = es ++ s.traceRev ∧ (∀ k ∈ callbacks es, t.Retired k)
    ∧ ∀ k, owed.count k + s.inFlight.count k + t.made k = t.inFlight.count k + (callbacks es).count k + s.made k

theorem made_stored {k : Nat} {s : State} (h : k < s.cmds.length) : s.made k = 1 := if_pos h

theorem made_congr {k : Nat} {s t : State} (h : t.cmds.length = s.cmds.length) : t.made k = s.made k := by
  unfold State.made
  rw [h]

theorem made_le (k : Nat) (s : State) : s.made k ≤ 1 := by
  unfold State.made
  split <;> omega

/-- Nothing owed then is owed twice, as what is owed later is still in use. -/
theorem Tally.trans {o o' : List Nat} {a b c : State} (h : Tally o a b) (k : Tally o' b c) (hb : b.Arbiter)
    (ho : ∀ x ∈ o', (b.cmd x).inUse = true) : Tally (o ++ o') a c := by
  obtain ⟨es, hes, hret, hcount⟩ := h.events
  obtain ⟨fs, hfs, kret, kcount⟩ := k.events
  refine ⟨k.script, h.length.trans k.length, fun x hl hx hxo => ?_, fs ++ es, by rw [hfs, hes, List.append_assoc],
    fun x hx => ?_, fun x => ?_⟩
  · rw [List.mem_append, not_or] at hxo
    have hxb : x ∉ b.inFlight := by
      have hx0 := hcount x
      rw [List.count_eq_zero.mpr hx, List.count_eq_zero.mpr hxo.1, made_stored hl,
        made_stored (hl.trans_le h.length)] at hx0
      exact List.count_eq_zero.mp (by omega)
    exact (k.others x (hl.trans_le h.length) hxb hxo.2).trans (h.others x hl hx hxo.1)
  · rw [callbacks_append] at hx
    rcases List.mem_append.mp hx with hx | hx
    · exact kret x hx
    · obtain ⟨hl, hu, hs⟩ := hret x hx
      have hsame := k.others x hl (hb.not_mem_inFlight hu) fun hm => absurd (ho x hm) (by simp [hu])
      exact ⟨hl.trans_le k.length, by rw [hsame]; exact hu, by rw [hsame]; exact hs⟩
  · have h1 := hcount x
    have h2 := kcount x
    rw [callbacks_append, List.count_append, List.count_append]
    omega

theorem Tally.andThen {o : List Nat} {a b c : State} (h : Tally o a b) (k : Tally [] b c) (hb : b.Arbiter) :
    Tally o a c := by
  have := h.trans k hb nofun
  rwa [List.append_nil] at this

/-- Nothing comes in flight, goes out of it, or is called back. -/
theorem Tally.of_same {s t : State} (hu : t.Unreused) (hl : t.cmds.length = s.cmds.length)
    (hf : t.inFlight = s.inFlight) (ho : ∀ k, k ∉ s.inFlight → t.cmd k = s.cmd k)
    (ht : ∃ es, t.traceRev = es ++ s.traceRev ∧ callbacks es = []) : Tally [] s t := by
  obtain ⟨es, hes, hnone⟩ := ht
  refine ⟨hu, hl.ge, fun k _ hk _ => ho k hk, es, hes, by simp [hnone], fun k => ?_⟩
  rw [hnone, hf, made_congr hl, List.count_nil]
  omega

theorem Tally.refl {s : State} (h : s.Unreused) : Tally [] s s := .of_same h rfl rfl (fun _ _ => rfl) ⟨[], rfl, rfl⟩

theorem callbacks_eq_nil {es : List Event} (h : ∀ e ∈ es, e.isHostCall = false) : callbacks es = [] := by
  refine List.filterMap_eq_nil_iff.mpr fun e he => ?_
  have := h e he
  cases e with
  | callback _ _ => cases this
  | _ => rfl

theorem Handled.tally {s t : State} (h : Handled s t) (hu : s.Unreused) : Tally [] s t := by
  obtain ⟨es, hes, hno⟩ := h.trace
  refine .of_same (fun hs hm => hu hs (h.host ▸ hm)) h.length h.inFlight (fun k hk => h.others k fun e => ?_)
    ⟨es, hes, callbacks_eq_nil hno⟩
  exact hk (mem_inFlight.mpr (.inl e))

/-! ## Submissions -/

theorem queuedUp_inFlight_perm (id : Nat) (s : State) : (queuedUp id s).inFlight.Perm (id :: s.inFlight) := by
  unfold queuedUp State.inFlight
  rw [enqueue_current]
  exact ((enqueue_perm id _).append_left _).trans List.perm_middle

theorem queuedUp_length (id : Nat) (s : State) : (queuedUp id s).cmds.length = s.cmds.length := by
  simp [queuedUp]

theorem queuedUp_unreused {id : Nat} {s : State} (h : s.Unreused) : (queuedUp id s).Unreused := by
  unfold State.Unreused queuedUp
  rw [enqueue_host]
  exact h

/-- A stored record is submitted (P160). -/
theorem queuedUp_tally {id : Nat} {s : State} (h : s.Unreused) : Tally [id] s (queuedUp id s) := by
  refine ⟨queuedUp_unreused h, (queuedUp_length id s).ge, fun k _ _ hk => queuedUp_cmd_other (by simpa using hk), [], by
    simp [queuedUp], nofun, fun k => ?_⟩
  rw [(queuedUp_inFlight_perm id s).count_eq, made_congr (queuedUp_length id s)]
  simp only [callbacks, List.filterMap_nil, List.count_cons, List.count_nil]
  omega

/-- A new record is submitted (entry 8). -/
theorem queuedUp_new_tally (d : Desc) {s : State} (h : s.Unreused) :
    Tally [] s (queuedUp s.cmds.length { s with cmds := s.cmds ++ [Command.fresh d] }) := by
  have hlen : (queuedUp s.cmds.length { s with cmds := s.cmds ++ [Command.fresh d] }).cmds.length
      = s.cmds.length + 1 := by simp [queuedUp_length]
  refine ⟨queuedUp_unreused h, by omega, fun k hk _ _ => ?_, [], by simp [queuedUp], nofun, fun k => ?_⟩
  · exact (queuedUp_cmd_other (by omega)).trans (cmd_append _ hk)
  · rw [(queuedUp_inFlight_perm _ _).count_eq, List.count_cons]
    simp only [State.made, hlen, callbacks, List.filterMap_nil, List.count_nil, beq_iff_eq]
    show _ = s.inFlight.count k + _ + _ + _
    split <;> split <;> split <;> omega

/-- A dispatch that keeps the count, when at most `n` commands can still be dispatched. -/
def Tallies (n : Nat) (dn : State → State) : Prop :=
  ∀ s : State, s.Arbiter → s.Unreused → pendingWork s ≤ n → Tally [] s (dn s)

section Nested

variable {n : Nat} {dn : State → State}

theorem submitRef_tally (ht : Tallies n dn) {id : Nat} {s : State} (h : s.Arbiter) (hr : s.Ready id) (hu : s.Unreused)
    (hw : pendingWork s + 1 ≤ n) : Tally [id] s (submitRef dn id s) := by
  rw [submitRef_eq]
  have ha := queuedUp_arbiter h hr
  exact (queuedUp_tally hu).andThen (ht _ ha (queuedUp_unreused hu) ((pendingWork_queuedUp id s).trans_le hw)) ha

theorem submitNew_tally (ht : Tallies n dn) {d : Desc} {s : State} (h : s.Arbiter) (hl : d.legal = true)
    (hu : s.Unreused) (hw : pendingWork s + 1 ≤ n) : Tally [] s (submitNew dn d s) := by
  unfold submitNew
  rw [submitRef_eq]
  have hr : State.Ready s.cmds.length { s with cmds := s.cmds ++ [Command.fresh d] } :=
    ready_of_fresh (by simp) (by simp [State.cmd]) hl
  have ha := queuedUp_arbiter (newRecord_nested d h).arbiter hr
  exact (queuedUp_new_tally d hu).andThen (ht _ ha (queuedUp_unreused hu) ((pendingWork_queuedUp _ _).trans_le hw)) ha

theorem submitOne_tally (ht : Tallies n dn) {hs : HostSubmit} {s : State} (hnew : hs.reuse = none) (h : s.Arbiter)
    (hu : s.Unreused) (hw : pendingWork s + 1 ≤ n) : Tally [] s (submitOne dn hs s) := by
  unfold submitOne
  split
  · exact .of_same hu rfl rfl (fun _ _ => rfl) ⟨[], rfl, rfl⟩
  next hb =>
  split
  · next id hid => rw [hnew] at hid; cases hid
  · exact submitNew_tally ht h (accepts_legal (nestedBreach_none hb).2) hu hw

theorem submitAll_tally (hd : Dispatches n dn) (ht : Tallies n dn) (hs : List HostSubmit) {s : State}
    (hnew : ∀ x ∈ hs, x.reuse = none) (h : s.Arbiter) (hu : s.Unreused) (hw : pendingWork s + hs.length ≤ n) :
    Tally [] s (submitAll dn hs s) := by
  induction hs generalizing s with
  | nil => exact .refl hu
  | cons x xs ih =>
    rw [List.length_cons] at hw
    obtain ⟨hone, hle⟩ := submitOne_nested hd x h (by omega)
    have hfirst := submitOne_tally ht (hnew x List.mem_cons_self) h hu (by omega)
    exact hfirst.andThen (ih (fun y hy => hnew y (List.mem_cons_of_mem _ hy)) hone.arbiter hfirst.script (by omega))
      hone.arbiter

/-- A host call (U11). -/
theorem hostCall_tally (hd : Dispatches n dn) (ht : Tallies n dn) {s : State} (h : s.Arbiter) (hu : s.Unreused)
    (hw : pendingWork s ≤ n) : Tally [] s (hostCall dn s) := by
  unfold hostCall
  split
  · exact .refl hu
  next hs rest hhost =>
  have hrest : State.Unreused { s with host := rest } := fun x hx => hu x (hhost ▸ List.mem_cons_of_mem _ hx)
  have ha : State.Arbiter { s with host := rest } := h.congr_inFlight rfl rfl rfl le_rfl rfl (fun _ _ => rfl)
  have htake : Tally [] s { s with host := rest } := .of_same hrest rfl rfl (fun _ _ => rfl) ⟨[], rfl, rfl⟩
  have hp : pendingWork { s with host := rest } + hs.length = pendingWork s := by
    simp only [pendingWork, hhost, List.map_cons, List.sum_cons]
    omega
  exact htake.andThen (submitAll_tally hd ht hs (hu hs (hhost ▸ List.mem_cons_self)) ha hrest (by omega)) ha

/-- The call of an event handler (R88). -/
theorem notifyIf_tally (hd : Dispatches n dn) (ht : Tallies n dn) (a : Bool) (hdl : UnitId) (ev : EvKind)
    (about : Option UnitId) {s : State} (h : s.Arbiter) (hu : s.Unreused) (hw : pendingWork s ≤ n) :
    Tally [] s (notifyIf a dn hdl ev about s) := by
  unfold notifyIf
  split
  · have ha := (emit_nested (.notify hdl ev.code (unitArgument about)) h).arbiter
    have hcall : Tally [] s (s.emit (.notify hdl ev.code (unitArgument about))) :=
      .of_same hu rfl rfl (fun _ _ => rfl) ⟨[_], rfl, rfl⟩
    exact hcall.andThen (hostCall_tally hd ht ha hu hw) ha
  · exact .refl hu

/-! ## Deliveries -/

/-- The records after a delivery (R180). -/
theorem finish_cmds (id : Nat) (res : Result) (s : State) :
    (finish id res s).cmds = (s.modCmd id (deliveredAs res)).cmds := by
  unfold finish
  simp only [State.modCmd, stopDma, stopTimer, State.emit, List.modify_modify_eq]
  rfl

/-- A delivered record is retired (R180). -/
theorem finish_retired {id : Nat} (res : Result) {s : State} (h : id < s.cmds.length) :
    (finish id res s).Retired id := by
  have hcmd : (finish id res s).cmd id = deliveredAs res (s.cmd id) := by
    rw [← modCmd_cmd_same id (deliveredAs res) s h]
    unfold State.cmd
    rw [finish_cmds]
  refine ⟨(finish_length id res s).symm ▸ h, ?_⟩
  rw [hcmd]
  exact ⟨rfl, rfl⟩

/-- The trace of a delivery before its callback (R180). -/
theorem finish_trace (id : Nat) (res : Result) (s : State) :
    ∃ r, (finish id res s).traceRev = .stopDma r :: .disarm :: s.traceRev := ⟨_, rfl⟩

/-- The current command is delivered: its one callback (R180, R183). -/
theorem delivered_tally {id : Nat} (res : Result) {s : State} (h : s.Arbiter) (hc : s.current = some id)
    (hu : s.Unreused) :
    Tally [] s ((finish id res s).emit (.callback id ((finish id res s).cmd id).result)) := by
  have hinfl : s.inFlight = id :: s.queue := by
    unfold State.inFlight
    rw [hc]
    rfl
  have hlen := finish_length id res s
  have hdone := finish_retired res (h.current_stored hc)
  have hother : ∀ k, k ≠ id → (finish id res s).cmd k = s.cmd k := fun k => finish_cmd_other
  have hleft : (finish id res s).inFlight = s.queue := finish_inFlight
  have hhost : (finish id res s).Unreused := hu
  obtain ⟨r, htrace⟩ := finish_trace id res s
  generalize finish id res s = t at *
  refine ⟨hhost, hlen.ge, fun k _ hk _ => hother k fun e => hk (e ▸ mem_inFlight.mpr (.inl hc)),
    [.callback id (t.cmd id).result, .stopDma r, .disarm], ?_, fun k hk => ?_, fun k => ?_⟩
  · rw [emit_traceRev, htrace]
    rfl
  · rw [List.mem_singleton.mp (show k ∈ [id] from hk)]
    exact hdone
  · have hinfl' : (t.emit (.callback id (t.cmd id).result)).inFlight = s.queue := hleft
    rw [hinfl, hinfl', made_congr (t := t.emit _) (s := s) hlen]
    simp only [callbacks, List.filterMap_cons, List.filterMap_nil, List.count_cons, List.count_nil]
    omega

theorem completeIO_tally (hd : Dispatches n dn) (ht : Tallies n dn) (res : Result) {id : Nat} {s : State}
    (h : s.Arbiter) (hc : s.current = some id) (hu : s.Unreused) (hw : pendingWork s ≤ n) :
    Tally [] s (completeIO dn res s) := by
  have hfin := finish_arbiter (res := res) h hc
  have ha := (emit_nested (.callback id ((finish id res s).cmd id).result) hfin).arbiter
  obtain ⟨hcall, hle⟩ := hostCall_nested hd ha hw
  have hone := (delivered_tally res h hc hu).andThen (hostCall_tally hd ht ha hu hw) ha
  unfold completeIO
  rw [hc]
  exact hone.andThen (ht _ hcall.arbiter hone.script (hle.trans hw)) hcall.arbiter

/-- The last phase, then the delivery. -/
theorem complete_tally (hd : Dispatches n dn) (ht : Tallies n dn) (res : Result) {id : Nat} {s : State}
    (h : s.Arbiter) (hc : s.current = some id) (hu : s.Unreused) (hw : pendingWork s ≤ n) :
    Tally [] s (completeIO dn res (setPhase phComplete s)) := by
  have hp := setPhase_handled phComplete s
  have ha := hp.arbiter h hc
  have hfirst := hp.tally hu
  exact hfirst.andThen (completeIO_tally hd ht res ha (hp.current.trans hc) hfirst.script
    (hp.pendingWork.trans_le hw)) ha

/-! ## Callouts and flushes -/

/-- Under the Locked queue of a callout every command is synchronous, so at its end none is current (R171, R185). -/
theorem callout_current {s t : State} (h : Nested (enterCallout s) t) : t.current = none := by
  have hfree : t.bus = .free := (h.free rfl).resolve_right fun hp =>
    absurd (hp.qstate.symm.trans h.leaves.qstate) (by simp)
  exact h.arbiter.free_current hfree

/-- A callout: the command that asked for it is out of flight while it lasts (R185, R385). -/
theorem notifyEvent_tally (hd : Dispatches n dn) (ht : Tallies n dn) (ev : EvKind) (about : Option UnitId) {s : State}
    (h : s.Arbiter) (hoff : s.timer.armed = false) (hu : s.Unreused) (hw : pendingWork s ≤ n) :
    Tally [] s (notifyEvent dn ev about s) := by
  have henter := enterCallout_arbiter h hoff
  obtain ⟨h0, hle0⟩ := notifyIf_nested hd s.params.attached0 .u0 ev about henter hw
  obtain ⟨h1, -⟩ := notifyIf_nested hd s.params.attached1 .u1 ev about h0.arbiter (hle0.trans hw)
  have k0 := notifyIf_tally hd ht s.params.attached0 .u0 ev about henter hu hw
  have k := k0.andThen (notifyIf_tally hd ht s.params.attached1 .u1 ev about h0.arbiter k0.script (hle0.trans hw))
    h0.arbiter
  have hn := h0.trans h1
  unfold notifyEvent
  generalize notifyIf s.params.attached1 dn .u1 ev about
    (notifyIf s.params.attached0 dn .u0 ev about (enterCallout s)) = t at hn k ⊢
  rw [leaveCallout_of_snap (hn.leaves.snap.trans (enterCallout_snap s))]
  obtain ⟨es, hes, hret, hcount⟩ := k.events
  refine ⟨k.script, k.length, fun x hl hx => k.others x hl fun hm => hx (mem_inFlight.mpr (.inr hm)), es, hes, hret,
    fun x => ?_⟩
  have hx := hcount x
  have hqueue : t.inFlight = t.queue := by
    unfold State.inFlight
    rw [callout_current hn]
    rfl
  rw [hqueue] at hx
  show _ + List.count x (s.current.toList ++ s.queue) + t.made x
    = List.count x (s.current.toList ++ t.queue) + _ + s.made x
  rw [List.count_append, List.count_append]
  change _ + List.count x s.queue + t.made x = _ + _ + s.made x at hx
  omega

/-- A victim of a flush is cancelled and called back (P288). -/
theorem cancelled_tally {v : Nat} {s : State} (hv : s.Held v) (hu : s.Unreused) :
    Tally [v] s ((s.modCmd v cancelled).emit (.callback v ((s.modCmd v cancelled).cmd v).result)) := by
  have hlen : (s.modCmd v cancelled).cmds.length = s.cmds.length := modCmd_length _ _ _
  have hdone : (s.modCmd v cancelled).Retired v := by
    refine ⟨hlen.symm ▸ hv.1, ?_⟩
    rw [modCmd_cmd_same _ _ _ hv.1]
    exact ⟨rfl, rfl⟩
  refine ⟨hu, hlen.ge, fun k _ _ hk => modCmd_cmd_other _ _ _ _ (by simpa using hk), [.callback v _], rfl,
    fun k hk => ?_, fun k => ?_⟩
  · rw [List.mem_singleton.mp (show k ∈ [v] from hk)]
    exact hdone
  · rw [made_congr (t := (s.modCmd v cancelled).emit _) (s := s) hlen]
    show List.count k [v] + List.count k s.inFlight + _ = List.count k s.inFlight + List.count k [v] + _
    omega

/-- The victims of a flush (P288). -/
theorem cancelAll_tally (hd : Dispatches n dn) (ht : Tallies n dn) (vs : List Nat) {s : State} (h : s.Arbiter)
    (hnd : vs.Nodup) (hv : ∀ v ∈ vs, s.Held v) (hu : s.Unreused) (hw : pendingWork s ≤ n) :
    Tally vs s (cancelAll dn vs s) := by
  induction vs generalizing s with
  | nil => exact .refl hu
  | cons v vs ih =>
    rw [cancelAll_cons]
    obtain ⟨hvn, hnd⟩ := List.nodup_cons.mp hnd
    have hheld := hv v List.mem_cons_self
    have hother : ∀ k, k ≠ v → (s.modCmd v cancelled).cmd k = s.cmd k := fun k hk => modCmd_cmd_other _ _ _ _ hk
    have hmod : (s.modCmd v cancelled).Arbiter := h.congr_inFlight rfl rfl rfl (modCmd_length _ _ _).ge rfl
      fun k hk => hother k fun e => hheld.2.2 (e ▸ hk)
    have ha := (emit_nested (.callback v ((s.modCmd v cancelled).cmd v).result) hmod).arbiter
    obtain ⟨hcall, hle⟩ := callback_nested hd v hmod hw
    have hone : Tally [v] s (callback dn v (s.modCmd v cancelled)) :=
      (cancelled_tally hheld hu).andThen (hostCall_tally hd ht ha hu hw) ha
    have hrest : ∀ w ∈ vs, (callback dn v (s.modCmd v cancelled)).Held w := fun w hw => by
      obtain ⟨hl, hin, hfl⟩ := hv w (List.mem_cons_of_mem _ hw)
      have hsame := hother w fun e => hvn (e ▸ hw)
      exact (hcall.leaves.held w ⟨(modCmd_length v cancelled s).symm ▸ hl, by rw [hsame]; exact hin, hfl⟩).2
    exact hone.trans (ih hcall.arbiter hnd hrest hone.script (hle.trans hw)) hcall.arbiter fun w hw => (hrest w hw).2.1

/-- What is queued when a flush begins is held by it (P288). -/
theorem emptied_held {v : Nat} {s : State} (h : s.Arbiter) (hv : v ∈ s.queue) :
    State.Held v { s with queue := [] } := by
  refine ⟨h.owned.2 v (mem_inFlight.mpr (.inr hv)), (h.queued v hv).2.1, fun hm => ?_⟩
  exact h.current_not_queued ((mem_inFlight.mp hm).resolve_right nofun) hv

/-- The whole queue is cancelled (P288). -/
theorem flushed_tally (hd : Dispatches n dn) (ht : Tallies n dn) {s : State} (h : s.Arbiter) (hu : s.Unreused)
    (hw : pendingWork s ≤ n) : Tally [] s (cancelAll dn s.queue { s with queue := [] }) := by
  have hwork : pendingWork { s with queue := [] } ≤ pendingWork s := Nat.add_le_add_right (Nat.zero_le _) _
  have k := cancelAll_tally hd ht s.queue (emptied_arbiter h) (List.nodup_append.mp h.owned.1).2.1
    (fun _ => emptied_held h) hu (hwork.trans hw)
  obtain ⟨es, hes, hret, hcount⟩ := k.events
  refine ⟨k.script, k.length, fun x hl hx _ => k.others x hl (fun hm => ?_) fun hm => hx (mem_inFlight.mpr (.inr hm)),
    es, hes, hret, fun x => ?_⟩
  · exact hx (mem_inFlight.mpr (.inl ((mem_inFlight.mp hm).resolve_right nofun)))
  · have hx := hcount x
    change _ + List.count x (s.current.toList ++ []) + _ = _ + _ + s.made x at hx
    show _ + List.count x (s.current.toList ++ s.queue) + _ = _ + _ + s.made x
    rw [List.count_append] at hx ⊢
    rw [List.count_nil] at hx ⊢
    omega

theorem handleQueueFlush_tally (hd : Dispatches n dn) (ht : Tallies n dn) {id : Nat} {s : State} (h : s.Arbiter)
    (hc : s.current = some id) (hu : s.Unreused) (hw : pendingWork s ≤ n) : Tally [] s (handleQueueFlush dn s) := by
  have hwork : pendingWork { s with queue := [] } ≤ pendingWork s := Nat.add_le_add_right (Nat.zero_le _) _
  obtain ⟨ha, hc', -, -, hle⟩ := cancelAll_keeps hd s.queue (emptied_arbiter h) hc
    (List.nodup_append.mp h.owned.1).2.1 (fun _ => emptied_held h) (hwork.trans hw)
  have k := flushed_tally hd ht h hu hw
  exact k.andThen (complete_tally hd ht .noError ha hc' k.script (hle.trans (hwork.trans hw))) ha

/-! ## Handlers and dispatches -/

/-- Whatever a handler comes to keeps the count; a reset with the timer off (R180, R284, R288). -/
theorem ending_tally (hd : Dispatches n dn) (ht : Tallies n dn) (e : Ending) {id : Nat} (h : e.start.Arbiter)
    (hc : e.start.current = some id) (hoff : e.isReset = true → e.start.timer.armed = false) (hu : e.start.Unreused)
    (hw : pendingWork e.start ≤ n) : Tally [] e.start (e.run dn) := by
  cases e with
  | waits u => exact .refl hu
  | delivers res u => exact completeIO_tally hd ht res h hc hu hw
  | resets ev about res u =>
    obtain ⟨ha, -, hc', hle⟩ := notifyEvent_keeps hd ev about h hc (hoff rfl) hw
    have k := notifyEvent_tally hd ht ev about h (hoff rfl) hu hw
    exact k.andThen (complete_tally hd ht res ha hc' k.script (hle.trans hw)) ha
  | flushes u => exact handleQueueFlush_tally hd ht h hc hu hw

/-- An operation that comes to an ending keeps the count. -/
theorem EndsFrom.tally {reset : Bool} {f : (State → State) → State → State} {id : Nat} {s : State}
    (he : EndsFrom reset f s) (hd : Dispatches n dn) (ht : Tallies n dn) (h : s.Arbiter) (hc : s.current = some id)
    (hoff : reset = true → s.timer.armed = false) (hu : s.Unreused) (hw : pendingWork s ≤ n) :
    Tally [] s (f dn s) := by
  obtain ⟨e, hstart, hreset, hrun⟩ := he
  rw [hrun dn]
  have ha := hstart.arbiter h hc
  have k := hstart.tally hu
  refine k.andThen (ending_tally hd ht e ha (hstart.current.trans hc) (fun hr => ?_) k.script
    (hstart.pendingWork.trans_le hw)) ha
  obtain ⟨hyes, htimer⟩ := hreset hr
  rw [htimer]
  exact hoff hyes

/-- The head of the queue becomes current: it stays in flight (P170). -/
theorem headTaken_tally {id : Nat} {rest : List Nat} {s : State} (h : s.Arbiter) (hb : s.bus = .free)
    (hq : s.queue = id :: rest) (hu : s.Unreused) : Tally [] s (headTaken id rest s) := by
  have hinfl : s.inFlight = id :: rest := by
    unfold State.inFlight
    rw [h.free_current hb, hq]
    rfl
  exact .of_same hu (headTaken_length _ _ _) hinfl.symm
    (fun k hk => headTaken_cmd_other fun e => hk (hinfl ▸ e ▸ List.mem_cons_self)) ⟨[], rfl, rfl⟩

theorem dispatchStep_tallies (hd : Dispatches n dn) (ht : Tallies n dn) : Tallies (n + 1) (dispatchStep dn) := by
  intro s h hu hw
  by_cases hcan : canDispatch s = true
  case neg =>
    rw [dispatchStep_blocked hcan]
    exact .refl hu
  cases hq : s.queue with
  | nil =>
    rw [dispatchStep_nil hcan hq]
    exact .refl hu
  | cons id rest =>
    have hb := canDispatch_free hcan
    have hwork := pendingWork_headTaken hq
    have hdisp := headTaken_dispatched h hb hq
    have k := headTaken_tally h hb hq hu
    rw [dispatchStep_cons hcan hq]
    exact k.andThen ((runHandler_ends _).tally hd ht hdisp.arbiter hdisp.current (fun _ => hdisp.idle) k.script
      (by omega)) hdisp.arbiter

end Nested

theorem dispatchN_tallies (n : Nat) : Tallies n (dispatchN n) := by
  induction n with
  | zero => exact fun s _ hu _ => .refl hu
  | succ n ih => exact dispatchStep_tallies (dispatchN_dispatches n) ih

theorem dispatchNext_tallies (n : Nat) : Tallies n dispatchNext := fun s h hu _ =>
  dispatchN_tallies (pendingWork s) s h hu le_rfl

/-! ## SCAN calls no host code -/

/-- From `s` to `t` the trace gained no call of host code. -/
def NoHostCall (s t : State) : Prop := ∃ es, t.traceRev = es ++ s.traceRev ∧ ∀ e ∈ es, e.isHostCall = false

theorem NoHostCall.trans {a b c : State} (h : NoHostCall a b) (k : NoHostCall b c) : NoHostCall a c := by
  obtain ⟨es, hes, hno⟩ := h
  obtain ⟨fs, hfs, kno⟩ := k
  exact ⟨fs ++ es, by rw [hfs, hes, List.append_assoc], fun e he => (List.mem_append.mp he).elim (kno e) (hno e)⟩

theorem NoHostCall.setType {s t : State} (h : NoHostCall s t) (u : UnitId) (ty : DevType) :
    NoHostCall s (setType u ty t) := by
  obtain ⟨es, hes, hno⟩ := h
  exact ⟨es, (setDevInfo_traceRev u _ t).trans hes, hno⟩

theorem atapiSlaveExists_noHostCall (s : State) : NoHostCall s (atapiSlaveExists s).2 := by
  have h := ((writeControl_handled ctlNIen s).trans (wr8_handled .statcmd Config.cmdIdentifyPacket _)).trans
    (pollStatus_handled okNotBusy noAbort s.params.nProbe _)
  unfold atapiSlaveExists
  dsimp only
  split
  · exact (h.trans (readWords_handled _ _)).trace
  · exact h.trace

theorem readSignature_noHostCall (s : State) : NoHostCall s (readSignature s).2 :=
  (((((rd8_handled .cyllo s).trans (rd8_handled .cylhi _)).trans (rd8_handled .scnt _)).trans
    (rd8_handled .snum _)).trans (rd8_handled .altctl _)).trace

theorem classify_noHostCall (u : UnitId) (s : State) : NoHostCall s (classify u s).2 := by
  have h := readSignature_noHostCall s
  unfold classify
  dsimp only
  split
  · split
    · have hprobe := h.trans (atapiSlaveExists_noHostCall _)
      split
      · exact hprobe.setType _ _
      · exact hprobe.setType _ _
    · exact h.setType _ _
  split
  · exact h.setType _ _
  · exact h.setType _ _

theorem scanSelect_noHostCall (u : UnitId) (s : State) : NoHostCall s (scanSelect u s).state :=
  ((wr8_handled .devhead u.selectValue s).trans (pollStatus_handled okNotBusy noAbort s.params.nScan _)).trace

theorem scanUnits_noHostCall (s : State) : NoHostCall s (scanUnits s).2 := by
  have h0 := scanSelect_noHostCall .u0 s
  unfold scanUnits scanUnit1
  dsimp only
  split
  · have h1 := (h0.trans (classify_noHostCall .u0 _)).trans (scanSelect_noHostCall .u1 _)
    split
    · exact h1.trans (classify_noHostCall _ _)
    · exact h1.setType _ _
  · exact (h0.setType _ _).setType _ _

theorem scanForDrives_noHostCall (s : State) : NoHostCall s (scanForDrives s).2 := by
  have h := (pollStatus_handled okNotBusy noAbort s.params.nScan s).trace
  have hend : ∀ t, NoHostCall t { wr8 .devhead UnitId.u0.selectValue t with selected := none } := fun t =>
    (wr8_handled .devhead UnitId.u0.selectValue t).trace
  unfold scanForDrives
  dsimp only
  split
  · exact (NoHostCall.trans h (scanUnits_noHostCall _)).trans (hend _)
  · exact NoHostCall.trans h (hend _)

/-! ## The actions -/

theorem Tally.ret {o : List Nat} {s t : State} (h : Tally o s t) (r : Return) : Tally o s { t with ret := r } :=
  ⟨h.script, h.length, h.others, h.events⟩

/-- SCAN and CONFIG leave the commands alone. -/
theorem Surveyed.tally {s t : State} (h : Surveyed s t) (ht : NoHostCall s t) (hu : s.Unreused) : Tally [] s t := by
  obtain ⟨es, hes, hno⟩ := ht
  have hf : t.inFlight = s.inFlight := by
    unfold State.inFlight
    rw [h.current, h.queue]
  exact .of_same (fun hs hm => hu hs (h.host ▸ hm)) h.length hf
    (fun k hk => h.others k fun e => hk (mem_inFlight.mpr (.inl e))) ⟨es, hes, callbacks_eq_nil hno⟩

theorem irqEntry_tally {s : State} (h : s.Quiescent) (hu : s.Unreused) : Tally [] s (irqEntry s) := by
  have hread := rd8_handled .statcmd s
  by_cases hr : irqRuns s = true
  · obtain ⟨id, hc, he⟩ := irqEntry_runs hr
    have ha := hread.arbiter h.arbiter hc
    have k := hread.tally hu
    rw [he]
    exact k.andThen ((asyncIO_ends _).tally (dispatchNext_dispatches _) (dispatchNext_tallies _) ha hc nofun k.script
      le_rfl) ha
  · rcases irqEntry_idle (Bool.not_eq_true _ ▸ hr) with he | he <;> rw [he]
    · exact .refl hu
    · exact hread.tally hu

/-- A change of the current record. -/
theorem modCmd_tally {id : Nat} (f : Command → Command) {s : State} (hc : s.current = some id) (hu : s.Unreused) :
    Tally [] s (s.modCmd id f) :=
  .of_same hu (modCmd_length _ _ _) rfl
    (fun k hk => modCmd_cmd_other id k f s fun e => hk (mem_inFlight.mpr (.inl (e ▸ hc)))) ⟨[], rfl, rfl⟩

/-- A timeout delivers the current command (P338). -/
theorem handleTimeout_tally {n : Nat} {dn : State → State} (hd : Dispatches n dn) (ht : Tallies n dn) {id : Nat}
    {s : State} (h : s.Arbiter) (hc : s.current = some id) (hu : s.Unreused) (hw : pendingWork s ≤ n) :
    Tally [] s (handleTimeout dn s) := by
  have hstop : Handled s (if (s.cmd id).flags.dma then stopDma s else s) := by
    split
    · exact stopDma_handled s
    · exact .refl s
  unfold handleTimeout
  rw [hc]
  dsimp only
  generalize (if (s.cmd id).flags.dma then stopDma s else s) = s1 at hstop
  have h1 := hstop.arbiter h hc
  have hc1 := hstop.current.trans hc
  obtain ⟨h2, -⟩ := h1.modCmd_current (f := fun c => { c with result := .timeout }) hc1 (h1.inUse id hc1)
    (h1.counts id (mem_inFlight.mpr (.inl hc1)))
  have hph := statusPhase_handled .timeout (s1.modCmd id (fun c => { c with result := .timeout }))
  have h3 := hph.arbiter h2 hc1
  have k1 := hstop.tally hu
  have k2 := k1.andThen (modCmd_tally (fun c => { c with result := .timeout }) hc1 k1.script) h1
  have k3 := k2.andThen (hph.tally k2.script) h2
  exact k3.andThen (completeIO_tally hd ht .timeout h3 (hph.current.trans hc1) k3.script
    (hph.pendingWork.trans_le (hstop.pendingWork.trans_le hw))) h3

theorem expireEntry_tally {s : State} (h : s.Quiescent) (he : expireEnabled s = true) (hu : s.Unreused) :
    Tally [] s (expireEntry s) := by
  have harmed : s.timer.armed = true := (Bool.and_eq_true _ _ ▸ he).1
  obtain ⟨id, hc⟩ := Option.isSome_iff_exists.mp (h.armed.mp harmed)
  have ha : State.Arbiter { s with timer := { s.timer with armed := false } } :=
    h.arbiter.congr rfl rfl rfl le_rfl (fun _ => rfl) (fun _ _ => rfl)
      (fun k hk => ⟨h.arbiter.inUse k hk, h.counts k (mem_inFlight.mpr (.inl hk))⟩)
  have hoff : Tally [] s { s with timer := { s.timer with armed := false } } :=
    .of_same hu rfl rfl (fun _ _ => rfl) ⟨[], rfl, rfl⟩
  exact hoff.andThen (handleTimeout_tally (dispatchNext_dispatches _) (dispatchNext_tallies _) ha hc hu le_rfl) ha

/-- SUBMIT of a stored record that answers: the record is ready, and is submitted (P160). -/
theorem exec_submit_next {r : Word} {s t : State} (h : exec (.submit (some r) true) s = .next t) :
    s.Ready r.toNat ∧ t = { submitRef dispatchNext r.toNat s with ret := .status .noError } := by
  have hexec : exec (.submit (some r) true) s = submitRecord r.toNat s := rfl
  obtain ⟨hb, ho, -⟩ := guarded_eq_next.mp (hexec ▸ h)
  split at ho
  · cases ho
  next hl =>
  split at ho
  · cases ho
  next hu =>
  split at ho
  · next ha =>
    obtain ⟨hn, hacc⟩ := Bool.and_eq_true _ _ ▸ ha
    cases ho
    exact ⟨ready_of_accepted (Nat.not_le.mp hl) (by simpa using hu) hn hacc, rfl⟩
  · cases ho

/-- The stored record that an instruction submits. -/
def namedRecord : Instr → List Nat
  | .submit (some r) true => [r.toNat]
  | _ => []

theorem mem_namedRecord {i : Instr} {id : Nat} :
    id ∈ namedRecord i ↔ ∃ r, i = .submit (some r) true ∧ id = r.toNat := by
  unfold namedRecord
  split
  · next r => simp
  · next hno =>
    refine ⟨nofun, fun ⟨r, hr, _⟩ => absurd hr (hno r)⟩

/-- Every action keeps the count, the record that a SUBMIT names owed. -/
theorem exec_tally {i : Instr} {s t : State} (h : s.Quiescent) (hu : s.Unreused) (ht : exec i s = .next t) :
    Tally (namedRecord i) s t ∧ ∀ id ∈ namedRecord i, id < s.cmds.length ∧ id ∉ s.inFlight := by
  by_cases hsub : ∃ r, i = .submit (some r) true
  · obtain ⟨r, rfl⟩ := hsub
    obtain ⟨hr, rfl⟩ := exec_submit_next ht
    refine ⟨(submitRef_tally (dispatchNext_tallies _) h.arbiter hr hu le_rfl).ret _, fun id hid => ?_⟩
    rw [List.mem_singleton.mp hid]
    exact ⟨hr.stored, h.arbiter.not_mem_inFlight hr.unused⟩
  have hnone : namedRecord i = [] := List.eq_nil_iff_forall_not_mem.mpr fun id hid =>
    hsub ((mem_namedRecord.mp hid).imp fun r hr => hr.1)
  rw [hnone]
  refine ⟨?_, nofun⟩
  cases exec_answers ht with
  | row hi hb ha hbr => exact (submitNew_tally (dispatchNext_tallies _) h.arbiter (accepts_legal ha) hu le_rfl).ret _
  | submitNull => exact (Tally.refl hu).ret _
  | submitStored => exact absurd ⟨_, rfl⟩ hsub
  | irqRuns => exact (irqEntry_tally h hu).ret _
  | irqIdle => exact (irqEntry_tally h hu).ret _
  | expire he hb hbr => exact (expireEntry_tally h he hu).ret _
  | scan => exact ((scanForDrives_surveyed s).tally (scanForDrives_noHostCall s) hu).ret _
  | config m _ hunit => exact ((setDevInfo_surveyed _ _ s).tally ⟨[], setDevInfo_traceRev _ _ _, nofun⟩ hu).ret _

/-- What the count says of one record: it got at most one callback; it got one only if it was in flight, owed or is
new; and such a record got one or is in flight. -/
theorem Tally.spec {owed : List Nat} {s t : State} {es : List Event} {id : Nat} (hs : s.OwnedOnce)
    (hl : s.cmds.length ≤ t.cmds.length) (hnd : owed.Nodup) (ho : ∀ k ∈ owed, k < s.cmds.length ∧ k ∉ s.inFlight)
    (h : owed.count id + s.inFlight.count id + t.made id
      = t.inFlight.count id + (callbacks es).count id + s.made id) :
    (callbacks es).count id ≤ 1
      ∧ (id ∈ callbacks es → id ∈ s.inFlight ∨ s.cmds.length ≤ id ∨ id ∈ owed)
      ∧ (id ∈ s.inFlight ∨ (s.cmds.length ≤ id ∧ id < t.cmds.length) ∨ id ∈ owed →
          id ∈ t.inFlight ∨ id ∈ callbacks es) := by
  have hflight := List.nodup_iff_count_le_one.mp hs.1 id
  have howed := List.nodup_iff_count_le_one.mp hnd id
  have hone : id ∈ owed → s.inFlight.count id = 0 := fun hm => List.count_eq_zero.mpr (ho id hm).2
  simp only [← List.count_pos_iff] at *
  by_cases hold : id < s.cmds.length
  · rw [made_stored hold, made_stored (hold.trans_le hl)] at h
    refine ⟨?_, fun _ => ?_, fun hsome => ?_⟩
    · by_cases hm : 0 < owed.count id
      · have := hone hm
        omega
      · omega
    · omega
    · omega
  · have hout : s.inFlight.count id = 0 := List.count_eq_zero.mpr fun hm => hold (hs.2 id hm)
    have hout' : owed.count id = 0 := List.count_eq_zero.mpr fun hm => hold (ho id (List.count_pos_iff.mpr hm)).1
    have hmade : s.made id = 0 := if_neg hold
    have hle := made_le id t
    refine ⟨by omega, fun _ => .inr (.inl (Nat.not_lt.mp hold)), fun hsome => ?_⟩
    have hnew : id < t.cmds.length := by omega
    rw [made_stored hnew] at h
    omega

end Sys2Proof.Machine

namespace Sys2Proof.Proofs

open Sys2Proof.Machine

/-- Settles O58: every action keeps the count of the places in flight and the callbacks (`exec_tally`), and between
actions every record is in flight at most once. -/
theorem eachCommandOnce : Obligations.EachCommandOnce := by
  intro i s t hs hu ht
  have htq := answers_quiescent (exec_answers ht) hs
  obtain ⟨k, hsub⟩ := exec_tally hs hu ht
  obtain ⟨es, hes, hret, hcount⟩ := k.events
  have hnd : (namedRecord i).Nodup := by
    unfold namedRecord
    split
    · exact List.nodup_singleton _
    · exact List.nodup_nil
  have hspec := fun id => Tally.spec hs.owned k.length hnd hsub (hcount id)
  refine ⟨es, hes, List.nodup_iff_count_le_one.mpr fun id => (hspec id).1, fun id hid => ?_, fun id hid => ?_⟩
  · obtain ⟨-, hunused, -⟩ := hret id hid
    refine ⟨hunused, htq.arbiter.not_mem_inFlight hunused, ?_⟩
    rw [← mem_namedRecord]
    exact (hspec id).2.1 hid
  · rw [← mem_namedRecord] at hid
    exact (hspec id).2.2 hid

end Sys2Proof.Proofs
end

section
/-! What SUBMIT of a stored record comes to on an idle engine (O14), from the count of the commands. -/

namespace Sys2Proof.Machine

theorem State.Idle.arbiter {s : State} (h : s.Idle) : s.Arbiter := by
  have hnone : s.inFlight = [] := by
    unfold State.inFlight
    rw [h.current, h.queue]
    rfl
  refine ⟨by simp [State.BusMatchesCurrent, h.bus, h.current], by simp [State.OwnedOnce, hnone], by simp [h.queue],
    by simp [h.current], by simp [hnone], by simp [State.ImmediateFirst, h.queue], fun _ => h.armed⟩

theorem State.Idle.unreused {s : State} (h : s.Idle) : s.Unreused := by
  unfold State.Unreused
  rw [h.host]
  nofun

/-- With a silent host a submission of a stored record makes no record (R89). -/
theorem submitRef_length {id : Nat} {s : State} (h : s.Arbiter) (hr : s.Ready id) (hu : s.Unreused)
    (hh : s.host = []) : (submitRef dispatchNext id s).cmds.length = s.cmds.length := by
  have hge := (submitRef_tally (dispatchNext_tallies _) h hr hu le_rfl).length
  have hle := (dispatchNext_spends (queuedUp id s)).records
  have hnone : (queuedUp id s).scripted = 0 := by
    unfold State.scripted queuedUp
    rw [enqueue_host]
    exact congrArg (fun l => (List.map List.length l).sum) hh
  rw [queuedUp_length, hnone, ← submitRef_eq dispatchNext id s] at hle
  omega

/-- The one command of an idle engine is in flight or was called back, once (R183). -/
theorem submitRef_accounted {id : Nat} {s : State} (h : s.Idle) (hr : s.Ready id) :
    ∃ es, (submitRef dispatchNext id s).traceRev = es ++ s.traceRev
      ∧ (submitRef dispatchNext id s).inFlight ++ callbacks es = [id]
      ∧ ∀ k ∈ callbacks es, (submitRef dispatchNext id s).Retired k := by
  obtain ⟨es, hes, hret, hcount⟩ := (submitRef_tally (dispatchNext_tallies _) h.arbiter hr h.unreused le_rfl).events
  refine ⟨es, hes, List.perm_singleton.mp (List.perm_iff_count.mpr fun k => ?_), hret⟩
  have hk := hcount k
  have hnone : s.inFlight = [] := by
    unfold State.inFlight
    rw [h.current, h.queue]
    rfl
  rw [made_congr (submitRef_length h.arbiter hr h.unreused h.host), hnone, List.count_nil] at hk
  rw [List.count_append]
  omega

/-- What the handling of the one command of an idle engine leaves as it was. -/
theorem submitRef_sameBut {id : Nat} {s : State} (h : s.Idle) (hr : s.Ready id) :
    s.SameBut id (submitRef dispatchNext id s) := by
  obtain ⟨hn, -, -⟩ := submitRef_nested (dispatchNext_dispatches _) h.arbiter hr le_rfl
  have hacted := submitRef_acted dispatchNext_acted id s
  have hspends := dispatchNext_spends (queuedUp id s)
  obtain ⟨hhost, hbreach⟩ := submitRef_noBreach id s h.host
  have k := submitRef_tally (dispatchNext_tallies _) h.arbiter hr h.unreused le_rfl
  rw [← submitRef_eq dispatchNext id s] at hspends
  refine ⟨hn.leaves.qstate, hn.leaves.igate, hn.leaves.snap, hacted.devInfo0, hacted.devInfo1,
    hspends.params.trans (enqueue_params _ _), (submitRef_heard dispatchNext_heard id s).bufs, hhost.trans h.host.symm,
    hbreach, hspends.inbox.trans (enqueue_inbox _ _), fun x hx hl => k.others x hl ?_ (by simpa using hx)⟩
  simp [State.inFlight, h.current, h.queue]

theorem callbacks_reverse (es : List Event) : callbacks es.reverse = (callbacks es).reverse :=
  List.filterMap_reverse

/-- SUBMIT of a ready record on an idle engine: delivered, or in progress as the one command (P160, R170, R335). -/
theorem submitRef_settles {id : Nat} {s : State} (h : s.Idle) (hr : s.Ready id) :
    ∃ es, (submitRef dispatchNext id s).trace = s.trace ++ es
      ∧ (((submitRef dispatchNext id s).Waiting id ∧ callbacks es = []
            ∧ ((submitRef dispatchNext id s).cmd id).inUse = true)
          ∨ ((submitRef dispatchNext id s).Finished ∧ callbacks es = [id]
            ∧ ((submitRef dispatchNext id s).cmd id).inUse = false
            ∧ ((submitRef dispatchNext id s).cmd id).state = phDone)) := by
  obtain ⟨hn, hdr, -⟩ := submitRef_nested (dispatchNext_dispatches _) h.arbiter hr le_rfl
  obtain ⟨es, hes, hone, hret⟩ := submitRef_accounted h hr
  refine ⟨es.reverse, by simp [State.trace, hes], ?_⟩
  rw [callbacks_reverse]
  generalize submitRef dispatchNext id s = t at *
  unfold State.inFlight at hone
  rcases hn.free h.bus with hfree | hprog
  · have hcur := hn.arbiter.free_current hfree
    have hqueue := hdr hfree (hn.leaves.qstate.trans h.qstate)
    rw [hcur, hqueue] at hone
    have hcalled : callbacks es = [id] := hone
    obtain ⟨-, hunused, hdone⟩ := hret id (hcalled ▸ List.mem_singleton_self id)
    exact .inr ⟨⟨hfree, hcur, hqueue, hn.arbiter.idle hfree⟩, by rw [hcalled]; rfl, hunused, hdone⟩
  · obtain ⟨x, hcur⟩ := Option.isSome_iff_exists.mp (hn.arbiter.bus.mp hprog.bus)
    rw [hcur] at hone
    obtain ⟨rfl, hrest⟩ := List.cons.inj hone
    obtain ⟨hqueue, hnone⟩ := List.append_eq_nil_iff.mp hrest
    exact .inl ⟨⟨hprog.bus, hcur, hqueue, hprog.armed⟩, by rw [hnone]; rfl, hn.arbiter.inUse _ hcur⟩

end Sys2Proof.Machine

namespace Sys2Proof.Proofs

open Sys2Proof.Machine

/-- Settles O14: the one command is in flight or was called back (`submitRef_accounted`), and in flight it waits. -/
theorem submitRecordSettles : Obligations.SubmitRecordSettles := by
  intro s r h hl hu hn ha
  have hr := ready_of_accepted hl hu hn ha
  have hsame := submitRef_sameBut h hr
  obtain ⟨es, htrace, hsettled⟩ := submitRef_settles h hr
  have hexec : exec (.submit (some r) true) s
      = guarded s (.next { submitRef dispatchNext r.toNat s with ret := .status .noError }) := by
    show submitRecord r.toNat s = _
    rw [submitRecord, if_neg (Nat.not_le.mpr hl), hu, hn, ha]
    rfl
  have hnone : (submitRef dispatchNext r.toNat s).breach = none := hsame.breach.trans h.breach
  have hnext := guarded_next (t := { submitRef dispatchNext r.toNat s with ret := .status .noError })
    (hostBreach_quiet h.breach h.current h.queue) hnone
  refine ⟨_, es, hexec.trans hnext, rfl, ?_, submitRef_length h.arbiter hr h.unreused h.host, htrace, ?_⟩
  · obtain ⟨h1, h2, h3, h4, h5, h6, h7, h8, h9, h10, h11⟩ := hsame
    exact ⟨h1, h2, h3, h4, h5, h6, h7, h8, h9, h10, h11⟩
  · rcases hsettled with ⟨⟨hbus, hcur, hqueue, harmed⟩, hcalled, huse⟩
      | ⟨⟨hbus, hcur, hqueue, hoff⟩, hcalled, hdone⟩
    · exact .inl ⟨⟨hbus, hcur, hqueue, harmed⟩, hcalled, huse⟩
    · exact .inr ⟨⟨hbus, hcur, hqueue, hoff⟩, hcalled, hdone⟩

end Sys2Proof.Proofs
end

section
/-! A synchronous ExecIO from its submission to its delivery in the same action (O22): what its selection leaves, and
which bytes of memory its passes may change. -/

namespace Sys2Proof.Machine

/-! ## What the work for a command moves -/

/-- From `s` to `t` there was work for the current command: it moved `n` bytes on, and of the memory it changed at
most those bytes of its buffer; none if it is no PIO read (R309, R314, entry 20). -/
structure Filled (s t : State) : Prop where
  handled : Handled s t
  moved   : ∃ n, t.cur.position.toNat = s.cur.position.toNat + n ∧ t.cur.actual.toNat = s.cur.actual.toNat + n
    ∧ (s.StoresWf → ∀ a, (a < Memory.addr s.cur.buf s.cur.position.toNat
        ∨ Memory.addr s.cur.buf s.cur.position.toNat + n ≤ a) → Memory.get t.mem a = Memory.get s.mem a)
  still   : (s.cur.flags.rd && !s.cur.flags.dma) = false → t.mem = s.mem

/-- Work that moves no data. -/
theorem Filled.of_mem {s t : State} (h : Handled s t) (hm : t.mem = s.mem) (hp : t.cur.position = s.cur.position)
    (ha : t.cur.actual = s.cur.actual) : Filled s t :=
  ⟨h, ⟨0, by rw [hp]; rfl, by rw [ha]; rfl, fun _ _ _ => by rw [hm]⟩, fun _ => hm⟩

/-- Work that writes neither memory nor a record. -/
theorem Filled.of_cmds {s t : State} (h : Handled s t) (hm : t.mem = s.mem) (hc : t.cmds = s.cmds) : Filled s t :=
  .of_mem h hm (by rw [h.cur_eq hc]) (by rw [h.cur_eq hc])

theorem Filled.refl (s : State) : Filled s s := .of_cmds (.refl s) rfl rfl

theorem Filled.trans {s t u : State} (h : Filled s t) (k : Filled t u) : Filled s u := by
  obtain ⟨n, hpos, hact, hmem⟩ := h.moved
  obtain ⟨m, kpos, kact, kmem⟩ := k.moved
  have ho := h.handled.cur_order
  refine ⟨h.handled.trans k.handled, ⟨n + m, by omega, by omega, fun w a ha => ?_⟩, fun hs => ?_⟩
  · have haddr := Memory.addr_add s.cur.buf s.cur.position.toNat n
    have hb := kmem (h.handled.stores w) a
    rw [ho.buf, hpos] at hb
    exact (hb (by omega)).trans (hmem w a (by omega))
  · exact (k.still (by rw [ho.flags]; exact hs)).trans (h.still hs)

/-- Exact work that leaves the counts alone. -/
theorem Works.filled {id : Nat} {es : List Event} {c c' : Command} {s t : State} (w : Works id es c' s t)
    (h : s.Serving id c) (hh : Handled s t) (hp : c'.position = c.position) (ha : c'.actual = c.actual) :
    Filled s t := by
  refine .of_mem hh ?_ (by rw [(w.serving h).cur, h.cur, hp]) (by rw [(w.serving h).cur, h.cur, ha])
  obtain ⟨e, rfl⟩ := w
  rfl

/-- The current command of a live engine is served. -/
theorem State.Live.serving {s : State} (h : s.Live) : ∃ id, s.Serving id s.cur := by
  obtain ⟨id, hc, hl⟩ := h
  exact ⟨id, hc, hl, (cur_some id s hc).symm⟩

theorem setPhase_filled (ph : Byte) {s : State} (h : s.Live) : Filled s (setPhase ph s) := by
  obtain ⟨id, hs⟩ := h.serving
  exact ((Works.refl hs).modCur hs (fun c => { c with state := ph })).filled hs (setPhase_handled ph s) rfl rfl

theorem statusPhase_filled (x : Result) {s : State} (h : s.Live) : Filled s (statusPhase x s).2 := by
  obtain ⟨id, hs⟩ := h.serving
  obtain ⟨er, v, w, -⟩ := statusPhase_works x hs
  exact w.filled hs (statusPhase_handled x s) rfl rfl

/-! ## Waits and phases without data -/

theorem pollStatus_mem (ok : Byte → Bool) (abort : Byte → State → Option Result) (n : Nat) (s : State) :
    (pollStatus ok abort n s).state.mem = s.mem := by
  induction n generalizing s with
  | zero =>
    unfold pollStatus
    dsimp only
    split
    · rfl
    · split <;> rfl
  | succ n ih =>
    unfold pollStatus
    dsimp only
    split
    · rfl
    split
    · rfl
    · rw [ih]; rfl

theorem pollStatus_filled (ok : Byte → Bool) (abort : Byte → State → Option Result) (n : Nat) (s : State) :
    Filled s (pollStatus ok abort n s).state :=
  .of_cmds (pollStatus_handled ok abort n s) (pollStatus_mem ok abort n s) (pollStatus_cmds ok abort n s)

theorem syncWaitN_cmds (n : Nat) (s : State) : (syncWaitN n s).2.cmds = s.cmds := by
  induction n generalizing s with
  | zero => rfl
  | succ n ih =>
    unfold syncWaitN
    split
    · rfl
    · dsimp only
      split
      · rw [ih]; rfl
      · rfl

theorem syncWaitN_filled (n : Nat) (s : State) : Filled s (syncWaitN n s).2 := by
  induction n generalizing s with
  | zero => exact .refl s
  | succ n ih =>
    have h : Filled s (rd8 .altctl (sleep s.params.tPoll s)).2 :=
      .of_cmds ((sleep_handled _ s).trans (rd8_handled .altctl _)) rfl rfl
    unfold syncWaitN
    split
    · exact .refl s
    · dsimp only
      split
      · exact h.trans (ih _)
      · exact h

theorem startDmaIf_filled (b : Bool) (s : State) : Filled s (if b then startDma s else (Result.noError, s)).2 := by
  split
  · exact .of_cmds (startDma_handled s) rfl rfl
  · exact .refl s

theorem issueTaskfile_filled (s : State) : Filled s (issueTaskfile s) := by
  refine .of_cmds (issueTaskfile_handled s) ?_ ?_ <;> rw [issueTaskfile_logs] <;> rfl

theorem startedPhase_filled {s : State} (h : s.Live) : Filled s (startedPhase s).2 := by
  have hdma := startDmaIf_filled (s.cur.flags.dma && !hasPacket s.cur) s
  unfold startedPhase
  dsimp only
  generalize (if s.cur.flags.dma && !hasPacket s.cur then startDma s else (.noError, s)) = r at hdma
  split
  · have hissue := hdma.trans (issueTaskfile_filled r.2)
    exact hissue.trans (setPhase_filled _ (hissue.handled.live h))
  · exact hdma

theorem sendPacket_filled {s : State} (h : s.Live) : Filled s (sendPacket s).2 := by
  have hwords : Filled s (writeWords (packetWords s.cur) s) :=
    .of_cmds (writeWords_handled _ s) (by rw [writeWords_logs]; rfl) (writeWords_cmds _ s)
  have hdma := hwords.trans (startDmaIf_filled s.cur.flags.dma (writeWords (packetWords s.cur) s))
  unfold sendPacket
  dsimp only
  generalize (if s.cur.flags.dma then startDma (writeWords (packetWords s.cur) s)
    else (.noError, writeWords (packetWords s.cur) s)) = r at hdma
  split
  · exact hdma.trans (setPhase_filled _ (hdma.handled.live h))
  · exact hdma

theorem packetStep_filled {s : State} (h : s.Live) : Filled s (packetStep s).2 := by
  have hpoll := pollStatus_filled okData abortData s.params.nPkt s
  have hphase : Filled s (packetPhase s).2 := by
    unfold packetPhase
    dsimp only
    split
    · exact hpoll.trans (sendPacket_filled (hpoll.handled.live h))
    · exact hpoll
  unfold packetStep
  dsimp only
  split
  · exact hphase
  · exact hphase.trans (statusPhase_filled _ (hphase.handled.live h))

/-! ## Passes -/

/-- The count after a slice that fits what remains does not wrap. -/
theorem advanced_actual {n : Nat} {c : Command} (hn : n ≤ remaining c) (h : countsWf c) :
    (c.advanced n).actual.toNat = c.actual.toNat + n := by
  obtain ⟨hact, -⟩ := h
  have hb := c.byteCount.isLt
  unfold remaining at hn
  simp only [Command.advanced, BitVec.toNat_add, BitVec.toNat_ofNat]
  rw [Nat.mod_eq_of_lt (a := n) (by omega), Nat.mod_eq_of_lt (by omega)]

theorem moveSlices_filled {s : State} (n : Nat) (h : s.Live) (hw : countsWf s.cur) (hn : n ≤ remaining s.cur)
    (hpio : s.cur.flags.rd = true → s.cur.flags.dma = false) :
    Filled s (moveSlices (n / Config.dbufBytes + 1) n s) := by
  obtain ⟨id, hs⟩ := h.serving
  have hh := moveSlices_handled (n / Config.dbufBytes + 1) n s hn
  have hcounts : ∀ {t : State}, t.cur = s.cur.advanced n →
      t.cur.position.toNat = s.cur.position.toNat + n ∧ t.cur.actual.toNat = s.cur.actual.toNat + n := by
    rintro t ht
    rw [ht]
    exact ⟨advanced_position hn hw, advanced_actual hn hw⟩
  by_cases hrd : s.cur.flags.rd = true
  · obtain ⟨bs, hbs, w⟩ := moveSlices_read _ n hs hrd hw hn (passFuel n)
    obtain ⟨hpos, hact⟩ := hcounts (w.serving hs).cur
    refine ⟨hh, ⟨n, hpos, hact, fun hwf a ha => ?_⟩, fun hstill => ?_⟩
    · rw [w.mem_eq]
      exact Memory.get_setBytes_outside hwf.1 (hbs.symm ▸ ha)
    · rw [hrd, hpio hrd] at hstill
      cases hstill
  · have w := moveSlices_write _ n hs (Bool.not_eq_true _ ▸ hrd) hw hn (passFuel n)
    obtain ⟨hpos, hact⟩ := hcounts (w.serving hs).cur
    exact ⟨hh, ⟨n, hpos, hact, fun _ _ _ => by rw [w.mem_eq]⟩, fun _ => w.mem_eq⟩

theorem settleOverrun_filled (m : Nat) {s : State} (h : s.Live) : Filled s (settleOverrun m s) := by
  obtain ⟨id, hs⟩ := h.serving
  have hh := settleOverrun_handled m s
  by_cases hrd : s.cur.flags.rd = true
  · obtain ⟨bs, -, w⟩ := settleOverrun_read hs hrd m
    exact w.filled hs hh rfl rfl
  · exact (settleOverrun_write hs (Bool.not_eq_true _ ▸ hrd) m).filled hs hh rfl rfl

theorem passCount_filled (s : State) : Filled s (passCount s).2 := by
  refine .of_cmds (passCount_handled s) ?_ (passCount_cmds s)
  unfold passCount
  split <;> rfl

/-- The data of a pass (P300). -/
theorem passData_filled {s : State} (h : s.Live) (hw : countsWf s.cur)
    (hpio : s.cur.flags.rd = true → s.cur.flags.dma = false) : Filled s (passData s) := by
  have hcount := passCount_filled s
  have hcur := hcount.handled.cur_eq (passCount_cmds s)
  have hslices := hcount.trans (moveSlices_filled (passCount s).1.1 (hcount.handled.live h) (by rwa [hcur])
    (by rw [hcur]; exact passCount_le s) (by rwa [hcur]))
  have hover := hslices.trans (settleOverrun_filled (passCount s).1.2 (hslices.handled.live h))
  unfold passData endPass
  dsimp only
  split
  · exact hover.trans (setPhase_filled _ (hover.handled.live h))
  · exact hover

theorem isPIOData_dma {c : Command} (h : isPIOData c = true) : c.flags.dma = false := by
  unfold isPIOData at h
  simp_all

/-- A pass of a PIO command with data (P300). -/
theorem pioPass_filled {s : State} (h : s.Live) (hw : countsWf s.cur) (hpio : isPIOData s.cur = true) :
    Filled s (pioPass s).2 := by
  have hpoll := pollStatus_filled okData abortData (deadlineSleeps s) s
  have hcur := hpoll.handled.cur_eq (pollStatus_cmds _ _ _ _)
  unfold pioPass
  split
  · exact setPhase_filled _ h
  dsimp only
  split
  · exact hpoll.trans (passData_filled (hpoll.handled.live h) (by rwa [hcur])
      (by rw [hcur]; exact fun _ => isPIOData_dma hpio))
  · exact hpoll

theorem dataStep_filled {s : State} (h : s.Live) (hw : countsWf s.cur) (hpio : isPIOData s.cur = true) :
    Filled s (dataStep s).2 := by
  have hpass := pioPass_filled h hw hpio
  unfold dataStep
  dsimp only
  split
  · exact hpass.trans (statusPhase_filled _ (hpass.handled.live h))
  split
  · exact hpass
  split
  · exact hpass
  · exact hpass.trans (statusPhase_filled _ (hpass.handled.live h))

/-! ## The steps and the loop -/

theorem startedStep_filled {s : State} (h : s.Live) (hw : countsWf s.cur) : Filled s (startedStep s).2 := by
  have hstart := startedPhase_filled h
  have hlive := hstart.handled.live h
  unfold startedStep
  dsimp only
  split
  · exact hstart.trans (statusPhase_filled _ hlive)
  next hr =>
  have hphase := startedPhase_phaseWf h (not_not.mp hr)
  split
  · exact hstart.trans (packetStep_filled hlive)
  split
  · next hd =>
    rw [Bool.and_eq_true, decide_eq_true_eq] at hd
    exact hstart.trans (dataStep_filled hlive (hstart.handled.cur_order.counts hw) (hphase.2 hd.1))
  · exact hstart

/-- One step of a command (P250). -/
theorem phaseStep_filled {s : State} (h : s.Live) (hw : countsWf s.cur) (hp : phaseWf s.cur) :
    Filled s (phaseStep s).2 := by
  unfold phaseStep
  split
  · exact startedStep_filled h hw
  split
  · exact packetStep_filled h
  split
  · next hd => exact dataStep_filled h hw (hp.2 hd)
  split
  · exact statusPhase_filled _ h
  · exact setPhase_filled _ h

/-- The loop of a synchronous command (P247). -/
theorem syncLoop_filled (n : Nat) {s : State} (h : s.Live) (hw : countsWf s.cur) (hp : phaseWf s.cur) :
    Filled s (syncLoop n s).2 := by
  have hstep := phaseStep_filled h hw hp
  induction n generalizing s with
  | zero =>
    unfold syncLoop
    dsimp only
    split
    · exact hstep
    · exact hstep.trans (statusPhase_filled _ (hstep.handled.live h))
  | succ n ih =>
    have hwait := hstep.trans (syncWaitN_filled (deadlineSleeps (phaseStep s).2) (phaseStep s).2)
    have hlive := hwait.handled.live h
    have hcur := (syncWaitN_handled (deadlineSleeps (phaseStep s).2) (phaseStep s).2).cur_eq (syncWaitN_cmds _ _)
    have hw' := hwait.handled.cur_order.counts hw
    have hp' := phaseStep_phaseWf h hp
    rw [← hcur] at hp'
    unfold syncLoop syncWait
    dsimp only
    split
    · exact hstep
    split
    · exact hwait.trans (ih hlive hw' hp' (phaseStep_filled hlive hw' hp'))
    · exact hwait.trans (statusPhase_filled _ hlive)

/-! ## The selection -/

theorem preSelect_cache (u : UnitId) (s : State) :
    (preSelect u s).2.irqEn = s.irqEn ∧ ((preSelect u s).1 ≠ .noError → (preSelect u s).2.selected = none)
      ∧ (preSelect u s).2.mem = s.mem := by
  have hirq := (pollStatus_kept okPreSelect abortPreSelect (timeoutUs s.cur / s.params.tPoll) s).irqEn
  have hmem := pollStatus_mem okPreSelect abortPreSelect (timeoutUs s.cur / s.params.tPoll) s
  unfold preSelect
  dsimp only
  split
  · exact ⟨rfl, fun hne => absurd rfl hne, rfl⟩
  split
  · exact ⟨hirq, fun hne => absurd rfl hne, hmem⟩
  · exact ⟨hirq, fun _ => rfl, hmem⟩

theorem postSelect_cache (u : UnitId) (s : State) :
    ((postSelect u s).1 = .noError → (postSelect u s).2.selected = some u)
      ∧ ((postSelect u s).1 ≠ .noError → (postSelect u s).2.selected = none ∧ (postSelect u s).2.irqEn = s.irqEn)
      ∧ (postSelect u s).2.mem = s.mem := by
  have hirq := (pollStatus_kept (okReady (needReady (s.devInfo u).type s.cur)) noAbort s.params.nPostSel s).irqEn
  have hmem := pollStatus_mem (okReady (needReady (s.devInfo u).type s.cur)) noAbort s.params.nPostSel s
  unfold postSelect
  dsimp only
  split
  · exact ⟨fun _ => rfl, fun hne => absurd rfl hne, hmem⟩
  · exact ⟨fun he => (nomatch he), fun _ => ⟨rfl, hirq⟩, hmem⟩

/-- A selection that succeeds ends with its unit selected; one that fails with none, `irqEn` as before (R205, R206).
-/
theorem selectDevice_cache (unit : Byte) (s : State) :
    ((selectDevice unit s).1 = .noError → (selectDevice unit s).2.selected = UnitId.ofByte unit
        ∧ UnitId.ofByte unit ≠ none)
      ∧ ((selectDevice unit s).1 ≠ .noError →
        (selectDevice unit s).2.selected = none ∧ (selectDevice unit s).2.irqEn = s.irqEn)
      ∧ (selectDevice unit s).2.mem = s.mem := by
  unfold selectDevice
  split
  · exact ⟨fun he => (nomatch he), fun _ => ⟨rfl, rfl⟩, rfl⟩
  next u hu =>
  obtain ⟨hirq, hnone, hmem⟩ := preSelect_cache u (timingHook u s)
  dsimp only
  split
  · obtain ⟨hok, hfail, hpost⟩ := postSelect_cache u (preSelect u (timingHook u s)).2
    refine ⟨fun he => ⟨(hok he).trans hu.symm, by rw [hu]; simp⟩, fun hne => ?_, hpost.trans hmem⟩
    obtain ⟨hsel, hkeep⟩ := hfail hne
    exact ⟨hsel, hkeep.trans hirq⟩
  · next hne => exact ⟨fun he => absurd he hne, fun _ => ⟨hnone hne, hirq⟩, hmem⟩

theorem selectDevice_filled (unit : Byte) (s : State) : Filled s (selectDevice unit s).2 :=
  .of_cmds (selectDevice_handled unit s) (selectDevice_cache unit s).2.2 (selectDevice_cmds unit s)

/-! ## The handler -/

/-- What a synchronous command has done on an idle engine `s` when it is delivered from `v` (R206, R247). -/
structure State.Ran (d : Desc) (s v : State) : Prop where
  filled : Filled (launched d s) v
  cache  : if v.selected = none then v.irqEn = s.irqEn else v.irqEn = false ∧ v.selected = UnitId.ofByte d.unit
  ready  : ∀ u, UnitId.ofByte d.unit = some u → DeviceReady u d s → v.selected = some u
    ∧ ∃ es, v.traceRev = es ++ (withBars (selectEvents u s
        ++ [.arm (d.timeoutMs.toNat * 1000), .w8 .altctl 0x02#8])).reverse ++ s.traceRev

/-- The state in which the loop of a synchronous command starts (R247, R331). -/
def synchronousStart (d : Desc) (s : State) : State :=
  writeControl ctlNIen (startTimer (timeoutUs (launched d s).cur)
    (selectDevice (launched d s).cur.unit (launched d s)).2)

theorem synchronousStart_filled (d : Desc) (s : State) : Filled (launched d s) (synchronousStart d s) := by
  have hsel := selectDevice_filled (launched d s).cur.unit (launched d s)
  have hstart := hsel.trans (.of_cmds (startTimer_handled (timeoutUs (launched d s).cur) _) (startTimer_mem _ _)
    (startTimer_cmds _ _))
  exact hstart.trans (.of_cmds (writeControl_handled ctlNIen _) rfl rfl)

/-- The events of a synchronous command before its loop, on a device ready at once (R201 to R206, R331). -/
theorem synchronousStart_did {u : UnitId} {d : Desc} {s : State} (h : (isExecOp d.opcode && d.isReset08) = false)
    (hoff : s.timer.armed = false) (hu : UnitId.ofByte d.unit = some u) (hr : DeviceReady u d s) :
    s.Did (synchronousStart d s) (selectEvents u s ++ [.arm (d.timeoutMs.toNat * 1000), .w8 .altctl 0x02#8]) := by
  have hselected : selectDevice (launched d s).cur.unit (launched d s) = (.noError, selectedReady u d s) :=
    selectDevice_launched h hu hr
  have hsel : s.Did (selectedReady u d s) (selectEvents u s) := did_logs _ (launched d s)
  have hoff' : (selectedReady u d s).timer.armed = false := hoff
  refine Did.trans hsel ((did_iff _ _ _).mpr ?_)
  unfold synchronousStart
  rw [hselected, launched_cur_plain s h]
  dsimp only
  rw [startTimer_logs _ _ hoff']
  rfl

/-- After its selection a synchronous command runs its loop to its end and is delivered (P242, P247). -/
theorem handleExecIO_selected {d : Desc} {s : State} (h : (isExecOp d.opcode && d.isReset08) = false)
    (hoff : s.timer.armed = false) (hn : d.flags.noirq = true) (hl : d.legal = true)
    (hr : (selectDevice (launched d s).cur.unit (launched d s)).1 = .noError) :
    ∃ res v, s.Ran d v ∧ ∀ dn, handleExecIO dn (launched d s) = completeIO dn res v := by
  have hcur := launched_cur_plain s h
  have hlive := launched_live d s
  obtain ⟨hunit, hsome⟩ := (selectDevice_cache (launched d s).cur.unit (launched d s)).1 hr
  have hstart := synchronousStart_filled d s
  have hstartcur : (synchronousStart d s).cur = (launched d s).cur :=
    hstart.handled.cur_eq (by rw [synchronousStart, writeControl_cmds, startTimer_cmds, selectDevice_cmds])
  have hloop := syncLoop_filled (deadlineSleeps (synchronousStart d s)) (hstart.handled.live hlive)
    (by rw [hstartcur, hcur]; exact countsWf_fresh (c := inService d phStarted) rfl hl)
    (by rw [hstartcur, hcur]; exact phaseWf_started rfl)
  have hkept := syncLoop_kept (deadlineSleeps (synchronousStart d s)) (synchronousStart d s)
  have hrun : ∀ dn, handleExecIO dn (launched d s) = completeIO dn
      (syncLoop (deadlineSleeps (synchronousStart d s)) (synchronousStart d s)).1
      (syncLoop (deadlineSleeps (synchronousStart d s)) (synchronousStart d s)).2 := fun dn => by
    unfold handleExecIO
    dsimp only
    rw [if_neg (not_not.mpr hr), if_pos (by rw [hcur]; exact hn)]
    rfl
  have hselected : (synchronousStart d s).selected = UnitId.ofByte (launched d s).cur.unit := by
    rw [synchronousStart, writeControl_selected, startTimer_selected, hunit]
  have hirq : (synchronousStart d s).irqEn = false := rfl
  generalize syncLoop (deadlineSleeps (synchronousStart d s)) (synchronousStart d s) = r at hloop hkept hrun
  rw [← hselected, ← hkept.selected] at hsome
  rw [hcur] at hselected
  refine ⟨r.1, r.2, ⟨hstart.trans hloop, ?_, fun u hu hready => ⟨?_, ?_⟩⟩, hrun⟩
  · rw [if_neg hsome]
    exact ⟨hkept.irqEn.trans hirq, hkept.selected.trans hselected⟩
  · exact (hkept.selected.trans hselected).trans hu
  · obtain ⟨es, hes, -⟩ := hloop.handled.trace
    exact ⟨es, by rw [hes, (did_iff _ _ _).mp (synchronousStart_did h hoff hu hready), List.append_assoc]⟩

/-- A synchronous command whose selection fails is delivered at once (R244). -/
theorem handleExecIO_unselected {d : Desc} {s : State} (h : (isExecOp d.opcode && d.isReset08) = false)
    (hn : d.flags.noirq = true) (hr : (selectDevice (launched d s).cur.unit (launched d s)).1 ≠ .noError) :
    ∃ res v, s.Ran d v ∧ ∀ dn, handleExecIO dn (launched d s) = completeIO dn res v := by
  obtain ⟨hnone, hirq⟩ := (selectDevice_cache (launched d s).cur.unit (launched d s)).2.1 hr
  have hsel := selectDevice_filled (launched d s).cur.unit (launched d s)
  have hselcur := hsel.handled.cur_eq (selectDevice_cmds _ _)
  refine ⟨.offline, setPhase phComplete (selectDevice (launched d s).cur.unit (launched d s)).2,
    ⟨hsel.trans (setPhase_filled _ (hsel.handled.live (launched_live d s))), ?_, fun u hu hready => ?_⟩, fun dn => ?_⟩
  · rw [if_pos (by rw [setPhase_selected, hnone]), setPhase_irqEn, hirq]
    rfl
  · rw [selectDevice_launched h hu hready] at hr
    exact absurd rfl hr
  · unfold handleExecIO selectionFailed
    dsimp only
    rw [if_pos hr, hselcur, if_pos (by rw [launched_cur_plain s h]; exact hn)]

/-- `handleExecIO` of a synchronous command comes to its delivery (P242, P247, R244). -/
theorem handleExecIO_ran {d : Desc} {s : State} (h : (isExecOp d.opcode && d.isReset08) = false)
    (hoff : s.timer.armed = false) (hn : d.flags.noirq = true) (hl : d.legal = true) :
    ∃ res v, s.Ran d v ∧ ∀ dn, handleExecIO dn (launched d s) = completeIO dn res v := by
  by_cases hr : (selectDevice (launched d s).cur.unit (launched d s)).1 = .noError
  · exact handleExecIO_selected h hoff hn hl hr
  · exact handleExecIO_unselected h hn hr

/-! ## The delivery -/

/-- A row whose handler comes to the delivery of its command from `v` (R160, R170, R180). -/
theorem exec_handled {i : Instr} {d : Desc} {res : Result} {s v : State} (he : i.desc = some d) (hidle : s.Idle)
    (hacc : s.accepts d = true) (hv : Handled (launched d s) v)
    (hrun : runHandler (dispatchN 0) (launched d s) = completeIO (dispatchN 0) res v) :
    exec i s = .next (submitted res s v) := by
  have hstored : s.cmds.length < v.cmds.length := by rw [hv.length, launched_length]; omega
  rw [exec_commandRow he, submitRow_idle hidle hacc, hrun,
    completeIO_silent _ _ hv.current hstored (hv.host.trans hidle.host), dispatchN_zero]
  rfl

/-- What the delivery of a new command leaves, whatever its handler did (R180). -/
theorem submitted_handled {d : Desc} (res : Result) {s v : State} (hidle : s.Idle) (hv : Handled (launched d s) v) :
    (submitted res s v).Finished ∧ s.SameBut s.cmds.length (submitted res s v)
      ∧ (submitted res s v).cmd s.cmds.length = deliveredAs res v.cur
      ∧ ∃ es r, callbacks es = [] ∧ v.trace = s.trace ++ es
        ∧ (submitted res s v).trace = v.trace
          ++ completionEvents s.cmds.length r ((submitted res s v).cmd s.cmds.length).result := by
  have hstored : s.cmds.length < v.cmds.length := by rw [hv.length, launched_length]; omega
  have hcmd : (submitted res s v).cmd s.cmds.length = deliveredAs res v.cur := by
    rw [cur_some _ v hv.current]
    exact modCmd_cmd_same s.cmds.length (deliveredAs res) v hstored
  refine ⟨⟨rfl, rfl, hv.queue.trans hidle.queue, rfl⟩, ⟨hv.qstate, hv.igate, hv.snap, hv.devInfo0, hv.devInfo1,
    hv.params, hv.bufs, hv.host, hv.breach, hv.inbox, fun k hk hl => ?_⟩, hcmd, ?_⟩
  · have hother : (submitted res s v).cmd k = v.cmd k := modCmd_cmd_other _ _ _ _ hk
    rw [hother, hv.others k (by rw [launched_current]; simpa using hk.symm)]
    exact List.getD_append _ _ _ _ hl
  · obtain ⟨es, hes, hno⟩ := hv.trace
    refine ⟨es.reverse, scriptHead (Result.byNumber (Config.freeResult v.env.drawn)) v.env.stopDma, ?_, ?_, ?_⟩
    · rw [callbacks_reverse, callbacks_eq_nil hno]
      rfl
    · rw [State.trace, hes, List.reverse_append]
      rfl
    · rw [hcmd, cur_some _ v hv.current]
      simp only [State.trace, submitted, completed, completionEvents, List.reverse_cons, List.append_assoc]
      rfl

end Sys2Proof.Machine

namespace Sys2Proof.Proofs

open Sys2Proof.Machine

/-- Settles O22: the command runs to its delivery (`handleExecIO_ran`), its data counted in `actual` (`Filled`). -/
theorem synchronousCompletes : Obligations.SynchronousCompletes := by
  intro d e i s hi he h8 hidle hacc hn
  have hplain : (isExecOp e.opcode && e.isReset08) = false := by rw [h8, Bool.and_false]
  obtain ⟨res, v, ⟨hfilled, hcache, hready⟩, hrun⟩ := handleExecIO_ran hplain hidle.armed hn (accepts_legal hacc)
  have hv := hfilled.handled
  have hcur := launched_cur_plain s hplain
  have hexec := exec_handled he hidle hacc hv (by
    rw [← hrun]
    unfold runHandler
    rw [if_pos (by rw [hcur]; exact (execRows_opcode hi he : isExecOp e.opcode = true))])
  obtain ⟨hfin, hsame, hcmd, es, r, hnone, hes, htrace⟩ := submitted_handled res hidle hv
  obtain ⟨n, -, hact, hmem⟩ := hfilled.moved
  have horder := hv.cur_order
  have hcounts := horder.counts
    (by rw [hcur]; exact countsWf_fresh (c := inService e phStarted) rfl (accepts_legal hacc))
  rw [hcur] at hact hmem horder
  have hactual : ((submitted res s v).cmd s.cmds.length).actual.toNat = n := by
    rw [hcmd]
    show v.cur.actual.toNat = n
    rw [hact]
    simp [Command.fresh]
  refine ⟨submitted res s v, es, r, hexec, hfin, hsame, by rw [hcmd]; rfl, by rw [hcmd]; rfl, by rw [htrace, hes],
    hnone, hv.now, rfl, hcache, fun u hu hr => ?_, fun hno a => ?_, ?_, fun hwf a ha => ?_⟩
  · obtain ⟨hsel, rest, hrest⟩ := hready u hu hr
    refine ⟨hsel, rest.reverse, List.append_cancel_left (as := s.trace) ?_⟩
    rw [← hes, State.trace, hrest, State.trace]
    simp only [List.reverse_append, List.reverse_reverse, List.append_assoc]
  · have hmemory : v.mem = (launched e s).mem := hfilled.still (by rw [hcur]; exact hno)
    exact congrArg (Memory.get · a) hmemory
  · rw [hcmd]
    exact hcounts.1.trans (by rw [horder.byteCount]; exact le_rfl)
  · rw [hactual] at ha
    exact hmem hwf a ha

end Sys2Proof.Proofs
end

section
/-! The gate actions the spec does not admit (O45). -/

namespace Sys2Proof.Machine

/-- EXPIRE waits for an armed timer and its deadline (R336). -/
theorem expireEnabled_iff (s : State) :
    expireEnabled s = true ↔ s.timer.armed = true ∧ s.timer.deadline ≤ s.now := by
  simp [expireEnabled, checkTimeout]

/-- SCAN waits for the end of the current command and of every callout (R220). -/
theorem scanAdmitted_iff (s : State) : scanAdmitted s = true ↔ s.current = none ∧ s.snap = [] := by
  simp [scanAdmitted]

/-- Only the unit bytes 0 and 1 name a unit (R114). -/
theorem unit_invalid {u : Byte} (h0 : u ≠ 0#8) (h1 : u ≠ 1#8) : UnitId.ofByte u = none := by
  simp [UnitId.ofByte, h0, h1]

end Sys2Proof.Machine

namespace Sys2Proof.Proofs

open Sys2Proof.Machine

/-- Settles O45: the admission conditions of the three actions fail. -/
theorem notAdmitted : Obligations.NotAdmitted := by
  refine ⟨fun s h => if_neg ?_, fun s h => if_neg ?_, fun s u m h0 h1 => ?_⟩
  · rw [expireEnabled_iff]
    rintro ⟨harmed, hdue⟩
    rcases h with h | h
    · rw [h] at harmed; cases harmed
    · omega
  · rw [scanAdmitted_iff]
    rintro ⟨hc, hs⟩
    exact h.elim (fun hn => hn hc) (fun hn => hn hs)
  · simp only [exec, execConfig, unit_invalid h0 h1]

/-- Settles O24, from what a selection does to the cache (`selectDevice_cache`). -/
theorem selectFailureInvalidates : Obligations.SelectFailureInvalidates := fun unit s =>
  (selectDevice_cache unit s).2.1

end Sys2Proof.Proofs
end

section
/-! What every poll and every selection adds to the trace, whatever the device answers (O25, O26). -/

namespace Sys2Proof.Machine

/-! ## Polls -/

/-- What a poll of budget `n` from `s` that slept `m` times has done, when it ends with `p` (R200): it only sampled
Alternate Status and slept, and its code tells whether the last sample passed and whether its budget is used up. -/
structure PollRun (ok : Byte → Bool) (abort : Byte → State → Option Result) (n m : Nat) (s : State) (p : Polled) :
    Prop where
  budget : m ≤ n
  trace  : ∃ es, p.state.trace = s.trace ++ es ∧ es.count (.sleep s.params.tPoll) = m ∧ ∀ v, .w8 .devhead v ∉ es
  passed : (∀ v t, abort v t ≠ some .noError) → (p.code = .noError ↔ ok p.sample = true)
  ranOut : (∀ v t, abort v t ≠ some .timeout) → p.code = .timeout → m = n

theorem emit_trace (e : Event) (s : State) : (s.emit e).trace = s.trace ++ [e] := by
  simp [State.trace]

theorem rd8_trace (r : Reg) (s : State) :
    (rd8 r s).2.trace = s.trace ++ [.r8 r (s.env.byteAnswer r), .bar] := by
  simp [State.trace]

theorem sleep_trace (d : Nat) (s : State) : (sleep d s).trace = s.trace ++ [.sleep d] := by
  simp [State.trace]

/-- A poll that ends at its first sample did not sleep. -/
theorem pollRun_first {ok : Byte → Bool} {abort : Byte → State → Option Result} {n : Nat} {s : State} {x : Result}
    (hpass : (∀ v t, abort v t ≠ some .noError) → (x = .noError ↔ ok (rd8 .altctl s).1 = true))
    (hout : (∀ v t, abort v t ≠ some .timeout) → x = .timeout → 0 = n) :
    PollRun ok abort n 0 s ⟨x, (rd8 .altctl s).1, (rd8 .altctl s).2⟩ where
  budget := Nat.zero_le n
  trace := ⟨_, rd8_trace .altctl s, rfl, by simp⟩
  passed := hpass
  ranOut := hout

/-- A poll that goes on after its first sample and a sleep. -/
theorem PollRun.later {ok : Byte → Bool} {abort : Byte → State → Option Result} {n m : Nat} {s : State} {p : Polled}
    (h : PollRun ok abort n m (sleep s.params.tPoll (rd8 .altctl s).2) p) : PollRun ok abort (n + 1) (m + 1) s p where
  budget := Nat.succ_le_succ h.budget
  trace := by
    obtain ⟨es, ht, hm, hw⟩ := h.trace
    refine ⟨.r8 .altctl (s.env.byteAnswer .altctl) :: .bar :: .sleep s.params.tPoll :: es, ?_, ?_, ?_⟩
    · simp [ht, sleep_trace, rd8_trace]
    · have hm' : es.count (.sleep s.params.tPoll) = m := hm
      simp [hm']
    · simpa using hw
  passed := h.passed
  ranOut hab hc := congrArg (· + 1) (h.ranOut hab hc)

/-- Every poll, by its budget (R200). -/
theorem pollStatus_run (ok : Byte → Bool) (abort : Byte → State → Option Result) (n : Nat) (s : State) :
    ∃ m, PollRun ok abort n m s (pollStatus ok abort n s) := by
  induction n generalizing s with
  | zero =>
    unfold pollStatus
    dsimp only
    split
    · next hok => exact ⟨0, pollRun_first (fun _ => iff_of_true rfl hok) (fun _ _ => rfl)⟩
    next hok =>
    split
    · next e ha =>
      exact ⟨0, pollRun_first (fun hab => iff_of_false (fun he => hab _ _ (he ▸ ha)) hok) (fun _ _ => rfl)⟩
    · exact ⟨0, pollRun_first (fun _ => iff_of_false nofun hok) (fun _ _ => rfl)⟩
  | succ n ih =>
    unfold pollStatus
    dsimp only
    split
    · next hok => exact ⟨0, pollRun_first (fun _ => iff_of_true rfl hok) (fun _ hc => nomatch hc)⟩
    next hok =>
    split
    · next e ha =>
      exact ⟨0, pollRun_first (fun hab => iff_of_false (fun he => hab _ _ (he ▸ ha)) hok)
        (fun hab he => absurd (he ▸ ha) (hab _ _))⟩
    · obtain ⟨m, h⟩ := ih (sleep s.params.tPoll (rd8 .altctl s).2)
      exact ⟨m + 1, h.later⟩

/-! ## Selections -/

theorem Handled.trace_append {s t : State} (h : Handled s t) : ∃ es, t.trace = s.trace ++ es := by
  obtain ⟨es, ht, -⟩ := h.trace
  exact ⟨es.reverse, by simp [State.trace, ht]⟩

/-- The last write of a selection: Device Control cleared, interrupts enabled, the unit cached (R205). -/
theorem postSelect_succeeds {u : UnitId} {s : State} (h : (postSelect u s).1 = .noError) :
    ∃ t, Handled s t ∧ (postSelect u s).2 = { writeControl ctlClear t with selected := some u } := by
  unfold postSelect at h ⊢
  dsimp only at h ⊢
  split at h
  · next hp => exact ⟨_, pollStatus_handled _ _ _ s, by rw [if_pos hp]⟩
  · cases h

/-- A selection whose pre-select part succeeds goes on to its post-select poll (R203, R204). -/
theorem selectDevice_preSelected {unit : Byte} {u : UnitId} {s : State} (hu : UnitId.ofByte unit = some u)
    (h : (preSelect u (timingHook u s)).1 = .noError) :
    selectDevice unit s = postSelect u (preSelect u (timingHook u s)).2 := by
  unfold selectDevice
  rw [hu]
  exact if_pos h

/-- A selection whose pre-select part fails ends with it (R203). -/
theorem selectDevice_unselected {unit : Byte} {u : UnitId} {s : State} (hu : UnitId.ofByte unit = some u)
    (h : (preSelect u (timingHook u s)).1 ≠ .noError) : selectDevice unit s = preSelect u (timingHook u s) := by
  unfold selectDevice
  rw [hu]
  exact if_neg h

/-- A successful selection ends with that of its post-select poll (R202 to R205). -/
theorem selectDevice_succeeds {unit : Byte} {u : UnitId} {s : State} (hu : UnitId.ofByte unit = some u)
    (h : (selectDevice unit s).1 = .noError) :
    ∃ t, Handled s t ∧ (selectDevice unit s).2 = { writeControl ctlClear t with selected := some u } := by
  by_cases hp : (preSelect u (timingHook u s)).1 = .noError
  · rw [selectDevice_preSelected hu hp] at h ⊢
    obtain ⟨t, ht, he⟩ := postSelect_succeeds h
    exact ⟨t, ((timingHook_handled u s).trans (preSelect_handled u _)).trans ht, he⟩
  · rw [selectDevice_unselected hu hp] at h
    exact absurd h hp

/-- Of a cached unit only the readiness is polled (R202, R207). -/
theorem selectDevice_cached {unit : Byte} {u : UnitId} {s : State} (hu : UnitId.ofByte unit = some u)
    (hs : s.selected = some u) : selectDevice unit s = postSelect u (timingHook u s) := by
  have hpre : preSelect u (timingHook u s) = (.noError, timingHook u s) := if_pos hs
  rw [selectDevice_preSelected hu (by rw [hpre]), hpre]

/-- The post-select poll does not write Device/Head (R204, R205). -/
theorem postSelect_no_select (u : UnitId) (s : State) :
    ∃ es, (postSelect u s).2.trace = s.trace ++ es ∧ ∀ v, .w8 .devhead v ∉ es := by
  obtain ⟨m, hrun⟩ := pollStatus_run (okReady (needReady (s.devInfo u).type s.cur)) noAbort s.params.nPostSel s
  obtain ⟨es, ht, -, hw⟩ := hrun.trace
  unfold postSelect
  dsimp only
  split
  · refine ⟨es ++ [.w8 .altctl ctlClear, .bar], ?_, by simpa using hw⟩
    rw [← List.append_assoc, ← ht]
    simp [State.trace]
  · exact ⟨es, ht, hw⟩

end Sys2Proof.Machine

namespace Sys2Proof.Proofs

open Sys2Proof.Machine

/-- Settles O26: the sleeps of a poll are counted along its budget (`pollStatus_run`). -/
theorem pollBounded : Obligations.PollBounded := by
  intro ok abort n s hab
  obtain ⟨m, hrun⟩ := pollStatus_run ok abort n s
  obtain ⟨es, ht, hm, -⟩ := hrun.trace
  have hlen : (es.filter (fun e => e == .sleep s.params.tPoll)).length = m := by
    rw [← hm, List.count, List.countP_eq_length_filter]
  exact ⟨es, ht, hlen.trans_le hrun.budget, hrun.passed hab, fun hto hc => hlen.trans (hrun.ranOut hto hc)⟩

/-- Settles O25: how a selection ends (`selectDevice_succeeds`), and that of a cached unit (`selectDevice_cached`). -/
theorem selectCaches : Obligations.SelectCaches := by
  intro unit u s hu
  refine ⟨fun h => ?_, fun hs => ?_⟩
  · obtain ⟨t, ht, he⟩ := selectDevice_succeeds hu h
    obtain ⟨es, htr⟩ := ht.trace_append
    rw [he]
    refine ⟨rfl, rfl, es, ?_⟩
    rw [← htr]
    simp [State.trace, ctlClear]
  · obtain ⟨es, ht, hw⟩ := postSelect_no_select u (timingHook u s)
    rw [selectDevice_cached hu hs]
    refine ⟨.timing u :: es, ?_, by simpa using hw⟩
    rw [ht, timingHook, emit_trace, List.append_assoc, List.singleton_append]

end Sys2Proof.Proofs
end

section
/-! Polls of scripted samples that end at a given one; selections and resets whose device does not answer (O23, O29,
O31). -/

namespace Sys2Proof.Machine

/-! ## Where a poll ends -/

/-- A poll from `s` that ends with `p` slept `n` times, has the code `x`, and left `s` alone but for its events, the clock
and the draws; the samples still to come are those after its own (R200). -/
structure PolledAt (n : Nat) (x : Result) (s : State) (p : Polled) : Prop where
  code   : p.code = x
  state  : ∃ now env, p.state = { s.logs (pollEvents 0 n s) with now := now, env := env }
  clock  : s.now + n * s.params.tPoll ≤ p.state.now
  still  : n = 0 → p.state.now = s.now
  draws  : ∀ j, p.state.env.answer .altctl j = s.env.answer .altctl (n + 1 + j)
  script : s.env.altctl ≠ [] → p.state.env.altctl ≠ []

theorem polledAt_first (x : Result) (s : State) : PolledAt 0 x s ⟨x, (rd8 .altctl s).1, (rd8 .altctl s).2⟩ where
  code := rfl
  state := ⟨s.now, s.env.byteRead .altctl, rfl⟩
  clock := by simp
  still _ := rfl
  draws j := by rw [show 0 + 1 + j = j + 1 by omega, answer_succ]; rfl
  script h := by simpa using scriptTail_ne_nil h

/-- How a poll of budget `N` ends at the sample `v`, with a timer like that of `s`: with success, by its abort condition,
or because its budget is used up (R200). -/
def EndsWith (ok : Byte → Bool) (abort : Byte → State → Option Result) (v : Byte) (last : Prop) (s : State)
    (x : Result) : Prop :=
  (ok v = true ∧ x = .noError)
    ∨ (ok v = false ∧ ∀ t : State, t.timer = s.timer → abort v t = some x)
    ∨ (ok v = false ∧ (∀ t : State, t.timer = s.timer → abort v t = none) ∧ x = .timeout ∧ last)

/-- A poll whose first decisive sample is the `n`-th ends there; where it sleeps, its samples are scripted (R200). -/
theorem pollStatus_at {ok : Byte → Bool} {abort : Byte → State → Option Result} {N n : Nat} {s : State} {x : Result}
    (hn : n ≤ N) (hs : n = 0 ∨ s.env.altctl ≠ [])
    (hquiet : ∀ j < n, ok (s.env.answer .altctl j) = false
      ∧ ∀ t : State, t.timer = s.timer → abort (s.env.answer .altctl j) t = none)
    (hend : EndsWith ok abort (s.env.answer .altctl n) (n = N) s x) : PolledAt n x s (pollStatus ok abort N s) := by
  induction n generalizing N s with
  | zero =>
    have hfst : (rd8 .altctl s).1 = s.env.answer .altctl 0 := rfl
    rcases hend with ⟨hok, rfl⟩ | ⟨hok, ha⟩ | ⟨hok, ha, rfl, rfl⟩
    · rw [pollStatus_first _ _ _ _ hok]
      exact polledAt_first _ s
    · rw [pollStatus_aborts _ _ _ _ _ hok (ha (rd8 .altctl s).2 rfl)]
      exact polledAt_first _ s
    · have he : pollStatus ok abort 0 s = ⟨.timeout, (rd8 .altctl s).1, (rd8 .altctl s).2⟩ := by
        simp only [pollStatus, hfst, hok, ha (rd8 .altctl s).2 rfl]
        rfl
      rw [he]
      exact polledAt_first _ s
  | succ n ih =>
    obtain ⟨N, rfl⟩ : ∃ k, N = k + 1 := ⟨N - 1, by omega⟩
    have hne := hs.resolve_left (Nat.succ_ne_zero n)
    have hne' : (s.env.byteRead .altctl).altctl ≠ [] := by simpa using scriptTail_ne_nil hne
    have hans : ∀ j, (sleep s.params.tPoll (rd8 .altctl s).2).env.answer .altctl j = s.env.answer .altctl (j + 1) :=
      fun j => answer_congr (f := (sleep s.params.tPoll (rd8 .altctl s).2).env) (e := s.env.byteRead .altctl) rfl hne' j
    obtain ⟨hok, ha⟩ := hquiet 0 (Nat.succ_pos n)
    have hstep : pollStatus ok abort (N + 1) s = pollStatus ok abort N (sleep s.params.tPoll (rd8 .altctl s).2) := by
      have hfst : (rd8 .altctl s).1 = s.env.answer .altctl 0 := rfl
      simp only [pollStatus, hfst, hok, ha (rd8 .altctl s).2 rfl]
      rfl
    have hrest := ih (N := N) (s := sleep s.params.tPoll (rd8 .altctl s).2) (by omega) (.inr hne')
      (fun j hj => by rw [hans]; exact hquiet (j + 1) (by omega))
      (by
        rw [hans]
        rcases hend with h | h | ⟨h, h', hx, hlast⟩
        · exact .inl h
        · exact .inr (.inl h)
        · exact .inr (.inr ⟨h, h', hx, by omega⟩))
    rw [hstep]
    obtain ⟨now, env, hst⟩ := hrest.state
    have hclock := hrest.clock
    have hnow := sleep_now s.params.tPoll (rd8 .altctl s).2
    have hparams : (sleep s.params.tPoll (rd8 .altctl s).2).params = s.params := rfl
    refine ⟨hrest.code, ⟨now, env, ?_⟩, ?_, fun h => absurd h (Nat.succ_ne_zero n), fun j => ?_,
      fun _ => hrest.script hne'⟩
    · rw [hst, pollEvents_shift (i := 1) 0 n hparams (fun j => by rw [hans, Nat.add_comm]), pollEvents_succ]
      simp [State.logs, withBars, Event.isAccess, sleep, rd8, readByte, barrier, State.emit, Env.answer]
    · rw [hparams, hnow, rd8_now] at hclock
      rw [Nat.succ_mul]
      omega
    · rw [hrest.draws, hans]
      congr 1
      omega

/-- A poll without abort condition none of whose samples passes ends with Timeout, its budget used up (R200). -/
theorem pollStatus_exhausted {ok : Byte → Bool} {N : Nat} {s : State} (hs : N = 0 ∨ s.env.altctl ≠ [])
    (hno : ∀ j ≤ N, ok (s.env.answer .altctl j) = false) : PolledAt N .timeout s (pollStatus ok noAbort N s) :=
  pollStatus_at (Nat.le_refl N) hs (fun j hj => ⟨hno j hj.le, fun _ _ => rfl⟩)
    (.inr (.inr ⟨hno N (Nat.le_refl N), fun _ _ => rfl, rfl, rfl⟩))

/-! ## Selections that fail -/

theorem SelectFails.code_ne {d : Desc} {s : State} {x : Result} {es : List Event} {n : Nat}
    (h : SelectFails d s x es n) : x ≠ .noError := by
  cases h <;> simp

/-- What a selection that failed has done: the events `es`, the cache cleared, nothing else but the clock and the draws
changed (R206). -/
structure Unselected (es : List Event) (n : Nat) (s t : State) : Prop where
  state : ∃ now env, t = { s.logs es with now := now, env := env, selected := none }
  clock : s.now + n * s.params.tPoll ≤ t.now
  still : n = 0 → t.now = s.now

section Selection

variable {d : Desc} {u : UnitId} {n : Nat} {s t : State}

/-- The pre-select poll on an unarmed timer stops at DRQ only (R203). -/
theorem abortPreSelect_unarmed (v : Byte) (h : t.timer.armed = false) :
    abortPreSelect v t = if drq v then some .deviceBusy else none := by
  simp [abortPreSelect, checkTimeout, h]

theorem okPreSelect_busy {v : Byte} (h : bsy v = true ∨ drq v = true) : okPreSelect v = false := by
  rcases h with h | h <;> simp [okPreSelect, h]

/-- The pre-select poll of a device that shows BUSY `n` times comes to its next sample (R203). -/
theorem preSelect_polled {x : Result} (harm : s.timer.armed = false) (hb : PreSelectBusy d n s)
    (hn : n = 0 ∨ s.env.altctl ≠ [])
    (hend : EndsWith okPreSelect abortPreSelect (s.env.answer .altctl n) (n = preSelectBudget d s) s x) :
    PolledAt n x s (pollStatus okPreSelect abortPreSelect (preSelectBudget d s) s) := by
  obtain ⟨hle, hbusy⟩ := hb
  refine pollStatus_at hle hn (fun j hj => ?_) hend
  obtain ⟨hbsy, hdrq⟩ := hbusy j hj
  refine ⟨okPreSelect_busy (.inl hbsy), fun t ht => ?_⟩
  rw [abortPreSelect_unarmed _ (by rw [ht]; exact harm), hdrq]
  rfl

/-- DRQ, or BUSY at the last sample of the budget, fails the pre-select poll (R203). -/
theorem preSelect_ends (harm : s.timer.armed = false)
    (he : drq (s.env.answer .altctl n) = true ∨ n = preSelectBudget d s ∧ bsy (s.env.answer .altctl n) = true) :
    ∃ x, x ≠ .noError
      ∧ EndsWith okPreSelect abortPreSelect (s.env.answer .altctl n) (n = preSelectBudget d s) s x := by
  have habort : ∀ t : State, t.timer = s.timer → abortPreSelect (s.env.answer .altctl n) t
      = if drq (s.env.answer .altctl n) then some .deviceBusy else none :=
    fun t ht => abortPreSelect_unarmed _ (by rw [ht]; exact harm)
  by_cases hdrq : drq (s.env.answer .altctl n) = true
  · refine ⟨.deviceBusy, by simp, .inr (.inl ⟨okPreSelect_busy (.inr hdrq), fun t ht => ?_⟩)⟩
    rw [habort t ht, if_pos hdrq]
  · obtain ⟨hlast, hbsy⟩ := he.resolve_left hdrq
    refine ⟨.timeout, by simp, .inr (.inr ⟨okPreSelect_busy (.inl hbsy), fun t ht => ?_, rfl, hlast⟩)⟩
    rw [habort t ht, if_neg hdrq]

/-- A post-select poll without a good sample (R204, R206). -/
theorem postSelect_fails (hready : needReady (s.devInfo u).type s.cur = needReady (s.devInfo u).type (Command.fresh d))
    (hn : s.params.nPostSel = 0 ∨ s.env.altctl ≠ []) (hr : NeverReady u d 0 s) :
    (postSelect u s).1 = .deviceBusy
      ∧ Unselected (pollEvents 0 s.params.nPostSel s) s.params.nPostSel s (postSelect u s).2 := by
  have hpoll := pollStatus_exhausted (ok := okReady (needReady (s.devInfo u).type s.cur)) hn (fun j hj => by
    rw [hready, ← Nat.zero_add j]; exact hr j hj)
  unfold postSelect
  dsimp only
  rw [if_neg (by rw [hpoll.code]; simp)]
  obtain ⟨now, env, hst⟩ := hpoll.state
  exact ⟨rfl, ⟨now, env, by rw [hst]⟩, hpoll.clock, hpoll.still⟩

end Selection

/-- More work after a failed, or an unfinished, selection. -/
theorem Unselected.trans {es es' : List Event} {n n' : Nat} {a b c : State} (h : Unselected es n a b)
    (k : Unselected es' n' b c) : Unselected (es ++ es') (n + n') a c := by
  obtain ⟨⟨now, env, rfl⟩, hclock, hstill⟩ := h
  obtain ⟨⟨now', env', rfl⟩, hclock', hstill'⟩ := k
  refine ⟨⟨now', env', by rw [← logs_logs]; rfl⟩, ?_, fun hz => ?_⟩
  · have : now + n' * a.params.tPoll ≤ now' := hclock'
    have : a.now + n * a.params.tPoll ≤ now := hclock
    rw [Nat.add_mul]
    show _ ≤ now'
    omega
  · exact (hstill' (by omega)).trans (hstill (by omega))

theorem Unselected.after_logs {es es' : List Event} {n : Nat} {s t : State} (h : Unselected es' n (s.logs es) t) :
    Unselected (es ++ es') n s t := by
  obtain ⟨⟨now, env, rfl⟩, hclock, hstill⟩ := h
  exact ⟨⟨now, env, by rw [← logs_logs]⟩, hclock, hstill⟩

section Selection

variable {d : Desc} {u : UnitId} {n : Nat} {s : State}

/-- The pre-select poll that fails (R203, R206). -/
theorem preSelect_fails (hbudget : timeoutUs s.cur / s.params.tPoll = preSelectBudget d s)
    (harm : s.timer.armed = false) (hs : s.selected ≠ some u) (hn : n = 0 ∨ s.env.altctl ≠ [])
    (hb : PreSelectBusy d n s)
    (he : drq (s.env.answer .altctl n) = true ∨ n = preSelectBudget d s ∧ bsy (s.env.answer .altctl n) = true) :
    (preSelect u s).1 = .deviceBusy ∧ Unselected (pollEvents 0 n s) n s (preSelect u s).2 := by
  obtain ⟨x, hx, hend⟩ := preSelect_ends harm he
  have hpoll := preSelect_polled harm hb hn hend
  unfold preSelect
  rw [if_neg hs]
  dsimp only
  rw [hbudget, if_neg (by rw [hpoll.code]; exact hx)]
  obtain ⟨now, env, hst⟩ := hpoll.state
  exact ⟨rfl, ⟨now, env, by rw [hst]⟩, hpoll.clock, hpoll.still⟩

/-- The pre-select poll that succeeds, and the select write after it (R203). -/
theorem preSelect_selects (hbudget : timeoutUs s.cur / s.params.tPoll = preSelectBudget d s)
    (harm : s.timer.armed = false) (hs : s.selected ≠ some u) (hn : n = 0 ∨ s.env.altctl ≠ [])
    (hb : PreSelectBusy d n s) (hok : okPreSelect (s.env.answer .altctl n) = true) :
    (preSelect u s).1 = .noError
      ∧ Unselected (pollEvents 0 n s ++ [.w8 .devhead u.selectValue]) n s (preSelect u s).2
      ∧ (∀ j, (preSelect u s).2.env.answer .altctl j = s.env.answer .altctl (n + 1 + j))
      ∧ (s.env.altctl ≠ [] → (preSelect u s).2.env.altctl ≠ []) := by
  have hpoll := preSelect_polled harm hb hn (.inl ⟨hok, rfl⟩)
  unfold preSelect
  rw [if_neg hs]
  dsimp only
  rw [hbudget, if_pos hpoll.code]
  obtain ⟨now, env, hst⟩ := hpoll.state
  refine ⟨rfl, ⟨⟨now, env, ?_⟩, hpoll.clock, hpoll.still⟩, hpoll.draws, hpoll.script⟩
  rw [hst, wr8_logs, ← logs_logs]
  rfl

/-- A selection that fails for a command `d` in service on an unarmed timer (R201 to R206). -/
theorem selectDevice_fails {x : Result} {es : List Event} (hcur : s.cur = inService d phStarted)
    (harm : s.timer.armed = false) (h : SelectFails d s x es n) :
    (selectDevice d.unit s).1 = x ∧ Unselected es n s (selectDevice d.unit s).2 := by
  have hbudget : timeoutUs s.cur / s.params.tPoll = preSelectBudget d s := by rw [hcur]; rfl
  have hready : ∀ ty, needReady ty s.cur = needReady ty (Command.fresh d) := by
    intro ty; rw [hcur]; rfl
  cases h with
  | invalidUnit hu =>
    unfold selectDevice
    rw [hu]
    exact ⟨rfl, ⟨s.now, s.env, rfl⟩, by simp, fun _ => rfl⟩
  | preSelect u _ hu hs hn hb he =>
    obtain ⟨hcode, hpre⟩ := preSelect_fails (s := s.logs [.timing u]) hbudget harm hs hn hb he
    rw [selectDevice_unselected hu (by rw [timingHook_logs, hcode]; simp), timingHook_logs]
    exact ⟨hcode, hpre.after_logs⟩
  | postSelect u m hu hs hn hb he hr =>
    obtain ⟨hcode, hpre, hdraws, hscript⟩ := preSelect_selects (s := s.logs [.timing u]) hbudget harm hs
      (hn.imp_left (by omega)) hb he
    rw [selectDevice_preSelected hu hcode, timingHook_logs]
    generalize (preSelect u (s.logs [.timing u])).2 = t at hpre hdraws hscript
    have hsame : t.params = s.params ∧ t.devInfo u = s.devInfo u ∧ t.cur = s.cur := by
      obtain ⟨now, env, rfl⟩ := hpre.state
      exact ⟨rfl, rfl, rfl⟩
    obtain ⟨hparams, hinfo, hcur'⟩ := hsame
    obtain ⟨hcode', hpost⟩ := postSelect_fails (d := d) (s := t) (u := u) (by rw [hcur', hready])
      (by rw [hparams]; exact hn.imp (by omega) hscript)
      (fun j hj => by
        rw [hinfo, hdraws, Nat.zero_add]
        exact hr j (by rw [← hparams]; exact hj))
    refine ⟨hcode', ?_⟩
    have hall := (hpre.trans hpost).after_logs
    rw [hparams, pollEvents_shift (s := s) (i := m + 1) 0 _ hparams hdraws, Nat.add_zero] at hall
    have hsamples : pollEvents 0 m (s.logs [.timing u]) = pollEvents 0 m s := rfl
    simpa only [hsamples, List.append_assoc, List.cons_append, List.nil_append] using hall
  | cached u hu hs hn hr =>
    obtain ⟨hcode, hpost⟩ := postSelect_fails (d := d) (s := s.logs [.timing u]) (u := u) (hready _) hn hr
    rw [selectDevice_cached hu hs, timingHook_logs]
    exact ⟨hcode, hpost.after_logs⟩

end Selection

/-! ## Submissions whose selection fails -/

section Submission

variable {d e : Desc} {x : Result} {es : List Event} {n : Nat} {s t : State}

/-- The selection of a launched command sees what the idle engine shows. -/
theorem SelectFails.launched (h : SelectFails d s x es n) : SelectFails d (launched d s) x es n := by
  cases h with
  | invalidUnit hu => exact .invalidUnit hu
  | preSelect u _ hu hs hn hb he => exact .preSelect u _ hu hs hn hb he
  | postSelect u m hu hs hn hb he hr => exact .postSelect u m hu hs hn hb he hr
  | cached u hu hs hn hr => exact .cached u hu hs hn hr

/-- The selection of a launched command fails (R201 to R206). -/
theorem selectDevice_launched_fails (hp : (isExecOp d.opcode && d.isReset08) = false) (harm : s.timer.armed = false)
    (h : SelectFails d s x es n) : ∃ t, selectDevice (launched d s).cur.unit (launched d s) = (x, t)
      ∧ Unselected es n (launched d s) t ∧ t.cur = inService d phStarted := by
  have hcur := (launched_serving s hp).cur
  obtain ⟨hcode, hstate⟩ := selectDevice_fails (d := d) hcur harm h.launched
  have hkeep : (selectDevice d.unit (launched d s)).2.cur = (launched d s).cur :=
    (selectDevice_handled d.unit (launched d s)).cur_eq (selectDevice_cmds _ _)
  have hunit : (inService d phStarted).unit = d.unit := rfl
  rw [hcur, hunit]
  exact ⟨_, Prod.ext hcode rfl, hstate, hkeep.trans hcur⟩

theorem Unselected.prepared (h : Unselected es n (launched d s) t)
    (hp : (isExecOp d.opcode && d.isReset08) = false) : s.Prepared (inService d phStarted) es t := by
  have hcmds : (Machine.launched d s).cmds = s.cmds ++ [inService d phStarted] := by rw [launched_plain s hp]; rfl
  obtain ⟨now, env, rfl⟩ := h.state
  exact ⟨rfl, hcmds, rfl, did_logs es (launched d s), rfl, rfl, rfl, rfl, rfl, rfl, rfl, rfl, rfl, rfl, rfl⟩

/-- The timer is armed before the command waits (R331). -/
theorem State.Prepared.armed {c : Command} (h : s.Prepared c es t) (k : Nat) :
    s.Prepared c (es ++ [.arm k]) { t.logs [.arm k] with timer := ⟨true, t.now + k⟩ } :=
  ⟨h.current, h.cmds, h.unset, Did.trans h.did (did_logs _ t), h.queue, h.qstate, h.igate, h.snap, h.devInfo0,
    h.devInfo1, h.params, h.bufs, h.host, h.breach, h.inbox⟩

/-- What a failed selection of a launched command leaves, its command in Complete (R206, R244). -/
theorem Unselected.complete (h : Unselected es n (launched d s) t)
    (hp : (isExecOp d.opcode && d.isReset08) = false) :
    s.Prepared (inService d phComplete) es (setPhase phComplete t) ∧ (setPhase phComplete t).selected = none
      ∧ (setPhase phComplete t).irqEn = s.irqEn ∧ (setPhase phComplete t).now = t.now
      ∧ (setPhase phComplete t).mem = s.mem ∧ (setPhase phComplete t).dbuf = s.dbuf
      ∧ (setPhase phComplete t).timer = s.timer ∧ (setPhase phComplete t).bus = .busy := by
  have hprep := h.prepared hp
  have w := hprep.serving.complete
  have hdone : s.Prepared (inService d phComplete) (es ++ []) (setPhase phComplete t) := hprep.work w rfl
  rw [List.append_nil] at hdone
  obtain ⟨hsel, hirq, hnow, hmem, hdbuf, htimer, hbus⟩ := w.fields
  obtain ⟨now, env, rfl⟩ := h.state
  exact ⟨hdone, hsel, hirq, hnow, hmem, hdbuf, htimer, hbus⟩

end Submission

end Sys2Proof.Machine

namespace Sys2Proof.Proofs

open Sys2Proof.Machine

/-- Settles O29: the handler delivers the command with the code of its failed selection (`selectDevice_fails`). -/
theorem registerAccessFails : Obligations.RegisterAccessFails := by
  intro d e i s x es n hi he hidle hacc hfail
  have ho := regaccRow_opcode hi he
  have hp : (isExecOp e.opcode && e.isReset08) = false := by rw [ho]; rfl
  obtain ⟨t, hselect, hstate, -⟩ := selectDevice_launched_fails hp hidle.armed hfail
  obtain ⟨hprep, hsel, hirq, hnow, hmem, hdbuf, -, -⟩ := hstate.complete hp
  have hrun : runHandler (dispatchN 0) (launched e s) = completeIO (dispatchN 0) x (setPhase phComplete t) := by
    rw [runHandler_regaccess (by rw [launched_cur_plain s hp]; exact ho)]
    unfold handleRegAccess
    rw [hselect]
    dsimp only
    rw [if_neg hfail.code_ne]
  obtain ⟨r, hfin, hsame, hdid, hcmd⟩ := submitted_spec x hidle hprep
  exact ⟨_, r, exec_submitted he hidle hacc hprep hrun, hfin, hsame, hdid, hcmd, hsel, hirq,
    hstate.clock.trans hnow.ge, fun hz => hnow.trans (hstate.still hz), fun a => congrArg (Memory.get · a) hmem, hdbuf,
    rfl⟩

/-- Settles O23: the failed selection (`selectDevice_fails`), then the delivery with Offline under noirq, else the
timer. -/
theorem selectionFailure : Obligations.SelectionFailure := by
  intro d e i s x es n hi he h8 hidle hacc hfail
  have hp : (isExecOp e.opcode && e.isReset08) = false := by rw [h8, Bool.and_false]
  obtain ⟨t, hselect, hstate, hcur⟩ := selectDevice_launched_fails hp hidle.armed hfail
  obtain ⟨hprep, hsel, hirq, hnow, hmem, hdbuf, htimer, hbus⟩ := hstate.complete hp
  have ho := execRows_opcode hi he
  have hrun : ∀ dn, runHandler dn (launched e s) = selectionFailed dn t := by
    intro dn
    unfold runHandler handleExecIO
    rw [hselect, if_pos (by rw [launched_cur_plain s hp]; exact ho)]
    dsimp only
    rw [if_pos hfail.code_ne]
  have hclock : s.now + n * s.params.tPoll ≤ (setPhase phComplete t).now := hstate.clock.trans hnow.ge
  have hstill : n = 0 → (setPhase phComplete t).now = s.now := fun hz => hnow.trans (hstate.still hz)
  have hmem' : ∀ a, Memory.get (setPhase phComplete t).mem a = Memory.get s.mem a :=
    fun a => congrArg (Memory.get · a) hmem
  have hflags : t.cur.flags.noirq = e.flags.noirq := by rw [hcur]; rfl
  by_cases hno : e.flags.noirq = true
  · have hdeliver : runHandler (dispatchN 0) (launched e s) = completeIO (dispatchN 0) .offline (setPhase phComplete t) :=
      (hrun _).trans (if_pos (hflags.trans hno))
    obtain ⟨r, hfin, hsame, hdid, hcmd⟩ := submitted_spec .offline hidle hprep
    refine ⟨_, r, exec_submitted he hidle hacc hprep hdeliver, hsame, hsel, hirq, hclock, hstill, hmem', hdbuf, rfl, ?_⟩
    rw [if_pos hno]
    exact ⟨hfin, hcmd, hdid⟩
  · have hparams : t.params = s.params := by obtain ⟨now, env, rfl⟩ := hstate.state; rfl
    have harmed : startTimer s.params.tSelFail (setPhase phComplete t) = _ :=
      startTimer_logs _ _ (by rw [htimer]; exact hidle.armed)
    have hdefer : runHandler (dispatchN 0) (launched e s) = startTimer s.params.tSelFail (setPhase phComplete t) := by
      rw [hrun, selectionFailed, if_neg (by rw [hflags]; exact hno), hparams]
    have hprep' := hprep.armed s.params.tSelFail
    rw [harmed] at hdefer
    obtain ⟨hexec, hwait, hsame, hcmd⟩ := exec_submitted_waits he hidle hacc hprep' hbus rfl hdefer
    refine ⟨_, .noError, hexec, hsame, hsel, hirq, hclock, hstill, hmem', hdbuf, rfl, ?_⟩
    rw [if_neg hno]
    exact ⟨hwait, rfl, hcmd, hprep'.did⟩

end Sys2Proof.Proofs
end

section
/-! Resets whose readiness poll runs out (O31). -/

namespace Sys2Proof.Machine

/-- The state in which the readiness poll of a reset begins (R211, R212, R213). -/
def resetSettled (a : Bool) (s : State) : State := sleep s.params.tSettle (resetPulse a s)

/-- The events of a reset before its readiness poll (R211, R212, R213). -/
def resetEvents (a : Bool) (p : Config.Params) : List Event :=
  (if a then [.w8 .statcmd 0x08#8] else [.w8 .altctl 0x04#8, .sleep p.tSrstHold, .w8 .altctl 0x00#8])
    ++ [.sleep p.tSettle]

theorem resetSettled_did (a : Bool) (s : State) : s.Did (resetSettled a s) (resetEvents a s.params) := by
  rw [did_iff]
  cases a <;> rfl

theorem resetSettled_fields (a : Bool) (s : State) :
    (resetSettled a s).irqEn = (if a then s.irqEn else true)
      ∧ (resetSettled a s).selected = (if a then s.selected else none)
      ∧ (resetSettled a s).cmds = s.cmds ∧ (resetSettled a s).mem = s.mem ∧ (resetSettled a s).dbuf = s.dbuf
      ∧ (resetSettled a s).params = s.params ∧ (resetSettled a s).env.altctl = s.env.altctl := by
  have halt : (resetSettled a s).env.altctl = s.env.altctl := by cases a <;> rfl
  refine ⟨?_, ?_, ?_, ?_, ?_, ?_, halt⟩ <;> cases a <;> simp [resetSettled, resetPulse, irqEnOf, ctlClear]

theorem resetSettled_now (a : Bool) (s : State) :
    s.now + (if a then 0 else s.params.tSrstHold) + s.params.tSettle ≤ (resetSettled a s).now := by
  have hsettle := sleep_now s.params.tSettle (resetPulse a s)
  have hpulse : s.now + (if a then 0 else s.params.tSrstHold) ≤ (resetPulse a s).now := by
    cases a
    · have hhold := sleep_now s.params.tSrstHold (wr8 .altctl ctlSrst s)
      show _ ≤ (sleep s.params.tSrstHold (wr8 .altctl ctlSrst s)).now
      rw [hhold, wr8_now, if_neg Bool.false_ne_true]
      omega
    · exact Nat.le_refl _
  unfold resetSettled
  omega

/-- What a reset that ran out of samples has done from `s` to `t` (R214). -/
structure ResetRanOut (a : Bool) (s t : State) : Prop where
  handled  : Handled s t
  did      : s.Did t (resetEvents a s.params ++ pollEvents 0 s.params.nReset s)
  irqEn    : t.irqEn = if a then s.irqEn else true
  selected : t.selected = if a then s.selected else none
  cmds     : t.cmds = s.cmds
  mem      : t.mem = s.mem
  dbuf     : t.dbuf = s.dbuf
  now      : s.now + (if a then 0 else s.params.tSrstHold) + s.params.tSettle + s.params.nReset * s.params.tPoll ≤ t.now

/-- A reset none of whose samples passes ends with Timeout (R214). -/
theorem softResetBus_ranOut {a : Bool} {s : State} (hs : s.env.altctl ≠ [])
    (hno : ∀ j ≤ s.params.nReset, okReady (!a && s.devInfo0.type == .ata) (s.env.answer .altctl j) = false) :
    ∃ t, softResetBus a s = (.timeout, t) ∧ ResetRanOut a s t := by
  obtain ⟨hirq, hsel, hcmds, hmem, hdbuf, hparams, halt⟩ := resetSettled_fields a s
  have hans : ∀ j, (resetSettled a s).env.answer .altctl j = s.env.answer .altctl j := answer_congr halt hs
  have hpoll := pollStatus_exhausted (N := s.params.nReset) (s := resetSettled a s) (.inr (halt ▸ hs))
    (fun j hj => by rw [hans]; exact hno j hj)
  have hhandled := softResetBus_handled a s
  have heq : softResetBus a s = (.timeout, (pollStatus (okReady (!a && s.devInfo0.type == .ata)) noAbort
      s.params.nReset (resetSettled a s)).state) := Prod.ext hpoll.code rfl
  rw [heq] at hhandled
  refine ⟨_, heq, ?_⟩
  have hclock := hpoll.clock
  have hnow := resetSettled_now a s
  obtain ⟨now, env, hst⟩ := hpoll.state
  rw [hst] at hhandled hclock ⊢
  have hevents : pollEvents 0 s.params.nReset (resetSettled a s) = pollEvents 0 s.params.nReset s :=
    pollEvents_shift (i := 0) 0 _ hparams (fun j => by rw [hans, Nat.zero_add])
  rw [hparams] at hclock
  refine ⟨hhandled, ?_, hirq, hsel, hcmds, hmem, hdbuf, by omega⟩
  rw [← hevents]
  exact Did.trans (resetSettled_did a s) (did_logs _ (resetSettled a s))

section Submission

variable {d : Desc} {s : State}

theorem launched_reset_cur (hrow : dispatchesReset d) : (launched d s).cur = resetRecord d phStarted := by
  simp [launched_dispatchesReset s hrow, State.cur, State.cmd]

/-- A reset without `atapi` is one of the whole bus (P280). -/
theorem handleBusReset_whole (dn : State → State) (hrow : dispatchesReset d) (hatapi : d.flags.atapi = false) :
    handleBusReset dn (launched d s) = finishReset dn .ataReset none (softResetBus false (launched d s)) := by
  unfold handleBusReset
  rw [launched_reset_cur hrow]
  exact if_neg (by rw [show (resetRecord d phStarted).flags = d.flags from rfl, hatapi]; simp)

/-- A reset with `atapi` of a unit of ATAPI type is one of that unit (P280, R282). -/
theorem handleBusReset_scoped (dn : State → State) {u : UnitId} (hrow : dispatchesReset d)
    (hatapi : d.flags.atapi = true) (hu : UnitId.ofByte d.unit = some u) (hty : (s.devInfo u).type = .atapi) :
    handleBusReset dn (launched d s)
      = finishReset dn .atapiReset (some u) (softResetBus true (resetTarget u d s)) := by
  have hreset : atapiReset u (launched d s) = softResetBus true (resetTarget u d s) :=
    if_pos (by rw [launched_devInfo]; exact hty)
  unfold handleBusReset
  rw [launched_reset_cur hrow, if_pos (show (resetRecord d phStarted).flags.atapi = true from hatapi),
    show (resetRecord d phStarted).unit = d.unit from rfl, hu, ← hreset]

end Submission

end Sys2Proof.Machine

namespace Sys2Proof.Proofs

open Sys2Proof.Machine

/-- Settles O31: the reset runs out of samples (`softResetBus_ranOut`), the callout, the delivery with Timeout. -/
theorem resetTimesOut : Obligations.ResetTimesOut := by
  intro d e i s he hidle hacc hs
  refine ⟨fun hi hatapi hno => ?_, fun u hi hatapi hu hty hbusy => ?_⟩
  · have hi' : i ∈ [Instr.busreset d, .busresetAta d, .busresetAtapi d, .execioReset08 d, .atapiExecioReset08 d] := by
      simp only [List.mem_cons, List.not_mem_nil, or_false] at hi ⊢; tauto
    obtain ⟨t, hreset, h⟩ := softResetBus_ranOut (a := false) (s := launched e s) hs hno
    obtain ⟨t', r, hexec, hfin, hsame, hdid, hcmd, hsel, hirq, hnow, hmem, hdbuf, hret⟩ := exec_reset hi' he hidle hacc
      h.handled h.cmds h.did
      (fun dn => (handleBusReset_whole dn (resetRow_dispatches hi' he) hatapi).trans (by rw [hreset]))
    exact ⟨t', r, hexec, hfin, hsame, hdid, hcmd, hsel.trans h.selected, hirq.trans h.irqEn, h.now.trans hnow.ge,
      fun a => congrArg (Memory.get · a) (hmem.trans h.mem), hdbuf.trans h.dbuf, hret⟩
  · have hi' : i ∈ [Instr.busreset d, .busresetAta d, .busresetAtapi d, .execioReset08 d, .atapiExecioReset08 d] := by
      simp only [List.mem_cons, List.not_mem_nil, or_false] at hi ⊢; tauto
    have hselect : s.Did (resetTarget u e s) [.w8 .devhead u.selectValue] := (did_iff _ _ _).mpr rfl
    obtain ⟨t, hreset, h⟩ := softResetBus_ranOut (a := true) (s := resetTarget u e s) hs
      (fun j hj => by simp [okReady, show bsy ((resetTarget u e s).env.answer .altctl j) = true from hbusy j hj])
    obtain ⟨t', r, hexec, hfin, hsame, hdid, hcmd, hsel, hirq, hnow, hmem, hdbuf, hret⟩ := exec_reset hi' he hidle hacc
      ((resetTarget_handled u e s).trans h.handled) h.cmds (Did.trans hselect h.did)
      (fun dn => (handleBusReset_scoped dn (resetRow_dispatches hi' he) hatapi hu hty).trans (by rw [hreset]))
    exact ⟨t', r, hexec, hfin, hsame, hdid, hcmd, hsel.trans h.selected, hirq.trans h.irqEn, h.now.trans hnow.ge,
      fun a => congrArg (Memory.get · a) (hmem.trans h.mem), hdbuf.trans h.dbuf, hret⟩

end Sys2Proof.Proofs
end

section
/-! The taskfile of an asynchronous command issued in the action that submits it to a ready device, or the DMA start that
its hook refuses (O19). -/

namespace Sys2Proof.Machine

variable {d : Desc} {u : UnitId} {s : State}

theorem armedReady_prepared (u : UnitId) (s : State) (h : (isExecOp d.opcode && d.isReset08) = false) :
    s.Prepared (inService d phStarted) (selectEvents u s ++ [.arm (d.timeoutMs.toNat * 1000)]) (armedReady u d s) := by
  have hsel := (Works.refl (selectedReady_serving u s h)).prepared rfl
  rw [List.append_nil] at hsel
  exact hsel.armed _

/-- The Started phase of `c` starts the DMA: that of a DMA command without packet (R260). -/
def startsDma (c : Command) : Bool := c.flags.dma && !hasPacket c

/-- The Started phase issues the taskfile, after a DMA start that the hook accepts (R251, R260). -/
theorem startedPhase_issues {id : Nat} {c : Command} {t : State} (h : t.Serving id c)
    (hdma : startsDma c = true → t.env.startDma.head? = some .noError) :
    ∃ v, startedPhase t = (.noError, v)
      ∧ Works id ((if startsDma c then [.startDma .noError] else []) ++ taskfileEvents c.toDesc)
          { c with state := phaseAfterStart c } t v := by
  have hstart : ∃ v, (if startsDma c then startDma t else (.noError, t)) = (.noError, v)
      ∧ Works id (if startsDma c then [.startDma .noError] else []) c t v := by
    by_cases hd : startsDma c = true
    · obtain ⟨env, he⟩ := startDma_logs (hdma hd)
      simp only [if_pos hd, he]
      exact ⟨_, rfl, h.works_logs _ env⟩
    · simp only [if_neg hd]
      exact ⟨_, rfl, .refl h⟩
  obtain ⟨v, hv, w⟩ := hstart
  have hserve := w.serving h
  have w' := w.trans (hserve.works_logs (taskfileEvents c.toDesc) v.env)
  refine ⟨_, ?_, w'.modCur h (fun c' => { c' with state := phaseAfterStart c })⟩
  unfold startedPhase
  rw [h.cur]
  dsimp only
  rw [← startsDma, hv, if_pos rfl, issueTaskfile_logs, hserve.cur]
  rfl

/-- The Started step ends with the taskfile but for a packet that may be sent at once and an ATA PIO write (R252, R255).
-/
theorem startedStep_stops {v : State} (h : startedPhase s = (.noError, v))
    (hpacket : v.cur.state = phPacketIssue → drqImmediate v.cur.unit v = false)
    (hwrite : v.cur.state = phDataTransfer → isPIOWriteATA v.cur = false) : startedStep s = (.noError, v) := by
  unfold startedStep
  rw [h]
  dsimp only
  rw [if_neg (by simp), if_neg (by simpa using hpacket), if_neg (by simpa using hwrite)]

theorem drqImmediate_irqFirst {unit : Byte} (hu : UnitId.ofByte unit = some u) (h : (s.devInfo u).pmode = .irqFirst) :
    drqImmediate unit s = false := by
  simp [drqImmediate, hu, h]

theorem Works.devInfo {id : Nat} {c : Command} {es : List Event} {t : State} (w : Works id es c s t) (u : UnitId) :
    t.devInfo u = s.devInfo u := by
  obtain ⟨e, rfl⟩ := w
  rfl

/-- The Started step of a command that does not go on in the same call: a packet command in the IRQFirst mode, or one
without packet that is no ATA PIO write (R251, R252, R255). -/
theorem startedStep_issues {id : Nat} {c : Command} {t : State} (h : t.Serving id c)
    (hu : UnitId.ofByte c.unit = some u) (hdma : startsDma c = true → t.env.startDma.head? = some .noError)
    (hmode : if hasPacket c then (t.devInfo u).pmode = .irqFirst else isPIOWriteATA c = false) :
    ∃ v, startedStep t = (.noError, v)
      ∧ Works id ((if startsDma c then [.startDma .noError] else []) ++ taskfileEvents c.toDesc)
          { c with state := phaseAfterStart c } t v := by
  obtain ⟨v, hphase, w⟩ := startedPhase_issues h hdma
  refine ⟨v, startedStep_stops hphase ?_ ?_, w⟩ <;> rw [(w.serving h).cur] <;> intro hph
  · by_cases hp : hasPacket c = true
    · rw [if_pos hp] at hmode
      exact drqImmediate_irqFirst hu (by rw [w.devInfo]; exact hmode)
    · exact absurd hph (by simp only [phaseAfterStart, if_neg hp]; split <;> decide)
  · by_cases hp : hasPacket c = true
    · exact absurd hph (by simp only [phaseAfterStart, if_pos hp]; decide)
    · rw [if_neg hp] at hmode
      exact hmode

/-- The Started step whose DMA start the hook refuses: no taskfile, the status phase (R250, R260). -/
theorem startedStep_refused {id : Nat} {c : Command} {t : State} {x : Result} (h : t.Serving id c)
    (hd : startsDma c = true) (hx : t.env.startDma.head? = some x) (hne : x ≠ .noError) :
    ∃ v, startedStep t = statusPhase x v ∧ Works id [.startDma x] c t v := by
  obtain ⟨env, he⟩ := startDma_logs hx
  refine ⟨_, ?_, h.works_logs [.startDma x] env⟩
  have hphase : startedPhase t = (x, { t.logs [.startDma x] with env := env }) := by
    unfold startedPhase
    rw [h.cur, ← startsDma, if_pos hd, he]
    exact if_neg hne
  unfold startedStep
  rw [hphase]
  exact if_pos hne

theorem phaseAfterStart_ne_complete (c : Command) : phaseAfterStart c ≠ phComplete := by
  unfold phaseAfterStart
  split
  · decide
  · split <;> decide

/-- The handler of an asynchronous command on a ready device takes its Started step, and delivers the command if that
completes it (P242, P246, P250). -/
theorem runHandler_started {dn : State → State} (ho : isExecOp d.opcode = true) (h8 : d.isReset08 = false)
    (harm : s.timer.armed = false) (hasync : d.flags.noirq = false) (hu : UnitId.ofByte d.unit = some u)
    (hr : DeviceReady u d s) :
    runHandler dn (launched d s)
      = if (startedStep (armedReady u d s)).2.cur.state = phComplete
        then completeIO dn (startedStep (armedReady u d s)).1 (startedStep (armedReady u d s)).2
        else (startedStep (armedReady u d s)).2 := by
  have hex : (isExecOp d.opcode && d.isReset08) = false := by rw [h8, Bool.and_false]
  have hcur := (launched_serving s hex).cur
  have hselected : selectDevice (launched d s).cur.unit (launched d s) = (.noError, selectedReady u d s) :=
    selectDevice_launched hex hu hr
  have hstarted : startTimer (timeoutUs (inService d phStarted)) (selectedReady u d s) = armedReady u d s :=
    startTimer_logs _ _ harm
  have hstep : phaseStep (armedReady u d s) = startedStep (armedReady u d s) :=
    if_pos (by rw [(armedReady_prepared u s hex).serving.cur]; rfl)
  unfold runHandler handleExecIO
  rw [hselected, hcur, if_pos (show isExecOp (inService d phStarted).opcode = true from ho)]
  dsimp only
  rw [if_neg (by simp), if_neg (by simp [inService, Command.fresh, hasync]), hstarted, asyncIO, hstep]

end Sys2Proof.Machine

namespace Sys2Proof.Proofs

open Sys2Proof.Machine

/-- Settles O19: the Started step on a ready device issues the taskfile (`startedPhase_issues`), or its DMA start is
refused and the command ends with that code. -/
theorem taskfileIssued : Obligations.TaskfileIssued := by
  intro d e i u s hi he h8 hidle hacc hasync hu hr
  have ho := execRows_opcode hi he
  have hex : (isExecOp e.opcode && e.isReset08) = false := by rw [h8, Bool.and_false]
  have hrun := runHandler_started (dn := dispatchN 0) ho h8 hidle.armed hasync hu hr
  have hprep := armedReady_prepared u s hex
  have hhook : (armedReady u e s).env.startDma = s.env.startDma := reads_startDma _ _
  refine ⟨fun hdma hmode => ?_, fun x hd hp hx hne => ?_⟩
  · obtain ⟨t, hstep, w⟩ := startedStep_issues hprep.serving hu
      (fun hd => by
        obtain ⟨hd, hp⟩ := (Bool.and_eq_true _ _).mp hd
        rw [hhook]
        exact hdma hd ((Bool.not_eq_true' _).mp hp))
      hmode
    have hdone := hprep.work w rfl
    rw [hstep, hdone.serving.cur, if_neg (phaseAfterStart_ne_complete _)] at hrun
    obtain ⟨hsel, hirq, hnow, hmem, hdbuf, htimer, hbus⟩ := w.fields
    obtain ⟨hexec, hwait, hsame, hcmd⟩ := exec_submitted_waits he hidle hacc hdone hbus (by rw [htimer]; rfl) hrun
    refine ⟨_, hexec, hwait, hsame, hcmd, ?_, by rw [htimer]; rfl, hnow, hsel, hirq,
      fun a => congrArg (Memory.get · a) hmem, hdbuf, rfl⟩
    have hdid := hdone.did
    simp only [List.append_assoc] at hdid ⊢
    exact hdid
  · obtain ⟨t, hstep, w⟩ := startedStep_refused hprep.serving
      ((Bool.and_eq_true _ _).mpr ⟨hd, (Bool.not_eq_true' _).mpr hp⟩) (by rw [hhook]; exact hx) hne
    rw [hstep] at hrun
    obtain ⟨hsel, hirq, hnow, hmem, hdbuf, -, -⟩ := w.fields
    obtain ⟨t', hexec, hsel', hnow', hret, hended⟩ := exec_statusPhase he hidle hacc hne (hprep.work w rfl) hirq hmem
      hdbuf hrun
    refine ⟨t', hexec, hsel'.trans hsel, hnow'.trans hnow, hret, ?_⟩
    simp only [List.append_assoc] at hended ⊢
    exact hended

end Sys2Proof.Proofs
end

section
/-! SCAN: what it can do whatever the devices answer (O46), and what it finds where both units answer the same (O47). -/

namespace Sys2Proof.Machine

/-! ## Probes of the bus -/

/-- From `s` to `t` the scan accessed ports and slept: only the trace, the clock, the draws and `irqEn` differ. -/
def Probed (s t : State) : Prop :=
  ∃ tr now env irq, s.now ≤ now ∧ t = { s with traceRev := tr, now := now, env := env, irqEn := irq }

theorem Probed.refl (s : State) : Probed s s := ⟨_, _, _, _, Nat.le_refl _, rfl⟩

theorem Probed.trans {a b c : State} (h : Probed a b) (k : Probed b c) : Probed a c := by
  obtain ⟨_, _, _, _, hn, rfl⟩ := h
  obtain ⟨tr, now, env, irq, hm, rfl⟩ := k
  exact ⟨tr, now, env, irq, hn.trans hm, rfl⟩

theorem wr8_probed (r : Reg) (v : Byte) (s : State) : Probed s (wr8 r v s) := ⟨_, _, _, _, Nat.le_refl _, rfl⟩
theorem rd8_probed (r : Reg) (s : State) : Probed s (rd8 r s).2 := ⟨_, _, _, _, Nat.le_refl _, rfl⟩
theorem writeControl_probed (v : Byte) (s : State) : Probed s (writeControl v s) := ⟨_, _, _, _, Nat.le_refl _, rfl⟩
theorem logs_probed (es : List Event) (s : State) : Probed s (s.logs es) := ⟨_, _, _, _, Nat.le_refl _, rfl⟩
theorem sleep_probed (d : Nat) (s : State) : Probed s (sleep d s) :=
  ⟨_, _, _, _, by rw [Nat.add_assoc]; exact Nat.le_add_right _ _, rfl⟩

theorem readWords_probed (n : Nat) (s : State) : Probed s (readWords n s).2 := by
  rw [readWords_logs]
  exact ⟨_, _, _, _, Nat.le_refl _, rfl⟩

theorem pollStatus_probed (ok : Byte → Bool) (abort : Byte → State → Option Result) (n : Nat) (s : State) :
    Probed s (pollStatus ok abort n s).state := by
  induction n generalizing s with
  | zero =>
    unfold pollStatus
    dsimp only
    split
    · exact rd8_probed _ s
    · split <;> exact rd8_probed _ s
  | succ n ih =>
    unfold pollStatus
    dsimp only
    split
    · exact rd8_probed _ s
    split
    · exact rd8_probed _ s
    · exact ((rd8_probed _ s).trans (sleep_probed _ _)).trans (ih _)

theorem scanSelect_probed (u : UnitId) (s : State) : Probed s (scanSelect u s).state :=
  (wr8_probed _ _ s).trans (pollStatus_probed _ _ _ _)

theorem readSignature_probed (s : State) : Probed s (readSignature s).2 :=
  ((((rd8_probed .cyllo s).trans (rd8_probed .cylhi _)).trans (rd8_probed .scnt _)).trans
    (rd8_probed .snum _)).trans (rd8_probed .altctl _)

theorem atapiSlaveExists_probed (s : State) : Probed s (atapiSlaveExists s).2 := by
  have h := ((writeControl_probed ctlNIen s).trans (wr8_probed .statcmd Config.cmdIdentifyPacket _)).trans
    (pollStatus_probed okNotBusy noAbort s.params.nProbe _)
  unfold atapiSlaveExists
  dsimp only
  split
  · exact h.trans (readWords_probed _ _)
  · exact h

/-! ## The findings of a scan -/

/-- How much a unit of a type adds to the count of a scan (R228). -/
def foundAs (ty : DevType) : Nat := if ty = .unknown then 0 else 1

/-- A unit is classified after probes of the bus, and counted by its type (R223 to R228). -/
def Classifies (u : UnitId) (s : State) (r : Nat × State) : Prop :=
  ∃ ty p, Probed s p ∧ r = (foundAs ty, setType u ty p)

theorem Classifies.after {u : UnitId} {s t : State} {r : Nat × State} (h : Probed s t) (k : Classifies u t r) :
    Classifies u s r := by
  obtain ⟨ty, p, hp, rfl⟩ := k
  exact ⟨ty, p, h.trans hp, rfl⟩

theorem classify_classifies (u : UnitId) (s : State) : Classifies u s (classify u s) := by
  have hsig := readSignature_probed s
  unfold classify
  dsimp only
  split
  · split
    · split
      · exact ⟨.atapi, _, hsig.trans (atapiSlaveExists_probed _), rfl⟩
      · exact ⟨.unknown, _, hsig.trans (atapiSlaveExists_probed _), rfl⟩
    · exact ⟨.atapi, _, hsig, rfl⟩
  split
  · exact ⟨.ata, _, hsig, rfl⟩
  · exact ⟨.unknown, _, hsig, rfl⟩

theorem scanUnit1_classifies (s : State) : Classifies .u1 s (scanUnit1 s) := by
  have hsel := scanSelect_probed .u1 s
  unfold scanUnit1
  dsimp only
  split
  · exact .after hsel (classify_classifies _ _)
  · exact ⟨.unknown, _, hsel, rfl⟩

/-- Probes after the table entry of unit 0 was written are probes before it. -/
theorem Probed.setType_comm {ty : DevType} {s t : State} (h : Probed (setType .u0 ty s) t) :
    ∃ p, Probed s p ∧ t = setType .u0 ty p := by
  obtain ⟨tr, now, env, irq, hn, rfl⟩ := h
  exact ⟨_, ⟨tr, now, env, irq, hn, rfl⟩, rfl⟩

/-- The scan loop classifies both units (P220). -/
theorem scanUnits_classifies (s : State) : ∃ ty0 ty1 p, Probed s p
    ∧ scanUnits s = (foundAs ty0 + foundAs ty1, setType .u1 ty1 (setType .u0 ty0 p)) := by
  have hsel := scanSelect_probed .u0 s
  unfold scanUnits
  dsimp only
  split
  · obtain ⟨ty0, p0, hp0, h0⟩ := classify_classifies .u0 (scanSelect .u0 s).state
    rw [h0]
    obtain ⟨ty1, p1, hp1, h1⟩ := scanUnit1_classifies (setType .u0 ty0 p0)
    obtain ⟨p, hp, rfl⟩ := hp1.setType_comm
    exact ⟨ty0, ty1, p, (hsel.trans hp0).trans hp, by rw [h1]⟩
  · exact ⟨.unknown, .unknown, _, hsel, rfl⟩

/-! ## A bus with constant answers -/

/-- The constant answers of a bus whose both units show the signature `g` (R223). -/
structure State.Shows (g : Signature) (s : State) : Prop where
  alt : s.env.altctl = [g.alt]
  lo  : s.env.cyllo = [g.lo]
  hi  : s.env.cylhi = [g.hi]
  sc  : s.env.scnt = [g.sc]
  sn  : s.env.snum = [g.sn]

variable {g : Signature} {s : State}

theorem State.Shows.logs (h : s.Shows g) (es : List Event) : (s.logs es).Shows g := ⟨h.alt, h.lo, h.hi, h.sc, h.sn⟩

theorem State.Shows.setType (h : s.Shows g) (u : UnitId) (ty : DevType) : (setType u ty s).Shows g := by
  cases u <;> exact ⟨h.alt, h.lo, h.hi, h.sc, h.sn⟩

theorem byteRead_constant {e : Env} {r : Reg} {v : Byte} (h : e.bytes r = [v]) : e.byteRead r = e := by
  obtain ⟨⟩ := e
  cases r <;> dsimp only [Env.bytes] at h <;> subst h <;> rfl

/-- A read of a constant answer leaves the draws as they are (entry 4). -/
theorem rd8_constant {r : Reg} {v : Byte} (h : s.env.bytes r = [v]) : rd8 r s = (v, s.logs [.r8 r v]) := by
  have hans : s.env.byteAnswer r = v := byteAnswer_head (by rw [h]; rfl)
  refine Prod.ext hans ?_
  rw [rd8_logs, hans, byteRead_constant h]
  rfl

/-- A poll for not-busy of a bus that is not busy (R221, R222). -/
theorem State.Shows.poll (h : s.Shows g) (hb : bsy g.alt = false) (n : Nat) :
    pollStatus okNotBusy noAbort n s = ⟨.noError, g.alt, s.logs [.r8 .altctl g.alt]⟩ := by
  have hans : s.env.byteAnswer .altctl = g.alt := byteAnswer_head (congrArg List.head? h.alt)
  rw [pollStatus_first _ _ _ _ (by rw [hans]; simp [okNotBusy, hb]), hans,
    byteRead_constant (r := .altctl) h.alt]
  rfl

/-- The events of the signature reads (R223). -/
def signatureEvents (g : Signature) : List Event :=
  [.r8 .cyllo g.lo, .r8 .cylhi g.hi, .r8 .scnt g.sc, .r8 .snum g.sn, .r8 .altctl g.alt]

theorem State.Shows.signature (h : s.Shows g) : readSignature s = (g, s.logs (signatureEvents g)) := by
  have hlogs := h.logs
  unfold readSignature
  simp only [rd8_constant (r := .cyllo) h.lo, rd8_constant (r := .cylhi) (hlogs _).hi,
    rd8_constant (r := .scnt) (hlogs _).sc, rd8_constant (r := .snum) (hlogs _).sn,
    rd8_constant (r := .altctl) (hlogs _).alt, logs_logs]
  rfl

/-- The select and the poll of a unit that is not busy (R222). -/
theorem State.Shows.select (h : s.Shows g) (hb : bsy g.alt = false) (u : UnitId) :
    scanSelect u s = ⟨.noError, g.alt, s.logs [.w8 .devhead u.selectValue, .r8 .altctl g.alt]⟩ := by
  unfold scanSelect
  rw [wr8_logs, (h.logs _).poll hb, logs_logs]
  rfl

/-- The type that a signature shows (R224, R226). -/
def Signature.type (g : Signature) : DevType := if g.isAtapi then .atapi else if g.isAta then .ata else .unknown

/-- A unit that needs no probe is classified by its signature (R223 to R226). -/
theorem State.Shows.classify (h : s.Shows g) {u : UnitId}
    (hp : g.isAtapi = true → (u == .u1 && s.devInfo0.type == .atapi) = false) :
    classify u s = (foundAs g.type, Machine.setType u g.type (s.logs (signatureEvents g))) := by
  unfold Machine.classify Signature.type
  rw [h.signature]
  dsimp only
  by_cases ha : g.isAtapi = true
  · rw [if_pos ha, if_pos ha, if_neg]
    · rfl
    · rw [show (s.logs (signatureEvents g)).devInfo0 = s.devInfo0 from rfl, hp ha]; simp
  · rw [if_neg ha, if_neg ha]
    split <;> rfl

/-- The probe of unit 1 shows data or none, and leaves interrupts off (R225). -/
theorem State.Shows.probe (h : s.Shows g) (hb : bsy g.alt = false) :
    (atapiSlaveExists s).1 = probeHasData g.alt ∧ (atapiSlaveExists s).2.irqEn = false := by
  have hshows : (wr8 .statcmd Config.cmdIdentifyPacket (writeControl ctlNIen s)).Shows g :=
    ⟨h.alt, h.lo, h.hi, h.sc, h.sn⟩
  unfold atapiSlaveExists
  rw [hshows.poll hb]
  dsimp only
  by_cases hd : probeHasData g.alt = true
  · rw [hd, if_pos (by simp)]
    exact ⟨rfl, (readWords_kept _ _).irqEn⟩
  · rw [Bool.not_eq_true] at hd
    rw [hd, if_neg (by simp)]
    exact ⟨rfl, rfl⟩

/-- The type that unit 1 gets when both units show `g`: behind an ATAPI unit 0 the probe decides (R225). -/
def Signature.type1 (g : Signature) : DevType :=
  if g.isAtapi then if probeHasData g.alt then .atapi else .unknown else g.type

/-- `irqEn` after a scan of units that show `g`: a probe leaves interrupts off (R225). -/
def Signature.irqEn (g : Signature) (irq : Bool) : Bool := if g.isAtapi then false else irq

/-- Unit 1 is classified after unit 0 of the same signature (R223 to R226). -/
theorem State.Shows.classify1 (h : s.Shows g) (hb : bsy g.alt = false) (h0 : s.devInfo0.type = g.type) :
    ∃ p, Probed s p ∧ p.irqEn = g.irqEn s.irqEn
      ∧ Machine.classify .u1 s = (foundAs g.type1, Machine.setType .u1 g.type1 p) := by
  by_cases ha : g.isAtapi = true
  · have hsig := h.logs (signatureEvents g)
    obtain ⟨hdata, hirq⟩ := hsig.probe hb
    refine ⟨(atapiSlaveExists (s.logs (signatureEvents g))).2,
      (logs_probed _ s).trans (atapiSlaveExists_probed _), by rw [hirq, Signature.irqEn, if_pos ha], ?_⟩
    have hprobe : (UnitId.u1 == UnitId.u1 && (s.logs (signatureEvents g)).devInfo0.type == .atapi) = true := by
      rw [show (s.logs (signatureEvents g)).devInfo0 = s.devInfo0 from rfl, h0, Signature.type, if_pos ha]; rfl
    unfold Machine.classify
    rw [h.signature]
    dsimp only
    rw [if_pos ha, if_pos hprobe, hdata, Signature.type1, if_pos ha]
    split <;> rfl
  · refine ⟨_, logs_probed (signatureEvents g) s, by rw [Signature.irqEn, if_neg ha]; rfl, ?_⟩
    rw [h.classify (fun ht => absurd ht ha), Signature.type1, if_neg ha]

/-- The events of the selection of a unit that is not busy (R222). -/
def scanSelectEvents (u : UnitId) (g : Signature) : List Event := [.w8 .devhead u.selectValue, .r8 .altctl g.alt]

theorem State.Shows.scanUnit1 (h : s.Shows g) (hb : bsy g.alt = false) :
    Machine.scanUnit1 s = Machine.classify .u1 (s.logs (scanSelectEvents .u1 g)) := by
  unfold Machine.scanUnit1
  rw [h.select hb]
  exact if_pos rfl

/-- The scan loop of a bus whose units both show `g` (P220). -/
theorem State.Shows.scanUnits (h : s.Shows g) (hb : bsy g.alt = false) :
    ∃ p, Probed s p ∧ p.irqEn = g.irqEn s.irqEn ∧ Machine.scanUnits s
      = (foundAs g.type + foundAs g.type1, Machine.setType .u1 g.type1 (Machine.setType .u0 g.type p)) := by
  have hsel := h.logs (scanSelectEvents .u0 g)
  have hclass0 := hsel.classify (u := .u0) (fun _ => rfl)
  have hfirst := (hsel.logs (signatureEvents g)).setType .u0 g.type
  obtain ⟨p1, hp1, hirq, hclass1⟩ := (hfirst.logs (scanSelectEvents .u1 g)).classify1 hb rfl
  obtain ⟨p, hp, rfl⟩ := ((logs_probed _ _).trans hp1).setType_comm
  refine ⟨p, ((logs_probed _ s).trans (logs_probed _ _)).trans hp, hirq, ?_⟩
  unfold Machine.scanUnits
  rw [h.select hb]
  dsimp only
  rw [if_pos rfl, ← scanSelectEvents, hclass0, hfirst.scanUnit1 hb, hclass1]

/-! ## A scan -/

/-- The end of a scan that left the table entries `ty0` and `ty1` (R222, R228). -/
def scanned (ty0 ty1 : DevType) (p : State) : State :=
  { setType .u1 ty1 (setType .u0 ty0 p) with selected := none }

/-- A scan whose first poll passes classifies both units; one whose first poll fails classifies none (P220). -/
theorem scanForDrives_cases (s : State) : ∃ p, Probed s p
    ∧ if (pollStatus okNotBusy noAbort s.params.nScan s).code = .noError then
        ∃ ty0 ty1, scanForDrives s = (foundAs ty0 + foundAs ty1, scanned ty0 ty1 p)
      else scanForDrives s = (0, { p with selected := none }) := by
  have hpoll := pollStatus_probed okNotBusy noAbort s.params.nScan s
  unfold scanForDrives
  dsimp only
  by_cases hc : (pollStatus okNotBusy noAbort s.params.nScan s).code = .noError
  · obtain ⟨ty0, ty1, p, hp, he⟩ := scanUnits_classifies (pollStatus okNotBusy noAbort s.params.nScan s).state
    refine ⟨wr8 .devhead UnitId.u0.selectValue p, (hpoll.trans hp).trans (wr8_probed _ _ _), ?_⟩
    rw [if_pos hc, if_pos hc, he]
    exact ⟨ty0, ty1, rfl⟩
  · refine ⟨wr8 .devhead UnitId.u0.selectValue _, hpoll.trans (wr8_probed _ _ _), ?_⟩
    rw [if_neg hc, if_neg hc]

/-- A scan of a bus whose units both show `g` finds the types that `g` shows (P220). -/
theorem State.Shows.scanForDrives (h : s.Shows g) (hb : bsy g.alt = false) :
    ∃ p, Probed s p ∧ p.irqEn = g.irqEn s.irqEn
      ∧ Machine.scanForDrives s = (foundAs g.type + foundAs g.type1, scanned g.type g.type1 p) := by
  obtain ⟨p, hp, hirq, he⟩ := (h.logs [.r8 .altctl g.alt]).scanUnits hb
  refine ⟨wr8 .devhead UnitId.u0.selectValue p, ((logs_probed _ s).trans hp).trans (wr8_probed _ _ _), hirq, ?_⟩
  unfold Machine.scanForDrives
  rw [h.poll hb]
  dsimp only
  rw [if_pos rfl, he]
  rfl

/-- SCAN between commands and callouts answers what the scan found (R220, R228). -/
theorem exec_scan {n : Nat} {t : State} (hc : s.current = none) (hs : s.snap = []) (h : scanForDrives s = (n, t)) :
    exec .scan s = .next { t with ret := .count n } := by
  have hexec : exec .scan s = .next { (scanForDrives s).2 with ret := .count (scanForDrives s).1 } :=
    if_pos ((scanAdmitted_iff s).mpr ⟨hc, hs⟩)
  rw [hexec, h]

theorem Signature.isAtapi_iff (g : Signature) : g.isAtapi = true ↔ g.lo = 0x14#8 ∧ g.hi = 0xEB#8 := by
  simp [Signature.isAtapi, Config.sigAtapi]

theorem Signature.isAta_iff (g : Signature) : g.isAta = true ↔ g.sc = 0x01#8 ∧ g.sn = 0x01#8 ∧ g.lo = 0x00#8
    ∧ g.hi = 0x00#8 ∧ drdy g.alt = true ∧ err g.alt = false := by
  simp [Signature.isAta, Config.sigAta, and_assoc]

end Sys2Proof.Machine

namespace Sys2Proof.Proofs

open Sys2Proof.Machine

/-- Settles O46: a scan probes the bus, and writes the table if its first poll passes (`scanForDrives_cases`). -/
theorem scanSettles : Obligations.ScanSettles := by
  intro s hc hs
  obtain ⟨p, ⟨tr, now, env, irq, hnow, rfl⟩, h⟩ := scanForDrives_cases s
  by_cases hpoll : (pollStatus okNotBusy noAbort s.params.nScan s).code = .noError
  · rw [if_pos hpoll] at h
    obtain ⟨ty0, ty1, he⟩ := h
    refine ⟨_, _, exec_scan hc hs he, rfl, rfl, ?_, rfl, rfl, rfl, rfl, rfl, rfl, rfl, rfl, rfl, fun _ => rfl, rfl, rfl,
      rfl, rfl, rfl, hnow⟩
    rw [if_pos hpoll]
    rfl
  · rw [if_neg hpoll] at h
    refine ⟨_, _, exec_scan hc hs h, rfl, rfl, ?_, rfl, rfl, rfl, rfl, rfl, rfl, rfl, rfl, rfl, fun _ => rfl, rfl, rfl,
      rfl, rfl, rfl, hnow⟩
    rw [if_neg hpoll]
    exact ⟨rfl, rfl, rfl⟩

/-- Settles O47: both units show one signature (`State.Shows.scanForDrives`), which is ATAPI, ATA or neither. -/
theorem scanClassifies : Obligations.ScanClassifies := by
  intro s v lo hi sc sn hc hs halt hb hlo hhi hsc hsn
  have hshows : s.Shows ⟨lo, hi, sc, sn, v⟩ := ⟨halt, hlo, hhi, hsc, hsn⟩
  have hatapi := Signature.isAtapi_iff ⟨lo, hi, sc, sn, v⟩
  have hata := Signature.isAta_iff ⟨lo, hi, sc, sn, v⟩
  obtain ⟨p, ⟨tr, now, env, irq, -, rfl⟩, hirq, he⟩ := hshows.scanForDrives hb
  refine ⟨_, exec_scan hc hs he, rfl, rfl, ?_⟩
  by_cases ha : (⟨lo, hi, sc, sn, v⟩ : Signature).isAtapi = true
  · have hty : (⟨lo, hi, sc, sn, v⟩ : Signature).type = .atapi := if_pos ha
    have hty1 : (⟨lo, hi, sc, sn, v⟩ : Signature).type1 = if probeHasData v then .atapi else .unknown := if_pos ha
    rw [if_pos (hatapi.mp ha)]
    refine ⟨hty, hirq.trans (if_pos ha), ?_⟩
    rw [hty, hty1]
    by_cases hd : probeHasData v = true
    · rw [if_pos hd, if_pos (show (drq v && !err v) = true from hd)]
      exact ⟨rfl, rfl⟩
    · rw [if_neg hd, if_neg (show ¬ (drq v && !err v) = true from hd)]
      exact ⟨rfl, rfl⟩
  · have hty1 : (⟨lo, hi, sc, sn, v⟩ : Signature).type1 = (⟨lo, hi, sc, sn, v⟩ : Signature).type := if_neg ha
    have hirq' := hirq.trans (if_neg ha)
    rw [if_neg (fun h => ha (hatapi.mpr h)), hty1]
    by_cases ht : (⟨lo, hi, sc, sn, v⟩ : Signature).isAta = true
    · have hty : (⟨lo, hi, sc, sn, v⟩ : Signature).type = .ata := (if_neg ha).trans (if_pos ht)
      rw [if_pos (hata.mp ht), hty]
      exact ⟨rfl, rfl, rfl, hirq'⟩
    · have hty : (⟨lo, hi, sc, sn, v⟩ : Signature).type = .unknown := (if_neg ha).trans (if_neg ht)
      rw [if_neg (fun h => ht (hata.mpr h)), hty]
      exact ⟨rfl, rfl, rfl, hirq'⟩

end Sys2Proof.Proofs
end

section
/-! What CONFIG changes (O48), and resets of a unit that is no ATAPI device (O33). -/

namespace Sys2Proof.Machine

variable {d : Desc} {s : State}

/-- A reset with `atapi` of a unit of another type does not touch the bus (P280, R282). -/
theorem handleBusReset_elsewhere (dn : State → State) {u : UnitId} (hrow : dispatchesReset d)
    (hatapi : d.flags.atapi = true) (hu : UnitId.ofByte d.unit = some u) (hty : (s.devInfo u).type ≠ .atapi) :
    handleBusReset dn (launched d s) = finishReset dn .atapiReset (some u) (.noError, launched d s) := by
  have hreset : atapiReset u (launched d s) = (.noError, launched d s) :=
    if_neg (by rw [launched_devInfo]; exact hty)
  unfold handleBusReset
  rw [launched_reset_cur hrow, if_pos (show (resetRecord d phStarted).flags.atapi = true from hatapi),
    show (resetRecord d phStarted).unit = d.unit from rfl, hu, ← hreset]

/-- A reset with `atapi` of an invalid unit is delivered at once (P280, R281). -/
theorem handleBusReset_noUnit (dn : State → State) (hrow : dispatchesReset d) (hatapi : d.flags.atapi = true)
    (hu : UnitId.ofByte d.unit = none) :
    handleBusReset dn (launched d s) = completeIO dn .invalidArgument (setPhase phComplete (launched d s)) := by
  unfold handleBusReset
  rw [launched_reset_cur hrow, if_pos (show (resetRecord d phStarted).flags.atapi = true from hatapi),
    show (resetRecord d phStarted).unit = d.unit from rfl, hu]

/-- A launched reset that is taken to Complete, nothing else done. -/
theorem launchedReset_complete (hrow : dispatchesReset d) :
    setPhase phComplete (launched d s) = { launched d s with cmds := s.cmds ++ [resetRecord d phComplete] } := by
  simp only [setPhase, State.modCur, launched_dispatchesReset s hrow, State.modCmd, modify_append_last]
  rfl

end Sys2Proof.Machine

namespace Sys2Proof.Proofs

open Sys2Proof.Machine

/-- Settles O48: CONFIG of a unit of the bus writes that unit's packet mode (R292). -/
theorem configSets : Obligations.ConfigSets := fun _ _ => ⟨rfl, rfl⟩

/-- Settles O33: a unit of another type gets only the callout (`handleBusReset_elsewhere`), an invalid one not even that
(`handleBusReset_noUnit`). -/
theorem unitResetElsewhere : Obligations.UnitResetElsewhere := by
  intro d e i s hi he hatapi hidle hacc
  have hi' : i ∈ [Instr.busreset d, .busresetAta d, .busresetAtapi d, .execioReset08 d, .atapiExecioReset08 d] := by
    simp only [List.mem_cons, List.not_mem_nil, or_false] at hi ⊢; tauto
  have hrow := resetRow_dispatches hi' he
  refine ⟨fun u hu hty => ?_, fun hu => ?_⟩
  · obtain ⟨t, r, hexec, hfin, hsame, hdid, hcmd, hsel, hirq, hnow, hmem, hdbuf, -⟩ := exec_reset hi' he hidle hacc
      (.refl (launched e s)) rfl (did_logs [] s) (fun dn => handleBusReset_elsewhere dn hrow hatapi hu hty)
    exact ⟨t, r, hexec, hfin, hsame, hdid, hcmd, hsel, hirq, hnow, fun a => congrArg (Memory.get · a) hmem, hdbuf⟩
  · have hprep : s.Prepared (resetRecord e phComplete) []
        { launched e s with cmds := s.cmds ++ [resetRecord e phComplete] } :=
      ⟨rfl, rfl, rfl, did_logs [] s, rfl, rfl, rfl, rfl, rfl, rfl, rfl, rfl, rfl, rfl, rfl⟩
    have hrun := (runHandler_reset (dn := dispatchN 0) (s := launched e s) (by rw [launched_reset_cur hrow]; rfl)).trans
      ((handleBusReset_noUnit _ hrow hatapi hu).trans (congrArg (completeIO _ _) (launchedReset_complete hrow)))
    obtain ⟨r, hfin, hsame, hdid, hcmd⟩ := submitted_spec .invalidArgument hidle hprep
    exact ⟨_, r, exec_submitted he hidle hacc hprep hrun, hfin, hsame, hdid, hcmd, rfl, rfl, rfl, fun _ => rfl, rfl⟩

end Sys2Proof.Proofs
end

section
/-! The steps of a command that is past its selection, phase by phase: the waits for DRQ that fail, the passes of a PIO
transfer and what follows them (R250 to R256, R302, R303); an IRQ as such a step of a running command, and its delivery
(O38, O39, O40, O43). -/

namespace Sys2Proof.Machine

variable {id n k : Nat} {c c' : Command} {es es' : List Event} {m : List Host.Cell} {s t u : State} {a : Byte}
  {x : Result}

/-! ## The step of each phase -/

theorem phaseStep_packetIssue (h : s.Serving id c) (hph : c.state = phPacketIssue) : phaseStep s = packetStep s := by
  unfold phaseStep
  rw [h.cur, hph, if_neg (by decide), if_pos rfl]

theorem phaseStep_dataTransfer (h : s.Serving id c) (hph : c.state = phDataTransfer) : phaseStep s = dataStep s := by
  unfold phaseStep
  rw [h.cur, hph, if_neg (by decide), if_neg (by decide), if_pos rfl]

theorem phaseStep_status (h : s.Serving id c) (hph : c.state = phStatus) : phaseStep s = statusPhase .noError s := by
  unfold phaseStep
  rw [h.cur, hph, if_neg (by decide), if_neg (by decide), if_neg (by decide), if_pos rfl]

/-! ## The waits for DRQ -/

/-- `s` after the first sample `a` of Alternate Status. -/
def sampled (a : Byte) (s : State) : State := { s.logs [.r8 .altctl a] with env := s.env.byteRead .altctl }

theorem State.Serving.sampled (h : s.Serving id c) (a : Byte) : Works id [.r8 .altctl a] c s (sampled a s) :=
  h.works_logs _ _

/-- A packet phase whose wait for DRQ ends at its first sample sends the packet (P262). -/
theorem packetPhase_sampled (ha : s.env.byteAnswer .altctl = a) (hok : okData a = true) :
    packetPhase s = sendPacket (sampled a s) := by
  rw [packetPhase_first (by rw [ha]; exact hok), ha]
  rfl

/-- A pass whose wait for DRQ ends at its first sample moves its data (P300, R302). -/
theorem pioPass_sampled (h : s.Serving id c) (hrem : 0 < remaining c) (ha : s.env.byteAnswer .altctl = a)
    (hok : okData a = true) : pioPass s = (.noError, passData (sampled a s)) := by
  unfold pioPass
  rw [h.cur, if_neg (by omega), pollStatus_first _ _ _ _ (by rw [ha]; exact hok), ha]
  rfl

/-- A packet step whose wait for DRQ fails sends nothing, and the status phase follows (P262, R253). -/
theorem packetStep_noData (hx : (pollStatus okData abortData s.params.nPkt s).code ≠ .noError) :
    packetStep s = statusPhase (pollStatus okData abortData s.params.nPkt s).code
      (pollStatus okData abortData s.params.nPkt s).state := packetStep_fails (if_neg hx) hx

/-- A data step whose wait for DRQ fails moves nothing, and the status phase follows (P300, R250). -/
theorem dataStep_noData (h : s.Serving id c) (hrem : 0 < remaining c)
    (hx : (pollStatus okData abortData (deadlineSleeps s) s).code ≠ .noError) :
    dataStep s = statusPhase (pollStatus okData abortData (deadlineSleeps s) s).code
      (pollStatus okData abortData (deadlineSleeps s) s).state := by
  have hpio : pioPass s = ((pollStatus okData abortData (deadlineSleeps s) s).code,
      (pollStatus okData abortData (deadlineSleeps s) s).state) := by
    unfold pioPass
    rw [h.cur, if_neg (by omega)]
    exact if_neg hx
  unfold dataStep
  rw [hpio]
  exact if_pos hx

/-- A weaker reason for the end of a wait. -/
theorem WaitEnds.imp {p q : Prop} (h : WaitEnds k n p x s) (hpq : p → q) : WaitEnds k n q x s :=
  ⟨h.1, h.2.imp_right fun ⟨he, hx, hp⟩ => ⟨he, hx, hpq hp⟩⟩

/-- A wait for DRQ from `t` that fails, in terms of the state `s` before the action: `t` sees the answers of `s` from
the `k`-th on (R262, R303). -/
theorem pollData_failsFrom (N : Nat) (harm : t.timer.armed = true) (hp : t.params = s.params) (halt : t.env.altctl ≠ [])
    (hans : ∀ j, t.env.answer .altctl j = s.env.answer .altctl (k + j)) (hno : NoData k s) :
    ∃ m, m ≤ N ∧ m ≤ deadlineSleeps t
      ∧ t.now + m * s.params.tPoll ≤ (pollStatus okData abortData N t).state.now
      ∧ WaitEnds k m (m = N ∨ t.timer.deadline ≤ (pollStatus okData abortData N t).state.now)
          (pollStatus okData abortData N t).code s
      ∧ ∃ now env, (pollStatus okData abortData N t).state
          = { t.logs (pollEvents k m s) with now := now, env := env } := by
  have hnot : NoData 0 t := by
    refine ⟨halt, fun j hj => ?_⟩
    rw [Nat.zero_add, hans] at hj
    obtain ⟨i, hi, he⟩ := hno.2 j hj
    exact ⟨i, hi, by rw [Nat.zero_add, hans]; exact he⟩
  obtain ⟨m, hm, hdl, hclock, hends, hstate⟩ := pollData_fails N harm hnot
  rw [pollEvents_shift 0 m hp hans] at hstate
  rw [hp] at hclock
  exact ⟨m, hm, hdl, hclock, by simpa only [WaitEnds, hans, Nat.zero_add] using hends, hstate⟩

/-- A wait that ended at the deadline, or used up the sleeps that fit before it, has reached it (R302, R333). -/
theorem deadline_reached {now : Nat} (h : n = deadlineSleeps s ∨ s.timer.deadline ≤ now)
    (hnow : s.now + n * s.params.tPoll ≤ now) : s.timer.deadline ≤ now := by
  rcases h with rfl | h
  · have hlt := Nat.lt_div_mul_add (a := s.timer.deadline - s.now + (s.params.tPoll - 1)) s.params.tPoll_pos
    unfold deadlineSleeps at hnow
    omega
  · exact h

/-! ## What follows a pass -/

/-- A pass that leaves bytes to move leaves the command in DataTransfer, to wait for the next interrupt (R254). -/
theorem dataStep_stays (hpio : pioPass s = (.noError, t)) (h : t.Serving id c) (hph : c.state = phDataTransfer) :
    dataStep s = (.noError, t) := by
  unfold dataStep
  rw [hpio]
  dsimp only
  rw [if_neg (by simp), if_pos (by rw [h.cur, hph])]

/-- After a pass of a write the command waits for the next interrupt, whatever is left (R254, R256). -/
theorem dataStep_write (hpio : pioPass s = (.noError, t)) (h : t.Serving id c) (hwr : c.flags.wr = true) :
    dataStep s = (.noError, t) := by
  unfold dataStep
  rw [hpio]
  dsimp only
  rw [if_neg (by simp), h.cur, hwr, Bool.or_true, if_pos rfl, ite_self]

/-- After the last block of an ATA read the status phase follows in the same step (R256). -/
theorem dataStep_readDone (hpio : pioPass s = (.noError, t)) (h : t.Serving id c) (hph : c.state = phStatus)
    (hat : c.flags.atapi = false) (hwr : c.flags.wr = false) : dataStep s = statusPhase .noError t := by
  unfold dataStep
  rw [hpio]
  dsimp only
  rw [if_neg (by simp), h.cur, hph, if_neg (by decide), isATAPI, hat, hwr]
  rfl

/-- The data of a read pass from an ATA device: a chunk, or what remains (P300, R305, R309). -/
theorem passData_ataRead (h : s.Serving id c) (hat : c.flags.atapi = false) (hrd : c.flags.rd = true)
    (hw : countsWf c) : ∃ bs : List Byte, bs.length = min (remaining c) c.chunk.toNat
      ∧ Moves id (readSliceEvents c.buf c.position.toNat (sliceSizes bs.length) bs) (passed bs.length c)
          (Memory.setBytes s.mem (Memory.addr c.buf c.position.toNat) bs) s (passData s) := by
  have hcount : passCount s = ((min (remaining c) c.chunk.toNat, 0), s) := by
    unfold passCount
    rw [h.cur, isATAPI, hat, if_neg Bool.false_ne_true]
  have hn := Nat.min_le_left (remaining c) c.chunk.toNat
  unfold passData
  rw [hcount]
  dsimp only
  obtain ⟨bs, hbs, w⟩ := moveSlices_read _ _ h hrd hw hn (passFuel _)
  refine ⟨bs, hbs, ?_⟩
  rw [hbs]
  exact (w.work (endPass_advanced (w.serving h) hn)).congr (by simp) rfl

/-- After the last byte as many bytes have been moved as were asked for (R314). -/
theorem remaining_moved (h : countsWf c) : c.actual + BitVec.ofNat 32 (remaining c) = c.byteCount := by
  have hact := advanced_actual (Nat.le_refl _) h
  refine BitVec.eq_of_toNat_eq (hact.trans ?_)
  have hle := h.1
  unfold remaining
  omega

/-! ## Work for a running command -/

/-- From `s` to `t` there was work for the command `id` current in `s`, with the events `es`; its record is `c` now. The
clock, the draws, the Double Buffer and the memory may differ. -/
structure State.Onward (id : Nat) (c : Command) (es : List Event) (s t : State) : Prop where
  serving  : t.Serving id c
  same     : s.SameBut id t
  did      : s.Did t es
  queue    : t.queue = s.queue
  selected : t.selected = s.selected
  irqEn    : t.irqEn = s.irqEn

theorem State.Running.onward (h : s.Running id) : s.Onward id (s.cmd id) [] s :=
  ⟨h.serving, ⟨rfl, rfl, rfl, rfl, rfl, rfl, rfl, rfl, rfl, rfl, fun _ _ _ => rfl⟩, did_logs [] s, rfl, rfl, rfl⟩

/-- Work that moves data, after other work. -/
theorem State.Onward.moves (h : s.Onward id c es t) (w : Moves id es' c' m t u) : s.Onward id c' (es ++ es') u := by
  have hserve := w.serving h.serving
  have hk := h.same
  obtain ⟨e, db, rfl⟩ := w
  refine ⟨hserve, ⟨hk.qstate, hk.igate, hk.snap, hk.devInfo0, hk.devInfo1, hk.params, hk.bufs, hk.host, hk.breach,
    hk.inbox, fun k hne hlt => ?_⟩, Did.trans h.did (worked_did (id := id) (c := c') t e), h.queue, h.selected,
    h.irqEn⟩
  exact (worked_cmd_other (es := es') hne e).trans (hk.others k hne hlt)

/-- Other work, after work. -/
theorem State.Onward.work (h : s.Onward id c es t) (w : Works id es' c' t u) : s.Onward id c' (es ++ es') u :=
  h.moves w.moves

/-- A poll, after other work. -/
theorem State.Onward.polled (h : s.Onward id c es t) (es' : List Event) (now : Nat) (env : Env) :
    s.Onward id c (es ++ es') { t.logs es' with now := now, env := env } := by
  have hk := h.same
  exact ⟨⟨h.serving.current, h.serving.stored, h.serving.cmd⟩, ⟨hk.qstate, hk.igate, hk.snap, hk.devInfo0, hk.devInfo1,
    hk.params, hk.bufs, hk.host, hk.breach, hk.inbox, hk.others⟩, Did.trans h.did (did_logs es' t), h.queue,
    h.selected, h.irqEn⟩

/-- What the delivery to a silent host leaves after the work (R180). -/
theorem State.Onward.delivered (h : s.Onward id c es t) (hu : c.result = .unset) (hq : s.queue = []) (x : Result)
    (p : Return) : ∃ r, { completed id x t with ret := p }.Finished
      ∧ s.SameBut id { completed id x t with ret := p }
      ∧ s.Did { completed id x t with ret := p } (es ++ completionEvents id r x)
      ∧ (completed id x t).cmd id = Machine.delivered x c := by
  have hk := h.same
  have hcmd := completed_cmd (res := x) h.serving
  rw [deliveredAs, if_pos hu] at hcmd
  have hdid := Did.trans h.did (completed_did (res := x) (by rw [h.serving.cmd]; exact hu))
  exact ⟨_, ⟨rfl, rfl, h.queue.trans hq, rfl⟩,
    ⟨hk.qstate, hk.igate, hk.snap, hk.devInfo0, hk.devInfo1, hk.params, hk.bufs, hk.host, hk.breach, hk.inbox,
      fun k hne hlt => (completed_cmd_other hne).trans (hk.others k hne hlt)⟩, hdid, hcmd⟩

/-! ## The IRQ action -/

/-- The acknowledging read of an IRQ (R360). -/
theorem irqAcknowledged_works (h : s.Running id) :
    Works id [.r8 .statcmd (s.env.answer .statcmd 0)] (s.cmd id) s (rd8 .statcmd s).2 :=
  h.serving.works_logs _ (s.env.byteRead .statcmd)

/-- The acknowledging read and the first sample of Alternate Status. -/
theorem irqSampled_works (h : s.Running id) (a : Byte) :
    Works id [.r8 .statcmd (s.env.answer .statcmd 0), .r8 .altctl a] (s.cmd id) s (sampled a (rd8 .statcmd s).2) :=
  have w := irqAcknowledged_works h
  w.trans ((w.serving h.serving).sampled a)

theorem unboundedPoll_armed (h : s.timer.armed = true) : unboundedPoll s = false := by simp [unboundedPoll, h]

/-- An IRQ before the last phase of a running command is a step of it (P246, P360). -/
theorem exec_irq_runs (hrun : s.Running id) (hen : s.irqEn = true) (hph : (s.cmd id).state ≠ phComplete)
    (hb : unboundedPoll s = false) :
    exec .irq s = .next { asyncIO dispatchNext (rd8 .statcmd s).2 with ret := .nothing } := by
  have hruns : irqRuns s = true := by
    simp [irqRuns, hen, hrun.current, irqAdvances, hrun.async, hrun.exec, hph]
  obtain ⟨_, -, hentry⟩ := irqEntry_runs hruns
  have hbr : (irqEntry s).breach = none := (irqEntry_noBreach s hrun.host).2.trans hrun.breach
  have hexec : exec .irq s = execIrq s := rfl
  rw [hexec, execIrq, if_pos hruns, hb, if_neg Bool.false_ne_true, ← hentry]
  exact guarded_next (t := { irqEntry s with ret := .nothing }) (hostBreach_running hrun) hbr

/-- A step of it that ends in Complete delivers the command (P246, R180). -/
theorem exec_irq_delivers (hrun : s.Running id) (hen : s.irqEn = true) (hph : (s.cmd id).state ≠ phComplete)
    (hb : unboundedPoll s = false) (hstep : phaseStep (rd8 .statcmd s).2 = (x, t)) (h : s.Onward id c es t)
    (hc : c.state = phComplete) : exec .irq s = .next { completed id x t with ret := .nothing } := by
  have hhost : t.host = [] := h.same.host.trans hrun.host
  rw [exec_irq_runs hrun hen hph hb, asyncIO, hstep]
  dsimp only
  rw [if_pos (by rw [h.serving.cur, hc]), completeIO_silent dispatchNext x h.serving.current h.serving.stored hhost,
    dispatchNext_quiet (s := completed id x t) (h.queue.trans hrun.queue) hhost]

/-- The code of a status phase that was called with `x` and read `st`: an error given stays, else the ERR bit decides
(R270). -/
def statusCode (x : Result) (st : Byte) : Result :=
  if x ≠ .noError then x else if err st then .deviceError else .noError

/-- A step of a running command that comes to the status phase after the work `es` ends it in the same action (R250,
R270, R271, R180). -/
theorem exec_irq_statusPhase (hrun : s.Running id) (hen : s.irqEn = true) (hph : (s.cmd id).state ≠ phComplete)
    (hb : unboundedPoll s = false) (hstep : phaseStep (rd8 .statcmd s).2 = statusPhase x t) (h : s.Onward id c es t)
    (hu : c.result = .unset) :
    ∃ (t' : State) (er : Byte) (v : ReadValues) (r : Result), exec .irq s = .next t' ∧ t'.Finished
      ∧ s.SameBut id t'
      ∧ s.Did t' (es ++ [.r8 .statcmd (t.env.answer .statcmd 0), .r8 .errfeat er] ++ captureEvents c.toDesc 0x00#8 v
          ++ completionEvents id r (statusCode x (t.env.answer .statcmd 0)))
      ∧ t'.cmd id = delivered (statusCode x (t.env.answer .statcmd 0)) (withStatus c (t.env.answer .statcmd 0) er v)
      ∧ t'.selected = s.selected ∧ t'.irqEn = true ∧ t'.now = t.now ∧ t'.mem = t.mem ∧ t'.dbuf = t.dbuf := by
  obtain ⟨er, v, w, hcode⟩ := statusPhase_works x h.serving
  have hdone := h.work w
  obtain ⟨hsel, hirq, hnow, hmem, hdbuf, -, -⟩ := w.fields
  have hien : nIenNow t = 0x00#8 := by simp [nIenNow, h.irqEn, hen, ctlClear]
  obtain ⟨r, hfin, hsame, hdid, hcmd⟩ := hdone.delivered hu hrun.queue (statusPhase x t).1 .nothing
  have hexec := exec_irq_delivers hrun hen hph hb hstep hdone rfl
  rw [hien, hcode, ← List.append_assoc] at hdid
  rw [hcode] at hcmd
  exact ⟨_, er, v, r, hexec, hfin, hsame, hdid, hcmd, hsel.trans h.selected, hirq.trans (h.irqEn.trans hen), hnow,
    hmem, hdbuf⟩

/-- A step that fails with the code `x` and has moved nothing ends the command with that code (R250). -/
theorem exec_irq_fails (hrun : s.Running id) (hen : s.irqEn = true) (hph : (s.cmd id).state ≠ phComplete)
    (hb : unboundedPoll s = false) (hstep : phaseStep (rd8 .statcmd s).2 = statusPhase x t) (hx : x ≠ .noError)
    (h : s.Onward id (s.cmd id) es t) (hmem : t.mem = s.mem) (hdbuf : t.dbuf = s.dbuf) :
    ∃ t' : State, exec .irq s = .next t' ∧ t'.selected = s.selected ∧ t'.now = t.now
      ∧ s.EndedWith id (s.cmd id) es x t' := by
  obtain ⟨t', er, v, r, hexec, hfin, hsame, hdid, hcmd, hsel, hirq, hnow, hmem', hdbuf'⟩ :=
    exec_irq_statusPhase hrun hen hph hb hstep h hrun.unset
  rw [statusCode, if_pos hx] at hdid hcmd
  exact ⟨t', hexec, hsel, hnow, hfin, hsame, hirq, fun k => congrArg (Memory.get · k) (hmem'.trans hmem),
    hdbuf'.trans hdbuf, _, er, v, r, hdid, hcmd⟩

/-- An IRQ whose step waits for DRQ in vain, at most `N` sleeps long, ends the command (R250, R262, R303). -/
theorem exec_irq_noData (N : Nat) (hrun : s.Running id) (hen : s.irqEn = true) (harm : s.timer.armed = true)
    (hph : (s.cmd id).state ≠ phComplete) (hno : NoData 0 s)
    (hstep : (pollStatus okData abortData N (rd8 .statcmd s).2).code ≠ .noError → phaseStep (rd8 .statcmd s).2
      = statusPhase (pollStatus okData abortData N (rd8 .statcmd s).2).code
          (pollStatus okData abortData N (rd8 .statcmd s).2).state) :
    ∃ (t : State) (n : Nat) (res : Result), exec .irq s = .next t ∧ t.selected = s.selected ∧ n ≤ deadlineSleeps s
      ∧ n ≤ N ∧ s.now + n * s.params.tPoll ≤ t.now ∧ WaitEnds 0 n (n = N ∨ s.timer.deadline ≤ t.now) res s
      ∧ s.EndedWith id (s.cmd id) (.r8 .statcmd (s.env.answer .statcmd 0) :: pollEvents 0 n s) res t := by
  have hscript : (rd8 .statcmd s).2.env.altctl = s.env.altctl := rfl
  obtain ⟨n, hn, hdl, hclock, hends, now, env, hst⟩ := pollData_failsFrom N (s := s)
    (t := (rd8 .statcmd s).2) harm rfl (by rw [hscript]; exact hno.1)
    (fun j => by rw [Nat.zero_add]; exact answer_congr hscript hno.1 j) hno
  have hwork := (hrun.onward.work (irqAcknowledged_works hrun)).polled (pollEvents 0 n s) now env
  rw [← hst] at hwork
  obtain ⟨t, hexec, hsel, hnow, hended⟩ := exec_irq_fails hrun hen hph (unboundedPoll_armed harm)
    (hstep hends.code_ne) hends.code_ne hwork (by rw [hst]; rfl) (by rw [hst]; rfl)
  rw [← hnow] at hclock hends
  exact ⟨t, n, _, hexec, hsel, hdl, hn, hclock, hends, hended⟩

/-- The pass of an ATA read at an IRQ (P300, P360). -/
theorem irq_ataRead (hrun : s.Running id) (hat : (s.cmd id).flags.atapi = false) (hrd : (s.cmd id).flags.rd = true)
    (hrem : 0 < remaining (s.cmd id)) (ha : s.env.altctl.head? = some a) (hok : okData a = true) :
    ∃ (t : State) (bs : List Byte), pioPass (rd8 .statcmd s).2 = (.noError, t)
      ∧ bs.length = min (remaining (s.cmd id)) (s.cmd id).chunk.toNat
      ∧ Moves id ([.r8 .statcmd (s.env.answer .statcmd 0), .r8 .altctl a]
          ++ readSliceEvents (s.cmd id).buf (s.cmd id).position.toNat (sliceSizes bs.length) bs)
        (passed bs.length (s.cmd id))
        (Memory.setBytes s.mem (Memory.addr (s.cmd id).buf (s.cmd id).position.toNat) bs) s t := by
  have hserve := (irqAcknowledged_works hrun).serving hrun.serving
  have w := irqSampled_works hrun a
  obtain ⟨bs, hbs, wpass⟩ := passData_ataRead (w.serving hrun.serving) hat hrd hrun.counts
  exact ⟨_, bs, pioPass_sampled hserve hrem (byteAnswer_head ha) hok, hbs, w.moves.trans wpass⟩

end Sys2Proof.Machine

namespace Sys2Proof.Proofs

open Sys2Proof.Machine

/-- Settles O43: the first sample shows DRQ, and the DMA start of the packet is accepted (`sendPacket_sent`) or refused
(`sendPacket_refused`). -/
theorem irqSendsPacket : Obligations.IrqSendsPacket := by
  intro s id a hrun hen harm hph ha hok
  have hserve := (irqAcknowledged_works hrun).serving hrun.serving
  have hsample := irqSampled_works hrun a
  have hready := hsample.serving hrun.serving
  have hphase := packetPhase_sampled (s := (rd8 .statcmd s).2) (byteAnswer_head ha) hok
  have hstep := phaseStep_packetIssue hserve hph
  have hbefore : (s.cmd id).state ≠ phComplete := by rw [hph]; decide
  refine ⟨fun hdma => ?_, fun x hd hx hne => ?_⟩
  · obtain ⟨t, ht, w⟩ := sendPacket_sent hready hdma
    have hsent : phaseStep (rd8 .statcmd s).2 = (.noError, t) := by
      rw [hstep, packetStep, hphase, ht]
      exact if_pos rfl
    have hall := hsample.trans w
    obtain ⟨-, -, -, hmem, hdbuf, -, -⟩ := hall.fields
    obtain ⟨hwait, hsame, hdid, hcmd, htimer, hsel, hirq, hnow, hbr⟩ := hall.moves.waits hrun hen harm .nothing
    have hstay : t.cur.state ≠ phComplete := by
      rw [(hall.serving hrun.serving).cur]
      dsimp only
      split <;> decide
    refine ⟨_, exec_irq_waits hrun hen harm hbefore hsent hstay hbr, hwait, hsame, ?_, hcmd, htimer, hsel, hirq, hnow,
      fun k => congrArg (Memory.get · k) hmem, hdbuf⟩
    rw [List.append_assoc]
    exact hdid
  · obtain ⟨t, ht, w⟩ := sendPacket_refused hready hd hx hne
    have hfails := hstep.trans (packetStep_fails (hphase.trans ht) hne)
    have hall := hsample.trans w
    obtain ⟨-, -, hnow, hmem, hdbuf, -, -⟩ := hall.fields
    obtain ⟨t', hexec, hsel, hnow', hended⟩ := exec_irq_fails hrun hen hbefore (unboundedPoll_armed harm) hfails hne
      (hrun.onward.work hall) hmem hdbuf
    refine ⟨t', hexec, hsel, hnow'.trans hnow, ?_⟩
    rw [List.append_assoc]
    exact hended

/-- Settles O38: in Status the status phase follows the acknowledgement; else the wait for DRQ is in vain
(`exec_irq_noData`). -/
theorem irqEndsCommand : Obligations.IrqEndsCommand := by
  intro s id hrun hen
  have hack := irqAcknowledged_works hrun
  have hserve := hack.serving hrun.serving
  refine ⟨fun hph => ?_, fun harm hno hphase => ?_⟩
  · have hb : unboundedPoll s = false := by
      simp [unboundedPoll, hrun.serving.cur, hph, phStatus, phDataTransfer, phStarted]
    obtain ⟨t, er, v, r, hexec, hfin, hsame, hdid, hcmd, hsel, hirq, hnow, hmem, hdbuf⟩ :=
      exec_irq_statusPhase hrun hen (by rw [hph]; decide) hb (phaseStep_status hserve hph) (hrun.onward.work hack)
        hrun.unset
    exact ⟨t, _, er, v, r, hexec, hfin, hsame, hdid, rfl, hcmd, hsel, hirq, hnow,
      fun k => congrArg (Memory.get · k) hmem, hdbuf⟩
  · rcases hphase with hph | ⟨hph, hrem⟩
    · obtain ⟨t, n, res, hexec, hsel, hdl, hn, hclock, hends, hended⟩ := exec_irq_noData s.params.nPkt hrun hen harm
        (by rw [hph]; decide) hno (fun hx => (phaseStep_packetIssue hserve hph).trans (packetStep_noData hx))
      exact ⟨t, n, res, hexec, hsel, hdl, fun _ => hn, hclock,
        hends.imp fun h => h.symm.imp_right fun hn => ⟨hph, hn⟩, hended⟩
    · obtain ⟨t, n, res, hexec, hsel, hdl, -, hclock, hends, hended⟩ := exec_irq_noData (deadlineSleeps s) hrun hen harm
        (by rw [hph]; decide) hno
        (fun hx => (phaseStep_dataTransfer hserve hph).trans (dataStep_noData hserve hrem hx))
      exact ⟨t, n, res, hexec, hsel, hdl, fun h => absurd (hph.symm.trans h) (by decide), hclock,
        hends.imp fun h => .inl (deadline_reached h hclock), hended⟩

/-- Settles O39: the pass of an ATA read that leaves bytes to move (`irq_ataRead`, `dataStep_stays`). -/
theorem irqReadsBlock : Obligations.IrqReadsBlock := by
  intro s id a hrun hwf hen harm hph hat hrd hlt ha hok
  obtain ⟨t, bs, hpio, hbs, w⟩ := irq_ataRead hrun hat hrd (Nat.zero_lt_of_lt hlt) ha hok
  rw [Nat.min_eq_right hlt.le] at hbs
  have hrec : passed bs.length (s.cmd id) = { s.cmd id with
      actual := (s.cmd id).actual + (s.cmd id).chunk, position := (s.cmd id).position + (s.cmd id).chunk } := by
    rw [hbs, passed, if_neg hlt.ne']
    simp [Command.advanced]
  rw [hrec] at w
  have hserve := w.serving hrun.serving
  have hstep := (phaseStep_dataTransfer ((irqAcknowledged_works hrun).serving hrun.serving) hph).trans
    (dataStep_stays hpio hserve hph)
  obtain ⟨hwait, hsame, hdid, hcmd, htimer, hsel, hirq, hnow, hbr⟩ := w.waits hrun hen harm .nothing
  refine ⟨_, bs, exec_irq_waits hrun hen harm (by rw [hph]; decide) hstep
    (by rw [hserve.cur]; dsimp only; rw [hph]; decide) hbr, hwait, hsame, hbs, ?_, ?_, hcmd, htimer, hsel, hirq, hnow⟩
  · rw [← hbs]; exact hdid
  · intro k
    show Memory.get t.mem k = _
    rw [w.mem_eq]
    exact Memory.get_setBytes hwf.1

/-- Settles O40: the pass of an ATA read that leaves no byte to move (`irq_ataRead`), then the status phase
(`dataStep_readDone`). -/
theorem irqReadsLastBlock : Obligations.IrqReadsLastBlock := by
  intro s id a hrun hwf hen harm hph hat hrd hwr hrem hle ha hok
  obtain ⟨t, bs, hpio, hbs, w⟩ := irq_ataRead hrun hat hrd hrem ha hok
  rw [Nat.min_eq_left hle] at hbs
  have hrec : passed bs.length (s.cmd id) = { s.cmd id with
      actual := (s.cmd id).byteCount
      position := (s.cmd id).position + BitVec.ofNat 32 (remaining (s.cmd id)), state := phStatus } := by
    rw [hbs, passed, if_pos rfl, Command.advanced, remaining_moved hrun.counts]
  rw [hrec] at w
  have hstep := (phaseStep_dataTransfer ((irqAcknowledged_works hrun).serving hrun.serving) hph).trans
    (dataStep_readDone hpio (w.serving hrun.serving) rfl hat hwr)
  obtain ⟨t', er, v, r, hexec, hfin, hsame, hdid, hcmd, hsel, hirq, -, hmem, -⟩ := exec_irq_statusPhase hrun hen
    (by rw [hph]; decide) (unboundedPoll_armed harm) hstep (hrun.onward.moves w) hrun.unset
  refine ⟨t', bs, _, er, v, r, hexec, hfin, hsame, hbs, ?_, ?_, hcmd, hsel, hirq⟩
  · rw [← hbs]; exact hdid
  · intro k
    rw [hmem, w.mem_eq]
    exact Memory.get_setBytes hwf.1

end Sys2Proof.Proofs
end

section
/-! The first block of an asynchronous ATA PIO write, sent in the action that submits the command to a ready device, or
the wait for DRQ that fails (O20). -/

namespace Sys2Proof.Machine

variable {id : Nat} {c c' : Command} {es es' : List Event} {m : List Host.Cell} {d : Desc} {u : UnitId} {s t v : State}

/-- An ATA PIO write goes to the device, without DMA and without packet (R39). -/
theorem isPIOWriteATA_iff (c : Command) :
    isPIOWriteATA c = true ↔ c.flags.wr = true ∧ c.flags.dma = false ∧ c.flags.atapi = false := by
  simp [isPIOWriteATA, and_assoc]

/-- The Started step of an ATA PIO write issues the taskfile and goes on to its first block (R251, R255). -/
theorem startedStep_writes (h : t.Serving id c) (hw : isPIOWriteATA c = true) :
    ∃ v, startedStep t = dataStep v ∧ Works id (taskfileEvents c.toDesc) { c with state := phDataTransfer } t v
      ∧ v.env = t.env := by
  obtain ⟨hwr, hdma, hat⟩ := (isPIOWriteATA_iff c).mp hw
  have hstarts : startsDma c = false := by simp [startsDma, hdma]
  have hafter : phaseAfterStart c = phDataTransfer := by simp [phaseAfterStart, hasPacket, isPIOData, hat, hwr, hdma]
  obtain ⟨v, hphase, w⟩ := startedPhase_issues h (fun hs => by rw [hstarts] at hs; cases hs)
  rw [hstarts, hafter] at w
  have hcur := (w.serving h).cur
  refine ⟨v, ?_, w, ?_⟩
  · unfold startedStep
    rw [hphase]
    dsimp only
    rw [if_neg (by simp), hcur, if_neg (by simp [phDataTransfer, phPacketIssue])]
    exact if_pos ((Bool.and_eq_true _ _).mpr ⟨decide_eq_true rfl, hw⟩)
  · have henv : (startedPhase t).2.env = t.env := by
      unfold startedPhase
      rw [h.cur]
      dsimp only
      rw [← startsDma, hstarts, if_neg Bool.false_ne_true, if_pos rfl, issueTaskfile_logs]
      simp [State.logs]
    rwa [hphase] at henv

/-- Work that moves data, before the delivery or the wait. -/
theorem State.Prepared.moves (h : s.Prepared c es t) (w : Moves s.cmds.length es' c' m t v)
    (hu : c'.result = .unset) : s.Prepared c' (es ++ es') v := by
  obtain ⟨e, db, rfl⟩ := w
  exact ⟨h.current, by simp [State.worked, h.cmds], hu,
    Did.trans h.did (worked_did (id := s.cmds.length) (c := c') t e), h.queue, h.qstate, h.igate, h.snap, h.devInfo0,
    h.devInfo1, h.params, h.bufs, h.host, h.breach, h.inbox⟩

/-- What a move of data for a command leaves alone. -/
theorem Moves.fields (w : Moves id es c m s t) : t.selected = s.selected ∧ t.irqEn = s.irqEn ∧ t.now = s.now
    ∧ t.timer = s.timer ∧ t.bus = s.bus := by
  obtain ⟨e, db, rfl⟩ := w
  exact ⟨rfl, rfl, rfl, rfl, rfl⟩

/-- A poll, before the delivery. -/
theorem State.Prepared.polled (h : s.Prepared c es t) (es' : List Event) (now : Nat) (env : Env) :
    s.Prepared c (es ++ es') { t.logs es' with now := now, env := env } :=
  ⟨h.current, h.cmds, h.unset, Did.trans h.did (did_logs es' t), h.queue, h.qstate, h.igate, h.snap, h.devInfo0,
    h.devInfo1, h.params, h.bufs, h.host, h.breach, h.inbox⟩

/-- The data step of an ATA PIO write whose wait for DRQ ends at its first sample sends a block (P300, R256). -/
theorem dataStep_ataWrite {a : Byte} (h : t.Serving id c) (hat : c.flags.atapi = false) (hrd : c.flags.rd = false)
    (hwr : c.flags.wr = true) (hw : countsWf c) (hrem : 0 < remaining c) (ha : t.env.byteAnswer .altctl = a)
    (hok : okData a = true) : ∃ v, dataStep t = (.noError, v)
      ∧ Moves id ([.r8 .altctl a]
          ++ writeSliceEvents t.mem c.buf c.position.toNat (sliceSizes (min (remaining c) c.chunk.toNat)))
        (passed (min (remaining c) c.chunk.toNat) c) t.mem t v := by
  have hsample := h.sampled a
  have w := hsample.moves.trans (passData_ataWrite (hsample.serving h) hat hrd hw)
  exact ⟨_, dataStep_write (pioPass_sampled h hrem ha hok) (w.serving h) hwr, w⟩

/-- A pass does not complete a command (R314). -/
theorem passed_ne_complete (n : Nat) (h : c.state ≠ phComplete) : (passed n c).state ≠ phComplete := by
  unfold passed
  dsimp only
  split
  · decide
  · exact h

/-- The rows of an ATA PIO write submit an ExecIO (R140, R141). -/
theorem writeRow_opcode {e : Desc} {i : Instr} (hi : i ∈ [Instr.execio d, .execioAtaPioWr d]) (he : i.desc = some e) :
    isExecOp e.opcode = true := by
  refine execRows_opcode (d := d) ?_ he
  simp only [List.mem_cons, List.not_mem_nil, or_false] at hi
  rcases hi with rfl | rfl <;> simp [execRows]

/-- A well-formed command goes in one direction (W1). -/
theorem legal_write_not_read (h : d.legal = true) (hwr : d.flags.wr = true) : d.flags.rd = false := by
  have hw1 : d.w1 = true := by
    simp only [Desc.legal, Bool.and_eq_true] at h
    exact h.1.1.1.1.1.1.1
  simpa [Desc.w1, hwr] using hw1

end Sys2Proof.Machine

namespace Sys2Proof.Proofs

open Sys2Proof.Machine

/-- Settles O20: the command comes to its first wait for DRQ (`startedStep_writes`); then either its block is sent
(`dataStep_ataWrite`), or the wait fails (`pollData_failsFrom`). -/
theorem firstBlockWritten : Obligations.FirstBlockWritten := by
  intro d e i u s hi he h8 hidle hacc hasync hw hu hr hcount
  obtain ⟨hwr, -, hat⟩ := (isPIOWriteATA_iff _).mp hw
  have hlegal := accepts_legal hacc
  have hrun := runHandler_started (dn := dispatchN 0) (writeRow_opcode hi he) h8 hidle.armed hasync hu hr
  have hstarted := armedReady_prepared u s (d := e) (by rw [h8, Bool.and_false])
  obtain ⟨v, hstep, w, henv⟩ := startedStep_writes hstarted.serving hw
  rw [hstep] at hrun
  have hprep : s.Prepared (inService e phDataTransfer)
      (selectEvents u s ++ [.arm (e.timeoutMs.toNat * 1000)] ++ taskfileEvents e) v := hstarted.work w rfl
  have hserve := hprep.serving
  obtain ⟨hsel, hirq, hnow, hmem, hdbuf, htimer, hbus⟩ := w.fields
  have hans : ∀ j, v.env.answer .altctl j = s.env.answer .altctl (selectSamples u s + j) := fun j => by
    rw [henv]; exact answer_reads _ _ _
  have hrem : remaining (inService e phDataTransfer) = e.byteCount.toNat := Nat.sub_zero _
  have hmore : 0 < remaining (inService e phDataTransfer) := by rw [hrem]; exact hcount
  refine ⟨fun hok => ?_, fun hno => ?_⟩
  · obtain ⟨t, hdata, wpass⟩ := dataStep_ataWrite hserve hat (legal_write_not_read hlegal hwr) hwr
      (countsWf_fresh rfl hlegal) hmore (hans 0) hok
    have hdone := hprep.moves wpass rfl
    obtain ⟨hsel', hirq', hnow', htimer', hbus'⟩ := wpass.fields
    rw [hdata, hdone.serving.cur, if_neg (passed_ne_complete _ (show phDataTransfer ≠ phComplete by decide))] at hrun
    obtain ⟨hexec, hwait, hsame, hcmd⟩ := exec_submitted_waits he hidle hacc hdone (hbus'.trans hbus)
      (by rw [htimer', htimer]; rfl) hrun
    refine ⟨_, hexec, hwait, hsame, ?_, ?_, hsel'.trans hsel, hirq'.trans hirq, hnow'.trans hnow,
      fun k => congrArg (Memory.get · k) (wpass.mem_eq.trans hmem), rfl⟩
    · refine hcmd.trans ?_
      rw [hrem, passed, hrem]
      simp [Command.advanced, inService, Command.fresh]
    · have hdid := hdone.did
      rw [hrem, hmem] at hdid
      rw [List.append_assoc _ [_]]
      exact hdid
  · have hdeadline : v.timer.deadline = s.now + e.timeoutMs.toNat * 1000 := by rw [htimer]; rfl
    have hclockV : v.now = s.now := hnow
    have hsleeps : deadlineSleeps v = (e.timeoutMs.toNat * 1000 + (s.params.tPoll - 1)) / s.params.tPoll := by
      rw [deadlineSleeps, hdeadline, hclockV, hprep.params, Nat.add_sub_cancel_left]
    obtain ⟨n, hn, -, hclock, hends, now, env, hst⟩ := pollData_failsFrom (s := s) (deadlineSleeps v)
      (by rw [htimer]; rfl) hprep.params (by rw [henv]; exact reads_altctl_ne_nil _ hno.1) hans hno
    rw [dataStep_noData hserve hmore hends.code_ne] at hrun
    have hpoll := hprep.polled (pollEvents (selectSamples u s) n s) now env
    rw [← hst] at hpoll
    obtain ⟨t, hexec, hsel', hnow', hret, hended⟩ := exec_statusPhase he hidle hacc hends.code_ne hpoll
      (by rw [hst]; exact hirq) (by rw [hst]; exact hmem) (by rw [hst]; exact hdbuf) hrun
    rw [← hnow'] at hclock hends
    refine ⟨t, n, _, hexec, hsel'.trans (by rw [hst]; exact hsel), hret, hsleeps ▸ hn, hclockV ▸ hclock,
      hends.imp fun h => ?_, hended⟩
    rw [← hdeadline]
    exact deadline_reached h (by rw [hprep.params]; exact hclock)

end Sys2Proof.Proofs
end

section
/-! Where a pass leaves its command: in Status if every byte asked for has been moved, else in DataTransfer (O52). -/

namespace Sys2Proof.Machine

/-- Of a command whose counts are in form nothing remains exactly when all that it asked for has been moved (R301). -/
theorem remaining_eq_zero_iff {c : Command} (h : countsWf c) : remaining c = 0 ↔ c.actual = c.byteCount := by
  obtain ⟨hle, -⟩ := h
  rw [← BitVec.toNat_inj]
  unfold remaining
  omega

/-- A pass moves its slices and settles the overrun without a change of phase; only its end decides on one (P300). -/
theorem passData_endPass {s : State} (hl : s.Live) :
    ∃ t, Handled s t ∧ t.cur.state = s.cur.state ∧ passData s = endPass t := by
  have hcount := passCount_handled s
  have hcur := hcount.cur_eq (passCount_cmds s)
  have hle : (passCount s).1.1 ≤ remaining (passCount s).2.cur := by rw [hcur]; exact passCount_le s
  have hslices := moveSlices_handled ((passCount s).1.1 / Config.dbufBytes + 1) _ _ hle
  have hover := settleOverrun_handled (passCount s).1.2
    (moveSlices ((passCount s).1.1 / Config.dbufBytes + 1) (passCount s).1.1 (passCount s).2)
  refine ⟨_, (hcount.trans hslices).trans hover, ?_, rfl⟩
  rw [hover.cur_eq (settleOverrun_cmds _ _), moveSlices_state _ _ (hcount.live hl) hle, hcur]

end Sys2Proof.Machine

namespace Sys2Proof.Proofs

open Sys2Proof.Machine

/-- Settles O52: the work of a pass keeps the counts in form (R318), and its end tests what remains (`endPass_works`). -/
theorem passEndsInStatus : Obligations.PassEndsInStatus := by
  intro s id hcur hlt hph hcounts
  obtain ⟨t, hwork, hstate, hpass⟩ := passData_endPass ⟨id, hcur, hlt⟩
  have hserve : t.Serving id (t.cmd id) := ⟨hwork.current.trans hcur, hwork.length.symm ▸ hlt, rfl⟩
  have horder := hwork.order id
  have hkept := horder.counts hcounts
  rw [hserve.cur, cur_some id s hcur, hph] at hstate
  rw [hpass, ((endPass_works hserve).serving hserve).cmd, ← horder.byteCount]
  refine ⟨hkept.1, ?_⟩
  simp only [remaining_eq_zero_iff hkept, hstate]

end Sys2Proof.Proofs
end

section
/-! The timer: its three operations (O51), and the expiry that ends a running command (O44). -/

namespace Sys2Proof.Machine

variable {id : Nat} {c : Command} {s t : State} {x : Result}

/-! ## The operations -/

/-- `startTimer` gives a fresh deadline; the disarming before it is traced only if the timer was armed (R331). -/
theorem startTimer_eq (d : Nat) (s : State) : startTimer d s = { s with
    timer := ⟨true, s.now + d⟩
    traceRev := .arm d :: ((if s.timer.armed then [.disarm] else []) ++ s.traceRev) } := by
  unfold startTimer
  by_cases h : s.timer.armed = true
  · simp only [if_pos h]; rfl
  · simp only [if_neg h]; rfl

/-! ## The expiry -/

/-- A timeout first stops the DMA of a DMA command (R338). -/
theorem stopDmaIfDma_works (h : s.Serving id c) :
    ∃ r, Works id (if c.flags.dma then [.stopDma r] else []) c s (if c.flags.dma then stopDma s else s) := by
  by_cases hd : c.flags.dma = true
  · simp only [if_pos hd]
    exact ⟨_, h.works_logs [.stopDma (scriptHead (Result.byNumber (Config.freeResult s.env.drawn)) s.env.stopDma)]
      (stopDma s).env⟩
  · simp only [if_neg hd]
    exact ⟨.noError, .refl h⟩

/-- A timeout comes to the completion by way of the DMA stop and the status phase; the record carries its result already
(P338, R270). -/
theorem handleTimeout_works (dn : State → State) (h : s.Serving id c) :
    ∃ (t : State) (st er : Byte) (v : ReadValues) (r : Result),
      handleTimeout dn s = completeIO dn .timeout t
      ∧ Works id ((if c.flags.dma then [.stopDma r] else []) ++ [.r8 .statcmd st, .r8 .errfeat er]
            ++ captureEvents c.toDesc (nIenNow s) v)
          { withStatus c st er v with state := phComplete, result := .timeout } s t := by
  obtain ⟨r, w⟩ := stopDmaIfDma_works h
  have hirq : nIenNow (if c.flags.dma then stopDma s else s) = nIenNow s := by
    obtain ⟨-, hirq, -⟩ := w.fields
    rw [nIenNow, hirq, nIenNow]
  have wres := w.modCur h (fun c => { c with result := .timeout })
  rw [modCur_some id _ _ (w.serving h).current] at wres
  obtain ⟨er, v, wst, -⟩ := statusPhase_works .timeout (wres.serving h)
  refine ⟨_, _, er, v, r, ?_, (wres.trans wst).congr ?_ rfl⟩
  · unfold handleTimeout
    rw [h.current]
    dsimp only
    rw [h.cmd]
  · rw [← List.append_assoc, ← hirq]
    rfl

/-- A delivery with the result that the record already carries is that of a record without a result (R180). -/
theorem completed_unset (h : s.Serving id c) (hx : c.result = x) :
    completed id x s = completed id x (s.modCur (fun c => { c with result := .unset })) := by
  have hkept : deliveredAs x c = deliveredAs x { c with result := .unset } := by
    simp [deliveredAs, delivered, hx]
  have hcmd := modCmd_cmd_same id (fun c => { c with result := .unset }) s h.stored
  have hcmds : (s.modCmd id (fun c => { c with result := .unset })).cmds.modify id (deliveredAs x)
      = s.cmds.modify id (deliveredAs x) := by
    rw [State.modCmd, List.modify_modify_eq, h.modify, h.modify, hkept]
    rfl
  rw [modCur_some id _ _ h.current, completed, completed, hcmds, hcmd, h.cmd, hkept]
  rfl

/-- EXPIRE of a running command, its deadline reached: what `handleTimeout` makes of it, the timer being off (R336). -/
theorem exec_expire_runs (hrun : s.Running id) (he : expireEnabled s = true) :
    exec .expire s = .next { handleTimeout dispatchNext { s with timer := { s.timer with armed := false } } with
      ret := .nothing } := by
  have hbr : (expireEntry s).breach = none := (expireEntry_noBreach s hrun.host).2.trans hrun.breach
  have hexec : exec .expire s = execExpire s := rfl
  rw [hexec, execExpire, if_pos he]
  exact guarded_next (t := { expireEntry s with ret := .nothing }) (hostBreach_running hrun) hbr

/-- Switching the timer off is no work for the command: `Onward` leaves the timer free. -/
theorem State.Running.disarmed (h : s.Running id) :
    s.Onward id (s.cmd id) [] { s with timer := { s.timer with armed := false } } :=
  have k := h.onward
  ⟨⟨h.current, h.stored, rfl⟩, ⟨rfl, rfl, rfl, rfl, rfl, rfl, rfl, rfl, rfl, rfl, k.same.others⟩, k.did, rfl, rfl, rfl⟩

end Sys2Proof.Machine

namespace Sys2Proof.Proofs

open Sys2Proof.Machine

/-- Settles O44: the timeout comes to the completion (`handleTimeout_works`), which delivers the command to a silent host
with the result that the timeout had given it (`completed_unset`). -/
theorem expireEndsCommand : Obligations.ExpireEndsCommand := by
  intro s id hrun harm hdue
  have hoff := hrun.disarmed
  obtain ⟨t, st, er, v, r', hends, w⟩ := handleTimeout_works dispatchNext hoff.serving
  have hserve := w.serving hoff.serving
  have hdone := hoff.work w
  have hhost : t.host = [] := hdone.same.host.trans hrun.host
  have hexec := exec_expire_runs hrun ((expireEnabled_iff s).mpr ⟨harm, hdue⟩)
  have wunset := w.modCur hoff.serving (fun c => { c with result := .unset })
  obtain ⟨r, hfin, hsame, hdid, hcmd⟩ := (hoff.work wunset).delivered rfl hrun.queue .timeout .nothing
  rw [hends, completeIO_silent _ _ hserve.current hserve.stored hhost,
    dispatchNext_quiet (s := completed id .timeout t) (hdone.queue.trans hrun.queue) hhost,
    completed_unset hserve rfl] at hexec
  obtain ⟨hsel, hirq, hnow, hmem, hdbuf, -, -⟩ := wunset.fields
  exact ⟨_, st, er, v, r, r', hexec, hfin, hsame, hdid, hcmd, hsel, hirq, hnow,
    fun k => congrArg (Memory.get · k) hmem, hdbuf⟩

/-- Settles O51: what starts and stops the timer writes its fields and one event each (`startTimer_eq`); a disarmed timer
does not admit EXPIRE (`notAdmitted`), whose condition is `checkTimeout` (`expireEnabled_iff`). -/
theorem timerOperations : Obligations.TimerOperations := fun d s =>
  ⟨startTimer_eq d s, rfl, notAdmitted.1 (stopTimer s) (.inl rfl), expireEnabled_iff s⟩

end Sys2Proof.Proofs
end

section
/-! The IRQs that run no step: one with interrupts disabled is dropped (O36), one with no command to advance is only
acknowledged (O37). -/

namespace Sys2Proof.Machine

variable {s : State}

/-- The commands that an IRQ passes over (P360, R360 c). -/
theorem irqAdvances_eq_false_iff (c : Command) : irqAdvances c = false ↔
    c.flags.noirq = true ∨ isExecOp c.opcode = false ∨ c.state = phComplete := by
  simp only [irqAdvances, Bool.and_eq_false_iff, Bool.not_eq_false', bne_eq_false_iff_eq, or_assoc]

/-- The IRQs that run no step (R360 a, b, c). -/
theorem irqRuns_eq_false_iff (s : State) : irqRuns s = false ↔
    s.irqEn = false ∨ ∀ id, s.current = some id → irqAdvances (s.cmd id) = false := by
  rw [irqRuns, Bool.and_eq_false_iff]
  refine or_congr_right ?_
  cases s.current with
  | none => exact iff_of_true rfl (fun _ h => nomatch h)
  | some id => exact ⟨fun h k hk => Option.some.inj hk ▸ h, fun h => h id rfl⟩

/-- An IRQ with interrupts disabled does nothing (P360 a). -/
theorem irqEntry_disabled (hen : s.irqEn = false) : irqEntry s = s :=
  if_neg (Bool.eq_false_iff.mp hen)

/-- With interrupts enabled, an IRQ that runs no step reads Status and does nothing else (P360 b, c). -/
theorem irqEntry_enabled_idle (hen : s.irqEn = true) (hidle : irqRuns s = false) :
    irqEntry s = (rd8 .statcmd s).2 := by
  have hskip := ((irqRuns_eq_false_iff s).mp hidle).resolve_left (by simp [hen])
  rw [irqEntry, if_pos hen]
  cases hc : s.current with
  | none => rfl
  | some id => exact if_neg (Bool.eq_false_iff.mp (hskip id hc))

/-- An IRQ that runs no step is not subject to the conditions on a step's host code and waits. -/
theorem exec_irq_idle (hidle : irqRuns s = false) : exec .irq s = .next { irqEntry s with ret := .nothing } := by
  have hexec : exec .irq s = execIrq s := rfl
  rw [hexec, execIrq, if_neg (Bool.eq_false_iff.mp hidle)]

end Sys2Proof.Machine

namespace Sys2Proof.Proofs

open Sys2Proof.Machine

/-- Settles O36: such an IRQ runs no step (`exec_irq_idle`), and reads no register (`irqEntry_disabled`). -/
theorem irqDropped : Obligations.IrqDropped := by
  intro s hen
  rw [exec_irq_idle ((irqRuns_eq_false_iff s).mpr (.inl hen)), irqEntry_disabled hen]

/-- Settles O37: the current command, if there is one, is one that IRQ passes over (`irqAdvances_eq_false_iff`), so all that
is done is the acknowledging read (`irqEntry_enabled_idle`). -/
theorem irqAcknowledged : Obligations.IrqAcknowledged := by
  intro s hen hcur
  have hidle : irqRuns s = false := (irqRuns_eq_false_iff s).mpr
    (.inr fun id hc => (irqAdvances_eq_false_iff (s.cmd id)).mpr (hcur id hc))
  rw [exec_irq_idle hidle, irqEntry_enabled_idle hen hidle]
  rfl

end Sys2Proof.Proofs
end

section
/-! Who writes the device table (O59): of the ways an instruction can answer (`Answers`) only SCAN and CONFIG, and SCAN only
with no command current. -/

namespace Sys2Proof.Proofs

open Sys2Proof.Machine

/-- Settles O59. Every other instruction only runs commands, and nothing a command does, a whole-bus reset and its callouts
included, writes the device table (`answers_acted`); a current command does not admit SCAN (`notAdmitted`). -/
theorem devInfoWriters : Obligations.DevInfoWriters := by
  obtain ⟨-, hscan, -⟩ := notAdmitted
  refine ⟨fun i s t hs hc h => ?_, fun s id hcur => hscan s (.inl ?_)⟩
  · have hacted : Acted s t := answers_acted (exec_answers h) hs hc
    exact ⟨hacted.devInfo0, hacted.devInfo1⟩
  · simp [hcur]

end Sys2Proof.Proofs
end

section
/-! What a step runs (O6): the head of the inbox, decoded, after the acts outside the gate. -/

namespace Sys2Proof.Machine

/-- The image of a table word has its write-back words as the host must initialise them (W5, R407). -/
theorem writeBackInitialised_tableImage (n w : Nat) : writeBackInitialised (tableImage n w) = true := by
  have htail : ∀ k, byteAt (tableImage n w) (68 + k)
      = byteAt [0#8, 0xFF#8, 0#8, 0#8, 0#8, 0#8, 0#8, 0#8, 0#8, 0#8, 0#8, 0#8] k := fun k => by
    have hlen : ((List.range 68).map (fun j => BitVec.ofNat 8 ((w % 2 ^ n) >>> (8 * j)))).length = 68 := by simp
    unfold byteAt tableImage
    rw [List.getD_append_right _ _ _ _ (by omega), hlen, Nat.add_sub_cancel_left]
  unfold writeBackInitialised wordAt
  rw [htail 1, htail 4, htail 5, htail 6, htail 7, htail 8]
  decide

section Admission

variable {s : State} {a : Admission} {rest : List Admission} {i : Instr}

/-- A step that admits an instruction runs it after the acts outside the gate (R90, R9). -/
theorem step_admits {t : State} (hi : s.inbox = a :: rest) (hd : decode a.format a.bytes = .ok i)
    (hw : imageInitialised a = true) (ht : outsideActs a.acts s = .ok t) : step s = exec i (t.admitting a rest) := by
  unfold step
  simp only [hi, hd, hw, if_true, ht]

/-- An act that the spec excludes refuses the step (U4; entry 22). -/
theorem step_refuses {r : Refusal} (hi : s.inbox = a :: rest) (hd : decode a.format a.bytes = .ok i)
    (hw : imageInitialised a = true) (hr : outsideActs a.acts s = .error r) : step s = .refused r := by
  unfold step
  simp only [hi, hd, hw, if_true, hr]

end Admission

theorem decodeTableWord_some {n w : Nat} {i : Instr} (h : decodeTableWord n w = some i) :
    decode .descriptor (tableImage n w) = .ok i := by
  unfold decodeTableWord at h
  split at h
  · next j hj => rw [hj, Option.some.inj h]
  · cases h

/-- A word placed first in the inbox is run in the state it was placed in (entry 7). -/
theorem step_withFetchWord {s : State} {n w : Nat} {i : Instr} (h : decodeTableWord n w = some i) :
    step (s.withFetchWord n w) = exec i s :=
  step_admits (s := s.withFetchWord n w) (t := s.withFetchWord n w) (a := ⟨[], 0, .descriptor, tableImage n w⟩) rfl
    (decodeTableWord_some h) (writeBackInitialised_tableImage n w) rfl

/-- With nothing to admit a step changes nothing. -/
theorem step_nothing {s : State} (h : s.inbox = []) : step s = .next s := by
  unfold step
  rw [h]

end Sys2Proof.Machine

namespace Sys2Proof.Proofs

open Sys2Proof.Machine

/-- Settles O6: an admission is its acts and then its instruction (`step_admits`), a placed word an admission without
acts (`step_withFetchWord`). -/
theorem stepRunsDecoded : Obligations.StepRunsDecoded := by
  refine ⟨fun s a rest i hi hd hw => ⟨fun ha => step_admits hi hd hw (by rw [ha]; rfl), fun t ht => ?_, fun r hr => ?_⟩,
    fun s n w i h => step_withFetchWord h, fun s h => step_nothing h⟩
  · exact step_admits hi hd hw ht
  · exact step_refuses hi hd hw hr

end Sys2Proof.Proofs
end

section
/-! Every step keeps a trace with exactly one barrier after each register access (O56, R75). -/

namespace Sys2Proof.Machine

/-- A reset empties the trace; the other acts outside the gate leave it alone (R400). -/
theorem outsideAct_barred {a : OutsideAct} {s t : State} (h : outsideAct a s = .ok t)
    (w : barredRev s.traceRev = true) : barredRev t.traceRev = true := by
  obtain rfl | ⟨b, rfl⟩ | ⟨k, bs, rfl⟩ | ⟨d, rfl⟩ | ⟨id, d, -, -, rfl⟩ := outsideAct_ok h
  case inl => exact rfl
  all_goals exact w

end Sys2Proof.Machine

namespace Sys2Proof.Proofs

open Sys2Proof.Machine

/-- Settles O56: what an instruction adds to the trace has its barriers (`Traced.barred`), and outside the gate nothing is
added. -/
theorem stepKeepsBarriers : Obligations.StepKeepsBarriers :=
  ⟨fun _ => rfl, fun _ _ hs h => step_keeps (fun _ _ _ => outsideAct_barred) (fun _ _ _ w => w)
    (fun _ _ _ ha => (answers_recorded ha).traced.barred) hs h⟩

end Sys2Proof.Proofs
end

section
/-! What a descriptor row comes to on an idle engine (O13): the submission of a stored record (`submitRef_settles`), of the
record that the host has just made; and that only an asynchronous ExecIO is left waiting. -/

namespace Sys2Proof.Machine

/-! ## A new record on an idle engine -/

theorem State.Idle.append {s : State} (h : s.Idle) (c : Command) : State.Idle { s with cmds := s.cmds ++ [c] } :=
  ⟨h.bus, h.qstate, h.current, h.queue, h.armed, h.host, h.breach⟩

theorem ready_append {d : Desc} {s : State} (hl : d.legal = true) :
    State.Ready s.cmds.length { s with cmds := s.cmds ++ [Command.fresh d] } :=
  ready_of_fresh (by simp) (by simp [State.cmd]) hl

/-- What is as before the record was made too, but for that record. -/
theorem State.SameBut.of_append {c : Command} {s t : State}
    (h : State.SameBut s.cmds.length { s with cmds := s.cmds ++ [c] } t) : s.SameBut s.cmds.length t :=
  ⟨h.qstate, h.igate, h.snap, h.devInfo0, h.devInfo1, h.params, h.bufs, h.host, h.breach, h.inbox, fun k hk hl =>
    (h.others k hk (by simp; omega)).trans (cmd_append c hl)⟩

/-! ## Which commands wait -/

/-- With nothing queued and a silent host, a delivery leaves the bus Free (P180, R170). -/
theorem complete_frees (res : Result) {u : State} (hl : u.Live) (hq : u.queue = []) (hh : u.host = []) :
    (completeIO dispatchNext res u).bus = .free := by
  obtain ⟨id, hc, hstored⟩ := hl
  have hquiet : dispatchNext (completed id res u) = completed id res u := dispatchNext_quiet hq hh
  rw [completeIO_silent dispatchNext res hc hstored hh, hquiet]
  rfl

/-- So the bus is Free after every ending but that of a command that waits. -/
theorem ending_frees {e : Ending} (hl : e.start.Live) (hq : e.start.queue = []) (hh : e.start.host = []) :
    e = .waits e.start ∨ (e.run dispatchNext).bus = .free := by
  have hcomplete : ∀ res {v : State}, v.Live → v.queue = [] → v.host = [] →
      (completeIO dispatchNext res (setPhase phComplete v)).bus = .free := fun res v kl kq kh =>
    have k := setPhase_handled phComplete v
    complete_frees res (k.live kl) (k.queue.trans kq) (k.host.trans kh)
  cases e with
  | waits u => exact .inl rfl
  | delivers res u => exact .inr (complete_frees res hl hq hh)
  | resets ev about res u =>
    refine .inr ?_
    show (completeIO dispatchNext res (setPhase phComplete (notifyEvent dispatchNext ev about u))).bus = .free
    rw [notifyEvent_silent dispatchNext ev about (t := u) hh]
    exact hcomplete res hl hq hh
  | flushes u =>
    refine .inr ?_
    show (completeIO dispatchNext .noError (setPhase phComplete
      (cancelAll dispatchNext u.queue { u with queue := [] }))).bus = .free
    rw [show u.queue = [] from hq]
    exact hcomplete .noError (v := { u with queue := [] }) hl rfl hh

/-- A new command that an idle engine does not end with was only worked for: nothing but its own handler ran (R170). -/
theorem submitNew_waits {d : Desc} {s : State} (h : s.Idle) (hb : (submitNew dispatchNext d s).bus = .busy) :
    Handled (launched d s) (submitNew dispatchNext d s) := by
  have hrun : submitNew dispatchNext d s = runHandler dispatchNext (launched d s) :=
    submitNew_head h.bus h.qstate (.inl h.queue) (by rw [h.queue]; nofun)
  obtain ⟨e, hstart, -, hends⟩ := runHandler_ends (launched d s)
  rw [hrun, hends] at hb ⊢
  rcases ending_frees (hstart.live (launched_live d s)) (hstart.queue.trans h.queue) (hstart.host.trans h.host)
    with hwaits | hfree
  · rw [hwaits]
    exact hstart
  · rw [hfree] at hb
    cases hb

/-- A new command that waits on an idle engine is an ExecIO, submitted as an asynchronous one (R335, R171). -/
theorem submitNew_waiting {d : Desc} {s : State} (h : s.Idle) (hl : d.legal = true)
    (hw : (submitNew dispatchNext d s).Waiting s.cmds.length) :
    isExecOp ((submitNew dispatchNext d s).cmd s.cmds.length).opcode = true ∧ d.flags.noirq = false := by
  obtain ⟨hn, -, -⟩ := submitNew_nested (dispatchNext_dispatches _) h.arbiter hl le_rfl
  have hprog : (submitNew dispatchNext d s).InProgress := (hn.free h.bus).resolve_left fun hfree => by
    rw [hw.bus] at hfree
    cases hfree
  obtain ⟨-, -, hexec, hasync, -⟩ := hprog.current _ hw.current
  have hflags := ((submitNew_waits h hw.bus).order s.cmds.length).flags
  rw [← cur_some _ _ (launched_current d s), launched_cur] at hflags
  rw [hflags] at hasync
  exact ⟨hexec, (Bool.or_eq_false_iff.mp hasync).1⟩

end Sys2Proof.Machine

namespace Sys2Proof.Proofs

open Sys2Proof.Machine

/-- Settles O13: the row submits the record just made, which settles as a stored one does (`submitRef_settles`); where it
waits it is an asynchronous ExecIO (`submitNew_waiting`). -/
theorem submissionSettles : Obligations.SubmissionSettles := by
  intro d e i s _ he h ha
  have hl := accepts_legal ha
  have hi := h.append (Command.fresh e)
  have hr := ready_append (s := s) hl
  have hsame := (submitRef_sameBut hi hr).of_append
  have hlength := (submitRef_length hi.arbiter hr hi.unreused h.host).trans (List.length_append ..)
  obtain ⟨es, htrace, hsettled⟩ := submitRef_settles hi hr
  have hwaiting := submitNew_waiting (d := e) h hl
  have hexec := exec_commandRow he s
  rw [submitRow, if_pos ha] at hexec
  unfold submitNew at hwaiting hexec
  generalize submitRef dispatchNext s.cmds.length { s with cmds := s.cmds ++ [Command.fresh e] } = t at *
  have hnext := guarded_next (t := { t with ret := .status .noError }) (hostBreach_quiet h.breach h.current h.queue)
    (hsame.breach.trans h.breach)
  refine ⟨_, es, hexec.trans hnext, rfl, ?_, hlength, htrace, ?_⟩
  · obtain ⟨h1, h2, h3, h4, h5, h6, h7, h8, h9, h10, h11⟩ := hsame
    exact ⟨h1, h2, h3, h4, h5, h6, h7, h8, h9, h10, h11⟩
  · rcases hsettled with ⟨hw, hcalled, huse⟩ | ⟨hf, hcalled, hdone⟩
    · obtain ⟨hop, hasync⟩ := hwaiting hw
      exact .inl ⟨⟨hw.bus, hw.current, hw.queue, hw.armed⟩, hcalled, huse, hop, hasync⟩
    · exact .inr ⟨⟨hf.bus, hf.current, hf.queue, hf.armed⟩, hcalled, hdone⟩

end Sys2Proof.Proofs
end

section
/-! The bytes of a buffer that no PIO read names (O60): work for a command changes at most the bytes of its own buffer
(`Filled`), and host code and nested dispatches only run commands of the store and of the script. -/

namespace Sys2Proof.Machine

variable {b : Word}

/-! ## Harmless states -/

/-- From record `c` to `c'` no PIO read into buffer `b` came up, and the counts stayed in bounds. -/
structure StaysHarmless (b : Word) (c c' : Command) : Prop where
  reads  : readsInto b c.toDesc = false → readsInto b c'.toDesc = false
  counts : countsWf c → countsWf c'

/-- No record, and no submission of the host's script, is a PIO read into buffer `b`; what is queued may be run. -/
structure State.Harmless (b : Word) (s : State) : Prop where
  stores  : s.StoresWf
  records : ∀ k, readsInto b (s.cmd k).toDesc = false
  script  : ∀ hs ∈ s.host, ∀ x ∈ hs, readsInto b x.desc = false
  queued  : ∀ id ∈ s.queue, id < s.cmds.length ∧ countsWf (s.cmd id)

/-- From `s`, if nothing there reads into buffer `b`, to `t`: so it is in `t`, and every byte of `b` is as before. -/
def Spares (b : Word) (s t : State) : Prop :=
  s.Harmless b → t.Harmless b
    ∧ ∀ off < 2 ^ 32, Memory.get t.mem (Memory.addr b off) = Memory.get s.mem (Memory.addr b off)

theorem StaysHarmless.refl (c : Command) : StaysHarmless b c c := ⟨id, id⟩

/-- A change that the buffer, the direction and the counts do not see. -/
theorem StaysHarmless.of_eq {c c' : Command} (hr : readsInto b c'.toDesc = readsInto b c.toDesc)
    (hc : countsWf c' = countsWf c) : StaysHarmless b c c' :=
  ⟨fun h => hr.trans h, fun h => hc.mpr h⟩

/-- A record filled anew by the host. -/
theorem StaysHarmless.fresh {d : Desc} (hl : d.legal = true) (hr : readsInto b d = false) (c : Command) :
    StaysHarmless b c (Command.fresh d) :=
  ⟨fun _ => hr, fun _ => countsWf_fresh rfl hl⟩

theorem SameOrder.staysHarmless {c c' : Command} (h : SameOrder c c') : StaysHarmless b c c' :=
  ⟨fun hr => by rw [readsInto, h.buf, h.flags]; exact hr, h.counts⟩

theorem readsInto_blank (b : Word) : readsInto b Command.blank.toDesc = false := by simp [readsInto, Command.blank]

/-- The current command, if there is one, is a record of the store. -/
theorem State.Harmless.cur {s : State} (w : s.Harmless b) : readsInto b s.cur.toDesc = false := by
  cases hc : s.current with
  | none =>
    simp only [State.cur, hc]
    exact readsInto_blank b
  | some id =>
    rw [cur_some id s hc]
    exact w.records id

theorem State.Harmless.congr {s t : State} (w : s.Harmless b) (hw : t.StoresWf) (hh : ∀ hs ∈ t.host, hs ∈ s.host)
    (hq : ∀ id ∈ t.queue, id ∈ s.queue) (hl : s.cmds.length ≤ t.cmds.length)
    (hc : ∀ k, StaysHarmless b (s.cmd k) (t.cmd k)) : t.Harmless b where
  stores := hw
  records := fun k => (hc k).reads (w.records k)
  script := fun hs hm => w.script hs (hh hs hm)
  queued := fun id hm =>
    have ⟨hst, hcounts⟩ := w.queued id (hq id hm)
    ⟨hst.trans_le hl, (hc id).counts hcounts⟩

theorem Spares.refl (s : State) : Spares b s s := fun w => ⟨w, fun _ _ => rfl⟩

theorem Spares.trans {s t u : State} (h : Spares b s t) (k : Spares b t u) : Spares b s u := fun w => by
  obtain ⟨hw, hmem⟩ := h w
  obtain ⟨kw, kmem⟩ := k hw
  exact ⟨kw, fun off ho => (kmem off ho).trans (hmem off ho)⟩

/-- The bookkeeping of the arbiter, of the records and of the script: the memory is as before. -/
theorem Spares.of_mem {s t : State} (hm : t.mem = s.mem) (hd : t.dbuf = s.dbuf) (hh : ∀ hs ∈ t.host, hs ∈ s.host)
    (hq : ∀ id ∈ t.queue, id ∈ s.queue) (hl : s.cmds.length ≤ t.cmds.length)
    (hc : ∀ k, StaysHarmless b (s.cmd k) (t.cmd k)) : Spares b s t := fun w =>
  ⟨w.congr (by have := w.stores; unfold State.StoresWf at *; rwa [hm, hd]) hh hq hl hc, fun _ _ => by rw [hm]⟩

/-- A change that neither the stores, the records, the queue nor the script sees. -/
theorem Spares.of_eq {s t : State} (hm : t.mem = s.mem) (hd : t.dbuf = s.dbuf) (hh : t.host = s.host)
    (hq : t.queue = s.queue) (hc : t.cmds = s.cmds) : Spares b s t :=
  .of_mem hm hd (fun _ h => hh ▸ h) (fun _ h => hq ▸ h) (by rw [hc]) fun k => by
    unfold State.cmd
    rw [hc]
    exact .refl _

/-! ## Work for the current command -/

theorem Handled.harmless {s t : State} (h : Handled s t) (w : s.Harmless b) : t.Harmless b :=
  w.congr (h.stores w.stores) (fun _ hm => h.host ▸ hm) (fun _ hm => h.queue ▸ hm) h.length.ge
    fun k => (h.order k).staysHarmless

/-- Work that writes no memory. -/
theorem Handled.spares {s t : State} (h : Handled s t) (hm : t.mem = s.mem) : Spares b s t :=
  fun w => ⟨h.harmless w, fun _ _ => by rw [hm]⟩

/-- The bytes of two handles do not overlap (entry 14). -/
theorem addr_outside {c : Word} {pos n off : Nat} (hne : c ≠ b) (hn : pos + n < 2 ^ 32) (ho : off < 2 ^ 32) :
    Memory.addr b off < Memory.addr c pos ∨ Memory.addr c pos + n ≤ Memory.addr b off := by
  unfold Memory.addr
  rcases Nat.lt_or_gt_of_ne (fun e => hne (BitVec.eq_of_toNat_eq e)) with hlt | hgt
  · have := Nat.mul_le_mul_right (2 ^ 32) (Nat.succ_le_of_lt hlt)
    omega
  · have := Nat.mul_le_mul_right (2 ^ 32) (Nat.succ_le_of_lt hgt)
    omega

/-- Work for the current command writes at most its own buffer, and that only for a PIO read (R309, entry 20). -/
theorem Filled.spares {s t : State} (f : Filled s t) : Spares b s t := fun w => by
  refine ⟨f.handled.harmless w, fun off ho => ?_⟩
  by_cases hpio : (s.cur.flags.rd && !s.cur.flags.dma) = true
  · have hbuf : s.cur.buf ≠ b := fun e => by
      have hr := w.cur
      rw [readsInto, Bool.and_assoc, hpio, e, beq_self_eq_true] at hr
      cases hr
    obtain ⟨n, hpos, -, hmem⟩ := f.moved
    have hend := t.cur.position.isLt
    exact hmem w.stores _ (addr_outside hbuf (by omega) ho)
  · rw [f.still (by simpa using hpio)]

theorem setPhase_spares (ph : Byte) (s : State) : Spares b s (setPhase ph s) :=
  (setPhase_handled ph s).spares (setPhase_mem ph s)

theorem registerWrite_mem (s : State) : (registerWrite s).mem = s.mem := by
  rw [registerWrite_logs]
  rfl

/-- A register read stores into its own record only (R276). -/
theorem registerRead_spares {s : State} (hl : s.Live) : Spares b s (registerRead s) := by
  obtain ⟨id, hs⟩ := hl.serving
  obtain ⟨v, w⟩ := registerRead_works hs
  exact (registerRead_handled s).spares w.moves.mem_eq

theorem softResetBus_spares (a : Bool) (s : State) : Spares b s (softResetBus a s).2 := by
  refine (softResetBus_handled a s).spares ((pollStatus_mem _ _ _ _).trans ((sleep_mem _ _).trans ?_))
  unfold resetPulse
  split
  · exact wr8_mem _ _ s
  · rw [writeControl_mem, sleep_mem, wr8_mem]

theorem atapiReset_spares (u : UnitId) (s : State) : Spares b s (atapiReset u s).2 := by
  unfold atapiReset
  split
  · have hselect : Spares b s (wr8 .devhead u.selectValue { s with selected := none }) := .of_eq rfl rfl rfl rfl rfl
    exact hselect.trans (softResetBus_spares true _)
  · exact .refl s

/-! ## Records and the queue -/

theorem modCmd_cmd_cases (id k : Nat) (f : Command → Command) (s : State) :
    (s.modCmd id f).cmd k = s.cmd k ∨ (s.modCmd id f).cmd k = f (s.cmd k) := by
  by_cases hk : k = id
  · subst hk
    by_cases hl : k < s.cmds.length
    · exact .inr (modCmd_cmd_same k f s hl)
    · refine .inl ?_
      rw [State.cmd, State.cmd, List.getD_eq_default _ _ (by rw [modCmd_length]; omega),
        List.getD_eq_default _ _ (by omega)]
  · exact .inl (modCmd_cmd_other id k f s hk)

theorem modCmd_spares (id : Nat) {f : Command → Command} (s : State) (hf : ∀ c, StaysHarmless b c (f c)) :
    Spares b s (s.modCmd id f) :=
  .of_mem rfl rfl (fun _ h => h) (fun _ h => h) (modCmd_length id f s).ge fun k => by
    rcases modCmd_cmd_cases id k f s with he | he <;> rw [he]
    · exact .refl _
    · exact hf _

theorem cmd_append_cases (c : Command) (s : State) (k : Nat) :
    State.cmd { s with cmds := s.cmds ++ [c] } k = s.cmd k ∨ State.cmd { s with cmds := s.cmds ++ [c] } k = c := by
  rcases Nat.lt_trichotomy k s.cmds.length with hk | rfl | hk
  · exact .inl (cmd_append c hk)
  · exact .inr (by simp [State.cmd])
  · refine .inl ((List.getD_eq_default _ _ ?_).trans (List.getD_eq_default _ _ hk.le).symm)
    rw [List.length_append]
    exact hk

/-- The host makes a record. -/
theorem newRecord_spares {d : Desc} (hl : d.legal = true) (hr : readsInto b d = false) (s : State) :
    Spares b s { s with cmds := s.cmds ++ [Command.fresh d] } :=
  .of_mem rfl rfl (fun _ h => h) (fun _ h => h) (by simp) fun k => by
    rcases cmd_append_cases (Command.fresh d) s k with he | he <;> rw [he]
    · exact .refl _
    · exact .fresh hl hr _

/-- A stored command whose counts are in bounds is queued (R162, R164). -/
theorem queuedUp_spares {id : Nat} {s : State} (hl : id < s.cmds.length) (hw : countsWf (s.cmd id)) :
    Spares b s (queuedUp id s) := by
  have hmark : Spares b s (s.modCmd id (fun c => { c with inUse := true, state := phInitial })) :=
    modCmd_spares id s fun _ => .of_eq rfl rfl
  refine hmark.trans fun w => ⟨⟨?_, ?_, ?_, fun k hk => ?_⟩, ?_⟩
  · unfold State.StoresWf queuedUp
    rw [enqueue_mem, enqueue_dbuf]
    exact w.stores
  · intro k
    rw [queuedUp, enqueue_cmd]
    exact w.records k
  · rw [queuedUp, enqueue_host]
    exact w.script
  · rw [queuedUp, enqueue_cmds, enqueue_cmd]
    rcases mem_enqueue.mp hk with rfl | hm
    · rw [modCmd_length, modCmd_cmd_same _ _ _ hl]
      exact ⟨hl, hw⟩
    · exact w.queued k hm
  · intro off _
    rw [queuedUp, enqueue_mem]

theorem headTaken_spares {id : Nat} {rest : List Nat} {s : State} (hq : s.queue = id :: rest) :
    Spares b s (headTaken id rest s) := by
  have htake : Spares b s { s with bus := .busy, queue := rest, current := some id } :=
    .of_mem rfl rfl (fun _ h => h) (fun _ hm => hq ▸ List.mem_cons_of_mem _ hm) le_rfl fun _ => .refl _
  exact htake.trans (modCmd_spares id _ fun _ => .of_eq rfl rfl)

theorem emit_spares (e : Event) (s : State) : Spares b s (s.emit e) := .of_eq rfl rfl rfl rfl rfl

/-- A delivery before its callback (R180). -/
theorem finish_spares (id : Nat) (res : Result) (s : State) : Spares b s (finish id res s) := by
  have hrecord : Spares b s (s.modCmd id (deliveredAs res)) :=
    modCmd_spares id s fun _ => .of_eq rfl rfl
  exact hrecord.trans (.of_eq rfl rfl rfl rfl (finish_cmds id res s))

/-! ## Host code -/

section Nested

variable {dn : State → State} (hd : ∀ s, Spares b s (dn s))

include hd

theorem submitRef_spares {id : Nat} {s : State} (hl : id < s.cmds.length) (hw : countsWf (s.cmd id)) :
    Spares b s (submitRef dn id s) := by
  rw [submitRef_eq]
  exact (queuedUp_spares hl hw).trans (hd _)

theorem submitNew_spares {d : Desc} (hl : d.legal = true) (hr : readsInto b d = false) (s : State) :
    Spares b s (submitNew dn d s) :=
  have hready := ready_append (s := s) hl
  (newRecord_spares hl hr s).trans (submitRef_spares hd hready.stored hready.counts)

/-- A nested submission is of a legal descriptor, or refused (R160). -/
theorem submitOne_spares {x : HostSubmit} (hr : readsInto b x.desc = false) (s : State) :
    Spares b s (submitOne dn x s) := by
  unfold submitOne
  split
  · exact .of_eq rfl rfl rfl rfl rfl
  next hb =>
  obtain ⟨hreuse, hacc⟩ := nestedBreach_none hb
  have hl := accepts_legal hacc
  split
  · next id hid =>
    obtain ⟨hst, -⟩ := hreuse id hid
    have hready : (s.refill id x.desc).Ready id :=
      ready_of_fresh ((modCmd_length _ _ _).symm ▸ hst) (modCmd_cmd_same _ _ _ hst) hl
    exact (modCmd_spares id s fun c => .fresh hl hr c).trans (submitRef_spares hd hready.stored hready.counts)
  · exact submitNew_spares hd hl hr s

theorem submitAll_spares {hs : List HostSubmit} (hr : ∀ x ∈ hs, readsInto b x.desc = false) (s : State) :
    Spares b s (submitAll dn hs s) := by
  induction hs generalizing s with
  | nil => exact .refl s
  | cons x xs ih =>
    have hfirst := submitOne_spares hd (hr x List.mem_cons_self) s
    exact hfirst.trans (ih (fun y hy => hr y (List.mem_cons_of_mem _ hy)) _)

/-- What a host call submits was in the script (U11). -/
theorem hostCall_spares (s : State) : Spares b s (hostCall dn s) := fun w => by
  unfold hostCall
  split
  · exact Spares.refl s w
  · next hs rest hhost =>
    have htake : Spares b s { s with host := rest } :=
      .of_mem rfl rfl (fun _ hm => hhost ▸ List.mem_cons_of_mem _ hm) (fun _ h => h) le_rfl fun _ => .refl _
    exact htake.trans (submitAll_spares hd (w.script hs (hhost ▸ List.mem_cons_self)) _) w

theorem callback_spares (id : Nat) (s : State) : Spares b s (callback dn id s) :=
  (emit_spares _ s).trans (hostCall_spares hd _)

theorem notifyIf_spares (a : Bool) (u : UnitId) (ev : EvKind) (about : Option UnitId) (s : State) :
    Spares b s (notifyIf a dn u ev about s) := by
  unfold notifyIf
  split
  · exact (emit_spares _ s).trans (hostCall_spares hd _)
  · exact .refl s

theorem completeIO_spares (res : Result) (s : State) : Spares b s (completeIO dn res s) := by
  unfold completeIO
  split
  · exact .refl s
  · exact ((finish_spares _ res s).trans (callback_spares hd _ _)).trans (hd _)

theorem notifyEvent_spares (ev : EvKind) (about : Option UnitId) (s : State) :
    Spares b s (notifyEvent dn ev about s) := by
  have henter : Spares b s (enterCallout s) := .of_eq rfl rfl rfl rfl rfl
  have hleave : ∀ t, Spares b t (leaveCallout t) := fun t =>
    .of_eq (by simp) (by simp) (by simp) (by simp) (by simp)
  exact ((henter.trans (notifyIf_spares hd _ _ _ _ _)).trans (notifyIf_spares hd _ _ _ _ _)).trans (hleave _)

theorem cancelAll_spares (vs : List Nat) (s : State) : Spares b s (cancelAll dn vs s) := by
  induction vs generalizing s with
  | nil => exact .refl s
  | cons v vs ih =>
    have hvictim : Spares b s (s.modCmd v cancelled) := modCmd_spares v s fun _ => .of_eq rfl rfl
    rw [cancelAll_cons]
    exact (hvictim.trans (callback_spares hd v _)).trans (ih _)

/-! ## The handlers -/

theorem complete_spares (res : Result) (s : State) : Spares b s (completeIO dn res (setPhase phComplete s)) :=
  (setPhase_spares _ s).trans (completeIO_spares hd res _)

/-- A step of an asynchronous command (P246). -/
theorem asyncIO_spares {s : State} (hl : s.Live) (hw : countsWf s.cur) (hp : phaseWf s.cur) :
    Spares b s (asyncIO dn s) := by
  have hstep : Spares b s (phaseStep s).2 := (phaseStep_filled hl hw hp).spares
  unfold asyncIO
  dsimp only
  split
  · exact hstep.trans (completeIO_spares hd _ _)
  · exact hstep

/-- A synchronous command, run to its delivery (P247). -/
theorem synchronousIO_spares {s : State} (hl : s.Live) (hw : countsWf s.cur) (hp : phaseWf s.cur) :
    Spares b s (synchronousIO dn s) := by
  have hctl := writeControl_handled ctlNIen s
  have hcur := hctl.cur_eq (writeControl_cmds ctlNIen s)
  have hloop := syncLoop_filled (deadlineSleeps (writeControl ctlNIen s)) (hctl.live hl) (by rwa [hcur])
    (by rwa [hcur])
  exact ((hctl.spares rfl).trans hloop.spares).trans (completeIO_spares hd _ _)

theorem selectionFailed_spares (s : State) : Spares b s (selectionFailed dn s) := by
  unfold selectionFailed
  split
  · exact complete_spares hd _ s
  · exact (setPhase_spares _ s).trans ((startTimer_handled _ _).spares (startTimer_mem _ _))

/-- An ExecIO (P242): its selection moves no data, so its first step starts from the command as dispatched. -/
theorem handleExecIO_spares {s : State} (hl : s.Live) (hw : countsWf s.cur) (hp : phaseWf s.cur) :
    Spares b s (handleExecIO dn s) := by
  have hsel := selectDevice_filled s.cur.unit s
  have hstart := hsel.trans (.of_cmds (startTimer_handled (timeoutUs s.cur) (selectDevice s.cur.unit s).2)
    (startTimer_mem _ _) (startTimer_cmds _ _))
  have hlive := hstart.handled.live hl
  have hcur := hstart.handled.cur_eq (by rw [startTimer_cmds, selectDevice_cmds])
  unfold handleExecIO
  dsimp only
  split
  · exact hsel.spares.trans (selectionFailed_spares hd _)
  split
  · exact hstart.spares.trans (synchronousIO_spares hd hlive (by rwa [hcur]) (by rwa [hcur]))
  · exact hstart.spares.trans (asyncIO_spares hd hlive (by rwa [hcur]) (by rwa [hcur]))

theorem handleRegAccess_spares {s : State} (hl : s.Live) : Spares b s (handleRegAccess dn s) := by
  have hsel := selectDevice_filled s.cur.unit s
  unfold handleRegAccess
  dsimp only
  refine Spares.trans ?_ (complete_spares hd _ _)
  split
  · split
    · exact hsel.spares.trans ((registerWrite_handled _).spares (registerWrite_mem _))
    · exact hsel.spares.trans (registerRead_spares (hsel.handled.live hl))
  · exact hsel.spares

theorem handleBusReset_spares (s : State) : Spares b s (handleBusReset dn s) := by
  have hend : ∀ ev about (r : Result × State), Spares b r.2 (finishReset dn ev about r) := fun ev about r =>
    (notifyEvent_spares hd ev about r.2).trans (complete_spares hd r.1 _)
  unfold handleBusReset
  split
  · split
    · exact complete_spares hd _ s
    · exact (atapiReset_spares _ s).trans (hend _ _ _)
  · exact (softResetBus_spares false s).trans (hend _ _ _)

theorem handleQueueFlush_spares (s : State) : Spares b s (handleQueueFlush dn s) := by
  have hempty : Spares b s { s with queue := [] } := .of_mem rfl rfl (fun _ h => h) nofun le_rfl fun _ => .refl _
  exact (hempty.trans (cancelAll_spares hd s.queue _)).trans (complete_spares hd _ _)

/-- Every handler (R140). -/
theorem runHandler_spares {s : State} (hl : s.Live) (hw : countsWf s.cur) (hp : phaseWf s.cur) :
    Spares b s (runHandler dn s) := by
  unfold runHandler
  split
  · exact handleExecIO_spares hd hl hw hp
  split
  · exact handleRegAccess_spares hd hl
  split
  · exact handleBusReset_spares hd s
  split
  · exact handleQueueFlush_spares hd s
  · exact complete_spares hd _ s

/-! ## Dispatch -/

/-- What is queued is stored and starts in Started, its counts in bounds (P170, R171). -/
theorem dispatchStep_spares (s : State) : Spares b s (dispatchStep dn s) := fun w => by
  by_cases hcan : canDispatch s = true
  case neg =>
    rw [dispatchStep_blocked hcan]
    exact Spares.refl s w
  cases hq : s.queue with
  | nil =>
    rw [dispatchStep_nil hcan hq]
    exact Spares.refl s w
  | cons id rest =>
    obtain ⟨hst, hcounts⟩ := w.queued id (hq ▸ List.mem_cons_self)
    have hcur : (headTaken id rest s).cur = onDispatch (s.qstate == .locked) (s.cmd id) :=
      (cur_some id _ rfl).trans (headTaken_cmd_same hst)
    rw [dispatchStep_cons hcan hq]
    refine (headTaken_spares hq).trans (runHandler_spares hd ⟨id, rfl, ?_⟩ ?_ ?_) w
    · rw [headTaken_length]
      exact hst
    · rw [hcur]
      exact hcounts
    · rw [hcur]
      exact phaseWf_started rfl

end Nested

theorem dispatchN_spares (n : Nat) (s : State) : Spares b s (dispatchN n s) := by
  induction n generalizing s with
  | zero => exact .refl s
  | succ n ih => exact dispatchStep_spares ih s

theorem dispatchNext_spares (s : State) : Spares b s (dispatchNext s) := dispatchN_spares _ s

/-! ## The actions -/

theorem Spares.ret {s t : State} (h : Spares b s t) (r : Return) : Spares b s { t with ret := r } :=
  h.trans (.of_eq rfl rfl rfl rfl rfl)

/-- Between gate actions the current command is in a phase of an ExecIO, its counts in bounds (R33). -/
theorem irqEntry_spares {s : State} (h : s.Quiescent) : Spares b s (irqEntry s) := by
  have hread : Spares b s (rd8 .statcmd s).2 := .of_eq rfl rfl rfl rfl rfl
  by_cases hr : irqRuns s = true
  · obtain ⟨id, hc, he⟩ := irqEntry_runs hr
    have h1 := rd8_quiescent .statcmd h
    have hcur := cur_some id (rd8 .statcmd s).2 hc
    obtain ⟨-, -, -, -, hp⟩ := (currentWf_iff _).mp (h1.current id hc)
    have hw := h1.counts id (mem_inFlight.mpr (.inl hc))
    rw [← hcur] at hp hw
    rw [he]
    exact hread.trans (asyncIO_spares dispatchNext_spares (h1.arbiter.live hc) hw hp)
  · rcases irqEntry_idle (Bool.not_eq_true _ ▸ hr) with he | he <;> rw [he]
    · exact .refl s
    · exact hread

/-- A timeout runs only the status phase of its command, then delivers it (P338). -/
theorem handleTimeout_spares {s : State} (hl : ∀ id, s.current = some id → id < s.cmds.length) :
    Spares b s (handleTimeout dispatchNext s) := by
  unfold handleTimeout
  split
  · exact dispatchNext_spares s
  next id hc =>
  have hstop : Handled s (if (s.cmd id).flags.dma then stopDma s else s) ∧
      (if (s.cmd id).flags.dma then stopDma s else s).mem = s.mem := by
    split
    · exact ⟨stopDma_handled s, rfl⟩
    · exact ⟨.refl s, rfl⟩
  generalize (if (s.cmd id).flags.dma then stopDma s else s) = u at hstop
  obtain ⟨hh, hm⟩ := hstop
  have hlive : (u.modCmd id (fun c => { c with result := .timeout })).Live :=
    ⟨id, hh.current.trans hc, by rw [modCmd_length, hh.length]; exact hl id hc⟩
  have hrecord : Spares b u (u.modCmd id (fun c => { c with result := .timeout })) :=
    modCmd_spares id u fun _ => .of_eq rfl rfl
  exact (((hh.spares hm).trans hrecord).trans (statusPhase_filled .timeout hlive).spares).trans
    (completeIO_spares dispatchNext_spares _ _)

theorem scanForDrives_spares (s : State) : Spares b s (scanForDrives s).2 := by
  obtain ⟨p, ⟨tr, now, env, irq, -, rfl⟩, he⟩ := scanForDrives_cases s
  split at he
  · obtain ⟨ty0, ty1, he⟩ := he
    rw [he]
    exact .of_eq rfl rfl rfl rfl rfl
  · rw [he]
    exact .of_eq rfl rfl rfl rfl rfl

/-- Every instruction that itself names no PIO read into the buffer. -/
theorem answers_spares {i : Instr} {s t : State} (h : Answers i s t) (hs : s.Quiescent)
    (hi : ∀ d, i.desc = some d → readsInto b d = false) : Spares b s t := by
  cases h with
  | row hrow _ ha _ => exact (submitNew_spares dispatchNext_spares (accepts_legal ha) (hi _ hrow) s).ret _
  | submitNull => exact (Spares.refl s).ret _
  | submitStored _ hl hu hn ha _ =>
    exact (submitRef_spares dispatchNext_spares hl (ready_of_accepted hl hu hn ha).counts).ret _
  | irqRuns => exact (irqEntry_spares hs).ret _
  | irqIdle => exact (irqEntry_spares hs).ret _
  | expire =>
    have hoff : Spares b s { s with timer := { s.timer with armed := false } } := .of_eq rfl rfl rfl rfl rfl
    exact (hoff.trans (handleTimeout_spares fun id hc => hs.arbiter.current_stored hc)).ret _
  | scan => exact (scanForDrives_spares s).ret _
  | config => exact (Spares.of_eq (setDevInfo_mem _ _ s) (setDevInfo_dbuf _ _ s) (setDevInfo_host _ _ s)
      (setDevInfo_queue _ _ s) (setDevInfo_cmds _ _ s)).ret _

/-- The premises of isolation, between gate actions. -/
theorem State.Quiescent.harmless {s : State} (h : s.Quiescent) (hw : s.StoresWf)
    (hc : ∀ c ∈ s.cmds, readsInto b c.toDesc = false) (hh : ∀ hs ∈ s.host, ∀ x ∈ hs, readsInto b x.desc = false) :
    s.Harmless b where
  stores := hw
  records := fun k => by
    by_cases hk : k < s.cmds.length
    · rw [State.cmd, List.getD_eq_getElem _ _ hk]
      exact hc _ (List.getElem_mem hk)
    · rw [State.cmd, List.getD_eq_default _ _ (by omega)]
      exact readsInto_blank b
  script := hh
  queued := fun id hq =>
    have hm := mem_inFlight.mpr (.inr hq)
    ⟨h.owned.2 id hm, h.counts id hm⟩

end Sys2Proof.Machine

namespace Sys2Proof.Proofs

open Sys2Proof.Machine

/-- Settles O60: every instruction spares a buffer that neither it, nor a record, nor the script reads into
(`answers_spares`). -/
theorem memoryIsolation : Obligations.MemoryIsolation := by
  intro i s t b off hw hq ht ho hc hi hh
  obtain ⟨-, hmem⟩ := answers_spares (exec_answers ht) hq hi (hq.harmless hw hc hh)
  exact hmem off ho

end Sys2Proof.Proofs
end
